-- ==== Sys2Proof/Word.lean ====
section
/-! DEFINITION. The plain types every other file uses: the opcode byte, durations, the four lines, and a value for each
of the four lines. Data words, positions and values are mathematical integers (`Int`): 00_scope.md R12, 30_encoding.md R124. -/

namespace Sys2Proof

/-- The 8-bit opcode of a command (30_encoding.md R120, R121). -/
abbrev Opcode := BitVec 8

/-- A duration (00_scope.md R10: "any non-negative duration", unit unstated). DESIGN CHOICE (notes/assumptions/11.md), safe: a
rational number, since the state is plain data. -/
abbrev Duration := { q : Rat // 0 ≤ q }

/-- The four output lines, in the source's port-assignment order (10_state.md R42). -/
inductive Line where
  | sdata   -- line 0, serial data
  | sclk    -- line 1, shift clock
  | lclk    -- line 2, latch clock
  | clrN    -- line 3, clear, active low (R44)
  deriving DecidableEq, Repr

/-- The line's index, 0 to 3 (10_state.md R42). -/
def Line.index : Line → Nat
  | .sdata => 0
  | .sclk => 1
  | .lclk => 2
  | .clrN => 3

/-- One value for each of the four lines: `PINS`, `CLAIMED[0..3]`, `LINE[0..3]` (10_state.md R34). -/
structure Quad (α : Type) where
  sdata : α
  sclk  : α
  lclk  : α
  clrN  : α
  deriving DecidableEq, Repr

end Sys2Proof
end

