-- ==== Sys2Proof/Syntax.lean ====
section
/-! DEFINITION. Commands as the host presents them (30_encoding.md R120) and the instructions they decode to: one constructor
of `Instr` per row of spec/opcode_table.json.

`PinId`, the type of backend pin identifiers, is a parameter of the block (00_scope.md R10: "any type with decidable equality",
OPEN): `Command`, `Instr`, the state and every definition over them take it as an argument. Only where no type is named it is
`Nat`, the type at which `exec`, `step` and the reset state are fixed (DESIGN CHOICE, notes/assumptions/11.md, safe); `execIn` and
`stepIn` (Sys2Proof/Machine/AnyPins.lean) are the machine at every other one. -/

namespace Sys2Proof

variable {PinId : Type}

/-- An operand value (00_scope.md R17): an integer, any value that is not an integer, or an omitted optional operand. -/
inductive Arg where
  | int (v : Int)
  | nonInt
  | absent
  deriving DecidableEq, Repr

/-- A Boolean operand is `Int(1)` for true and `Int(0)` for false (00_scope.md R17, D21). PRESUMED by the spec itself (G1,
notes/assumptions/17.md), unsafe. -/
def Arg.ofBool (b : Bool) : Arg := .int (if b then 1 else 0)

/-- A command: a record presented on an idle port (30_encoding.md R120); `pins = none` is `Absent`. -/
structure Command (PinId : Type := Nat) where
  opc  : Opcode
  a    : Arg
  b    : Arg
  pins : Option (Quad PinId)
  deriving DecidableEq, Repr

/-- The five command formats (30_encoding.md R122). -/
inductive Format where
  | n    -- no operand
  | w    -- `a` is a word, required
  | p    -- `a` is a position, required
  | pv   -- `a` is a position and `b` a value, both required
  | i    -- `a` is a chain count, optional; `pins` required
  deriving DecidableEq, Repr

/-- The instructions (30_encoding.md R125, R126, R127), in the order of spec/opcode_table.json. An operand is the `Arg` of its
slot: whether an integer is in range is the instruction's own rule, not the encoding's (R123). -/
inductive Instr (PinId : Type := Nat) where
  | drvCap
  | drvClr
  | drvWr (word : Arg)
  | drvZero
  | bufCap
  | bufClr
  | bufWr (word : Arg)
  | bufChk (pos : Arg)
  | bufGet (pos : Arg)
  | bufSet (pos value : Arg)
  | bufCommit
  | bufGetbuf
  | init (pins : Quad PinId) (count : Arg)
  | fini
  deriving DecidableEq, Repr

/-- Pseudo-command `BUF.ON pos` (30_encoding.md R131). -/
def Instr.bufOn (pos : Arg) : Instr PinId := .bufSet pos (.int 1)

/-- Pseudo-command `BUF.OFF pos` (30_encoding.md R131). -/
def Instr.bufOff (pos : Arg) : Instr PinId := .bufSet pos (.int 0)

/-- Pseudo-command `INIT (p0,p1,p2,p3)`: no chain count given (30_encoding.md R131). -/
def Instr.initDefault (pins : Quad PinId) : Instr PinId := .init pins .absent

end Sys2Proof
end

