-- ==== Sys2Proof/WellFormed.lean ====
section
/-! DEFINITION. Which instructions a command can encode: a required operand slot holds an operand (30_encoding.md R122).
INIT's count is optional, and its pins stand in the type, so INIT is always well formed; that the four pins differ is an
admission check (60_exceptions.md R300), not a matter of form. -/

namespace Sys2Proof

variable {PinId : Type}

/-- A required operand is not omitted. -/
def Arg.present : Arg → Bool
  | .int _ => true
  | .nonInt => true
  | .absent => false

/-- The operand slots that the instruction's format requires are not `Absent` (30_encoding.md R122). -/
def Instr.wellFormed : Instr PinId → Bool
  | .drvCap => true
  | .drvClr => true
  | .drvWr word => word.present
  | .drvZero => true
  | .bufCap => true
  | .bufClr => true
  | .bufWr word => word.present
  | .bufChk pos => pos.present
  | .bufGet pos => pos.present
  | .bufSet pos value => pos.present && value.present
  | .bufCommit => true
  | .bufGetbuf => true
  | .init _ _ => true
  | .fini => true

end Sys2Proof
end

