-- ==== Sys2Proof/Decode.lean ====
section
/-! DEFINITION. From commands to instructions and back (30_encoding.md R121 to R129). Decoding is total: a command is one of
the 14 instructions, or it is rejected by name. -/

namespace Sys2Proof

variable {PinId : Type}

/-- Why a command is no instruction (60_exceptions.md R300, checks 1 and 2). -/
inductive DecodeError where
  | reservedOpcode (opc : Opcode)
  | malformedCommand (opc : Opcode)
  deriving DecidableEq, Repr

/-- The group field `G = opc[7:4]` (30_encoding.md R121). -/
def group (opc : Opcode) : Nat := opc.toNat / 16

/-- The function field `F = opc[3:0]` (30_encoding.md R121). -/
def function (opc : Opcode) : Nat := opc.toNat % 16

/-- The format of each listed opcode; every other opcode is reserved (30_encoding.md R125 to R128). -/
def formatOf (opc : Opcode) : Option Format :=
  match group opc, function opc with
  | 0x0, 0x0 => some .n
  | 0x0, 0x1 => some .n
  | 0x0, 0x2 => some .w
  | 0x0, 0x3 => some .n
  | 0x1, 0x0 => some .n
  | 0x1, 0x1 => some .n
  | 0x1, 0x2 => some .w
  | 0x1, 0x3 => some .p
  | 0x1, 0x4 => some .p
  | 0x1, 0x5 => some .pv
  | 0x1, 0x6 => some .n
  | 0x1, 0x7 => some .n
  | 0xF, 0x0 => some .i
  | 0xF, 0x1 => some .n
  | _, _ => none

/-- The command's slots match the format: used slots that are required are present, unused slots are `Absent` (R122). -/
def Command.fits (c : Command PinId) : Format → Bool
  | .n => !c.a.present && !c.b.present && c.pins.isNone
  | .w => c.a.present && !c.b.present && c.pins.isNone
  | .p => c.a.present && !c.b.present && c.pins.isNone
  | .pv => c.a.present && c.b.present && c.pins.isNone
  | .i => !c.b.present && c.pins.isSome

/-- The instruction an opcode selects, its operands taken whole from the slots (30_encoding.md R123, R125 to R127). -/
def select (c : Command PinId) : Option (Instr PinId) :=
  match group c.opc, function c.opc with
  | 0x0, 0x0 => some .drvCap
  | 0x0, 0x1 => some .drvClr
  | 0x0, 0x2 => some (.drvWr c.a)
  | 0x0, 0x3 => some .drvZero
  | 0x1, 0x0 => some .bufCap
  | 0x1, 0x1 => some .bufClr
  | 0x1, 0x2 => some (.bufWr c.a)
  | 0x1, 0x3 => some (.bufChk c.a)
  | 0x1, 0x4 => some (.bufGet c.a)
  | 0x1, 0x5 => some (.bufSet c.a c.b)
  | 0x1, 0x6 => some .bufCommit
  | 0x1, 0x7 => some .bufGetbuf
  | 0xF, 0x0 => c.pins.map fun q => .init q c.a
  | 0xF, 0x1 => some .fini
  | _, _ => none

/-- Decoding (30_encoding.md R129): the opcode first, then the slots of its format. -/
def decode (c : Command PinId) : Except DecodeError (Instr PinId) :=
  match formatOf c.opc with
  | none => .error (.reservedOpcode c.opc)
  | some f =>
    if c.fits f then
      match select c with
      | some i => .ok i
      | none => .error (.malformedCommand c.opc)
    else .error (.malformedCommand c.opc)

/-- The opcode of each instruction (30_encoding.md R125 to R127). -/
def Instr.opcode : Instr PinId → Opcode
  | .drvCap => 0x00#8
  | .drvClr => 0x01#8
  | .drvWr _ => 0x02#8
  | .drvZero => 0x03#8
  | .bufCap => 0x10#8
  | .bufClr => 0x11#8
  | .bufWr _ => 0x12#8
  | .bufChk _ => 0x13#8
  | .bufGet _ => 0x14#8
  | .bufSet _ _ => 0x15#8
  | .bufCommit => 0x16#8
  | .bufGetbuf => 0x17#8
  | .init _ _ => 0xF0#8
  | .fini => 0xF1#8

/-- A command with an opcode and no operands. -/
def Command.bare (opc : Opcode) : Command PinId := { opc := opc, a := .absent, b := .absent, pins := none }

/-- The command of an instruction (30_encoding.md R122): operands in the slots of its format, the others `Absent`. -/
def encode (i : Instr PinId) : Command PinId :=
  let c := Command.bare i.opcode
  match i with
  | .drvCap => c
  | .drvClr => c
  | .drvWr word => { c with a := word }
  | .drvZero => c
  | .bufCap => c
  | .bufClr => c
  | .bufWr word => { c with a := word }
  | .bufChk pos => { c with a := pos }
  | .bufGet pos => { c with a := pos }
  | .bufSet pos value => { c with a := pos, b := value }
  | .bufCommit => c
  | .bufGetbuf => c
  | .init pins count => { c with a := count, pins := some pins }
  | .fini => c

/-- The command that a word of spec/opcode_table.json stands for. The table gives bits to the opcode only, so every required
operand slot is the integer 0, every optional one `Absent`; INIT's pin identifiers, which are no numbers of the table either
and must differ pairwise (60_exceptions.md R300), are 0, 1, 2, 3. DESIGN CHOICE (notes/assumptions/12.md), safe. -/
def tableCommand (nbits w : Nat) : Command :=
  let c : Command := Command.bare (BitVec.ofNat 8 (w % 2 ^ nbits))
  match formatOf c.opc with
  | none => c
  | some .n => c
  | some .w => { c with a := .int 0 }
  | some .p => { c with a := .int 0 }
  | some .pv => { c with a := .int 0, b := .int 0 }
  | some .i => { c with pins := some ⟨0, 1, 2, 3⟩ }

/-- The instruction the decoder reads from a word of spec/opcode_table.json. -/
def decodeTableWord (nbits w : Nat) : Option Instr :=
  match decode (tableCommand nbits w) with
  | .ok i => some i
  | .error _ => none

end Sys2Proof
end

