-- ==== Sys2Proof/Config.lean ====
section
/-! DEFINITION. The parameters of the block (00_scope.md R10) and the free values: what the scheduler and the backend oracle
answer where the state does not say. A free value is an opaque constant: no proof can see what it is. -/

namespace Sys2Proof

/-- What the commit lock covers (00_scope.md R10, 42_wrapper.md R258). -/
inductive ArbScope where
  | commitOnly
  | wide
  deriving DecidableEq, Repr

/-- The configuration, fixed before the first INIT and read-only afterwards (10_state.md R48, 60_exceptions.md R322). It is a
field of the state, so a statement about every state is a statement about every configuration. -/
structure Config where
  /-- `T_EDGE`, the inter-edge delay, unit unstated (register E8); the model gives it no duration (40_sequencer.md R172). -/
  tEdge : Duration
  /-- `ARB_SCOPE` (register E9). -/
  arbScope : ArbScope
  /-- `BACKEND_FAULTS`: whether the oracle may answer with a failure (40_sequencer.md R163). -/
  backendFaults : Bool
  /-- `BUF_INIT`, the shadow buffer's value after INIT; its legal range `[0, 2^CAP)` is `Config.legalFor`. -/
  bufInit : Int
  /-- `N_PORTS`, at least 1. -/
  nPorts : Nat
  /-- `CAP_MAX`, at least 8, or `none` for unbounded. -/
  capMax : Option Nat
  deriving DecidableEq, Repr

/-- The legal values of 00_scope.md R10 that do not depend on an instance; every value of the other fields is legal. -/
def Config.legal (g : Config) : Bool :=
  decide (1 ≤ g.nPorts) && (match g.capMax with | none => true | some m => decide (8 ≤ m))

/-- Every parameter has a legal value of 00_scope.md R10 for an instance of capacity `cap`: `BUF_INIT` is in `[0, 2^CAP)` and the
capacity at most `CAP_MAX`. The block does not check it (41_driver.md R191 writes `BUF_INIT` as it is): a claim that depends on
it names it. -/
def Config.legalFor (g : Config) (cap : Nat) : Bool :=
  g.legal && decide (0 ≤ g.bufInit) && decide (g.bufInit < ((2 ^ cap : Nat) : Int)) &&
    (match g.capMax with | none => true | some m => decide (cap ≤ m))

/-- The configured values of `State.reset`. DESIGN CHOICE (notes/assumptions/5.md), unsafe: 70_reset_and_hazards.md R340 says
only "the configured values"; these are R10's defaults and the conventions of 95_test_vectors.md, with two ports as in its P4. -/
def Config.atReset : Config where
  tEdge := ⟨0, le_refl 0⟩
  arbScope := .commitOnly
  backendFaults := false
  bufInit := 0
  nPorts := 2
  capMax := none

/-- One answer of the backend oracle (40_sequencer.md R163): whether the call succeeded and, for a failing drive, whether the
line nonetheless took the level. -/
structure Draw where
  ok   : Bool
  took : Bool
  deriving DecidableEq, Repr, Inhabited

/-- FREE VALUE (notes/assumptions/4.md): the oracle's n-th answer, where the state lists no answer. -/
opaque Config.freeDraw : Nat → Draw

/-- FREE VALUE (notes/assumptions/2.md): the scheduler's n-th choice among several ports that could step, where the state
lists no choice (40_sequencer.md R161 "Which one is taken is free"). -/
opaque Config.freePick : Nat → Nat

end Sys2Proof
end

