-- ==== Sys2Proof/Machine/State.lean ====
section
/-! DEFINITION. The state of the block, as plain data: the engine registers (10_state.md R34), one context per port (R40), the
event history (20_memory.md R80), the reference chain (R90), the fault mark (60_exceptions.md R310), the configuration
(00_scope.md R10), and the model's own fields that carry the choices of the world outside the block.

A register whose power-on value is `undefined` "holds no value" (10_state.md R31): it is an `Option`, `none` being the spec's
own `undefined`, and a micro-step that reads it there is the spec's fault `ReadUndefined` (notes/assumptions/6.md). -/

namespace Sys2Proof.Machine

variable {PinId : Type}

/-- Register E0 `LIFE` (10_state.md R34, R35). -/
inductive Life where
  | unbuilt
  | building
  | ready
  | tearing
  deriving DecidableEq, Repr

/-- The level of a line (00_scope.md R16, 10_state.md R43): low, high, driven but unknown, not driven by the block. -/
inductive Level where
  | low
  | high
  | x
  | z
  deriving DecidableEq, Repr

/-- One bit of a chain stage (20_memory.md R90). -/
inductive CBit where
  | b0
  | b1
  | x
  deriving DecidableEq, Repr

/-- The reference chain (20_memory.md R90): shift stage `S` and output stage `Q`, bit `k` at index `k`. While `CAP` is
undefined the width is unknown; both stages are then lists of `x` of whatever length (at power-on: empty). -/
structure Chain where
  s : List CBit
  q : List CBit
  deriving DecidableEq, Repr

/-- Status codes (60_exceptions.md R301). -/
inductive Status where
  | ok
  | invalidArgument
  | hardwareConfiguration
  | constructionIncomplete
  | backendFailure
  deriving DecidableEq, Repr

/-- Events of the history (20_memory.md R81 wire events, R82 internal events). A level is a Bool: low is false, high is true. -/
inductive Event where
  | claim (l : Line) (ok : Bool)
  | drv (l : Line) (v : Bool)
  | drvf (l : Line) (v took : Bool)
  | drvAll (v : Bool)
  | drvAllf (v took : Bool)
  | dly
  | rel (l : Line)
  | acq
  | rls
  | brd (v : Int)
  | bwr (v : Option Int)
  | issue (opc : Opcode)
  | done (s : Status)
  deriving DecidableEq, Repr

/-- An event tagged with the port that executed it (20_memory.md R80). -/
structure Entry where
  port : Nat
  ev   : Event
  deriving DecidableEq, Repr

/-- Positions of the micro-program counter `upc` (10_state.md R32): one for each micro-step that the pseudocode of
40_sequencer.md R174 to R179, 41_driver.md and 42_wrapper.md writes. The loop variables are separate registers. -/
inductive UPos where
  | reject        -- Complete(INVALID_ARGUMENT, none)
  | guard         -- FINI's Complete(CONSTRUCTION_INCOMPLETE, none)
  | claim         -- INIT's Claim(k)
  | rollback      -- INIT's Release(j)
  | claimFailed   -- INIT's Complete(HARDWARE_CONFIGURATION, none)
  | clearLow      -- ClearPulse: Drive(CLR_N, L)
  | clearWait     -- ClearPulse: Delay()
  | clearHigh     -- ClearPulse: Drive(CLR_N, H)
  | shiftData     -- ShiftBit: Drive(SDATA, b)
  | shiftLow      -- ShiftBit: Drive(SCLK, L)
  | shiftWait     -- ShiftBit: Delay()
  | shiftHigh     -- ShiftBit: Drive(SCLK, H)
  | shiftHold     -- ShiftBit: Delay()
  | shiftFall     -- ShiftBit: Drive(SCLK, L)
  | latchLow      -- LatchPulse: Drive(LCLK, L)
  | latchWait     -- LatchPulse: Delay()
  | latchHigh     -- LatchPulse: Drive(LCLK, H)
  | latchHold     -- LatchPulse: Delay()
  | latchFall     -- LatchPulse: Drive(LCLK, L)
  | driveAll      -- DriveAll(L)
  | release       -- FINI's Release(k)
  | acquire       -- LockAcquire()
  | bufRead       -- BufRead
  | bufWrite      -- BufWrite
  | unlock        -- LockRelease()
  | errUnlock     -- error epilogue (R179): LockRelease()
  | errComplete   -- error epilogue (R179): Complete(ctx.err, none)
  | done          -- the command's last Complete
  deriving DecidableEq, Repr

/-- The context of a port (10_state.md R40, fields P0 to P13). `queue` is the model's own field: the commands the host thread
behind the port will present, oldest first; it is read only while the port is idle (notes/assumptions/3.md). -/
structure Ctx (PinId : Type := Nat) where
  busy      : Bool
  opc       : Option Opcode
  a         : Option Arg
  b         : Option Arg
  pins      : Option (Option (Quad PinId))   -- the inner none is `Absent`
  sts       : Option Status
  res       : Option (Option Int)            -- the inner none is the result `none`
  upc       : Option UPos
  snap      : Option Int
  tmp       : Option Int
  holdsLock : Bool
  k         : Option Nat
  j         : Option Nat
  i         : Option Nat
  err       : Option Status                  -- none is the spec's value `none`, not undefined
  n         : Option Nat
  queue     : List (Command PinId)
  deriving DecidableEq, Repr

/-- The model faults (60_exceptions.md R310), each with the port that caused it: the value of the fault mark, and the reason
with which every step from a marked state stops. A meaning enters one by a next state whose mark is set (`enterFault`), and
`exec` and `step` answer it as a fault from then on. All are safe: no claim holds past them. -/
inductive Fault where
  /-- Raised by the issue of a reserved opcode (R128). Safe. -/
  | reservedOpcode (port : Nat)
  /-- Raised by the issue of a command whose slots do not match its format (R122). Safe. -/
  | malformedCommand (port : Nat)
  /-- Raised by the issue of a command other than INIT and FINI while `LIFE ≠ READY` (R300). Safe. -/
  | notReady (port : Nat)
  /-- Raised by the issue of INIT or FINI at a wrong moment (R300). Safe. -/
  | lifecycleMisuse (port : Nat)
  /-- Raised by the issue of INIT with two equal pins (R300). Safe. -/
  | pinsNotDistinct (port : Nat)
  /-- Raised by a micro-step that reads an undefined register (10_state.md R31), BufRead after BUF.WR of a non-integer. Safe. -/
  | readUndefined (port : Nat)
  /-- Raised by Release when the backend reports failure (40_sequencer.md R171). Safe. -/
  | releaseFailed (port : Nat)
  /-- Raised by Drive and DriveAll with a line unclaimed (R164, R165); unreachable (R352). Safe. -/
  | driveUnclaimed (port : Nat)
  /-- Raised by LockRelease when the port does not hold the lock (R167); unreachable (R352). Safe. -/
  | lockNotHeld (port : Nat)
  /-- Raised by Complete when the port holds the lock (R173); unreachable (R352). Safe. -/
  | lockLeaked (port : Nat)
  /-- Raised by Release of an unclaimed pin (R171); unreachable (R352). Safe. -/
  | doubleRelease (port : Nat)
  deriving DecidableEq, Repr

/-- Why the model has no move. -/
inductive Refusal where
  /-- Raised by `exec`'s arm of an instruction that has no meaning yet; no arm answers it. Safe. -/
  | notModelled (mnemonic : String)
  /-- Raised by `exec` when the active port is none of the `N_PORTS` ports; `step` never does it. Safe. -/
  | noSuchPort (port : Nat)
  /-- Raised by `exec` when the port's micro-program counter stands at a position that the instruction's micro-program does not
  have, which no run from reset reaches (10_state.md R32). Safe. -/
  | offProgram (port : Nat)
  deriving DecidableEq, Repr

/-- The state of the block. -/
structure State (PinId : Type := Nat) where
  /-- The configuration, with the registers E8 `T_EDGE` and E9 `ARB_SCOPE`; no step writes it (10_state.md R48). -/
  cfg     : Config
  /-- E0 `LIFE`. -/
  life    : Life
  /-- E1 `CC`, the construction-completed flag. -/
  cc      : Bool
  /-- E2 `CAP`. -/
  cap     : Option Nat
  /-- E3 `PINS`. -/
  pins    : Option (Quad PinId)
  /-- E4 `CLAIMED[0..3]`. -/
  claimed : Quad Bool
  /-- E5 `LINE[0..3]`. -/
  line    : Quad Level
  /-- E6 `LOCK`: `none` when free, else the port that holds it. -/
  lock    : Option Nat
  /-- E7 `BUF`, the shadow buffer. -/
  buf     : Option Int
  /-- The contexts of ports `0 … N_PORTS-1`. -/
  ports   : List (Ctx PinId)
  /-- `HIST`, oldest event first. -/
  hist    : List Entry
  /-- The reference chain. -/
  chain   : Chain
  /-- The fault mark. -/
  mark    : Option Fault
  /-- Model's own: the port whose atomic step `exec` performs (notes/assumptions/1.md). -/
  active  : Nat
  /-- Model's own: the scheduler's next choices of a port (notes/assumptions/2.md). -/
  sched   : List Nat
  /-- Model's own: the oracle's next answers (notes/assumptions/4.md). -/
  draws   : List Draw
  /-- Model's own: counts the uses of the opaque free values. -/
  tick    : Nat
  deriving DecidableEq, Repr

/-- A port's context at power-on (70_reset_and_hazards.md R340). -/
def Ctx.powerOn : Ctx PinId where
  busy := false
  opc := none
  a := none
  b := none
  pins := none
  sts := none
  res := none
  upc := none
  snap := none
  tmp := none
  holdsLock := false
  k := none
  j := none
  i := none
  err := none
  n := none
  queue := []

/-- The power-on state under a configuration (70_reset_and_hazards.md R340). -/
def State.powerOn (g : Config) : State PinId where
  cfg := g
  life := .unbuilt
  cc := false
  cap := none
  pins := none
  claimed := ⟨false, false, false, false⟩
  line := ⟨.z, .z, .z, .z⟩
  lock := none
  buf := none
  ports := List.replicate g.nPorts Ctx.powerOn
  hist := []
  chain := ⟨[], []⟩
  mark := none
  active := 0
  sched := []
  draws := []
  tick := 0

/-- The machine right after power-on, with the configured values of `Config.atReset` (notes/assumptions/5.md, 13.md). -/
def State.reset : State := State.powerOn Config.atReset

end Sys2Proof.Machine
end

