-- ==== Sys2Proof/Machine/Operands.lean ====
section
/-! DEFINITION. Operand forms and bit arithmetic: integers and their bits (00_scope.md R12), the operand checks (42_wrapper.md
R241, 41_driver.md R191 and R200), levels (00_scope.md R16), and reading and writing one of four lines. -/

namespace Sys2Proof.Machine

variable {PinId : Type}

/-- `bit(v, i) = (v div 2^i) mod 2`, floor division, for negative `v` too (00_scope.md R12). -/
def bit (v : Int) (i : Nat) : Int := v / ((2 ^ i : Nat) : Int) % 2

/-- `setbit(v, i, b) = v - bit(v,i)·2^i + b·2^i` (00_scope.md R12). -/
def setbit (v : Int) (i : Nat) (b : Int) : Int := v - bit v i * ((2 ^ i : Nat) : Int) + b * ((2 ^ i : Nat) : Int)

/-- `v[hi:lo] = (v div 2^lo) mod 2^(hi-lo+1)` (00_scope.md R12; no rule uses it): no bit, so 0, at `hi = lo - 1`. DESIGN CHOICE
(notes/assumptions/19.md), safe: `none` for a smaller `hi`, where the exponent is negative and the rule states no value. -/
def bits (v : Int) (hi lo : Nat) : Option Int :=
  if lo ≤ hi + 1 then some (v / ((2 ^ lo : Nat) : Int) % ((2 ^ (hi + 1 - lo) : Nat) : Int)) else none

/-- `zext_N(v) = v mod 2^N` (00_scope.md R12; no rule uses it). -/
def zext (n : Nat) (v : Int) : Int := v % ((2 ^ n : Nat) : Int)

/-- `sext_N(v)`, the N-bit two's complement reading (00_scope.md R12; no rule uses it). -/
def sext (n : Nat) (v : Int) : Int :=
  if 2 * zext n v < ((2 ^ n : Nat) : Int) then zext n v else zext n v - ((2 ^ n : Nat) : Int)

/-- The level bit `bit(v, i)` puts on `SDATA`: high for 1 (40_sequencer.md R175). -/
def levelBit (v : Int) (i : Nat) : Bool := bit v i == 1

/-- `0 ≤ w < 2^CAP` (41_driver.md R200, 42_wrapper.md R249). -/
def inRange (cap : Nat) (w : Int) : Bool := decide (0 ≤ w) && decide (w < ((2 ^ cap : Nat) : Int))

/-- The capacity of a chain with `n` additional registers (41_driver.md R191, 00_scope.md R11). -/
def capacity (n : Nat) : Nat := 8 * (n + 1)

/-- The word operand of DRV.WR if it is valid: `a = Int(w)` and `0 ≤ w < 2^CAP` (41_driver.md R200). -/
def validWord (cap : Nat) : Arg → Option Int
  | .int w => if inRange cap w then some w else none
  | .nonInt => none
  | .absent => none

/-- `ValidPos` (42_wrapper.md R241), giving the position. -/
def validPos (cap : Nat) : Arg → Option Nat
  | .int v => if 0 ≤ v ∧ v < (cap : Int) then some v.toNat else none
  | .nonInt => none
  | .absent => none

/-- `ValidVal` (42_wrapper.md R241), giving the value. -/
def validVal : Arg → Option Int
  | .int v => if v = 0 ∨ v = 1 then some v else none
  | .nonInt => none
  | .absent => none

/-- What BUF.WR puts into `BUF`, unvalidated: the integer, or ⊥ for a non-integer (42_wrapper.md R251). -/
def bufWord : Arg → Option Int
  | .int w => some w
  | .nonInt => none
  | .absent => none

/-- INIT's chain count if it is valid: absent is 0, an integer must be non-negative and the capacity at most `CAP_MAX`
(41_driver.md R191). -/
def validCount (capMax : Option Nat) (a : Arg) : Option Nat :=
  let n : Option Nat :=
    match a with
    | .absent => some 0
    | .int v => if 0 ≤ v then some v.toNat else none
    | .nonInt => none
  match n, capMax with
  | some n, some m => if m < capacity n then none else some n
  | some n, none => some n
  | none, _ => none

/-- The four pin identifiers are pairwise distinct (60_exceptions.md R300). -/
def distinctPins [DecidableEq PinId] (q : Quad PinId) : Bool :=
  q.sdata != q.sclk && q.sdata != q.lclk && q.sdata != q.clrN && q.sclk != q.lclk && q.sclk != q.clrN && q.lclk != q.clrN

/-- A driven level (00_scope.md R16). -/
def Level.ofBit : Bool → Level
  | false => .low
  | true => .high

/-- The chain bit a level of `SDATA` shifts in (20_memory.md R91). A line that is not driven gives an unknown bit. -/
def Level.toCBit : Level → CBit
  | .low => .b0
  | .high => .b1
  | .x => .x
  | .z => .x

/-- The chain bit of an integer's bit. -/
def CBit.ofBit (v : Int) (i : Nat) : CBit := if bit v i = 1 then .b1 else .b0

end Sys2Proof.Machine

namespace Sys2Proof

/-- The value of one line. -/
def Quad.get {α : Type} (q : Quad α) : Line → α
  | .sdata => q.sdata
  | .sclk => q.sclk
  | .lclk => q.lclk
  | .clrN => q.clrN

/-- The four values with one line's changed. -/
def Quad.set {α : Type} (q : Quad α) (l : Line) (v : α) : Quad α :=
  match l with
  | .sdata => { q with sdata := v }
  | .sclk => { q with sclk := v }
  | .lclk => { q with lclk := v }
  | .clrN => { q with clrN := v }

/-- One value on all four lines. -/
def Quad.all {α : Type} (v : α) : Quad α := ⟨v, v, v, v⟩

/-- The line of an index, 0 to 3 (10_state.md R42). -/
def Line.ofIndex : Nat → Option Line
  | 0 => some .sdata
  | 1 => some .sclk
  | 2 => some .lclk
  | 3 => some .clrN
  | _ => none

end Sys2Proof
end

