-- ==== Sys2Proof/Machine/Chain.lean ====
section
/-! DEFINITION. The reference chain's reaction to a change of the line levels (20_memory.md R91 to R96). -/

namespace Sys2Proof.Machine

/-- A stage of the same width whose bits are all `v`. -/
def fillStage (v : CBit) (st : List CBit) : List CBit := st.map fun _ => v

/-- Both stages unknown (20_memory.md R96). -/
def Chain.unknown (c : Chain) : Chain := { s := fillStage .x c.s, q := fillStage .x c.q }

/-- `S[k] <- S[k-1]`, `S[0] <- b`, the old last bit lost (20_memory.md R91). -/
def shiftIn (b : CBit) (st : List CBit) : List CBit := (b :: st).take st.length

/-- A stage made `w` bits wide, known bits kept, new bits unknown (notes/assumptions/9.md). -/
def widenStage (w : Nat) (st : List CBit) : List CBit := st.take w ++ List.replicate (w - st.length) .x

/-- The chain seen with the width of a new instance (20_memory.md R90 "The chain of CAP/8 registers"). -/
def Chain.resize (w : Nat) (c : Chain) : Chain := { s := widenStage w c.s, q := widenStage w c.q }

/-- A line is not driven by the block. -/
def floating (ls : Quad Level) : Bool := ls.sdata = .z || ls.sclk = .z || ls.lclk = .z || ls.clrN = .z

/-- `SCLK` or `LCLK` goes from low to high (20_memory.md R91, R93; that the rising edge acts is PRESUMED by the spec, G3,
notes/assumptions/17.md). -/
def risingEdge (old new : Level) : Bool := old = .low && new = .high

/-- A clock goes to high from a level that is not known (20_memory.md R95). -/
def unknownEdge (old new : Level) : Bool := (old = .x || old = .z) && new = .high

/-- The shift stage after a change of levels. `CLR_N` first (40_sequencer.md R165): low holds the stage at 0 and no clock edge
shifts (R92), unknown makes it unknown (R95); high lets `SCLK` edges act (R91, R95).
DESIGN CHOICE (notes/assumptions/10.md), unsafe: with `CLR_N` low, R92's "while" wins over R95's edge from X. -/
def shiftStage (old new : Quad Level) (st : List CBit) : List CBit :=
  match new.clrN with
  | .low => fillStage .b0 st
  | .x => fillStage .x st
  | .z => fillStage .x st
  | .high =>
    if risingEdge old.sclk new.sclk then shiftIn new.sdata.toCBit st
    else if unknownEdge old.sclk new.sclk then fillStage .x st
    else st

/-- The output stage after a change of levels (20_memory.md R93, R95); `CLR_N` does not touch it (R92). DESIGN CHOICE
(notes/assumptions/10.md), safe: if `SCLK` rises in the same step, which no command does, the latched word is unknown. -/
def outputStage (old new : Quad Level) (sNow qOld : List CBit) : List CBit :=
  if risingEdge old.lclk new.lclk then
    if risingEdge old.sclk new.sclk || unknownEdge old.sclk new.sclk then fillStage .x qOld else sNow
  else if unknownEdge old.lclk new.lclk then fillStage .x qOld
  else qOld

/-- The chain after the levels change from `old` to `new`. With a floating input both stages are unknown (20_memory.md R96);
no other transition changes them (R94). -/
def Chain.react (c : Chain) (old new : Quad Level) : Chain :=
  if floating new then c.unknown
  else { s := shiftStage old new c.s, q := outputStage old new (shiftStage old new c.s) c.q }

end Sys2Proof.Machine
end

