-- ==== Sys2Proof/Machine/Flags.lean ====
section
/-! DEFINITION. The block has no flags and no condition codes (10_state.md R45): a command's outcome is its status and its
result. This file computes them. -/

namespace Sys2Proof.Machine

/-- The number of a status code (60_exceptions.md R301; 5 to 7 are reserved and never produced). -/
def Status.code : Status → Nat
  | .ok => 0
  | .invalidArgument => 1
  | .hardwareConfiguration => 2
  | .constructionIncomplete => 3
  | .backendFailure => 4

/-- `ctx.err if ctx.err ≠ none else OK`, the status of a last Complete (42_wrapper.md R249, 41_driver.md R208). -/
def finalStatus (err : Option Status) : Status :=
  match err with
  | some e => e
  | none => .ok

end Sys2Proof.Machine
end

