-- ==== Sys2Proof/Machine/Ops.lean ====
section
/-! DEFINITION. The named operations over the state: contexts, lines, history, oracle; entering a model fault; the ten
micro-steps (40_sequencer.md R164 to R173); the issue step (R160) with its admission checks (60_exceptions.md R300). -/

namespace Sys2Proof.Machine

variable {PinId : Type}

/-- What a meaning answers. -/
abbrev Out (PinId : Type := Nat) := Host.Outcome (State PinId) Fault Refusal

/-- The context of port `p`, if there is such a port. -/
def State.ctx (s : State PinId) (p : Nat) : Option (Ctx PinId) := s.ports[p]?

/-- Change the context of port `p`. -/
def State.modCtx (s : State PinId) (p : Nat) (f : Ctx PinId → Ctx PinId) : State PinId := { s with ports := s.ports.modify p f }

/-- Append an event of port `p` to `HIST` (20_memory.md R80). -/
def State.log (s : State PinId) (p : Nat) (e : Event) : State PinId := { s with hist := s.hist ++ [⟨p, e⟩] }

/-- Give the lines new levels; the chain reacts (40_sequencer.md R164, R165, R170, R171). -/
def State.setLines (s : State PinId) (ls : Quad Level) : State PinId := { s with line := ls, chain := s.chain.react s.line ls }

/-- TAKING A FAULT (60_exceptions.md R310): the fault mark is set to the fault's name and the port that caused it. Nothing
else changes; the faulted state has no further steps, and nothing clears the mark. There is no return from a fault (R313). -/
def State.enterFault (s : State PinId) (f : Fault) : State PinId := { s with mark := some f }

/-- Every port other than `p` is idle (60_exceptions.md R300). -/
def State.othersIdle (s : State PinId) (p : Nat) : Bool :=
  (List.range s.ports.length).all fun q => q == p || (match s.ports[q]? with | some c => !c.busy | none => true)

/-- The oracle's answer to the next backend call (40_sequencer.md R163): always success when `BACKEND_FAULTS = false`, else the
state's next answer, else a free value (notes/assumptions/4.md). -/
def State.draw (s : State PinId) : Draw :=
  if s.cfg.backendFaults then
    match s.draws with
    | d :: _ => d
    | [] => Config.freeDraw s.tick
  else { ok := true, took := false }

/-- The state after the oracle has answered. -/
def State.drawn (s : State PinId) : State PinId :=
  if s.cfg.backendFaults then
    match s.draws with
    | _ :: ds => { s with draws := ds }
    | [] => { s with tick := s.tick + 1 }
  else s

/-- The micro-steps (00_scope.md R14). -/
inductive Micro where
  | drive (l : Line) (v : Bool)
  | driveAll (v : Bool)
  | lockAcquire
  | lockRelease
  | bufReadSnap
  | bufReadTmp
  | bufWrite (v : Option Int)
  | claim (l : Line)
  | release (l : Line)
  | delay
  | complete (s : Status) (r : Option Int)
  deriving DecidableEq, Repr

/-- What a micro-step comes to: done, done with the backend's failure, not enabled, or a model fault. -/
inductive Result (PinId : Type := Nat) where
  | ok (s : State PinId)
  | failed (s : State PinId)
  | held
  | fault (f : Fault)

/-- `Drive(l, v)` (40_sequencer.md R164). -/
def runDrive (s : State PinId) (l : Line) (v : Bool) : Result PinId :=
  let p := s.active
  let d := s.draw
  let t := s.drawn
  if !s.claimed.get l then .fault (.driveUnclaimed p)
  else if d.ok then .ok ((t.setLines (t.line.set l (Level.ofBit v))).log p (.drv l v))
  else
    let u := if d.took then t.setLines (t.line.set l (Level.ofBit v)) else t
    .failed ((u.log p (.drvf l v d.took)).modCtx p fun c => { c with err := some .backendFailure })

/-- All four pins are claimed. -/
def allClaimed (q : Quad Bool) : Bool := q.sdata && q.sclk && q.lclk && q.clrN

/-- `DriveAll(v)` (40_sequencer.md R165): the four levels change together. -/
def runDriveAll (s : State PinId) (v : Bool) : Result PinId :=
  let p := s.active
  let d := s.draw
  let t := s.drawn
  if !allClaimed s.claimed then .fault (.driveUnclaimed p)
  else if d.ok then .ok ((t.setLines (Quad.all (Level.ofBit v))).log p (.drvAll v))
  else
    let u := if d.took then t.setLines (Quad.all (Level.ofBit v)) else t
    .failed ((u.log p (.drvAllf v d.took)).modCtx p fun c => { c with err := some .backendFailure })

/-- `LockAcquire()` (40_sequencer.md R166): enabled only when the lock is free. -/
def runLockAcquire (s : State PinId) : Result PinId :=
  match s.lock with
  | some _ => .held
  | none =>
    let p := s.active
    .ok (({ s with lock := some p }.modCtx p fun c => { c with holdsLock := true }).log p .acq)

/-- `LockRelease()` (40_sequencer.md R167). -/
def runLockRelease (s : State PinId) : Result PinId :=
  let p := s.active
  if s.lock = some p then
    .ok (({ s with lock := none }.modCtx p fun c => { c with holdsLock := false }).log p .rls)
  else .fault (.lockNotHeld p)

/-- `BufRead(dst)` (40_sequencer.md R168), `dst` written by `f`. -/
def runBufRead (s : State PinId) (f : Int → Ctx PinId → Ctx PinId) : Result PinId :=
  let p := s.active
  match s.buf with
  | some v => .ok ((s.modCtx p (f v)).log p (.brd v))
  | none => .fault (.readUndefined p)

/-- `BufWrite(v)` (40_sequencer.md R169); `none` is ⊥. -/
def runBufWrite (s : State PinId) (v : Option Int) : Result PinId :=
  .ok ({ s with buf := v }.log s.active (.bwr v))

/-- `Claim(l)` (40_sequencer.md R170): configures pin `PINS[l]`. -/
def runClaim (s : State PinId) (l : Line) : Result PinId :=
  let p := s.active
  let d := s.draw
  let t := s.drawn
  match s.pins with
  | none => .fault (.readUndefined p)
  | some _ =>
    if d.ok then
      .ok (({ t with claimed := t.claimed.set l true }.setLines (t.line.set l .x)).log p (.claim l true))
    else .failed (t.log p (.claim l false))

/-- `Release(l)` (40_sequencer.md R171): releases pin `PINS[l]`. -/
def runRelease (s : State PinId) (l : Line) : Result PinId :=
  let p := s.active
  let d := s.draw
  let t := s.drawn
  if !s.claimed.get l then .fault (.doubleRelease p)
  else
    match s.pins with
    | none => .fault (.readUndefined p)
    | some _ =>
      if d.ok then
        .ok (({ t with claimed := t.claimed.set l false }.setLines (t.line.set l .z)).log p (.rel l))
      else .fault (.releaseFailed p)

/-- `Delay()` (40_sequencer.md R172): one event, no duration. -/
def runDelay (s : State PinId) : Result PinId := .ok (s.log s.active .dly)

/-- `Complete(st, r)` (40_sequencer.md R173). -/
def runComplete (s : State PinId) (st : Status) (r : Option Int) : Result PinId :=
  let p := s.active
  match s.ctx p with
  | none => .held
  | some c =>
    if c.holdsLock then .fault (.lockLeaked p)
    else .ok ((s.modCtx p fun c => { c with sts := some st, res := some r, busy := false }).log p (.done st))

/-- One atomic micro-step of the active port. -/
def Micro.run (m : Micro) (s : State PinId) : Result PinId :=
  match m with
  | .drive l v => runDrive s l v
  | .driveAll v => runDriveAll s v
  | .lockAcquire => runLockAcquire s
  | .lockRelease => runLockRelease s
  | .bufReadSnap => runBufRead s fun v c => { c with snap := some v }
  | .bufReadTmp => runBufRead s fun v c => { c with tmp := some v }
  | .bufWrite v => runBufWrite s v
  | .claim l => runClaim s l
  | .release l => runRelease s l
  | .delay => runDelay s
  | .complete st r => runComplete s st r

/-- Set the micro-program counter (10_state.md R32). -/
def goto (u : UPos) (c : Ctx PinId) : Ctx PinId := { c with upc := some u }

/-- The error epilogue's first step (40_sequencer.md R179). -/
def epilogue (c : Ctx PinId) : Ctx PinId := if c.holdsLock then goto .errUnlock c else goto .errComplete c

/-- A micro-step at its place in a micro-program. `writes` is performed with the step, before it: the local computation that
precedes it (40_sequencer.md R162) and the engine registers written with it (00_scope.md R15). `next` and `onFail` set the
position of the micro-step that follows, after success and after a backend failure: `upc` with its loop variables (10_state.md
R32). -/
structure MicroStep (PinId : Type := Nat) where
  op     : Micro
  next   : Ctx PinId → Ctx PinId
  onFail : Ctx PinId → Ctx PinId := epilogue
  writes : State PinId → State PinId := id

/-- What stands at a position of a micro-program: a micro-step, the read of an undefined register (10_state.md R31), or nothing,
because the micro-program has no such position. -/
inductive Fetched (PinId : Type := Nat) where
  | step (m : MicroStep PinId)
  | undef
  | off

/-- The first of two parts of a micro-program that has the position. -/
def Fetched.orElse (f g : Fetched PinId) : Fetched PinId :=
  match f with
  | .off => g
  | .step m => .step m
  | .undef => .undef

/-- Perform what stands at the active port's position: one step of the machine (40_sequencer.md R161). A micro-step that is not
enabled leaves the state as it is: the port waits (R166; notes/assumptions/14.md). -/
def perform (f : Fetched PinId) (s : State PinId) : Out PinId :=
  match f with
  | .off => .refused (.offProgram s.active)
  | .undef => .next (s.enterFault (.readUndefined s.active))
  | .step m =>
    match m.op.run (m.writes s) with
    | .ok t => .next (t.modCtx t.active m.next)
    | .failed t => .next (t.modCtx t.active m.onFail)
    | .held => .next s
    | .fault f => .next (s.enterFault f)

/-- The first half of the issue step (40_sequencer.md R160), the same for every command, reserved and malformed ones too: the
port becomes busy, the command is copied into its context, `err` becomes none, `ISSUE(opc)` is appended. -/
def State.present (s : State PinId) (c : Command PinId) : State PinId :=
  (s.modCtx s.active fun x =>
    { x with busy := true, opc := some c.opc, a := some c.a, b := some c.b, pins := some c.pins, err := none }).log
    s.active (.issue c.opc)

/-- Admission of every command but INIT and FINI (60_exceptions.md R300, check 3). -/
def admitReady (s : State PinId) : Option Fault :=
  if s.life = .ready then none else some (.notReady s.active)

/-- Admission of INIT (60_exceptions.md R300, check 3). -/
def admitInit [DecidableEq PinId] (pins : Quad PinId) (s : State PinId) : Option Fault :=
  if s.life ≠ .unbuilt then some (.lifecycleMisuse s.active)
  else if !s.othersIdle s.active then some (.lifecycleMisuse s.active)
  else if !distinctPins pins then some (.pinsNotDistinct s.active)
  else none

/-- Admission of FINI (60_exceptions.md R300, check 3). -/
def admitFini (s : State PinId) : Option Fault :=
  match s.life with
  | .building => some (.lifecycleMisuse s.active)
  | .tearing => some (.lifecycleMisuse s.active)
  | .ready => if s.othersIdle s.active then none else some (.lifecycleMisuse s.active)
  | .unbuilt => none

/-- What one instruction's rule says: its admission check, the lifecycle write of its issue (10_state.md R35), the local
computation that selects its first micro-step (`none`: it reads an undefined register), and its micro-program. -/
structure Rule (PinId : Type := Nat) where
  check  : State PinId → Option Fault
  onLife : State PinId → State PinId := id
  begin  : State PinId → Ctx PinId → Option (Ctx PinId)
  prog   : State PinId → Ctx PinId → UPos → Fetched PinId

/-- The issue step (40_sequencer.md R160): present the command, check form and admission in the order of 60_exceptions.md R300,
write `LIFE`, set `upc` to the first micro-step. -/
def issueStep (i : Instr PinId) (r : Rule PinId) (s : State PinId) : Out PinId :=
  let t := s.present (encode i)
  if !i.wellFormed then .next (t.enterFault (.malformedCommand s.active))
  else
    match r.check t with
    | some f => .next (t.enterFault f)
    | none =>
      match t.ctx s.active with
      | none => .refused (.noSuchPort s.active)
      | some c =>
        match r.begin t c with
        | none => .next (t.enterFault (.readUndefined s.active))
        | some c' => .next ((r.onLife t).modCtx s.active fun _ => c')

/-- The next micro-step of a busy port (40_sequencer.md R161). -/
def microStep (r : Rule PinId) (c : Ctx PinId) (s : State PinId) : Out PinId :=
  match c.upc with
  | none => .next (s.enterFault (.readUndefined s.active))
  | some u => perform (r.prog s c u) s

/-- One atomic step of the active port running instruction `i`: its issue if the port is idle, else its next micro-step. A
marked state has no further step (60_exceptions.md R310). -/
def runRule (i : Instr PinId) (r : Rule PinId) (s : State PinId) : Out PinId :=
  match s.mark with
  | some f => .fault f
  | none =>
    match s.ctx s.active with
    | none => .refused (.noSuchPort s.active)
    | some c => if c.busy then microStep r c s else issueStep i r s

end Sys2Proof.Machine
end

