-- ==== Sys2Proof/Machine/Sequencer.lean ====
section
/-! DEFINITION. The shared parts of the micro-programs: the pulse macros and the transmit sequence (40_sequencer.md R174 to
R177), the error epilogue (R179), and the commit body (42_wrapper.md R249). Each part says what stands at its own positions
and leaves the others to the command. -/

namespace Sys2Proof.Machine

variable {PinId : Type}

/-- A step that completes the command. -/
def completeStep (st : Status) (r : Option Int) (writes : State PinId → State PinId := id) : Fetched PinId :=
  .step { op := .complete st r, next := id, writes := writes }

/-- `ClearPulse()` (40_sequencer.md R174), then the local computation `after`. -/
def clearPulse (after onFail : Ctx PinId → Ctx PinId) (u : UPos) : Fetched PinId :=
  match u with
  | .clearLow => .step { op := .drive .clrN false, next := goto .clearWait, onFail := onFail }
  | .clearWait => .step { op := .delay, next := goto .clearHigh, onFail := onFail }
  | .clearHigh => .step { op := .drive .clrN true, next := after, onFail := onFail }
  | _ => .off

/-- `LatchPulse()` (40_sequencer.md R176), then the local computation `after`. -/
def latchPulse (after onFail : Ctx PinId → Ctx PinId) (u : UPos) : Fetched PinId :=
  match u with
  | .latchLow => .step { op := .drive .lclk false, next := goto .latchWait, onFail := onFail }
  | .latchWait => .step { op := .delay, next := goto .latchHigh, onFail := onFail }
  | .latchHigh => .step { op := .drive .lclk true, next := goto .latchHold, onFail := onFail }
  | .latchHold => .step { op := .delay, next := goto .latchFall, onFail := onFail }
  | .latchFall => .step { op := .drive .lclk false, next := after, onFail := onFail }
  | _ => .off

/-- The loop control after a `ShiftBit`: on to the next lower bit, or to the latch after bit 0 (10_state.md R33). -/
def nextBit (i : Nat) (c : Ctx PinId) : Ctx PinId :=
  match i with
  | 0 => goto .latchLow c
  | k + 1 => goto .shiftData { c with i := some k }

/-- `ShiftBit(bit(w, i))` inside the loop of `Transmit` (40_sequencer.md R175, R177). -/
def shiftBit (w : Int) (i : Nat) (u : UPos) : Fetched PinId :=
  match u with
  | .shiftData => .step { op := .drive .sdata (levelBit w i), next := goto .shiftLow }
  | .shiftLow => .step { op := .drive .sclk false, next := goto .shiftWait }
  | .shiftWait => .step { op := .delay, next := goto .shiftHigh }
  | .shiftHigh => .step { op := .drive .sclk true, next := goto .shiftHold }
  | .shiftHold => .step { op := .delay, next := goto .shiftFall }
  | .shiftFall => .step { op := .drive .sclk false, next := nextBit i }
  | _ => .off

/-- A position of the shift loop. -/
def isShift (u : UPos) : Bool :=
  match u with
  | .shiftData | .shiftLow | .shiftWait | .shiftHigh | .shiftHold | .shiftFall => true
  | _ => false

/-- The shift loop with the context's word `snap` and loop variable `i`, undefined if one of them is. -/
def shiftLoop (c : Ctx PinId) (u : UPos) : Fetched PinId :=
  if isShift u then
    match c.snap, c.i with
    | some w, some i => shiftBit w i u
    | _, _ => .undef
  else .off

/-- The loop's start: `i = CAP-1`, or past the loop if there is no bit (40_sequencer.md R177, 00_scope.md R15). -/
def startShift (cap : Nat) (c : Ctx PinId) : Ctx PinId :=
  match cap with
  | 0 => goto .latchLow c
  | n + 1 => goto .shiftData { c with i := some n }

/-- `Transmit(ctx.snap)` (40_sequencer.md R177), then the local computation `after`. Only the loop's start reads `CAP`. -/
def transmit (cap : Option Nat) (c : Ctx PinId) (after : Ctx PinId → Ctx PinId) (u : UPos) : Fetched PinId :=
  match u, cap with
  | .clearHigh, none => .undef
  | .clearHigh, some n => clearPulse (startShift n) epilogue .clearHigh
  | _, _ => (clearPulse id epilogue u).orElse ((shiftLoop c u).orElse (latchPulse after epilogue u))

/-- The error epilogue of every command but FINI (40_sequencer.md R179). -/
def errorEpilogue (c : Ctx PinId) (u : UPos) : Fetched PinId :=
  match u with
  | .errUnlock => .step { op := .lockRelease, next := goto .errComplete }
  | .errComplete =>
    match c.err with
    | some e => completeStep e none
    | none => .undef
  | _ => .off

/-- `0 <= ctx.snap < 2^CAP`, the engine's validation inside the commit body (42_wrapper.md R249). -/
def snapOk (cap : Nat) (c : Ctx PinId) : Bool :=
  match c.snap with
  | some w => inRange cap w
  | none => false

/-- Where the commit goes on after its BufRead: at the transmit of a valid word, else at the LockRelease (42_wrapper.md R249). -/
def checkSnap (cap : Nat) (c : Ctx PinId) : Ctx PinId := if snapOk cap c then goto .clearLow c else goto .unlock c

/-- `ctx.err <- INVALID_ARGUMENT` if the word is not valid: the local computation before the commit's LockRelease (42_wrapper.md
R249), performed with it (40_sequencer.md R162). -/
def rejectSnap (cap : Nat) (s : State PinId) : State PinId :=
  s.modCtx s.active fun c => if snapOk cap c then c else { c with err := some .invalidArgument }

/-- `CommitBody()` and the last Complete (42_wrapper.md R249), with the error epilogue. -/
def commitBody (cap : Option Nat) (c : Ctx PinId) (u : UPos) : Fetched PinId :=
  match u with
  | .bufRead =>
    match cap with
    | none => .undef
    | some n => .step { op := .bufReadSnap, next := checkSnap n }
  | .unlock =>
    match cap, c.snap with
    | some n, some _ => .step { op := .lockRelease, next := goto .done, writes := rejectSnap n }
    | _, _ => .undef
  | .done => completeStep (finalStatus c.err) none
  | _ => (transmit cap c (goto .unlock) u).orElse (errorEpilogue c u)

end Sys2Proof.Machine
end

