-- ==== Sys2Proof/Machine/Lifecycle.lean ====
section
/-! DEFINITION. INIT and FINI: construction and destruction (41_driver.md R190 to R193, R208, R209). -/

namespace Sys2Proof.Machine

variable {PinId : Type}

/-- The engine registers that INIT's first claim step also writes: `CAP <- 8*(n+1)` and `PINS <- pins` (41_driver.md R191); the
reference chain is from then on seen with that width (20_memory.md R90, notes/assumptions/9.md). -/
def writeInstance (n : Nat) (pins : Quad PinId) (s : State PinId) : State PinId :=
  { s with cap := some (capacity n), pins := some pins, chain := s.chain.resize (capacity n) }

/-- `LIFE <- UNBUILT; CAP <- undefined; PINS <- undefined` (41_driver.md R191, a failed claim). -/
def dropInstance (s : State PinId) : State PinId := { s with life := .unbuilt, cap := none, pins := none }

/-- `ctx.n <- n` and the engine registers written with it: the local computation before `Claim(0)`, performed with it
(40_sequencer.md R162, 41_driver.md R191). -/
def firstClaimWrites (n : Nat) (pins : Quad PinId) (s : State PinId) : State PinId :=
  (writeInstance n pins s).modCtx s.active fun c => { c with n := some n }

/-- INIT's first micro-step: a valid count starts the claims at `k = 0` (41_driver.md R191). -/
def beginInit (count : Arg) (s : State PinId) (c : Ctx PinId) : Option (Ctx PinId) :=
  match validCount s.cfg.capMax count with
  | some _ => some (goto .claim { c with k := some 0 })
  | none => some (goto .reject c)

/-- After `Claim(k)` succeeds: the next claim, or the buffer's creation after the fourth. -/
def afterClaim (k : Nat) (c : Ctx PinId) : Ctx PinId :=
  if k < 3 then goto .claim { c with k := some (k + 1) } else goto .bufWrite c

/-- After `Claim(k)` fails: release `0 … k-1`, ascending; nothing to release for `k = 0`. -/
def afterFailedClaim (k : Nat) (c : Ctx PinId) : Ctx PinId :=
  if k = 0 then goto .claimFailed c else goto .rollback { c with j := some 0 }

/-- After `Release(j)` in the rollback of a claim that failed at `k`. -/
def afterRollback (k j : Nat) (c : Ctx PinId) : Ctx PinId :=
  if j + 1 < k then goto .rollback { c with j := some (j + 1) } else goto .claimFailed c

/-- INIT's `Claim(k)` step; the first also writes `ctx.n`, `CAP` and `PINS`. -/
def claimStep (pins : Quad PinId) (count : Arg) (s : State PinId) (c : Ctx PinId) : Fetched PinId :=
  match c.k with
  | none => .undef
  | some 0 =>
    match validCount s.cfg.capMax count with
    | some n =>
      .step
        { op := .claim .sdata
          next := afterClaim 0
          onFail := afterFailedClaim 0
          writes := firstClaimWrites n pins }
    | none => .off
  | some (j + 1) =>
    match Line.ofIndex (j + 1) with
    | some l => .step { op := .claim l, next := afterClaim (j + 1), onFail := afterFailedClaim (j + 1) }
    | none => .off

/-- INIT's rollback step `Release(j)`. -/
def rollbackStep (c : Ctx PinId) : Fetched PinId :=
  match c.k, c.j with
  | some k, some j =>
    match Line.ofIndex j with
    | some l => .step { op := .release l, next := afterRollback k j }
    | none => .off
  | _, _ => .undef

/-- INIT's micro-program (41_driver.md R191). -/
def progInit (pins : Quad PinId) (count : Arg) (s : State PinId) (c : Ctx PinId) (u : UPos) : Fetched PinId :=
  match u with
  | .reject => completeStep .invalidArgument none fun s => { s with life := .unbuilt }
  | .claim => claimStep pins count s c
  | .rollback => rollbackStep c
  | .claimFailed => completeStep .hardwareConfiguration none dropInstance
  | .bufWrite => .step { op := .bufWrite (some s.cfg.bufInit), next := goto .done }
  | .done => completeStep .ok none fun s => { s with life := .ready, cc := true }
  | _ => .off

/-- INIT (41_driver.md R190). -/
def execInit [DecidableEq PinId] (pins : Quad PinId) (count : Arg) (s : State PinId) : Out PinId :=
  runRule (.init pins count)
    { check := admitInit pins
      onLife := fun s => { s with life := .building }
      begin := beginInit count
      prog := progInit pins count } s

/-- FINI's lifecycle write at issue: a constructed instance is being torn down (10_state.md R35). -/
def startTeardown (s : State PinId) : State PinId :=
  match s.life with
  | .ready => { s with life := .tearing }
  | .unbuilt => s
  | .building => s
  | .tearing => s

/-- FINI's local computation at issue: the construction guard, or the teardown (41_driver.md R208). -/
def beginFini (s : State PinId) (c : Ctx PinId) : Option (Ctx PinId) :=
  match s.life with
  | .unbuilt => some (goto .guard c)
  | .ready => some (goto .clearLow c)
  | .building => some (goto .clearLow c)
  | .tearing => some (goto .clearLow c)

/-- `release:` of FINI's pseudocode: the releases start at `k = 0`. It is also FINI's error epilogue (41_driver.md R208). -/
def startRelease (c : Ctx PinId) : Ctx PinId := goto .release { c with k := some 0 }

/-- After FINI's `Release(k)`. -/
def afterRelease (k : Nat) (c : Ctx PinId) : Ctx PinId :=
  if k < 3 then goto .release { c with k := some (k + 1) } else goto .done c

/-- FINI's `Release(k)` step. -/
def releaseStep (c : Ctx PinId) : Fetched PinId :=
  match c.k with
  | some k =>
    match Line.ofIndex k with
    | some l => .step { op := .release l, next := afterRelease k }
    | none => .off
  | none => .undef

/-- `LIFE <- UNBUILT; CC <- false; BUF, CAP, PINS <- undefined` (41_driver.md R208). -/
def endInstance (s : State PinId) : State PinId :=
  { s with life := .unbuilt, cc := false, buf := none, cap := none, pins := none }

/-- FINI's micro-program (41_driver.md R208). -/
def progFini (_ : State PinId) (c : Ctx PinId) (u : UPos) : Fetched PinId :=
  match u with
  | .guard => completeStep .constructionIncomplete none
  | .driveAll => .step { op := .driveAll false, next := startRelease, onFail := startRelease }
  | .release => releaseStep c
  | .done => completeStep (finalStatus c.err) none endInstance
  | _ => (clearPulse (goto .latchLow) startRelease u).orElse (latchPulse (goto .driveAll) startRelease u)

/-- FINI (41_driver.md R208). -/
def execFini (s : State PinId) : Out PinId :=
  runRule .fini { check := admitFini, onLife := startTeardown, begin := beginFini, prog := progFini } s

end Sys2Proof.Machine
end

