-- ==== Sys2Proof/Machine/Driver.lean ====
section
/-! DEFINITION. The protocol engine's commands DRV.* (41_driver.md R195 to R205). None takes the commit lock (D27). -/

namespace Sys2Proof.Machine

variable {PinId : Type}

/-- A command whose first micro-step is at `u`, whatever its operands. -/
def beginAt (u : UPos) (_ : State PinId) (c : Ctx PinId) : Option (Ctx PinId) := some (goto u c)

/-- `step Complete(OK, CAP)` (41_driver.md R195, 42_wrapper.md R240). -/
def progCap (s : State PinId) (_ : Ctx PinId) (u : UPos) : Fetched PinId :=
  match u with
  | .done =>
    match s.cap with
    | some n => completeStep .ok (some (n : Int))
    | none => .undef
  | _ => .off

/-- DRV.CAP (41_driver.md R195). -/
def execDrvCap (s : State PinId) : Out PinId :=
  runRule .drvCap { check := admitReady, begin := beginAt .done, prog := progCap } s

/-- DRV.CLR's micro-program (41_driver.md R197). -/
def progDrvClr (_ : State PinId) (c : Ctx PinId) (u : UPos) : Fetched PinId :=
  match u with
  | .done => completeStep .ok none
  | _ => (clearPulse (goto .done) epilogue u).orElse (errorEpilogue c u)

/-- DRV.CLR (41_driver.md R197). -/
def execDrvClr (s : State PinId) : Out PinId :=
  runRule .drvClr { check := admitReady, begin := beginAt .clearLow, prog := progDrvClr } s

/-- DRV.WR's validation at issue: a valid word is kept in `snap` (41_driver.md R200, 10_state.md R40 field P8). -/
def beginDrvWr (word : Arg) (s : State PinId) (c : Ctx PinId) : Option (Ctx PinId) :=
  match s.cap with
  | none => none
  | some n =>
    match validWord n word with
    | some w => some (goto .clearLow { c with snap := some w })
    | none => some (goto .reject c)

/-- DRV.WR's micro-program (41_driver.md R200). -/
def progDrvWr (s : State PinId) (c : Ctx PinId) (u : UPos) : Fetched PinId :=
  match u with
  | .reject => completeStep .invalidArgument none
  | .done => completeStep .ok none
  | _ => (transmit s.cap c (goto .done) u).orElse (errorEpilogue c u)

/-- DRV.WR (41_driver.md R200). -/
def execDrvWr (word : Arg) (s : State PinId) : Out PinId :=
  runRule (.drvWr word) { check := admitReady, begin := beginDrvWr word, prog := progDrvWr } s

/-- DRV.ZERO's micro-program (41_driver.md R205). -/
def progDrvZero (_ : State PinId) (c : Ctx PinId) (u : UPos) : Fetched PinId :=
  match u with
  | .driveAll => .step { op := .driveAll false, next := goto .done }
  | .done => completeStep .ok none
  | _ => errorEpilogue c u

/-- DRV.ZERO (41_driver.md R205). -/
def execDrvZero (s : State PinId) : Out PinId :=
  runRule .drvZero { check := admitReady, begin := beginAt .driveAll, prog := progDrvZero } s

end Sys2Proof.Machine
end

