-- ==== Sys2Proof/Machine/Wrapper.lean ====
section
/-! DEFINITION. The commit arbiter's commands BUF.* (42_wrapper.md R240 to R260), in both `ARB_SCOPE`s (R258). -/

namespace Sys2Proof.Machine

variable {PinId : Type}

/-- The first of two positions under `COMMIT_ONLY`, the second under `WIDE` (00_scope.md R10). -/
def byScope (s : State PinId) (commitOnly wide : UPos) : UPos :=
  match s.cfg.arbScope with
  | .commitOnly => commitOnly
  | .wide => wide

/-- A command whose first micro-step depends on `ARB_SCOPE` only. -/
def beginByScope (commitOnly wide : UPos) (s : State PinId) (c : Ctx PinId) : Option (Ctx PinId) :=
  some (goto (byScope s commitOnly wide) c)

/-- BUF.CAP (42_wrapper.md R240): the engine's capacity. -/
def execBufCap (s : State PinId) : Out PinId :=
  runRule .bufCap { check := admitReady, begin := beginAt .done, prog := progCap } s

/-- BUF.CLR's micro-program (42_wrapper.md R255). -/
def progBufClr (s : State PinId) (c : Ctx PinId) (u : UPos) : Fetched PinId :=
  match u with
  | .acquire => .step { op := .lockAcquire, next := goto .bufWrite }
  | .bufWrite => .step { op := .bufWrite (some 0), next := goto .clearLow }
  | .unlock => .step { op := .lockRelease, next := goto .done }
  | .done => completeStep (finalStatus c.err) none
  | _ => (clearPulse (goto (byScope s .done .unlock)) epilogue u).orElse (errorEpilogue c u)

/-- BUF.CLR (42_wrapper.md R255). -/
def execBufClr (s : State PinId) : Out PinId :=
  runRule .bufClr { check := admitReady, begin := beginByScope .bufWrite .acquire, prog := progBufClr } s

/-- BUF.WR's micro-program (42_wrapper.md R251): the buffer write comes before the lock under `COMMIT_ONLY`, after it under
`WIDE`; then the commit body. -/
def progBufWr (word : Arg) (s : State PinId) (c : Ctx PinId) (u : UPos) : Fetched PinId :=
  match u with
  | .bufWrite => .step { op := .bufWrite (bufWord word), next := goto (byScope s .acquire .bufRead) }
  | .acquire => .step { op := .lockAcquire, next := goto (byScope s .bufRead .bufWrite) }
  | _ => commitBody s.cap c u

/-- BUF.WR (42_wrapper.md R251). -/
def execBufWr (word : Arg) (s : State PinId) : Out PinId :=
  runRule (.bufWr word) { check := admitReady, begin := beginByScope .bufWrite .acquire, prog := progBufWr word } s

/-- A command that goes on at `u` if its position operand is valid, and else completes `INVALID_ARGUMENT`. -/
def beginPos (pos : Arg) (u : UPos) (s : State PinId) (c : Ctx PinId) : Option (Ctx PinId) :=
  match s.cap with
  | none => none
  | some n =>
    match validPos n pos with
    | some _ => some (goto u c)
    | none => some (goto .reject c)

/-- BUF.CHK's micro-program (42_wrapper.md R242). -/
def progBufChk (_ : State PinId) (_ : Ctx PinId) (u : UPos) : Fetched PinId :=
  match u with
  | .done => completeStep .ok none
  | .reject => completeStep .invalidArgument none
  | _ => .off

/-- BUF.CHK (42_wrapper.md R242). -/
def execBufChk (pos : Arg) (s : State PinId) : Out PinId :=
  runRule (.bufChk pos) { check := admitReady, begin := beginPos pos .done, prog := progBufChk } s

/-- BUF.GET's last Complete: `bit(ctx.tmp, v)` (42_wrapper.md R244, R245). -/
def getBitStep (pos : Arg) (s : State PinId) (c : Ctx PinId) : Fetched PinId :=
  match s.cap, c.tmp with
  | some n, some t =>
    match validPos n pos with
    | some v => completeStep .ok (some (bit t v))
    | none => .off
  | _, _ => .undef

/-- BUF.GET's micro-program (42_wrapper.md R244). -/
def progBufGet (pos : Arg) (s : State PinId) (c : Ctx PinId) (u : UPos) : Fetched PinId :=
  match u with
  | .reject => completeStep .invalidArgument none
  | .bufRead => .step { op := .bufReadTmp, next := goto .done }
  | .done => getBitStep pos s c
  | _ => .off

/-- BUF.GET (42_wrapper.md R244). -/
def execBufGet (pos : Arg) (s : State PinId) : Out PinId :=
  runRule (.bufGet pos) { check := admitReady, begin := beginPos pos .bufRead, prog := progBufGet pos } s

/-- BUF.SET's validation: position first, then value (42_wrapper.md R246). -/
def beginBufSet (pos value : Arg) (s : State PinId) (c : Ctx PinId) : Option (Ctx PinId) :=
  match s.cap with
  | none => none
  | some n =>
    match validPos n pos, validVal value with
    | some _, some _ => some (goto (byScope s .bufRead .acquire) c)
    | _, _ => some (goto .reject c)

/-- BUF.SET's `BufWrite(setbit(ctx.tmp, v, x))` (42_wrapper.md R246). -/
def setBitStep (pos value : Arg) (s : State PinId) (c : Ctx PinId) : Fetched PinId :=
  match s.cap, c.tmp with
  | some n, some t =>
    match validPos n pos, validVal value with
    | some v, some x => .step { op := .bufWrite (some (setbit t v x)), next := goto (byScope s .done .unlock) }
    | _, _ => .off
  | _, _ => .undef

/-- BUF.SET's micro-program (42_wrapper.md R246). -/
def progBufSet (pos value : Arg) (s : State PinId) (c : Ctx PinId) (u : UPos) : Fetched PinId :=
  match u with
  | .reject => completeStep .invalidArgument none
  | .acquire => .step { op := .lockAcquire, next := goto .bufRead }
  | .bufRead => .step { op := .bufReadTmp, next := goto .bufWrite }
  | .bufWrite => setBitStep pos value s c
  | .unlock => .step { op := .lockRelease, next := goto .done }
  | .done => completeStep .ok none
  | _ => .off

/-- BUF.SET (42_wrapper.md R246). -/
def execBufSet (pos value : Arg) (s : State PinId) : Out PinId :=
  runRule (.bufSet pos value) { check := admitReady, begin := beginBufSet pos value, prog := progBufSet pos value } s

/-- BUF.COMMIT's micro-program (42_wrapper.md R249). -/
def progBufCommit (s : State PinId) (c : Ctx PinId) (u : UPos) : Fetched PinId :=
  match u with
  | .acquire => .step { op := .lockAcquire, next := goto .bufRead }
  | _ => commitBody s.cap c u

/-- BUF.COMMIT (42_wrapper.md R249). -/
def execBufCommit (s : State PinId) : Out PinId :=
  runRule .bufCommit { check := admitReady, begin := beginAt .acquire, prog := progBufCommit } s

/-- BUF.GETBUF's micro-program (42_wrapper.md R253). -/
def progBufGetbuf (_ : State PinId) (c : Ctx PinId) (u : UPos) : Fetched PinId :=
  match u with
  | .bufRead => .step { op := .bufReadTmp, next := goto .done }
  | .done =>
    match c.tmp with
    | some t => completeStep .ok (some t)
    | none => .undef
  | _ => .off

/-- BUF.GETBUF (42_wrapper.md R253). -/
def execBufGetbuf (s : State PinId) : Out PinId :=
  runRule .bufGetbuf { check := admitReady, begin := beginAt .bufRead, prog := progBufGetbuf } s

end Sys2Proof.Machine
end

