-- ==== Sys2Proof/Machine/Dispatch.lean ====
section
/-! DEFINITION. One atomic step of the active port running an instruction: one arm per constructor of Instr. -/

namespace Sys2Proof.Machine

def exec (i : Instr) (s : State) : Host.Outcome State Fault Refusal :=
  match i with
  | .drvCap => Sys2Proof.Machine.execDrvCap s
  | .drvClr => Sys2Proof.Machine.execDrvClr s
  | .drvWr word => Sys2Proof.Machine.execDrvWr word s
  | .drvZero => Sys2Proof.Machine.execDrvZero s
  | .bufCap => Sys2Proof.Machine.execBufCap s
  | .bufClr => Sys2Proof.Machine.execBufClr s
  | .bufWr word => Sys2Proof.Machine.execBufWr word s
  | .bufChk pos => Sys2Proof.Machine.execBufChk pos s
  | .bufGet pos => Sys2Proof.Machine.execBufGet pos s
  | .bufSet pos value => Sys2Proof.Machine.execBufSet pos value s
  | .bufCommit => Sys2Proof.Machine.execBufCommit s
  | .bufGetbuf => Sys2Proof.Machine.execBufGetbuf s
  | .init pins count => Sys2Proof.Machine.execInit pins count s
  | .fini => Sys2Proof.Machine.execFini s

end Sys2Proof.Machine
end

