-- ==== Sys2Proof/Machine/Fetch.lean ====
section
/-! DEFINITION. Which port steps next, and what it runs: the scheduler (40_sequencer.md R161), the host thread behind an idle
port (R160, 60_exceptions.md R322), and the command a busy port is running. -/

namespace Sys2Proof.Machine

variable {PinId : Type}

/-- The port's next micro-step is a LockAcquire while the lock is taken: it has no enabled step (20_memory.md R85). -/
def held (s : State PinId) (c : Ctx PinId) : Bool := c.busy && c.upc = some .acquire && s.lock.isSome

/-- The port has a step: its next micro-step if it is busy and not held, an issue if it is idle and the host thread has a
command to present (40_sequencer.md R161). -/
def canStep (s : State PinId) (c : Ctx PinId) : Bool := if c.busy then !held s c else !c.queue.isEmpty

/-- The ports that have a step, ascending. -/
def State.ready (s : State PinId) : List Nat :=
  (List.range s.ports.length).filter fun p => match s.ports[p]? with | some c => canStep s c | none => false

/-- The scheduler's choice (40_sequencer.md R161): the state's next choice if it lists one; else the only port that has a step,
or a free choice among several (notes/assumptions/2.md); `none` if no port has one. -/
def choose (s : State PinId) : Option (Nat × State PinId) :=
  match s.sched with
  | p :: ps => some (p, { s with sched := ps })
  | [] =>
    match s.ready with
    | [] => none
    | [p] => some (p, s)
    | p :: ps => some (((p :: ps)[Config.freePick s.tick % (p :: ps).length]?).getD p, { s with tick := s.tick + 1 })

/-- What a step comes to before any instruction runs: an instruction on the active port, or an answer of its own. -/
inductive Turn (PinId : Type := Nat) where
  | run (i : Instr PinId) (s : State PinId)
  | answer (o : Out PinId)

/-- The command a busy port's context holds (10_state.md R40, fields P1 to P4), `none` if one of them is undefined. -/
def Ctx.command (c : Ctx PinId) : Option (Command PinId) :=
  match c.opc, c.a, c.b, c.pins with
  | some opc, some a, some b, some pins => some { opc := opc, a := a, b := b, pins := pins }
  | _, _, _, _ => none

/-- The model fault of a command that does not decode (60_exceptions.md R300, checks 1 and 2). -/
def rejectFault (e : DecodeError) (p : Nat) : Fault :=
  match e with
  | .reservedOpcode _ => .reservedOpcode p
  | .malformedCommand _ => .malformedCommand p

/-- A busy port goes on with the command in its context (40_sequencer.md R161). -/
def resume (s : State PinId) (c : Ctx PinId) : Turn PinId :=
  match c.command with
  | none => .answer (.next (s.enterFault (.readUndefined s.active)))
  | some cmd =>
    match decode cmd with
    | .ok i => .run i s
    | .error e => .answer (.next (s.enterFault (rejectFault e s.active)))

/-- An idle port is given the host thread's next command (40_sequencer.md R160). A command that does not decode is issued too,
and the issue enters the fault (60_exceptions.md R300). With no command to present nothing happens. -/
def accept (s : State PinId) (c : Ctx PinId) : Turn PinId :=
  match c.queue with
  | [] => .answer (.next s)
  | cmd :: rest =>
    let t := s.modCtx s.active fun x => { x with queue := rest }
    match decode cmd with
    | .ok i => .run i t
    | .error e => .answer (.next ((t.present cmd).enterFault (rejectFault e s.active)))

/-- The turn of port `p`; a choice that names no port does nothing. -/
def turnOf (p : Nat) (s : State PinId) : Turn PinId :=
  let t := { s with active := p }
  match t.ctx p with
  | none => .answer (.next t)
  | some c => if c.busy then resume t c else accept t c

/-- What the next step runs. A marked state has no further step (60_exceptions.md R310); with no port able to step the block
waits for the host (70_reset_and_hazards.md R344). -/
def fetch (s : State PinId) : Turn PinId :=
  match s.mark with
  | some f => .answer (.fault f)
  | none =>
    match choose s with
    | none => .answer (.next s)
    | some (p, t) => turnOf p t

/-- The lowest idle port; 0 if there is none. -/
def State.firstIdle (s : State PinId) : Nat :=
  ((List.range s.ports.length).find? fun p => match s.ports[p]? with | some c => !c.busy | none => false).getD 0

/-- The host thread of port `p` presents `cmd` next, and the scheduler lets port `p` step next. -/
def State.offer (s : State PinId) (p : Nat) (cmd : Command PinId) : State PinId :=
  { s.modCtx p (fun c => { c with queue := cmd :: c.queue }) with sched := p :: s.sched }

end Sys2Proof.Machine
end

