-- ==== Sys2Proof/Machine/Step.lean ====
section
/-! DEFINITION. One step of the block (40_sequencer.md R161): an issue on an idle port or the next micro-step of a busy port. -/

namespace Sys2Proof.Machine

/-- One step: the chosen port runs one atomic step of its instruction. -/
def step (s : State) : Host.Outcome State Fault Refusal :=
  match fetch s with
  | .run i t => exec i t
  | .answer o => o

/-- The state in which the next step issues a word of spec/opcode_table.json: the lowest idle port's host thread presents it
first, and the scheduler chooses that port (notes/assumptions/3.md, 12.md). -/
def State.withFetchWord (s : State) (nbits w : Nat) : State := s.offer s.firstIdle (tableCommand nbits w)

end Sys2Proof.Machine
end

