-- ==== Sys2Proof/Machine/AnyPins.lean ====
section
/-! DEFINITION. The machine over any type of pin identifiers with decidable equality (00_scope.md R10). `exec` and `step` are fixed
at the identifiers `Nat`; they are these two there, and these two are the same machine at every other type
(Sys2Proof/Laws/Pins.lean). -/

namespace Sys2Proof.Machine

variable {PinId : Type} [DecidableEq PinId]

/-- One atomic step of the active port running an instruction, over the identifiers `PinId`: each instruction has the one meaning
that `exec` gives it. -/
def execIn (i : Instr PinId) (s : State PinId) : Out PinId :=
  match i with
  | .drvCap => execDrvCap s
  | .drvClr => execDrvClr s
  | .drvWr word => execDrvWr word s
  | .drvZero => execDrvZero s
  | .bufCap => execBufCap s
  | .bufClr => execBufClr s
  | .bufWr word => execBufWr word s
  | .bufChk pos => execBufChk pos s
  | .bufGet pos => execBufGet pos s
  | .bufSet pos value => execBufSet pos value s
  | .bufCommit => execBufCommit s
  | .bufGetbuf => execBufGetbuf s
  | .init pins count => execInit pins count s
  | .fini => execFini s

/-- One step of the block over the identifiers `PinId` (40_sequencer.md R161): the chosen port runs one atomic step of its
instruction. -/
def stepIn (s : State PinId) : Out PinId :=
  match fetch s with
  | .run i t => execIn i t
  | .answer o => o

end Sys2Proof.Machine
end

