-- ==== Sys2Proof/Machine/Asm.lean ====
section
/-! DEFINITION. The assembler syntax of a command (30_encoding.md R130) and the pseudo-commands (R131): one line of text to the
port it names and the command it stands for. How a pin identifier is written is the argument `pin`; over the default identifiers
it is a natural number, or `p` and one (DESIGN CHOICE, notes/assumptions/15.md, safe). -/

namespace Sys2Proof.Machine

variable {PinId : Type}

/-- A line of a program: the issuing port and the command. -/
structure AsmLine (PinId : Type := Nat) where
  port : Nat
  cmd  : Command PinId
  deriving DecidableEq, Repr

/-- Blank characters. -/
def isBlank (c : Char) : Bool := c == ' ' || c == '\t'

/-- A text without its leading and trailing blanks. -/
def trim (cs : List Char) : List Char := ((cs.dropWhile isBlank).reverse.dropWhile isBlank).reverse

/-- The value of a digit in a base up to 16. -/
def digitValue (base : Nat) (c : Char) : Option Nat :=
  let v :=
    if '0' ≤ c && c ≤ '9' then c.toNat - 48
    else if 'a' ≤ c && c ≤ 'f' then c.toNat - 87
    else if 'A' ≤ c && c ≤ 'F' then c.toNat - 55
    else 16
  if v < base then some v else none

/-- The digits of a number, most significant first, onto `acc`. -/
def digitsOnto (base : Nat) : Nat → List Char → Option Nat
  | acc, [] => some acc
  | acc, c :: cs =>
    match digitValue base c with
    | some d => digitsOnto base (acc * base + d) cs
    | none => none

/-- A non-empty run of digits. -/
def digits (base : Nat) : List Char → Option Nat
  | [] => none
  | c :: cs => digitsOnto base 0 (c :: cs)

/-- An unsigned literal: `0x` hexadecimal, `0b` binary, or decimal (30_encoding.md R130). -/
def natLiteral : List Char → Option Nat
  | '0' :: 'x' :: cs => digits 16 cs
  | '0' :: 'b' :: cs => digits 2 cs
  | cs => digits 10 cs

/-- An unsigned decimal fraction: digits, a point, digits. -/
def isFraction (cs : List Char) : Bool :=
  match cs.span (· != '.') with
  | (whole, '.' :: part) => (digits 10 whole).isSome && (digits 10 part).isSome
  | _ => false

/-- A quoted string. -/
def isQuoted (cs : List Char) : Bool :=
  match cs with
  | '"' :: rest => rest.getLast? == some '"'
  | '\'' :: rest => rest.getLast? == some '\''
  | _ => false

/-- An operand (30_encoding.md R130): an integer literal with an optional `-`, a Boolean, or a non-integer. -/
def parseArg (cs : List Char) : Option Arg :=
  if cs = ['t', 'r', 'u', 'e'] then some (Arg.ofBool true)
  else if cs = ['f', 'a', 'l', 's', 'e'] then some (Arg.ofBool false)
  else if isQuoted cs then some .nonInt
  else
    match cs with
    | '-' :: rest =>
      if isFraction rest then some .nonInt else (natLiteral rest).map fun n => .int (-(n : Int))
    | _ => if isFraction cs then some .nonInt else (natLiteral cs).map fun n => .int (n : Int)

/-- A pin identifier of the default type: a natural number, or `p` and one. -/
def parsePin (cs : List Char) : Option Nat :=
  match cs with
  | 'p' :: rest => digits 10 rest
  | _ => natLiteral cs

/-- Where the text being split stands: in a quoted string, in parentheses, or in neither. -/
inductive SplitMode where
  | plain
  | quoted (q : Char)
  | paren
  deriving DecidableEq, Repr

/-- Split at the commas that stand neither in quotes nor in parentheses; `cur` is the current field, reversed. -/
def splitCommas : SplitMode → List Char → List Char → List (List Char)
  | _, cur, [] => [cur.reverse]
  | .quoted q, cur, c :: cs => splitCommas (if c = q then .plain else .quoted q) (c :: cur) cs
  | .paren, cur, c :: cs => splitCommas (if c = ')' then .plain else .paren) (c :: cur) cs
  | .plain, cur, c :: cs =>
    if c = ',' then cur.reverse :: splitCommas .plain [] cs
    else if c = '"' ∨ c = '\'' then splitCommas (.quoted c) (c :: cur) cs
    else if c = '(' then splitCommas .paren (c :: cur) cs
    else splitCommas .plain (c :: cur) cs

/-- The text before a comment, which starts with `;` outside quotes (30_encoding.md R130). -/
def dropComment : Option Char → List Char → List Char
  | _, [] => []
  | some q, c :: cs => c :: dropComment (if c = q then none else some q) cs
  | none, c :: cs =>
    if c = ';' then []
    else c :: dropComment (if c = '"' ∨ c = '\'' then some c else none) cs

/-- Comma-separated fields, trimmed; blank text has none. -/
def fields (cs : List Char) : List (List Char) :=
  match trim cs with
  | [] => []
  | c :: rest => (splitCommas .plain [] (c :: rest)).map trim

/-- All the operands of a list of fields, or none if one is not an operand. -/
def parseArgs : List (List Char) → Option (List Arg)
  | [] => some []
  | f :: fs =>
    match parseArg f, parseArgs fs with
    | some a, some as => some (a :: as)
    | _, _ => none

/-- `(p0, p1, p2, p3)`, in line order (30_encoding.md R130). -/
def parsePins (pin : List Char → Option PinId) (cs : List Char) : Option (Quad PinId) :=
  match cs with
  | '(' :: rest =>
    match rest.reverse with
    | ')' :: inner =>
      match (fields inner.reverse).map pin with
      | [some a, some b, some c, some d] => some ⟨a, b, c, d⟩
      | _ => none
    | _ => none
  | _ => none

/-- The slots `a, b` from at most two operands; an omitted one is `Absent`. -/
def withArgs (c : Command PinId) : List Arg → Option (Command PinId)
  | [] => some c
  | [a] => some { c with a := a }
  | [a, b] => some { c with a := a, b := b }
  | _ => none

/-- A name of the assembler: the mnemonics of R125 to R127 and the pseudo-commands of R131. -/
inductive AsmName where
  | op (opc : Opcode)
  | bufOn
  | bufOff
  deriving DecidableEq, Repr

/-- The names of the assembler (30_encoding.md R125 to R127, R131). -/
def asmNames : List (List Char × AsmName) :=
  [(['D', 'R', 'V', '.', 'C', 'A', 'P'], .op 0x00#8),
   (['D', 'R', 'V', '.', 'C', 'L', 'R'], .op 0x01#8),
   (['D', 'R', 'V', '.', 'W', 'R'], .op 0x02#8),
   (['D', 'R', 'V', '.', 'Z', 'E', 'R', 'O'], .op 0x03#8),
   (['B', 'U', 'F', '.', 'C', 'A', 'P'], .op 0x10#8),
   (['B', 'U', 'F', '.', 'C', 'L', 'R'], .op 0x11#8),
   (['B', 'U', 'F', '.', 'W', 'R'], .op 0x12#8),
   (['B', 'U', 'F', '.', 'C', 'H', 'K'], .op 0x13#8),
   (['B', 'U', 'F', '.', 'G', 'E', 'T'], .op 0x14#8),
   (['B', 'U', 'F', '.', 'S', 'E', 'T'], .op 0x15#8),
   (['B', 'U', 'F', '.', 'C', 'O', 'M', 'M', 'I', 'T'], .op 0x16#8),
   (['B', 'U', 'F', '.', 'G', 'E', 'T', 'B', 'U', 'F'], .op 0x17#8),
   (['I', 'N', 'I', 'T'], .op 0xF0#8),
   (['F', 'I', 'N', 'I'], .op 0xF1#8),
   (['B', 'U', 'F', '.', 'O', 'N'], .bufOn),
   (['B', 'U', 'F', '.', 'O', 'F', 'F'], .bufOff)]

/-- The command of a name and its operand fields, in the slot order of its format (30_encoding.md R130, R131). -/
def assemble (pin : List Char → Option PinId) (n : AsmName) (fs : List (List Char)) : Option (Command PinId) :=
  match n with
  | .op opc =>
    match formatOf opc, fs with
    | some .i, f :: rest =>
      match parsePins pin f, parseArgs rest with
      | some q, some as => withArgs { (Command.bare opc : Command PinId) with pins := some q } as
      | _, _ => none
    | some .i, [] => some (Command.bare opc)
    | _, _ =>
      match parseArgs fs with
      | some as => withArgs (Command.bare opc) as
      | none => none
  | .bufOn =>
    match parseArgs fs with
    | some [pos] => some (encode (Instr.bufOn pos))
    | _ => none
  | .bufOff =>
    match parseArgs fs with
    | some [pos] => some (encode (Instr.bufOff pos))
    | _ => none

/-- A line without comment and port mark. -/
def parseCommand (pin : List Char → Option PinId) (cs : List Char) : Option (Command PinId) :=
  let (name, rest) := (trim cs).span fun c => !isBlank c
  match asmNames.lookup name with
  | some n => assemble pin n (fields rest)
  | none => none

/-- One line of a program (30_encoding.md R130): an optional `@p:`, a mnemonic and its operands, an optional comment. `none` if
the line is not of that form (a line with no command is not one either). -/
def parseLineWith (pin : List Char → Option PinId) (cs : List Char) : Option (AsmLine PinId) :=
  match trim (dropComment none cs) with
  | '@' :: rest =>
    match rest.span (· != ':') with
    | (port, ':' :: body) =>
      match digits 10 (trim port), parseCommand pin body with
      | some p, some c => some { port := p, cmd := c }
      | _, _ => none
    | _ => none
  | body => (parseCommand pin body).map fun c => { port := 0, cmd := c }

/-- One line of a program over the default pin identifiers. -/
def parseLine (cs : List Char) : Option AsmLine := parseLineWith parsePin cs

end Sys2Proof.Machine
end

