-- ==== Sys2Proof/Machine/Observe.lean ====
section
/-! DEFINITION. The observation (20_memory.md R80 to R82, R97; 70_reset_and_hazards.md R355, R356): the wire trace, the lines
and the chain folded from the history, the outputs, and the event sequences of the pulse macros. -/

namespace Sys2Proof.Machine

variable {PinId : Type}

/-- Wire events (20_memory.md R81); the others are internal (R82). -/
def Event.isWire : Event → Bool
  | .claim _ _ => true
  | .drv _ _ => true
  | .drvf _ _ _ => true
  | .drvAll _ => true
  | .drvAllf _ _ => true
  | .dly => true
  | .rel _ => true
  | .acq => false
  | .rls => false
  | .brd _ => false
  | .bwr _ => false
  | .issue _ => false
  | .done _ => false

/-- The wire trace: the wire events of the history, in order (20_memory.md R80). -/
def wireTrace (h : List Entry) : List Entry := h.filter fun e => e.ev.isWire

/-- A drive of one line or of all four that succeeded (40_sequencer.md R178). -/
def Event.isDrive : Event → Bool
  | .drv _ _ => true
  | .drvAll _ => true
  | .claim _ _ => false
  | .drvf _ _ _ => false
  | .drvAllf _ _ => false
  | .dly => false
  | .rel _ => false
  | .acq => false
  | .rls => false
  | .brd _ => false
  | .bwr _ => false
  | .issue _ => false
  | .done _ => false

/-- The levels an event gives the lines, `none` if it gives them none (10_state.md R43, 20_memory.md R94). -/
def Event.levels (e : Event) (ls : Quad Level) : Option (Quad Level) :=
  match e with
  | .claim l ok => if ok then some (ls.set l .x) else none
  | .drv l v => some (ls.set l (Level.ofBit v))
  | .drvf l v took => if took then some (ls.set l (Level.ofBit v)) else none
  | .drvAll v => some (Quad.all (Level.ofBit v))
  | .drvAllf v took => if took then some (Quad.all (Level.ofBit v)) else none
  | .rel l => some (ls.set l .z)
  | .dly => none
  | .acq => none
  | .rls => none
  | .brd _ => none
  | .bwr _ => none
  | .issue _ => none
  | .done _ => none

/-- Levels and chain after one more event (20_memory.md R97). -/
def foldEvent (x : Quad Level × Chain) (e : Entry) : Quad Level × Chain :=
  match e.ev.levels x.1 with
  | some ls => (ls, x.2.react x.1 ls)
  | none => x

/-- Levels and chain folded over a history from given ones (20_memory.md R97). -/
def foldHist (x : Quad Level × Chain) (h : List Entry) : Quad Level × Chain := h.foldl foldEvent x

/-- The outputs of a history for a chain of `cap` bits, from power-on (20_memory.md R90, R97). -/
def observe (cap : Nat) (h : List Entry) : Quad Level × Chain :=
  foldHist (Quad.all .z, ⟨List.replicate cap .x, List.replicate cap .x⟩) h

/-- Output pin `p` of register `r` (20_memory.md R71, R97), `none` if the chain has no such bit. -/
def Chain.output (c : Chain) (r p : Nat) : Option CBit := c.q[8 * r + p]?

/-- The letter of an output pin, A to H for pins 0 to 7 (00_scope.md R19; letters other than A and D PRESUMED by the spec, G2,
notes/assumptions/17.md). -/
def outputLetter (p : Nat) : Char := Char.ofNat (65 + p)

/-- The stage that holds an integer's bits 0 to `cap - 1`. -/
def wordStage (cap : Nat) (w : Int) : List CBit := (List.range cap).map (CBit.ofBit w)

/-- The events of `ClearPulse()` (40_sequencer.md R174). -/
def clearEvents : List Event := [.drv .clrN false, .dly, .drv .clrN true]

/-- The events of `ShiftBit(b)` (40_sequencer.md R175). -/
def shiftEvents (b : Bool) : List Event :=
  [.drv .sdata b, .drv .sclk false, .dly, .drv .sclk true, .dly, .drv .sclk false]

/-- The events of `LatchPulse()` (40_sequencer.md R176). -/
def latchEvents : List Event := [.drv .lclk false, .dly, .drv .lclk true, .dly, .drv .lclk false]

/-- The shift pulses of bits `n-1` down to 0 of a word (40_sequencer.md R177). -/
def shiftLoopEvents (w : Int) : Nat → List Event
  | 0 => []
  | n + 1 => shiftEvents (levelBit w n) ++ shiftLoopEvents w n

/-- The events of `Transmit(w)` (40_sequencer.md R177). -/
def transmitEvents (cap : Nat) (w : Int) : List Event := clearEvents ++ shiftLoopEvents w cap ++ latchEvents

/-- Who holds the lock after a history's `ACQ` and `RLS` events, from a given holder; `none` if an `ACQ` stands while a port
holds the lock, or an `RLS` of a port that does not (20_memory.md R85, R86). -/
def lockWalk : Option Nat → List Entry → Option (Option Nat)
  | h, [] => some h
  | h, e :: es =>
    match e.ev with
    | .acq => if h = none then lockWalk (some e.port) es else none
    | .rls => if h = some e.port then lockWalk none es else none
    | _ => lockWalk h es

/-- The value of `BUF` after a history's `BRD` and `BWR` events, from a given value; `none` if a `BRD` carries another value than
the latest `BWR` wrote (20_memory.md R83). -/
def bufWalk : Option Int → List Entry → Option (Option Int)
  | v, [] => some v
  | v, e :: es =>
    match e.ev with
    | .bwr w => bufWalk w es
    | .brd r => if v = some r then bufWalk v es else none
    | _ => bufWalk v es

/-- Events as one port executes them. -/
def tagged (p : Nat) (es : List Event) : List Entry := es.map (Entry.mk p)

/-- The least time the line activity of port `p` in a history takes: `T_EDGE` for each `DLY` of that port, whose delays follow one
another (70_reset_and_hazards.md R355, per command). DESIGN CHOICE (notes/assumptions/18.md), safe: the rule gives no time for
several ports together, whose delays may overlap, and neither does the model; other ports' events do not count here. -/
def minLineTime (tEdge : Duration) (p : Nat) (h : List Entry) : Rat :=
  tEdge.val * ((h.filter fun e => e.port == p && e.ev == .dly).length : Nat)

/-- A run has ended: every port idle and no fault recorded (70_reset_and_hazards.md R356). -/
def State.ended (s : State PinId) : Bool := s.mark.isNone && s.ports.all fun c => !c.busy

end Sys2Proof.Machine
end

