-- ==== Sys2Proof/Safety.lean ====
section
/-! DEFINITION. The terms claims are stated in: repeated steps of one port, answers of the oracle, contexts after a command,
and the invariant of the block (10_state.md R35, R39, R41, R43; 20_memory.md R90 to R96; 70_reset_and_hazards.md R352, R353). -/

namespace Sys2Proof.Machine

variable {PinId : Type}

/-- `k` successive atomic steps of the active port running instruction `i`. -/
def execTimes : Nat → Instr → State → Out
  | 0, _, s => .next s
  | k + 1, i, s =>
    match exec i s with
    | .next t => execTimes k i t
    | .fault f => .fault f
    | .refused r => .refused r

/-- The oracle's next `k` answers are successes, or no call can fail (40_sequencer.md R163). -/
def oracleOk (s : State PinId) (k : Nat) : Bool :=
  !s.cfg.backendFaults || (decide (k ≤ s.draws.length) && (s.draws.take k).all fun d => d.ok)

/-- The answers left after `k` calls of the oracle, when the state lists at least `k`. -/
def drawsAfter (s : State PinId) (k : Nat) : List Draw := if s.cfg.backendFaults then s.draws.drop k else s.draws

/-- The context `c` of a port after it has been given the command of `i` (40_sequencer.md R160), standing at `u`. -/
def issued (i : Instr PinId) (u : UPos) (c : Ctx PinId) : Ctx PinId :=
  { c with
    busy := true
    opc := some (encode i).opc
    a := some (encode i).a
    b := some (encode i).b
    pins := some (encode i).pins
    err := none
    upc := some u }

/-- The context `c` of a port after instruction `i` has completed at position `u` with a status and a result (R173). -/
def finished (i : Instr PinId) (u : UPos) (st : Status) (r : Option Int) (c : Ctx PinId) : Ctx PinId :=
  { issued i u c with busy := false, sts := some st, res := some r }

/-- A state after the active port has appended events and its context has changed. -/
def after (s : State PinId) (es : List Event) (f : Ctx PinId → Ctx PinId) : State PinId :=
  { s with hist := s.hist ++ tagged s.active es, ports := s.ports.modify s.active f }

/-- The active port can be given a command: it exists, is idle and holds no lock, and no fault is recorded. -/
def atRest (s : State PinId) : Bool :=
  s.mark.isNone && (match s.ctx s.active with | some c => !c.busy && !c.holdsLock | none => false)

/-- The instance is built, with capacity `n` and all four pins claimed and driven (41_driver.md R193). -/
def built (s : State PinId) (n : Nat) : Bool :=
  s.life = .ready && s.cap = some n && allClaimed s.claimed && !floating s.line && decide (0 < n) &&
    decide (s.chain.s.length = n) && decide (s.chain.q.length = n)

/-- Lines of index `lo ≤ k < hi` are claimed, the others not. -/
def claimedRange (q : Quad Bool) (lo hi : Nat) : Bool :=
  q.sdata == decide (lo ≤ 0 ∧ 0 < hi) && q.sclk == decide (lo ≤ 1 ∧ 1 < hi) && q.lclk == decide (lo ≤ 2 ∧ 2 < hi) &&
    q.clrN == decide (lo ≤ 3 ∧ 3 < hi)

/-- A level that the block drives (00_scope.md R16). -/
def Level.driven (l : Level) : Bool := l = .low || l = .high

/-- Between a drive to low and the drive to high of a pulse the line stands at a driven level (70_reset_and_hazards.md R353). -/
def pulseOk (s : State PinId) (u : UPos) : Bool :=
  match u with
  | .clearWait | .clearHigh => s.line.clrN.driven
  | .shiftWait | .shiftHigh => s.line.sclk.driven
  | .latchWait | .latchHigh => s.line.lclk.driven
  | _ => true

/-- The line and the level that a position of the pulse macros drives (40_sequencer.md R174 to R176); `b` is the data bit. -/
def driveAt (b : Bool) (u : UPos) : Option (Line × Bool) :=
  match u with
  | .clearLow => some (.clrN, false)
  | .clearHigh => some (.clrN, true)
  | .shiftData => some (.sdata, b)
  | .shiftLow => some (.sclk, false)
  | .shiftHigh => some (.sclk, true)
  | .shiftFall => some (.sclk, false)
  | .latchLow => some (.lclk, false)
  | .latchHigh => some (.lclk, true)
  | .latchFall => some (.lclk, false)
  | _ => none

/-- The data bit of the shift loop in a context: `bit(ctx.snap, ctx.i)` (40_sequencer.md R177). -/
def dataBit (c : Ctx PinId) : Bool :=
  match c.snap, c.i with
  | some w, some i => levelBit w i
  | _, _ => false

/-- The commands that drive lines, INIT and FINI apart (60_exceptions.md R301, R305). -/
def drivesLines (i : Instr PinId) : Bool :=
  match i with
  | .drvClr | .drvWr _ | .drvZero | .bufClr | .bufWr _ | .bufCommit => true
  | .drvCap | .bufCap | .bufChk _ | .bufGet _ | .bufSet _ _ | .bufGetbuf | .init _ _ | .fini => false

/-- The reserved opcodes (30_encoding.md R128). -/
def reservedOpcode (opc : Opcode) : Bool :=
  let o := opc.toNat
  decide ((0x04 ≤ o ∧ o ≤ 0x0F) ∨ (0x18 ≤ o ∧ o ≤ 0xEF) ∨ (0xF2 ≤ o ∧ o ≤ 0xFF))

/-- A position of `ClearPulse`. -/
def isClear (u : UPos) : Bool := u = .clearLow || u = .clearWait || u = .clearHigh

/-- A position of `LatchPulse`. -/
def isLatch (u : UPos) : Bool :=
  u = .latchLow || u = .latchWait || u = .latchHigh || u = .latchHold || u = .latchFall

/-- A position of `Transmit` with the registers it reads defined and in range (40_sequencer.md R177). -/
def transmitOk (n : Nat) (c : Ctx PinId) (u : UPos) : Bool :=
  (isClear u || isShift u || isLatch u) &&
    (match c.snap with | some w => inRange n w | none => false) &&
    (!isShift u || (match c.i with | some i => decide (i < n) | none => false))

/-- INIT stands at `u` with what it has built so far (41_driver.md R191). -/
def initOk (s : State PinId) (c : Ctx PinId) (count : Arg) (u : UPos) : Bool :=
  let n := validCount s.cfg.capMax count
  s.life = .building && !c.holdsLock &&
    match u with
    | .reject => claimedRange s.claimed 0 0 && s.cap.isNone && s.buf.isNone
    | .claim =>
      match c.k with
      | some k =>
        decide (k ≤ 3) && claimedRange s.claimed 0 k && s.buf.isNone && n.isSome &&
          (if k = 0 then s.cap.isNone else c.n = n && s.cap = n.map capacity)
      | none => false
    | .rollback =>
      match c.k, c.j with
      | some k, some j => decide (k ≤ 3) && decide (j < k) && claimedRange s.claimed j k && s.cap.isSome && s.buf.isNone
      | _, _ => false
    | .claimFailed => claimedRange s.claimed 0 0 && s.buf.isNone
    | .bufWrite => claimedRange s.claimed 0 4 && s.cap.isSome
    | .done => claimedRange s.claimed 0 4 && s.cap.isSome
    | _ => false

/-- FINI stands at `u` with what it has not yet released (41_driver.md R208). -/
def finiOk (s : State PinId) (c : Ctx PinId) (u : UPos) : Bool :=
  !c.holdsLock &&
    match u with
    | .guard => s.life = .unbuilt
    | .release =>
      s.life = .tearing && s.cap.isSome && (match c.k with | some k => decide (k ≤ 3) && claimedRange s.claimed k 4 | none => false)
    | .done => s.life = .tearing && claimedRange s.claimed 0 0
    | _ => (isClear u || isLatch u || u = .driveAll) && s.life = .tearing && s.cap.isSome && claimedRange s.claimed 0 4

/-- The error epilogue of a port that holds the lock, or has released it (40_sequencer.md R179). -/
def epilogueOk (c : Ctx PinId) (u : UPos) : Bool :=
  (u = .errUnlock && c.holdsLock && c.err.isSome) || (u = .errComplete && !c.holdsLock && c.err.isSome)

/-- A position inside the commit body or after it (42_wrapper.md R249). -/
def commitOk (n : Nat) (c : Ctx PinId) (u : UPos) : Bool :=
  ((u = .bufRead || (u = .unlock && c.snap.isSome) || transmitOk n c u) && c.holdsLock) || (u = .done && !c.holdsLock) || epilogueOk c u

/-- A busy port running `i` stands at a position of `i`'s micro-program, with the registers that the micro-step reads defined,
and holds the lock exactly inside its locked region (42_wrapper.md R258). -/
def posOk (s : State PinId) (c : Ctx PinId) (i : Instr PinId) (u : UPos) : Bool :=
  pulseOk s u &&
    match i with
    | .init _ count => initOk s c count u
    | .fini => finiOk s c u
    | _ =>
      s.life = .ready &&
        match s.cap with
        | none => false
        | some n =>
          let wide := s.cfg.arbScope == .wide
          match i with
          | .init _ _ => false
          | .fini => false
          | .drvCap => u = .done && !c.holdsLock
          | .bufCap => u = .done && !c.holdsLock
          | .drvClr => ((isClear u || u = .done) && !c.holdsLock) || (epilogueOk c u && u ≠ .errUnlock)
          | .drvWr _ =>
            ((u = .reject || u = .done || transmitOk n c u) && !c.holdsLock) || (epilogueOk c u && u ≠ .errUnlock)
          | .drvZero => ((u = .driveAll || u = .done) && !c.holdsLock) || (epilogueOk c u && u ≠ .errUnlock)
          | .bufClr =>
            (u = .acquire && wide && !c.holdsLock) || ((u = .bufWrite || isClear u) && c.holdsLock == wide) ||
              (u = .unlock && c.holdsLock && wide) || (u = .done && !c.holdsLock) || epilogueOk c u
          | .bufWr _ =>
            (u = .bufWrite && c.holdsLock == wide) || (u = .acquire && !c.holdsLock) || commitOk n c u
          | .bufChk _ => (u = .reject || u = .done) && !c.holdsLock
          | .bufGet pos =>
            (u = .reject || (u = .bufRead && (validPos n pos).isSome) ||
              (u = .done && (validPos n pos).isSome && c.tmp.isSome)) && !c.holdsLock
          | .bufSet pos value =>
            let valid := (validPos n pos).isSome && (validVal value).isSome
            ((u = .reject || u = .done) && !c.holdsLock) || (u = .acquire && wide && valid && !c.holdsLock) ||
              (u = .bufRead && valid && c.holdsLock == wide) ||
              (u = .bufWrite && valid && c.tmp.isSome && c.holdsLock == wide) || (u = .unlock && wide && c.holdsLock)
          | .bufCommit => (u = .acquire && !c.holdsLock) || commitOk n c u
          | .bufGetbuf => ((u = .bufRead) || (u = .done && c.tmp.isSome)) && !c.holdsLock

/-- The context of a port is in order: an idle port holds no lock, a busy one is in its instruction's micro-program. -/
def ctxOk (s : State PinId) (c : Ctx PinId) : Bool :=
  if c.busy then
    match c.command, c.upc with
    | some cmd, some u =>
      match decode cmd with
      | .ok i => posOk s c i u
      | .error _ => false
    | _, _ => false
  else !c.holdsLock

/-- At most one port is busy. -/
def oneBusy (s : State PinId) : Bool := decide ((s.ports.filter fun c => c.busy).length ≤ 1)

/-- The lock's holder is the one port whose `holds_lock` is set (10_state.md R41). -/
def LockInv (s : State PinId) : Prop :=
  ∀ p c, s.ports[p]? = some c → (c.holdsLock = true ↔ s.lock = some p)

/-- A line is `Z` exactly while its pin is not claimed (10_state.md R43). -/
def claimInv (s : State PinId) : Bool :=
  (s.line.sdata == .z) == !s.claimed.sdata && (s.line.sclk == .z) == !s.claimed.sclk &&
    (s.line.lclk == .z) == !s.claimed.lclk && (s.line.clrN == .z) == !s.claimed.clrN

/-- The chain is what the levels force on it: unknown with a floating input (20_memory.md R96); else `S` zero while `CLR_N` is low
(R92), `S` unknown while `CLR_N` is unknown (R95); its stages have one width, which is `CAP` where that is defined (R90). -/
def chainInv (s : State PinId) : Bool :=
  decide (s.chain.s.length = s.chain.q.length) &&
    (match s.cap with | some n => decide (s.chain.s.length = n) | none => true) &&
    (!floating s.line || s.chain = s.chain.unknown) &&
    (floating s.line || s.line.clrN != .low || s.chain.s = fillStage .b0 s.chain.s) &&
    (s.line.clrN != .x || s.chain.s = fillStage .x s.chain.s)

/-- The lifecycle is in order: `CC` (10_state.md R35), what each value of `LIFE` implies for the engine registers (41_driver.md
R191 to R193, R208), and that no other port is busy while INIT or FINI runs (60_exceptions.md R300). -/
def lifeInv (s : State PinId) : Bool :=
  (s.cc == (s.life = .ready || s.life = .tearing)) &&
    (s.cap.isSome == s.pins.isSome) &&
    (match s.cap with | some n => decide (n % 8 = 0) && decide (0 < n) | none => true) &&
    match s.life with
    | .unbuilt => claimedRange s.claimed 0 0 && s.cap.isNone && s.buf.isNone
    | .building => oneBusy s
    | .ready => claimedRange s.claimed 0 4 && s.cap.isSome
    | .tearing => oneBusy s && s.cap.isSome

/-- THE INVARIANT of the block. A state with a fault recorded has no further steps, so nothing is asked of it. -/
def Inv (s : State PinId) : Prop :=
  s.mark = none →
    LockInv s ∧ claimInv s = true ∧ chainInv s = true ∧ lifeInv s = true ∧ s.ports.length = s.cfg.nPorts ∧
      ∀ c ∈ s.ports, ctxOk s c = true

/-- The history so far and the state agree: folding the history gives the levels and, for the instance's width, the chain
(20_memory.md R97); its `ACQ` and `RLS` events give the lock (R86). -/
def HistInv (s : State PinId) : Prop :=
  (∀ w, (observe w s.hist).1 = s.line) ∧ (∀ n, s.cap = some n → (observe n s.hist).2 = s.chain) ∧
    lockWalk none s.hist = some s.lock

/-- The four faults that mark a broken internal rule of the block (60_exceptions.md R310, 70_reset_and_hazards.md R352). -/
def Fault.isInternal : Fault → Bool
  | .driveUnclaimed _ => true
  | .lockNotHeld _ => true
  | .lockLeaked _ => true
  | .doubleRelease _ => true
  | .reservedOpcode _ => false
  | .malformedCommand _ => false
  | .notReady _ => false
  | .lifecycleMisuse _ => false
  | .pinsNotDistinct _ => false
  | .readUndefined _ => false
  | .releaseFailed _ => false

end Sys2Proof.Machine
end

