-- ==== Sys2Proof/Certificates/Slice0/Obligations.lean ====
section
/-! DEFINITION. The statements for the provers. Each docstring names the rules of spec/ it formalises. `execTimes k i s = .next t`
says that `k` successive `exec i` of the active port, each answering a next state, lead from `s` to `t`: a command is a
micro-program (40_sequencer.md R161), and such an equation says that the whole command completes. -/

open Sys2Proof Sys2Proof.Machine

/-! Encoding (30_encoding.md). -/

/-- R122, R123, R129: a command decodes to `i` exactly when `i` is well formed and the command is `i`'s encoding, for every
operand value: no operand is dropped, and no two commands are one instruction. -/
def Obligations.DecodeInvertsEncode : Prop :=
  ∀ (PinId : Type) (c : Command PinId) (i : Instr PinId), decode c = .ok i ↔ i.wellFormed = true ∧ c = encode i

/-- R128: every opcode of the three reserved ranges is rejected by that name and no other opcode is; issuing one enters the
fault ReservedOpcode, drives no line and changes no engine register. -/
def Obligations.ReservedOpcodesFault : Prop :=
  (∀ (PinId : Type) (c : Command PinId), decode c = .error (.reservedOpcode c.opc) ↔ reservedOpcode c.opc = true) ∧
  ∀ (s : State) (p : Nat) (ps : List Nat) (c : Ctx) (cmd : Command) (rest : List Command),
    s.mark = none → s.sched = p :: ps → s.ports[p]? = some c → c.busy = false → c.queue = cmd :: rest →
    reservedOpcode cmd.opc = true →
    ∃ t, step s = .next t ∧ t.mark = some (.reservedOpcode p) ∧ t.hist = s.hist ++ [⟨p, .issue cmd.opc⟩] ∧
      t.line = s.line ∧ t.chain = s.chain ∧ t.life = s.life ∧ t.cc = s.cc ∧ t.cap = s.cap ∧ t.pins = s.pins ∧
      t.claimed = s.claimed ∧ t.lock = s.lock ∧ t.buf = s.buf ∧ t.cfg = s.cfg ∧ ∀ q, q ≠ p → t.ports[q]? = s.ports[q]?

/-- R122: a command of a listed opcode is malformed exactly when a slot its format requires is `Absent` or a slot its format
does not use is not; issuing a malformed one enters the fault MalformedCommand. -/
def Obligations.MalformedCommandsFault : Prop :=
  (∀ (PinId : Type) (c : Command PinId) (f : Format), formatOf c.opc = some f →
    (decode c = .error (.malformedCommand c.opc) ↔
      ¬ match f with
        | .n => c.a = .absent ∧ c.b = .absent ∧ c.pins = none
        | .w => c.a ≠ .absent ∧ c.b = .absent ∧ c.pins = none
        | .p => c.a ≠ .absent ∧ c.b = .absent ∧ c.pins = none
        | .pv => c.a ≠ .absent ∧ c.b ≠ .absent ∧ c.pins = none
        | .i => c.b = .absent ∧ c.pins ≠ none)) ∧
  ∀ (s : State) (p : Nat) (ps : List Nat) (c : Ctx) (cmd : Command) (rest : List Command),
    s.mark = none → s.sched = p :: ps → s.ports[p]? = some c → c.busy = false → c.queue = cmd :: rest →
    decode cmd = .error (.malformedCommand cmd.opc) →
    ∃ t, step s = .next t ∧ t.mark = some (.malformedCommand p) ∧ t.hist = s.hist ++ [⟨p, .issue cmd.opc⟩] ∧
      t.line = s.line ∧ t.life = s.life ∧ t.buf = s.buf ∧ t.lock = s.lock

/-- R125, R126, R127: words written out from the opcode map decode to the instructions they stand for. -/
def Obligations.WrittenOutWordsDecode : Prop :=
  decode (PinId := Nat) { opc := 0b00000010#8, a := .int 0x0900, b := .absent, pins := none } = .ok (.drvWr (.int 0x0900)) ∧
  decode (PinId := Nat) { opc := 0b00010101#8, a := .int 3, b := .int 1, pins := none } = .ok (.bufSet (.int 3) (.int 1)) ∧
  decode (PinId := Nat) { opc := 0b00010110#8, a := .absent, b := .absent, pins := none } = .ok .bufCommit ∧
  decode (PinId := Nat) { opc := 0b11110000#8, a := .nonInt, b := .absent, pins := some ⟨5, 6, 7, 8⟩ } =
    .ok (.init ⟨5, 6, 7, 8⟩ .nonInt)

/-- R131: BUF.ON and BUF.OFF assemble to BUF.SET with value 1 and 0, whatever the position's text; INIT without a count
assembles to INIT with `a = Absent`. -/
def Obligations.PseudoCommandsExpand : Prop :=
  ∀ (PinId : Type) (pin : List Char → Option PinId),
    (∀ f : List Char, assemble pin .bufOn [f] = assemble pin (.op 0x15#8) [f, ['1']]) ∧
    (∀ f : List Char, assemble pin .bufOff [f] = assemble pin (.op 0x15#8) [f, ['0']]) ∧
    ∀ (f : List Char) (q : Quad PinId), parsePins pin f = some q →
      assemble pin (.op 0xF0#8) [f] = some (encode (.init q .absent))

/-! Power-on, the step and its choices (40_sequencer.md R160, R161; 70_reset_and_hazards.md R340). -/

/-- R340: the power-on state, for every configuration (the widths of S and Q, empty here, are the model's: log entry 9). -/
def Obligations.PowerOnState : Prop :=
  ∀ (PinId : Type) (g : Config),
    let s : State PinId := State.powerOn g
    s.life = .unbuilt ∧ s.cc = false ∧ s.cap = none ∧ s.pins = none ∧ s.buf = none ∧ s.lock = none ∧ s.hist = [] ∧
      s.mark = none ∧ s.cfg = g ∧ (∀ l, s.claimed.get l = false) ∧ (∀ l, s.line.get l = .z) ∧
      (∀ b ∈ s.chain.s, b = .x) ∧ (∀ b ∈ s.chain.q, b = .x) ∧ s.ports.length = g.nPorts ∧
      ∀ p, p < g.nPorts → ∃ c, s.ports[p]? = some c ∧ c.busy = false ∧ c.holdsLock = false ∧ c.err = none ∧
        c.opc = none ∧ c.a = none ∧ c.b = none ∧ c.pins = none ∧ c.sts = none ∧ c.res = none ∧ c.upc = none ∧
        c.snap = none ∧ c.tmp = none ∧ c.k = none ∧ c.j = none ∧ c.i = none ∧ c.n = none

/-- R160, R161: a step that gives its turn to an idle port whose host thread presents a command that decodes to `i` is `exec` of
`i` on that port, the command taken from the thread and the choice used up. -/
def Obligations.StepIssuesDecodedCommand : Prop :=
  ∀ (s : State) (p : Nat) (ps : List Nat) (c : Ctx) (cmd : Command) (rest : List Command) (i : Instr),
    s.mark = none → s.sched = p :: ps → s.ports[p]? = some c → c.busy = false → c.queue = cmd :: rest → decode cmd = .ok i →
    step s = exec i
      { s with sched := ps, active := p, ports := s.ports.modify p fun x => { x with queue := rest } }

/-- R161: a step that gives its turn to a busy port is `exec` of the instruction in that port's context. -/
def Obligations.StepResumesBusyPort : Prop :=
  ∀ (s : State) (p : Nat) (ps : List Nat) (c : Ctx) (i : Instr),
    s.mark = none → s.sched = p :: ps → s.ports[p]? = some c → c.busy = true → c.opc = some (encode i).opc →
    c.a = some (encode i).a → c.b = some (encode i).b → c.pins = some (encode i).pins → i.wellFormed = true →
    step s = exec i { s with sched := ps, active := p }

/-- R161: where the state lists no choice of the scheduler, the step is that of some port that can step, whichever the free
value picks; where no port can step, nothing happens. -/
def Obligations.UnlistedTurnGoesToSomeReadyPort : Prop :=
  ∀ s : State, s.mark = none → s.sched = [] →
    (s.ready ≠ [] → ∃ p ∈ s.ready, ∃ k, step s = step { s with sched := [p], tick := k }) ∧
      (s.ready = [] → step s = .next s)

/-- R310: a state whose fault mark is set has no further step, so the mark is never cleared. -/
def Obligations.FaultedStateHasNoStep : Prop :=
  (∀ (s : State) (f : Fault), s.mark = some f → step s = .fault f ∧ ∀ i, exec i s = .fault f) ∧
    ∀ s t : State, step s = .next t → s.mark = none

/-- R160: an admitted command of a built instance, INIT and FINI apart, is issued: the port becomes busy, its context holds the
command, `err` is none, `ISSUE(opc)` is appended, and no engine register changes. -/
def Obligations.AdmittedCommandsAreIssued : Prop :=
  ∀ (i : Instr) (s : State) (n : Nat) (c : Ctx), i.wellFormed = true → (∀ q a, i ≠ .init q a) → i ≠ .fini →
    s.mark = none → s.ctx s.active = some c → c.busy = false → s.life = .ready → s.cap = some n →
    ∃ u w, exec i s = .next (after s [.issue i.opcode] fun c => { issued i u c with snap := w })

/-! Admission (60_exceptions.md R300). -/

/-- R300, check 3: a well-formed command other than INIT and FINI issued while `LIFE ≠ READY` enters the fault NotReady. -/
def Obligations.NotReadyFault : Prop :=
  ∀ (i : Instr) (s : State), i.wellFormed = true → (∀ q a, i ≠ .init q a) → i ≠ .fini → atRest s = true → s.life ≠ .ready →
    exec i s = .next
      { after s [.issue i.opcode] (fun c => { issued i .done c with upc := c.upc }) with
        mark := some (.notReady s.active) }

/-- R300, check 3: INIT while an instance exists or another port is busy enters LifecycleMisuse; else with two equal pins
PinsNotDistinct. FINI while INIT or FINI runs, or on an instance with another port busy, enters LifecycleMisuse. -/
def Obligations.LifecycleFaults : Prop :=
  ∀ s : State, atRest s = true →
    (∀ q a, s.life ≠ .unbuilt ∨ s.othersIdle s.active = false →
      ∃ t, exec (.init q a) s = .next t ∧ t.mark = some (.lifecycleMisuse s.active) ∧ t.life = s.life ∧
        t.hist = s.hist ++ [⟨s.active, .issue 0xF0#8⟩]) ∧
    (∀ q a, s.life = .unbuilt → s.othersIdle s.active = true →
      (q.sdata = q.sclk ∨ q.sdata = q.lclk ∨ q.sdata = q.clrN ∨ q.sclk = q.lclk ∨ q.sclk = q.clrN ∨ q.lclk = q.clrN) →
      ∃ t, exec (.init q a) s = .next t ∧ t.mark = some (.pinsNotDistinct s.active) ∧ t.life = .unbuilt ∧
        t.hist = s.hist ++ [⟨s.active, .issue 0xF0#8⟩]) ∧
    (s.life = .building ∨ s.life = .tearing ∨ (s.life = .ready ∧ s.othersIdle s.active = false) →
      ∃ t, exec .fini s = .next t ∧ t.mark = some (.lifecycleMisuse s.active) ∧ t.life = s.life ∧
        t.hist = s.hist ++ [⟨s.active, .issue 0xF1#8⟩])

/-! Lifecycle commands (41_driver.md R190 to R193, R208, R209). -/

/-- R191, R193: INIT with distinct pins and a valid count, every claim succeeding, completes OK after seven steps of its port:
the four claims in line order, the buffer's creation, the registers of R193. Nothing else changes. -/
def Obligations.InitBuildsInstance : Prop :=
  ∀ (s : State) (q : Quad Nat) (a : Arg) (n : Nat), atRest s = true → s.life = .unbuilt → s.othersIdle s.active = true →
    distinctPins q = true → ((a = .absent ∧ n = 0) ∨ a = .int (n : Int)) → (∀ m, s.cfg.capMax = some m → 8 * (n + 1) ≤ m) →
    s.line = Quad.all .z → oracleOk s 4 = true →
    execTimes 7 (.init q a) s = .next
      { after s [.issue 0xF0#8, .claim .sdata true, .claim .sclk true, .claim .lclk true, .claim .clrN true,
            .bwr (some s.cfg.bufInit), .done .ok]
          (fun c => { finished (.init q a) .done .ok none c with n := some n, k := some 3 }) with
        life := .ready
        cc := true
        cap := some (8 * (n + 1))
        pins := some q
        claimed := Quad.all true
        line := Quad.all .x
        buf := some s.cfg.bufInit
        chain := ⟨List.replicate (8 * (n + 1)) .x, List.replicate (8 * (n + 1)) .x⟩
        draws := drawsAfter s 4 }

/-- R191, R302: INIT with a negative or non-integral count, or one above CAP_MAX, completes INVALID_ARGUMENT after two steps,
claims nothing and leaves `LIFE` UNBUILT. -/
def Obligations.InitRejectsBadCount : Prop :=
  ∀ (s : State) (q : Quad Nat) (a : Arg), atRest s = true → s.life = .unbuilt → s.othersIdle s.active = true →
    distinctPins q = true →
    (a = .nonInt ∨ (∃ v : Int, a = .int v ∧ v < 0) ∨
      ∃ n m : Nat, ((a = .absent ∧ n = 0) ∨ a = .int (n : Int)) ∧ s.cfg.capMax = some m ∧ m < 8 * (n + 1)) →
    execTimes 2 (.init q a) s = .next
      (after s [.issue 0xF0#8, .done .invalidArgument] (finished (.init q a) .reject .invalidArgument none))

/-- R191, R303: if claim `k` is the first to fail, the pins `0 … k-1` are released, ascending, before HARDWARE_CONFIGURATION is
reported; afterwards no pin is claimed, `CC` is false and the instance can be constructed again. -/
def Obligations.InitRollsBackFailedClaim : Prop :=
  ∀ (s : State) (q : Quad Nat) (a : Arg) (n k : Nat) (ds rest : List Draw) (d : Draw), atRest s = true →
    s.life = .unbuilt → ((a = .absent ∧ n = 0) ∨ a = .int (n : Int)) → s.cc = false → s.othersIdle s.active = true →
    distinctPins q = true → (∀ m, s.cfg.capMax = some m → 8 * (n + 1) ≤ m) →
    s.line = Quad.all .z → s.claimed = Quad.all false → k ≤ 3 → s.cfg.backendFaults = true →
    s.draws = ds ++ rest → ds.length = 2 * k + 1 → (∀ m, m < 2 * k + 1 → m ≠ k → ∀ e, ds[m]? = some e → e.ok = true) →
    ds[k]? = some d → d.ok = false →
    ∃ t c, execTimes (2 * k + 3) (.init q a) s = .next t ∧
      t.hist = s.hist ++ tagged s.active ([.issue 0xF0#8] ++ ([.sdata, .sclk, .lclk, .clrN].take k).map (.claim · true) ++
        (([.sdata, .sclk, .lclk, .clrN].drop k).take 1).map (.claim · false) ++
        ([.sdata, .sclk, .lclk, .clrN].take k).map .rel ++ [.done .hardwareConfiguration]) ∧
      t.life = .unbuilt ∧ t.cc = false ∧ t.cap = none ∧ t.pins = none ∧ t.buf = s.buf ∧ t.lock = s.lock ∧
      t.claimed = Quad.all false ∧ t.line = Quad.all .z ∧ t.mark = none ∧ t.draws = rest ∧
      t.ctx s.active = some c ∧ c.busy = false ∧ c.sts = some .hardwareConfiguration ∧ c.res = some none

/-- R208, R209, R343: FINI of a built instance, no call failing, completes OK after fifteen steps of its port with the thirteen
wire events of R209; every engine register is as at power-on and the chain is unknown. After its first ten steps, just before
the first release, `S = Q = 0` and every line is `L`. -/
def Obligations.FiniTearsDown : Prop :=
  ∀ (s : State) (n : Nat), atRest s = true → built s n = true → s.pins ≠ none → s.othersIdle s.active = true →
    oracleOk s 10 = true →
    (∃ t, execTimes 10 .fini s = .next t ∧ t.line = Quad.all .low ∧
      t.chain = ⟨List.replicate n .b0, List.replicate n .b0⟩ ∧ t.claimed = s.claimed ∧ t.life = .tearing) ∧
    execTimes 15 .fini s = .next
      { after s ([.issue 0xF1#8, .drv .clrN false, .dly, .drv .clrN true, .drv .lclk false, .dly, .drv .lclk true, .dly,
            .drv .lclk false, .drvAll false, .rel .sdata, .rel .sclk, .rel .lclk, .rel .clrN, .done .ok])
          (fun c => { finished .fini .done .ok none c with k := some 3 }) with
        life := .unbuilt
        cc := false
        cap := none
        pins := none
        buf := none
        claimed := Quad.all false
        line := Quad.all .z
        chain := ⟨List.replicate n .x, List.replicate n .x⟩
        draws := drawsAfter s 10 }

/-- R208, R304: FINI while no instance exists completes CONSTRUCTION_INCOMPLETE after two steps and touches no pin. -/
def Obligations.FiniGuardsUnbuilt : Prop :=
  ∀ s : State, atRest s = true → s.life = .unbuilt →
    execTimes 2 .fini s = .next
      (after s [.issue 0xF1#8, .done .constructionIncomplete] (finished .fini .guard .constructionIncomplete none))

/-- R164, R165, R171, R208: a backend failure in a drive of FINI skips the remaining drives: the line (for DriveAll, every line)
keeps its level or takes the new one as the oracle says, the chain reacts, DRVF (DRVALLF) is appended, and the next micro-step is
`Release(0)`; from there the four pins are released and the status is that of `err`. A release that fails, there or in INIT's
rollback, enters the fault ReleaseFailed, with no REL event and every line as it was. -/
def Obligations.FiniReleasesAfterFailure : Prop :=
  (∀ (s : State) (c : Ctx) (u : UPos) (l : Line) (v : Bool) (d : Draw) (ds : List Draw), s.mark = none →
    s.ctx s.active = some c → c.busy = true → c.upc = some u → isClear u ∨ isLatch u → driveAt (dataBit c) u = some (l, v) →
    allClaimed s.claimed = true → s.cfg.backendFaults = true → s.draws = d :: ds → d.ok = false →
    exec .fini s = .next
      { after s [.drvf l v d.took]
          (fun c => { c with err := some .backendFailure, upc := some .release, k := some 0 }) with
        line := if d.took then s.line.set l (Level.ofBit v) else s.line
        chain := if d.took then s.chain.react s.line (s.line.set l (Level.ofBit v)) else s.chain
        draws := ds }) ∧
  (∀ (s : State) (c : Ctx) (d : Draw) (ds : List Draw), s.mark = none → s.ctx s.active = some c → c.busy = true →
    c.upc = some .driveAll → allClaimed s.claimed = true → s.cfg.backendFaults = true → s.draws = d :: ds → d.ok = false →
    exec .fini s = .next
      { after s [.drvAllf false d.took]
          (fun c => { c with err := some .backendFailure, upc := some .release, k := some 0 }) with
        line := if d.took then Quad.all .low else s.line
        chain := if d.took then s.chain.react s.line (Quad.all .low) else s.chain
        draws := ds }) ∧
  (∀ (s : State) (c : Ctx), s.mark = none → s.ctx s.active = some c → c.busy = true → c.holdsLock = false →
    c.upc = some .release → c.k = some 0 → s.claimed = Quad.all true → s.pins ≠ none → oracleOk s 4 = true →
    ∃ t, execTimes 5 .fini s = .next t ∧ t.life = .unbuilt ∧ t.cc = false ∧ t.claimed = Quad.all false ∧
      t.line = Quad.all .z ∧ t.buf = none ∧ t.cap = none ∧ t.pins = none ∧
      t.hist = s.hist ++ tagged s.active [.rel .sdata, .rel .sclk, .rel .lclk, .rel .clrN, .done (finalStatus c.err)] ∧
      t.ctx s.active = some { c with
        k := some 3, upc := some .done, busy := false, sts := some (finalStatus c.err), res := some none }) ∧
  ∀ (i : Instr) (s : State) (c : Ctx) (l : Line), s.mark = none → s.ctx s.active = some c → c.busy = true →
    ((i = .fini ∧ c.upc = some .release ∧ c.k = some l.index) ∨
      ((∃ q a, i = .init q a) ∧ c.upc = some .rollback ∧ c.k ≠ none ∧ c.j = some l.index)) →
    s.claimed.get l = true → s.pins ≠ none → s.draw.ok = false →
    ∃ t, exec i s = .next t ∧ t.mark = some (.releaseFailed s.active) ∧ t.hist = s.hist ∧ t.claimed = s.claimed ∧
      t.line = s.line ∧ t.chain = s.chain ∧ t.life = s.life ∧ t.ports = s.ports

/-! Protocol engine commands (41_driver.md R195 to R205) and BUF.CAP (42_wrapper.md R240). -/

/-- R195, R240: DRV.CAP and BUF.CAP complete OK with the capacity and change nothing else. -/
def Obligations.CapacityReads : Prop :=
  ∀ (s : State) (n : Nat), atRest s = true → s.life = .ready → s.cap = some n →
    execTimes 2 .drvCap s = .next (after s [.issue 0x00#8, .done .ok] (finished .drvCap .done .ok (some (n : Int)))) ∧
    execTimes 2 .bufCap s = .next (after s [.issue 0x10#8, .done .ok] (finished .bufCap .done .ok (some (n : Int))))

/-- R197: DRV.CLR drives `CLR_N` low and high again: `S` becomes all 0, `Q`, `BUF` and the other lines do not change. -/
def Obligations.DrvClrClearsShiftStage : Prop :=
  ∀ (s : State) (n : Nat), atRest s = true → built s n = true → oracleOk s 2 = true →
    execTimes 5 .drvClr s = .next
      { after s [.issue 0x01#8, .drv .clrN false, .dly, .drv .clrN true, .done .ok] (finished .drvClr .done .ok none) with
        line := s.line.set .clrN .high
        chain := ⟨List.replicate n .b0, s.chain.q⟩
        draws := drawsAfter s 2 }

/-- R200, R98, R180: DRV.WR of a word in range, undisturbed, completes OK after `6·CAP + 10` steps of its port with the transmit
sequence as its wire events, the word in `S` and in `Q`, and the lines of R180. Nothing else changes. -/
def Obligations.DrvWrReachesOutputs : Prop :=
  ∀ (s : State) (n : Nat) (w : Int), atRest s = true → built s n = true → 0 ≤ w → w < 2 ^ n → oracleOk s (4 * n + 5) = true →
    execTimes (6 * n + 10) (.drvWr (.int w)) s = .next
      { after s ([.issue 0x02#8] ++ transmitEvents n w ++ [.done .ok])
          (fun c => { finished (.drvWr (.int w)) .done .ok none c with snap := some w, i := some 0 }) with
        line := ⟨Level.ofBit (levelBit w 0), .low, .low, .high⟩
        chain := ⟨wordStage n w, wordStage n w⟩
        draws := drawsAfter s (4 * n + 5) }

/-- R200, R302: DRV.WR of a word out of range or of a non-integer completes INVALID_ARGUMENT after two steps; no line touched. -/
def Obligations.DrvWrRejectsInvalidWord : Prop :=
  ∀ (s : State) (n : Nat) (a : Arg), atRest s = true → s.life = .ready → s.cap = some n →
    (a = .nonInt ∨ ∃ w : Int, a = .int w ∧ (w < 0 ∨ 2 ^ n ≤ w)) →
    execTimes 2 (.drvWr a) s = .next
      (after s [.issue 0x02#8, .done .invalidArgument] (finished (.drvWr a) .reject .invalidArgument none))

/-- R205: DRV.ZERO drives all four lines low at once: `S` becomes all 0, `Q` does not change. -/
def Obligations.DrvZeroDrivesLinesLow : Prop :=
  ∀ (s : State) (n : Nat), atRest s = true → built s n = true → oracleOk s 1 = true →
    execTimes 3 .drvZero s = .next
      { after s [.issue 0x03#8, .drvAll false, .done .ok] (finished .drvZero .done .ok none) with
        line := Quad.all .low
        chain := ⟨List.replicate n .b0, s.chain.q⟩
        draws := drawsAfter s 1 }

/-! Commit arbiter commands (42_wrapper.md R242 to R256). -/

/-- R242: BUF.CHK completes OK for an integer position `0 ≤ v < CAP` and INVALID_ARGUMENT for every other operand. -/
def Obligations.BufChkChecksPosition : Prop :=
  ∀ (s : State) (n : Nat) (a : Arg), atRest s = true → s.life = .ready → s.cap = some n →
    ((∃ v : Int, a = .int v ∧ 0 ≤ v ∧ v < n) →
      execTimes 2 (.bufChk a) s = .next (after s [.issue 0x13#8, .done .ok] (finished (.bufChk a) .done .ok none))) ∧
    (a = .nonInt ∨ (∃ v : Int, a = .int v ∧ (v < 0 ∨ (n : Int) ≤ v)) →
      execTimes 2 (.bufChk a) s = .next
        (after s [.issue 0x13#8, .done .invalidArgument] (finished (.bufChk a) .reject .invalidArgument none)))

/-- R244, R245, R302: BUF.GET of a valid position completes OK with that bit of `BUF`, of any integer `BUF`, and the bit is that of
the value its BufRead read, whatever `BUF` holds at the Complete; of an invalid position INVALID_ARGUMENT without reading
`BUF`. -/
def Obligations.BufGetReadsBit : Prop :=
  ∀ (s : State) (n : Nat), atRest s = true → s.life = .ready → s.cap = some n →
    (∀ (v : Nat) (b : Int), v < n → s.buf = some b →
      execTimes 3 (.bufGet (.int (v : Int))) s = .next
        (after s [.issue 0x14#8, .brd b, .done .ok]
          fun c => { finished (.bufGet (.int (v : Int))) .done .ok (some (b / 2 ^ v % 2)) c with tmp := some b })) ∧
    (∀ a : Arg, (a = .nonInt ∨ ∃ v : Int, a = .int v ∧ (v < 0 ∨ (n : Int) ≤ v)) →
      execTimes 2 (.bufGet a) s = .next
        (after s [.issue 0x14#8, .done .invalidArgument] (finished (.bufGet a) .reject .invalidArgument none))) ∧
    ∀ (r : State) (c : Ctx) (v : Nat) (b : Int), r.mark = none → r.ctx r.active = some c → c.busy = true → c.holdsLock = false →
      c.upc = some .done → c.tmp = some b → r.cap = some n → v < n →
      exec (.bufGet (.int (v : Int))) r = .next
        (after r [.done .ok] fun c => { c with sts := some .ok, res := some (some (b / 2 ^ v % 2)), busy := false })

/-- R253: BUF.GETBUF completes OK with the whole of `BUF`; the result is the value its BufRead read, a snapshot, whatever `BUF`
holds at the Complete. -/
def Obligations.BufGetbufReadsBuffer : Prop :=
  (∀ (s : State) (b : Int), atRest s = true → s.life = .ready → s.buf = some b →
    execTimes 3 .bufGetbuf s = .next
      (after s [.issue 0x17#8, .brd b, .done .ok] fun c => { finished .bufGetbuf .done .ok (some b) c with tmp := some b })) ∧
  ∀ (s : State) (c : Ctx) (b : Int), s.mark = none → s.ctx s.active = some c → c.busy = true → c.holdsLock = false →
    c.upc = some .done → c.tmp = some b →
    exec .bufGetbuf s = .next
      (after s [.done .ok] fun c => { c with sts := some .ok, res := some (some b), busy := false })

/-- R246, R247: BUF.SET of a valid position and value writes that one bit of `BUF`, in two micro-steps without the lock under
COMMIT_ONLY, under the lock in WIDE; no line is touched. -/
def Obligations.BufSetWritesBit : Prop :=
  ∀ (s : State) (n v : Nat) (x b : Int), atRest s = true → s.life = .ready → s.cap = some n → v < n → x = 0 ∨ x = 1 →
    s.buf = some b →
    let b' := b - b / 2 ^ v % 2 * 2 ^ v + x * 2 ^ v
    let i := Instr.bufSet (.int (v : Int)) (.int x)
    (s.cfg.arbScope = .commitOnly →
      execTimes 4 i s = .next
        { after s [.issue 0x15#8, .brd b, .bwr (some b'), .done .ok]
            (fun c => { finished i .done .ok none c with tmp := some b }) with buf := some b' }) ∧
    (s.cfg.arbScope = .wide → s.lock = none →
      execTimes 6 i s = .next
        { after s [.issue 0x15#8, .acq, .brd b, .bwr (some b'), .rls, .done .ok]
            (fun c => { finished i .done .ok none c with tmp := some b }) with buf := some b' })

/-- R246, R247, R302: BUF.SET with an invalid position or a value that is neither 0 nor 1 completes INVALID_ARGUMENT and leaves
`BUF` unchanged. -/
def Obligations.BufSetRejectsInvalidOperands : Prop :=
  ∀ (s : State) (n : Nat) (a b : Arg), atRest s = true → s.life = .ready → s.cap = some n → a ≠ .absent → b ≠ .absent →
    ((∀ v : Int, a = .int v → v < 0 ∨ (n : Int) ≤ v) ∨ (∀ x : Int, b = .int x → x ≠ 0 ∧ x ≠ 1)) →
    execTimes 2 (.bufSet a b) s = .next
      (after s [.issue 0x15#8, .done .invalidArgument] (finished (.bufSet a b) .reject .invalidArgument none))

/-- R249, R250: BUF.COMMIT of a buffer in range, undisturbed, takes the lock, reads `BUF` once, transmits it, releases the lock
and completes OK; `BUF` persists. -/
def Obligations.BufCommitTransmitsBuffer : Prop :=
  ∀ (s : State) (n : Nat) (b : Int), atRest s = true → built s n = true → s.lock = none → s.buf = some b → 0 ≤ b → b < 2 ^ n →
    oracleOk s (4 * n + 5) = true →
    execTimes (6 * n + 13) .bufCommit s = .next
      { after s ([.issue 0x16#8, .acq, .brd b] ++ transmitEvents n b ++ [.rls, .done .ok])
          (fun c => { finished .bufCommit .done .ok none c with snap := some b, i := some 0 }) with
        line := ⟨Level.ofBit (levelBit b 0), .low, .low, .high⟩
        chain := ⟨wordStage n b, wordStage n b⟩
        draws := drawsAfter s (4 * n + 5) }

/-- R249, R302: BUF.COMMIT of a buffer out of range takes and releases the lock, touches no line and completes
INVALID_ARGUMENT. -/
def Obligations.BufCommitRejectsBadBuffer : Prop :=
  ∀ (s : State) (n : Nat) (b : Int), atRest s = true → s.life = .ready → s.cap = some n → s.lock = none → s.buf = some b →
    b < 0 ∨ 2 ^ n ≤ b →
    execTimes 5 .bufCommit s = .next
      (after s [.issue 0x16#8, .acq, .brd b, .rls, .done .invalidArgument]
        fun c => { finished .bufCommit .done .invalidArgument none c with
          snap := some b, err := some .invalidArgument })

/-- R251, R252: BUF.WR of a word in range, undisturbed, stores it in `BUF`, before the lock under COMMIT_ONLY and after it in
WIDE, and commits it. -/
def Obligations.BufWrStoresAndCommits : Prop :=
  ∀ (s : State) (n : Nat) (w : Int), atRest s = true → built s n = true → s.lock = none → 0 ≤ w → w < 2 ^ n →
    oracleOk s (4 * n + 5) = true →
    execTimes (6 * n + 14) (.bufWr (.int w)) s = .next
      { after s ([.issue 0x12#8] ++
            (match s.cfg.arbScope with
              | .commitOnly => [.bwr (some w), .acq]
              | .wide => [.acq, .bwr (some w)]) ++ [.brd w] ++ transmitEvents n w ++ [.rls, .done .ok])
          (fun c => { finished (.bufWr (.int w)) .done .ok none c with snap := some w, i := some 0 }) with
        buf := some w
        line := ⟨Level.ofBit (levelBit w 0), .low, .low, .high⟩
        chain := ⟨wordStage n w, wordStage n w⟩
        draws := drawsAfter s (4 * n + 5) }

/-- R251, R252, R302, R351: BUF.WR of an integer out of range stores it and completes INVALID_ARGUMENT with no line touched; of
a non-integer it makes `BUF` undefined and enters the fault ReadUndefined, with the lock taken. -/
def Obligations.BufWrInvalidWord : Prop :=
  ∀ (s : State) (n : Nat), atRest s = true → s.life = .ready → s.cap = some n → s.lock = none →
    (∀ w : Int, w < 0 ∨ 2 ^ n ≤ w →
      execTimes 6 (.bufWr (.int w)) s = .next
        { after s ([.issue 0x12#8] ++
              (match s.cfg.arbScope with
                | .commitOnly => [.bwr (some w), .acq]
                | .wide => [.acq, .bwr (some w)]) ++ [.brd w, .rls, .done .invalidArgument])
            (fun c => { finished (.bufWr (.int w)) .done .invalidArgument none c with
              snap := some w, err := some .invalidArgument }) with
          buf := some w }) ∧
    ∃ t, execTimes 4 (.bufWr .nonInt) s = .next t ∧ t.mark = some (.readUndefined s.active) ∧ t.buf = none ∧
      t.lock = some s.active ∧ t.line = s.line ∧ t.chain = s.chain ∧
      t.hist = s.hist ++ tagged s.active ([.issue 0x12#8] ++
        (match s.cfg.arbScope with
          | .commitOnly => [.bwr none, .acq]
          | .wide => [.acq, .bwr none]))

/-- R255, R256: BUF.CLR, undisturbed, zeroes `BUF` and the shift stage and leaves the outputs; under the lock in WIDE. -/
def Obligations.BufClrClearsBufferAndShiftStage : Prop :=
  ∀ (s : State) (n : Nat), atRest s = true → built s n = true → oracleOk s 2 = true →
    (s.cfg.arbScope = .commitOnly →
      execTimes 6 .bufClr s = .next
        { after s [.issue 0x11#8, .bwr (some 0), .drv .clrN false, .dly, .drv .clrN true, .done .ok]
            (finished .bufClr .done .ok none) with
          buf := some 0
          line := s.line.set .clrN .high
          chain := ⟨List.replicate n .b0, s.chain.q⟩
          draws := drawsAfter s 2 }) ∧
    (s.cfg.arbScope = .wide → s.lock = none →
      execTimes 8 .bufClr s = .next
        { after s [.issue 0x11#8, .acq, .bwr (some 0), .drv .clrN false, .dly, .drv .clrN true, .rls, .done .ok]
            (finished .bufClr .done .ok none) with
          buf := some 0
          line := s.line.set .clrN .high
          chain := ⟨List.replicate n .b0, s.chain.q⟩
          draws := drawsAfter s 2 })

/-- R259: from any buffer `B` in range, BUF.SET then BUF.COMMIT, undisturbed, in either `ARB_SCOPE`, produces the wire events and
the outputs that DRV.WR of `setbit(B, v, x)` produces from the same state; from `B = 0`, setting bit `v` writes `2^v`. -/
def Obligations.StageThenCommitEqualsWrite : Prop :=
  (∀ (s : State) (n v : Nat) (x b : Int), atRest s = true → built s n = true → s.lock = none → v < n → x = 0 ∨ x = 1 →
    s.buf = some b → 0 ≤ b → b < 2 ^ n → oracleOk s (4 * n + 5) = true →
    ∃ t u r,
      execTimes (match s.cfg.arbScope with | .commitOnly => 4 | .wide => 6) (.bufSet (.int (v : Int)) (.int x)) s = .next t ∧
      execTimes (6 * n + 13) .bufCommit t = .next u ∧
      execTimes (6 * n + 10) (.drvWr (.int (setbit b v x))) s = .next r ∧ u.line = r.line ∧
      u.chain = ⟨wordStage n (setbit b v x), wordStage n (setbit b v x)⟩ ∧ r.chain = u.chain ∧
      wireTrace (u.hist.drop s.hist.length) = wireTrace (r.hist.drop s.hist.length)) ∧
  ∀ v : Nat, setbit 0 v 1 = 2 ^ v

/-! Failure and waiting (40_sequencer.md R166, R179; 60_exceptions.md R305). -/

/-- R164, R165, R179, R305: a drive that fails ends the command at that micro-step: the line keeps its level or takes the new one as
the oracle says, `err` becomes BACKEND_FAILURE, and the port goes on at the error epilogue, which releases the lock if the port
holds it. -/
def Obligations.FailedDriveGoesToEpilogue : Prop :=
  (∀ (i : Instr) (s : State) (c : Ctx) (u : UPos) (l : Line) (v : Bool) (d : Draw) (ds : List Draw), drivesLines i = true →
    s.mark = none → s.ctx s.active = some c → c.busy = true → c.upc = some u → posOk s c i u = true →
    driveAt (dataBit c) u = some (l, v) → allClaimed s.claimed = true → s.cfg.backendFaults = true → s.draws = d :: ds →
    d.ok = false →
    exec i s = .next
      { after s [.drvf l v d.took]
          (fun c => { c with
            err := some .backendFailure, upc := some (if c.holdsLock then .errUnlock else .errComplete) }) with
        line := if d.took then s.line.set l (Level.ofBit v) else s.line
        chain := if d.took then s.chain.react s.line (s.line.set l (Level.ofBit v)) else s.chain
        draws := ds }) ∧
  ∀ (s : State) (c : Ctx) (d : Draw) (ds : List Draw), s.mark = none → s.ctx s.active = some c → c.busy = true →
    c.upc = some .driveAll → allClaimed s.claimed = true → s.cfg.backendFaults = true → s.draws = d :: ds → d.ok = false →
    exec .drvZero s = .next
      { after s [.drvAllf false d.took]
          (fun c => { c with
            err := some .backendFailure, upc := some (if c.holdsLock then .errUnlock else .errComplete) }) with
        line := if d.took then Quad.all .low else s.line
        chain := if d.took then s.chain.react s.line (Quad.all .low) else s.chain
        draws := ds }

/-- R179, R305: the error epilogue releases the lock and completes with the status in `err`; a port that holds no lock completes
at once. -/
def Obligations.EpilogueReleasesLockAndCompletes : Prop :=
  ∀ (i : Instr) (s : State) (c : Ctx) (e : Status), drivesLines i = true → s.mark = none → s.ctx s.active = some c →
    c.busy = true → c.err = some e →
    (c.upc = some .errUnlock → s.lock = some s.active →
      execTimes 2 i s = .next
        { after s [.rls, .done e] (fun c => { c with
            holdsLock := false, upc := some .errComplete, sts := some e, res := some none, busy := false }) with
          lock := none }) ∧
    (c.upc = some .errComplete → c.holdsLock = false →
      exec i s = .next (after s [.done e] fun c => { c with sts := some e, res := some none, busy := false }))

/-- R85, R166: a port whose next micro-step is LockAcquire is held while any port holds the lock, and takes it when it is free:
BUF.COMMIT and BUF.WR, and in WIDE BUF.SET and BUF.CLR. -/
def Obligations.LockAcquireWaitsOrTakes : Prop :=
  ∀ (i : Instr) (s : State) (c : Ctx),
    (i = .bufCommit ∨ i = .bufClr ∨ (∃ w, i = .bufWr w) ∨ ∃ a b, i = .bufSet a b) →
    s.mark = none → s.ctx s.active = some c → c.busy = true → c.upc = some .acquire →
    (s.lock ≠ none → exec i s = .next s) ∧
    (s.lock = none → ∃ u, exec i s = .next
      { after s [.acq] (fun c => { c with holdsLock := true, upc := some u }) with lock := some s.active })

/-- R248: under COMMIT_ONLY two concurrent BUF.SETs whose read and write pairs overlap lose an update: with port `p` reading,
port `q` reading, `p` writing, `q` writing, `BUF` ends with `q`'s bit only. -/
def Obligations.LostUpdateRace : Prop :=
  ∀ (s : State) (n p q v w : Nat) (x y b : Int) (c d : Ctx), s.mark = none → s.cfg.arbScope = .commitOnly → s.life = .ready →
    s.cap = some n → s.buf = some b → p ≠ q → v < n → w < n → (x = 0 ∨ x = 1) → (y = 0 ∨ y = 1) →
    s.ports[p]? = some c → s.ports[q]? = some d → c.busy = false → d.busy = false →
    c.queue = [encode (.bufSet (.int (v : Int)) (.int x))] → d.queue = [encode (.bufSet (.int (w : Int)) (.int y))] →
    s.sched = [p, q, p, q, p, q] →
    ∃ t, Host.Core.run core 6 s = .next t ∧ t.buf = some (setbit b w y)

/-! What an instruction leaves unchanged. -/

/-- R40, R48, R312: whatever instruction runs, another port's context, the configuration and the scheduler's choices are
unchanged; in the running port's own context the command changes only at the issue, and `sts` and `res` only at the Complete. -/
def Obligations.OtherPortsUnchanged : Prop :=
  ∀ (i : Instr) (s t : State), exec i s = .next t →
    t.cfg = s.cfg ∧ t.active = s.active ∧ t.sched = s.sched ∧ t.ports.length = s.ports.length ∧
      (∀ q, q ≠ s.active → t.ports[q]? = s.ports[q]?) ∧
      ∀ c d, s.ctx s.active = some c → t.ctx s.active = some d →
        d.queue = c.queue ∧ (d.busy = true → d.sts = c.sts ∧ d.res = c.res) ∧
          (c.busy = true → d.opc = c.opc ∧ d.a = c.a ∧ d.b = c.b ∧ d.pins = c.pins)

/-- R77, R195, R240, R242, R244, R253: DRV.CAP, BUF.CAP, BUF.CHK, BUF.GET and BUF.GETBUF change no engine register, no line and
no chain bit; of their port's context `snap`, `k`, `j`, `i`, `n` and `holds_lock` stay, and `tmp` too unless `BUF` is read. -/
def Obligations.ReadingCommandsFrame : Prop :=
  ∀ (i : Instr) (s t : State),
    (i = .drvCap ∨ i = .bufCap ∨ i = .bufGetbuf ∨ (∃ a, i = .bufChk a) ∨ ∃ a, i = .bufGet a) → exec i s = .next t →
    t.life = s.life ∧ t.cc = s.cc ∧ t.cap = s.cap ∧ t.pins = s.pins ∧ t.claimed = s.claimed ∧ t.line = s.line ∧
      t.lock = s.lock ∧ t.buf = s.buf ∧ t.chain = s.chain ∧ t.draws = s.draws ∧
      ∀ c d, s.ctx s.active = some c → t.ctx s.active = some d →
        d.snap = c.snap ∧ d.k = c.k ∧ d.j = c.j ∧ d.i = c.i ∧ d.n = c.n ∧ d.holdsLock = c.holdsLock ∧
          (d.tmp = c.tmp ∨ (c.upc = some .bufRead ∧ d.tmp = s.buf))

/-- R246: BUF.SET touches no line and no engine register but `BUF` and, in its locked region, `LOCK`; `BUF` changes only at its
BufWrite. -/
def Obligations.BufSetFrame : Prop :=
  ∀ (a b : Arg) (s t : State), exec (.bufSet a b) s = .next t →
    t.life = s.life ∧ t.cc = s.cc ∧ t.cap = s.cap ∧ t.pins = s.pins ∧ t.claimed = s.claimed ∧ t.line = s.line ∧
      t.chain = s.chain ∧ t.draws = s.draws ∧
      (∀ c, s.ctx s.active = some c → ¬ (c.busy = true ∧ c.upc = some .bufWrite) → t.buf = s.buf) ∧
      (∀ c, s.ctx s.active = some c → ¬ (c.busy = true ∧ (c.upc = some .acquire ∨ c.upc = some .unlock)) → t.lock = s.lock) ∧
      ∀ c d, s.ctx s.active = some c → t.ctx s.active = some d →
        d.snap = c.snap ∧ d.k = c.k ∧ d.j = c.j ∧ d.i = c.i ∧ d.n = c.n

/-- R197, R200, R205, R249, R251, R255, R258: the line-driving commands, INIT and FINI apart, change neither the lifecycle nor
`CAP`, `PINS` and `CLAIMED`; DRV.* and BUF.COMMIT never change `BUF`; `LOCK` changes only at their lock micro-steps; a line
changes only at a drive of it, and the chain only at a drive. -/
def Obligations.LineDrivingCommandsFrame : Prop :=
  ∀ (i : Instr) (s t : State), drivesLines i = true → exec i s = .next t →
    t.life = s.life ∧ t.cc = s.cc ∧ t.cap = s.cap ∧ t.pins = s.pins ∧ t.claimed = s.claimed ∧
      (i = .drvClr ∨ i = .drvZero ∨ i = .bufCommit ∨ (∃ w, i = .drvWr w) → t.buf = s.buf) ∧
      (∀ c, s.ctx s.active = some c → ¬ (c.busy = true ∧ c.upc = some .bufWrite) → t.buf = s.buf) ∧
      (∀ c, s.ctx s.active = some c →
        ¬ (c.busy = true ∧ (c.upc = some .acquire ∨ c.upc = some .unlock ∨ c.upc = some .errUnlock)) → t.lock = s.lock) ∧
      (∀ c, s.ctx s.active = some c → c.busy = false → t.line = s.line ∧ t.chain = s.chain) ∧
      (∀ c u, s.ctx s.active = some c → c.upc = some u → u ≠ .driveAll →
        match driveAt (dataBit c) u with
        | none => t.line = s.line ∧ t.chain = s.chain
        | some (k, _) => ∀ l, l ≠ k → t.line.get l = s.line.get l) ∧
      ∀ c d, s.ctx s.active = some c → t.ctx s.active = some d →
        d.k = c.k ∧ d.j = c.j ∧ d.n = c.n ∧ d.tmp = c.tmp ∧
          (i = .drvClr ∨ i = .drvZero ∨ i = .bufClr → d.snap = c.snap ∧ d.i = c.i)

/-- R191, R208, R258: INIT and FINI never touch the commit lock; `CC` changes only at their last Complete, `BUF` only at INIT's
BufWrite and FINI's last Complete, and after the issue `LIFE` only at a Complete, `CAP` and `PINS` only at INIT's claims and at a
Complete, `CLAIMED` only at a claim or a release, and the port's `n` only at `Claim(0)` (R162). -/
def Obligations.LifecycleCommandsFrame : Prop :=
  ∀ (i : Instr) (s t : State), (i = .fini ∨ ∃ q a, i = .init q a) → exec i s = .next t →
    t.lock = s.lock ∧
      (∀ c, s.ctx s.active = some c → ¬ (c.busy = true ∧ c.upc = some .done) → t.cc = s.cc) ∧
      (∀ c, s.ctx s.active = some c → ¬ (c.busy = true ∧ (c.upc = some .bufWrite ∨ c.upc = some .done)) → t.buf = s.buf) ∧
      (∀ c u, s.ctx s.active = some c → c.busy = true → c.upc = some u →
        (u ≠ .reject → u ≠ .claimFailed → u ≠ .done → t.life = s.life) ∧
        (u ≠ .claim → u ≠ .claimFailed → u ≠ .done → t.cap = s.cap ∧ t.pins = s.pins) ∧
        (u ≠ .claim → u ≠ .rollback → u ≠ .release → t.claimed = s.claimed)) ∧
      ∀ c d, s.ctx s.active = some c → t.ctx s.active = some d →
        d.snap = c.snap ∧ d.tmp = c.tmp ∧ d.i = c.i ∧ d.holdsLock = c.holdsLock ∧
          (¬ (c.busy = true ∧ c.upc = some .claim ∧ c.k = some 0) → d.n = c.n)

/-! Invariants of the block. -/

/-- R35, R41, R43, R90 to R96, R352: the invariant `Inv` (the lock's holder, lines and claims, the chain under its levels, the
lifecycle, every busy port inside its micro-program with the registers it reads defined) is kept by every step, and so it is over
any type of pin identifiers (R10). -/
def Obligations.EveryStepKeepsInv : Prop :=
  (∀ s t : State, Inv s → step s = .next t → Inv t) ∧
  ∀ (PinId : Type) (_ : DecidableEq PinId) (s t : State PinId), Inv s → stepIn s = .next t → Inv t

/-- R340: the invariant holds at power-on, under every configuration. -/
def Obligations.PowerOnMeetsInv : Prop :=
  ∀ (PinId : Type) (g : Config), Inv (State.powerOn g : State PinId) ∧ HistInv (State.powerOn g : State PinId)

/-- R352: from a state that meets the invariant no step enters DriveUnclaimed, LockNotHeld, LockLeaked or DoubleRelease, and no
step is refused. -/
def Obligations.InternalFaultsUnreachable : Prop :=
  ∀ s : State, Inv s → s.mark = none →
    ∃ t, step s = .next t ∧ ∀ f, t.mark = some f → f.isInternal = false

/-- R353: from a state that meets the invariant no step takes `SCLK`, `LCLK` or `CLR_N` from `X` or `Z` to `H`. -/
def Obligations.NoUnknownClockEdge : Prop :=
  ∀ s t : State, Inv s → step s = .next t →
    (t.line.sclk = .high → s.line.sclk.driven = true) ∧ (t.line.lclk = .high → s.line.lclk.driven = true) ∧
      (t.line.clrN = .high → s.line.clrN.driven = true)

/-- R86, R97: the history determines the lines, the chain of the instance and the holder of the lock: folding its events gives
them, no ACQ stands between another port's ACQ and RLS, and every step keeps it so. -/
def Obligations.HistoryDeterminesOutputsAndLock : Prop :=
  ∀ s t : State, Inv s → s.mark = none → HistInv s → step s = .next t → HistInv t

/-- R80: no step removes or changes an event; a step appends at most one, tagged with the port that took it. -/
def Obligations.HistoryGrowsByOneEvent : Prop :=
  ∀ s t : State, step s = .next t → t.hist = s.hist ∨ ∃ e, t.hist = s.hist ++ [⟨t.active, e⟩]

/-- R83, R168, R169: every BRD event of the history carries the value of the latest BWR before it, and `BUF`, where it is defined,
is that value; every step keeps it so, from any state where it holds. -/
def Obligations.ReadsReturnLatestWrite : Prop :=
  ∀ (s t : State) (v : Option Int), bufWalk none s.hist = some v → (s.buf = none ∨ s.buf = v) → step s = .next t →
    ∃ w, bufWalk none t.hist = some w ∧ (t.buf = none ∨ t.buf = w)

/-- R41: `ctx.holds_lock` is true exactly for the port in `LOCK`: at power-on, and every step keeps it so, from any state where
it holds. -/
def Obligations.EveryStepKeepsLockInv : Prop :=
  (∀ (PinId : Type) (g : Config), LockInv (State.powerOn g : State PinId)) ∧
  ∀ s t : State, LockInv s → step s = .next t → LockInv t

/-- R43: a line is `Z` exactly while its pin is unclaimed, at power-on and by every step; the event of a step says what it set:
a claim that succeeds sets `X`, a drive that succeeds sets the level driven, a release sets `Z`. -/
def Obligations.EveryStepKeepsClaimInv : Prop :=
  (∀ (PinId : Type) (g : Config), claimInv (State.powerOn g : State PinId) = true) ∧
  ∀ s t : State, claimInv s = true → step s = .next t →
    claimInv t = true ∧
    ∀ (p : Nat) (e : Event), t.hist = s.hist ++ [⟨p, e⟩] →
      match e with
      | .claim l true => t.line = s.line.set l .x
      | .drv l v => t.line = s.line.set l (Level.ofBit v)
      | .drvAll v => t.line = Quad.all (Level.ofBit v)
      | .rel l => t.line = s.line.set l .z
      | .drvf l v true => t.line = s.line.set l (Level.ofBit v)
      | .drvAllf v true => t.line = Quad.all (Level.ofBit v)
      | _ => t.line = s.line

/-- R48: no step changes the configuration, nor the number of ports. -/
def Obligations.ConfigurationIsFixed : Prop :=
  ∀ s t : State, step s = .next t → t.cfg = s.cfg ∧ t.ports.length = s.ports.length

/-! The wire and the chain (20_memory.md R91 to R99, 40_sequencer.md R178, R180). -/

/-- R98, R180: whatever internal events stand between them, wire events that are those of `Transmit(w)` leave `S = Q = w` and
the lines of R180, from any levels without a floating line and any chain of the width. -/
def Obligations.TransmitTraceLatchesWord : Prop :=
  ∀ (ls : Quad Level) (ch : Chain) (n p : Nat) (w : Int) (h : List Entry), floating ls = false → 0 < n →
    ch.s.length = n → ch.q.length = n → wireTrace h = tagged p (transmitEvents n w) →
    foldHist (ls, ch) h =
      (⟨Level.ofBit (levelBit w 0), .low, .low, .high⟩, ⟨wordStage n w, wordStage n w⟩)

/-- R99: in a transmit `Q` keeps its value until the rising edge of the latch pulse and is the word from that event on. -/
def Obligations.OutputsChangeOnceInTransmit : Prop :=
  ∀ (ls : Quad Level) (ch : Chain) (n p k : Nat) (w : Int), floating ls = false → 0 < n →
    ch.s.length = n → ch.q.length = n →
    (k < 6 * n + 6 → (foldHist (ls, ch) ((tagged p (transmitEvents n w)).take k)).2.q = ch.q) ∧
      (6 * n + 6 ≤ k → (foldHist (ls, ch) ((tagged p (transmitEvents n w)).take k)).2.q = wordStage n w)

/-- R178, R355: a transmit of `CAP` bits has `8 + 6·CAP` wire events, `4·CAP + 5` drives (two on `CLR_N`, `CAP` on `SDATA`,
`3·CAP` on `SCLK`, three on `LCLK`) and `2·CAP + 3` delays, and takes its port at least `(2·CAP + 3)·T_EDGE`. -/
def Obligations.TransmitEventCounts : Prop :=
  ∀ (n p : Nat) (e : Duration) (w : Int),
    (transmitEvents n w).length = 8 + 6 * n ∧ ((transmitEvents n w).filter Event.isWire).length = 8 + 6 * n ∧
      ((transmitEvents n w).filter Event.isDrive).length = 4 * n + 5 ∧
      ((transmitEvents n w).filter fun x => x == .dly).length = 2 * n + 3 ∧
      minLineTime e p (tagged p (transmitEvents n w)) = (2 * n + 3) * e.val ∧
      ∀ l : Line, ((transmitEvents n w).filter fun x => x == .drv l false || x == .drv l true).length =
        match l with
        | .sdata => n
        | .sclk => 3 * n
        | .lclk => 3
        | .clrN => 2

/-- R348, R256: a clear pulse of another port between two shift pulses of a transmit, `k` bits from its end, leaves the latched
word with zeros above its `k` low bits. -/
def Obligations.ClearInsideTransmitLosesShiftedBits : Prop :=
  ∀ (ls : Quad Level) (ch : Chain) (n k p q : Nat) (w : Int), floating ls = false → k ≤ n → 0 < n →
    ch.s.length = n → ch.q.length = n →
    (foldHist (ls, ch)
      (tagged p (clearEvents ++ (shiftLoopEvents w n).take (6 * (n - k))) ++ tagged q clearEvents ++
        tagged p ((shiftLoopEvents w n).drop (6 * (n - k)) ++ latchEvents))).2.q =
      wordStage n (w % 2 ^ k)

/-- R91 to R96: what a change of the levels does to the chain: floating, clear, unknown clear, shift, latch, and nothing else. -/
def Obligations.ChainReactions : Prop :=
  ∀ (c : Chain) (old new : Quad Level),
    (floating new = true → (∀ b ∈ (c.react old new).s, b = .x) ∧ ∀ b ∈ (c.react old new).q, b = .x) ∧
    (floating new = false →
      (new.clrN = .low → ∀ b ∈ (c.react old new).s, b = .b0) ∧
      (new.clrN = .x → ∀ b ∈ (c.react old new).s, b = .x) ∧
      (new.clrN = .high → old.sclk = .low → new.sclk = .high →
        (∀ k, k + 1 < c.s.length → (c.react old new).s[k + 1]? = c.s[k]?) ∧
        (0 < c.s.length → (c.react old new).s[0]? = some new.sdata.toCBit) ∧ (c.react old new).s.length = c.s.length) ∧
      (new.clrN = .high → old.sclk = .x → new.sclk = .high → ∀ b ∈ (c.react old new).s, b = .x) ∧
      (new.clrN = .high → new.sclk ≠ .high ∨ old.sclk = .high → (c.react old new).s = c.s) ∧
      (old.lclk = .low → new.lclk = .high → (new.sclk ≠ .high ∨ old.sclk = .high) → (c.react old new).q = (c.react old new).s) ∧
      (old.lclk = .x → new.lclk = .high → ∀ b ∈ (c.react old new).q, b = .x) ∧
      (new.lclk ≠ .high ∨ old.lclk = .high → (c.react old new).q = c.q))

/-! Bit arithmetic (00_scope.md R12). -/

/-- R12, R247, R37, R10: `setbit` changes one bit and no other, of any integer, and keeps a word of `[0, 2^CAP)` in that range when
the bit is below the capacity; so every writer of `BUF` but BUF.WR keeps `BUF` in that range, under a legal `BUF_INIT`. -/
def Obligations.SetbitChangesOneBit : Prop :=
  (∀ (v b : Int) (i j : Nat), b = 0 ∨ b = 1 → bit (setbit v i b) j = if j = i then b else bit v j) ∧
  (∀ (v b : Int) (i n : Nat), b = 0 ∨ b = 1 → i < n → 0 ≤ v → v < 2 ^ n → 0 ≤ setbit v i b ∧ setbit v i b < 2 ^ n) ∧
  ∀ (i : Instr) (s t : State) (n : Nat), (∀ a, i ≠ .bufWr a) → s.cfg.legalFor n = true → s.cap = some n → t.cap = some n →
    (∀ b, s.buf = some b → inRange n b = true) →
    (∀ c b, s.ctx s.active = some c → c.tmp = some b → inRange n b = true) → exec i s = .next t →
    ∀ b, t.buf = some b → inRange n b = true
end

