-- ==== Sys2Proof/Laws/State.lean ====
section
/-! SUPPORT. One lemma per field per update of the state, so that no proof unfolds a record update; and how updates of the
contexts compose. -/

namespace Sys2Proof.Machine

variable {PinId : Type}

@[simp] theorem State.modCtx_cfg (s : State PinId) (p : Nat) (f : Ctx PinId → Ctx PinId) : (s.modCtx p f).cfg = s.cfg := rfl
@[simp] theorem State.modCtx_life (s : State PinId) (p : Nat) (f : Ctx PinId → Ctx PinId) : (s.modCtx p f).life = s.life := rfl
@[simp] theorem State.modCtx_cc (s : State PinId) (p : Nat) (f : Ctx PinId → Ctx PinId) : (s.modCtx p f).cc = s.cc := rfl
@[simp] theorem State.modCtx_cap (s : State PinId) (p : Nat) (f : Ctx PinId → Ctx PinId) : (s.modCtx p f).cap = s.cap := rfl
@[simp] theorem State.modCtx_pins (s : State PinId) (p : Nat) (f : Ctx PinId → Ctx PinId) : (s.modCtx p f).pins = s.pins := rfl
@[simp] theorem State.modCtx_claimed (s : State PinId) (p : Nat) (f : Ctx PinId → Ctx PinId) : (s.modCtx p f).claimed = s.claimed := rfl
@[simp] theorem State.modCtx_line (s : State PinId) (p : Nat) (f : Ctx PinId → Ctx PinId) : (s.modCtx p f).line = s.line := rfl
@[simp] theorem State.modCtx_lock (s : State PinId) (p : Nat) (f : Ctx PinId → Ctx PinId) : (s.modCtx p f).lock = s.lock := rfl
@[simp] theorem State.modCtx_buf (s : State PinId) (p : Nat) (f : Ctx PinId → Ctx PinId) : (s.modCtx p f).buf = s.buf := rfl
@[simp] theorem State.modCtx_ports (s : State PinId) (p : Nat) (f : Ctx PinId → Ctx PinId) : (s.modCtx p f).ports = s.ports.modify p f := rfl
@[simp] theorem State.modCtx_hist (s : State PinId) (p : Nat) (f : Ctx PinId → Ctx PinId) : (s.modCtx p f).hist = s.hist := rfl
@[simp] theorem State.modCtx_chain (s : State PinId) (p : Nat) (f : Ctx PinId → Ctx PinId) : (s.modCtx p f).chain = s.chain := rfl
@[simp] theorem State.modCtx_mark (s : State PinId) (p : Nat) (f : Ctx PinId → Ctx PinId) : (s.modCtx p f).mark = s.mark := rfl
@[simp] theorem State.modCtx_active (s : State PinId) (p : Nat) (f : Ctx PinId → Ctx PinId) : (s.modCtx p f).active = s.active := rfl
@[simp] theorem State.modCtx_sched (s : State PinId) (p : Nat) (f : Ctx PinId → Ctx PinId) : (s.modCtx p f).sched = s.sched := rfl
@[simp] theorem State.modCtx_draws (s : State PinId) (p : Nat) (f : Ctx PinId → Ctx PinId) : (s.modCtx p f).draws = s.draws := rfl
@[simp] theorem State.modCtx_tick (s : State PinId) (p : Nat) (f : Ctx PinId → Ctx PinId) : (s.modCtx p f).tick = s.tick := rfl

@[simp] theorem State.log_cfg (s : State PinId) (p : Nat) (e : Event) : (s.log p e).cfg = s.cfg := rfl
@[simp] theorem State.log_life (s : State PinId) (p : Nat) (e : Event) : (s.log p e).life = s.life := rfl
@[simp] theorem State.log_cc (s : State PinId) (p : Nat) (e : Event) : (s.log p e).cc = s.cc := rfl
@[simp] theorem State.log_cap (s : State PinId) (p : Nat) (e : Event) : (s.log p e).cap = s.cap := rfl
@[simp] theorem State.log_pins (s : State PinId) (p : Nat) (e : Event) : (s.log p e).pins = s.pins := rfl
@[simp] theorem State.log_claimed (s : State PinId) (p : Nat) (e : Event) : (s.log p e).claimed = s.claimed := rfl
@[simp] theorem State.log_line (s : State PinId) (p : Nat) (e : Event) : (s.log p e).line = s.line := rfl
@[simp] theorem State.log_lock (s : State PinId) (p : Nat) (e : Event) : (s.log p e).lock = s.lock := rfl
@[simp] theorem State.log_buf (s : State PinId) (p : Nat) (e : Event) : (s.log p e).buf = s.buf := rfl
@[simp] theorem State.log_ports (s : State PinId) (p : Nat) (e : Event) : (s.log p e).ports = s.ports := rfl
@[simp] theorem State.log_hist (s : State PinId) (p : Nat) (e : Event) : (s.log p e).hist = s.hist ++ [⟨p, e⟩] := rfl
@[simp] theorem State.log_chain (s : State PinId) (p : Nat) (e : Event) : (s.log p e).chain = s.chain := rfl
@[simp] theorem State.log_mark (s : State PinId) (p : Nat) (e : Event) : (s.log p e).mark = s.mark := rfl
@[simp] theorem State.log_active (s : State PinId) (p : Nat) (e : Event) : (s.log p e).active = s.active := rfl
@[simp] theorem State.log_sched (s : State PinId) (p : Nat) (e : Event) : (s.log p e).sched = s.sched := rfl
@[simp] theorem State.log_draws (s : State PinId) (p : Nat) (e : Event) : (s.log p e).draws = s.draws := rfl
@[simp] theorem State.log_tick (s : State PinId) (p : Nat) (e : Event) : (s.log p e).tick = s.tick := rfl

@[simp] theorem State.setLines_cfg (s : State PinId) (ls : Quad Level) : (s.setLines ls).cfg = s.cfg := rfl
@[simp] theorem State.setLines_life (s : State PinId) (ls : Quad Level) : (s.setLines ls).life = s.life := rfl
@[simp] theorem State.setLines_cc (s : State PinId) (ls : Quad Level) : (s.setLines ls).cc = s.cc := rfl
@[simp] theorem State.setLines_cap (s : State PinId) (ls : Quad Level) : (s.setLines ls).cap = s.cap := rfl
@[simp] theorem State.setLines_pins (s : State PinId) (ls : Quad Level) : (s.setLines ls).pins = s.pins := rfl
@[simp] theorem State.setLines_claimed (s : State PinId) (ls : Quad Level) : (s.setLines ls).claimed = s.claimed := rfl
@[simp] theorem State.setLines_line (s : State PinId) (ls : Quad Level) : (s.setLines ls).line = ls := rfl
@[simp] theorem State.setLines_lock (s : State PinId) (ls : Quad Level) : (s.setLines ls).lock = s.lock := rfl
@[simp] theorem State.setLines_buf (s : State PinId) (ls : Quad Level) : (s.setLines ls).buf = s.buf := rfl
@[simp] theorem State.setLines_ports (s : State PinId) (ls : Quad Level) : (s.setLines ls).ports = s.ports := rfl
@[simp] theorem State.setLines_hist (s : State PinId) (ls : Quad Level) : (s.setLines ls).hist = s.hist := rfl
@[simp] theorem State.setLines_chain (s : State PinId) (ls : Quad Level) : (s.setLines ls).chain = s.chain.react s.line ls := rfl
@[simp] theorem State.setLines_mark (s : State PinId) (ls : Quad Level) : (s.setLines ls).mark = s.mark := rfl
@[simp] theorem State.setLines_active (s : State PinId) (ls : Quad Level) : (s.setLines ls).active = s.active := rfl
@[simp] theorem State.setLines_sched (s : State PinId) (ls : Quad Level) : (s.setLines ls).sched = s.sched := rfl
@[simp] theorem State.setLines_draws (s : State PinId) (ls : Quad Level) : (s.setLines ls).draws = s.draws := rfl
@[simp] theorem State.setLines_tick (s : State PinId) (ls : Quad Level) : (s.setLines ls).tick = s.tick := rfl

@[simp] theorem State.enterFault_cfg (s : State PinId) (f : Fault) : (s.enterFault f).cfg = s.cfg := rfl
@[simp] theorem State.enterFault_life (s : State PinId) (f : Fault) : (s.enterFault f).life = s.life := rfl
@[simp] theorem State.enterFault_cc (s : State PinId) (f : Fault) : (s.enterFault f).cc = s.cc := rfl
@[simp] theorem State.enterFault_cap (s : State PinId) (f : Fault) : (s.enterFault f).cap = s.cap := rfl
@[simp] theorem State.enterFault_pins (s : State PinId) (f : Fault) : (s.enterFault f).pins = s.pins := rfl
@[simp] theorem State.enterFault_claimed (s : State PinId) (f : Fault) : (s.enterFault f).claimed = s.claimed := rfl
@[simp] theorem State.enterFault_line (s : State PinId) (f : Fault) : (s.enterFault f).line = s.line := rfl
@[simp] theorem State.enterFault_lock (s : State PinId) (f : Fault) : (s.enterFault f).lock = s.lock := rfl
@[simp] theorem State.enterFault_buf (s : State PinId) (f : Fault) : (s.enterFault f).buf = s.buf := rfl
@[simp] theorem State.enterFault_ports (s : State PinId) (f : Fault) : (s.enterFault f).ports = s.ports := rfl
@[simp] theorem State.enterFault_hist (s : State PinId) (f : Fault) : (s.enterFault f).hist = s.hist := rfl
@[simp] theorem State.enterFault_chain (s : State PinId) (f : Fault) : (s.enterFault f).chain = s.chain := rfl
@[simp] theorem State.enterFault_mark (s : State PinId) (f : Fault) : (s.enterFault f).mark = some f := rfl
@[simp] theorem State.enterFault_active (s : State PinId) (f : Fault) : (s.enterFault f).active = s.active := rfl
@[simp] theorem State.enterFault_sched (s : State PinId) (f : Fault) : (s.enterFault f).sched = s.sched := rfl
@[simp] theorem State.enterFault_draws (s : State PinId) (f : Fault) : (s.enterFault f).draws = s.draws := rfl
@[simp] theorem State.enterFault_tick (s : State PinId) (f : Fault) : (s.enterFault f).tick = s.tick := rfl

@[simp] theorem after_cfg (s : State PinId) (es : List Event) (f : Ctx PinId → Ctx PinId) : (after s es f).cfg = s.cfg := rfl
@[simp] theorem after_life (s : State PinId) (es : List Event) (f : Ctx PinId → Ctx PinId) : (after s es f).life = s.life := rfl
@[simp] theorem after_cc (s : State PinId) (es : List Event) (f : Ctx PinId → Ctx PinId) : (after s es f).cc = s.cc := rfl
@[simp] theorem after_cap (s : State PinId) (es : List Event) (f : Ctx PinId → Ctx PinId) : (after s es f).cap = s.cap := rfl
@[simp] theorem after_pins (s : State PinId) (es : List Event) (f : Ctx PinId → Ctx PinId) : (after s es f).pins = s.pins := rfl
@[simp] theorem after_claimed (s : State PinId) (es : List Event) (f : Ctx PinId → Ctx PinId) : (after s es f).claimed = s.claimed := rfl
@[simp] theorem after_line (s : State PinId) (es : List Event) (f : Ctx PinId → Ctx PinId) : (after s es f).line = s.line := rfl
@[simp] theorem after_lock (s : State PinId) (es : List Event) (f : Ctx PinId → Ctx PinId) : (after s es f).lock = s.lock := rfl
@[simp] theorem after_buf (s : State PinId) (es : List Event) (f : Ctx PinId → Ctx PinId) : (after s es f).buf = s.buf := rfl
@[simp] theorem after_ports (s : State PinId) (es : List Event) (f : Ctx PinId → Ctx PinId) : (after s es f).ports = s.ports.modify s.active f := rfl
@[simp] theorem after_hist (s : State PinId) (es : List Event) (f : Ctx PinId → Ctx PinId) : (after s es f).hist = s.hist ++ tagged s.active es := rfl
@[simp] theorem after_chain (s : State PinId) (es : List Event) (f : Ctx PinId → Ctx PinId) : (after s es f).chain = s.chain := rfl
@[simp] theorem after_mark (s : State PinId) (es : List Event) (f : Ctx PinId → Ctx PinId) : (after s es f).mark = s.mark := rfl
@[simp] theorem after_active (s : State PinId) (es : List Event) (f : Ctx PinId → Ctx PinId) : (after s es f).active = s.active := rfl
@[simp] theorem after_sched (s : State PinId) (es : List Event) (f : Ctx PinId → Ctx PinId) : (after s es f).sched = s.sched := rfl
@[simp] theorem after_draws (s : State PinId) (es : List Event) (f : Ctx PinId → Ctx PinId) : (after s es f).draws = s.draws := rfl
@[simp] theorem after_tick (s : State PinId) (es : List Event) (f : Ctx PinId → Ctx PinId) : (after s es f).tick = s.tick := rfl

@[simp] theorem State.drawn_cfg (s : State PinId) : s.drawn.cfg = s.cfg := by
  unfold State.drawn
  split
  · split <;> rfl
  · rfl
@[simp] theorem State.drawn_life (s : State PinId) : s.drawn.life = s.life := by
  unfold State.drawn
  split
  · split <;> rfl
  · rfl
@[simp] theorem State.drawn_cc (s : State PinId) : s.drawn.cc = s.cc := by
  unfold State.drawn
  split
  · split <;> rfl
  · rfl
@[simp] theorem State.drawn_cap (s : State PinId) : s.drawn.cap = s.cap := by
  unfold State.drawn
  split
  · split <;> rfl
  · rfl
@[simp] theorem State.drawn_pins (s : State PinId) : s.drawn.pins = s.pins := by
  unfold State.drawn
  split
  · split <;> rfl
  · rfl
@[simp] theorem State.drawn_claimed (s : State PinId) : s.drawn.claimed = s.claimed := by
  unfold State.drawn
  split
  · split <;> rfl
  · rfl
@[simp] theorem State.drawn_line (s : State PinId) : s.drawn.line = s.line := by
  unfold State.drawn
  split
  · split <;> rfl
  · rfl
@[simp] theorem State.drawn_lock (s : State PinId) : s.drawn.lock = s.lock := by
  unfold State.drawn
  split
  · split <;> rfl
  · rfl
@[simp] theorem State.drawn_buf (s : State PinId) : s.drawn.buf = s.buf := by
  unfold State.drawn
  split
  · split <;> rfl
  · rfl
@[simp] theorem State.drawn_ports (s : State PinId) : s.drawn.ports = s.ports := by
  unfold State.drawn
  split
  · split <;> rfl
  · rfl
@[simp] theorem State.drawn_hist (s : State PinId) : s.drawn.hist = s.hist := by
  unfold State.drawn
  split
  · split <;> rfl
  · rfl
@[simp] theorem State.drawn_chain (s : State PinId) : s.drawn.chain = s.chain := by
  unfold State.drawn
  split
  · split <;> rfl
  · rfl
@[simp] theorem State.drawn_mark (s : State PinId) : s.drawn.mark = s.mark := by
  unfold State.drawn
  split
  · split <;> rfl
  · rfl
@[simp] theorem State.drawn_active (s : State PinId) : s.drawn.active = s.active := by
  unfold State.drawn
  split
  · split <;> rfl
  · rfl
@[simp] theorem State.drawn_sched (s : State PinId) : s.drawn.sched = s.sched := by
  unfold State.drawn
  split
  · split <;> rfl
  · rfl

/-- With `BACKEND_FAULTS = false` every answer is a success and none is used up (40_sequencer.md R163). -/
theorem State.draw_of_no_faults {s : State PinId} (h : s.cfg.backendFaults = false) :
    s.draw = ⟨true, false⟩ ∧ s.drawn = s := by
  simp [State.draw, State.drawn, h]

/-- With `BACKEND_FAULTS = true` the next listed answer is used. -/
theorem State.draw_of_listed {s : State PinId} {d : Draw} {ds : List Draw} (h : s.cfg.backendFaults = true)
    (hd : s.draws = d :: ds) : s.draw = d ∧ s.drawn = { s with draws := ds } := by
  simp [State.draw, State.drawn, h, hd]

@[simp] theorem State.ctx_modCtx_self (s : State PinId) (p : Nat) (f : Ctx PinId → Ctx PinId) : (s.modCtx p f).ctx p = (s.ctx p).map f := by
  simp [State.ctx, State.modCtx]

theorem State.ctx_modCtx_other {s : State PinId} {p q : Nat} (f : Ctx PinId → Ctx PinId) (h : q ≠ p) : (s.modCtx p f).ctx q = s.ctx q := by
  have h' : p ≠ q := fun e => h e.symm
  simp [State.ctx, State.modCtx, h']

@[simp] theorem State.ctx_log (s : State PinId) (p q : Nat) (e : Event) : (s.log p e).ctx q = s.ctx q := rfl

@[simp] theorem State.ctx_setLines (s : State PinId) (q : Nat) (ls : Quad Level) : (s.setLines ls).ctx q = s.ctx q := rfl

@[simp] theorem State.ctx_drawn (s : State PinId) (q : Nat) : s.drawn.ctx q = s.ctx q := by
  simp [State.ctx]

/-- Two changes of one context are one. -/
theorem State.modCtx_modCtx (s : State PinId) (p : Nat) (f g : Ctx PinId → Ctx PinId) :
    (s.modCtx p f).modCtx p g = s.modCtx p fun c => g (f c) := by
  have h : (s.ports.modify p f).modify p g = s.ports.modify p fun c => g (f c) := by
    apply List.ext_getElem?
    intro q
    simp only [List.getElem?_modify]
    by_cases e : p = q
    · cases hq : s.ports[q]? <;> simp [e]
    · cases hq : s.ports[q]? <;> simp [e]
  simp [State.modCtx, h]

/-- A change of a context by a constant is a change by any function with that value there. -/
theorem State.modCtx_congr {s : State PinId} {p : Nat} {c : Ctx PinId} {f g : Ctx PinId → Ctx PinId} (h : s.ctx p = some c) (e : f c = g c) :
    s.modCtx p f = s.modCtx p g := by
  have h' : s.ports.modify p f = s.ports.modify p g := by
    apply List.ext_getElem?
    intro q
    simp only [List.getElem?_modify]
    by_cases hq : p = q
    · subst hq
      have hc : s.ports[p]? = some c := h
      simp [hc, e]
    · cases hs : s.ports[q]? <;> simp [hq]
  simp [State.modCtx, h']

end Sys2Proof.Machine
end

