-- ==== Sys2Proof/Laws/Ops.lean ====
section
/-! SUPPORT. What each shared operation can do, said once: provers cite these instead of unfolding the operation. -/

namespace Sys2Proof.Machine

variable {PinId : Type}

/-- Everything `Drive` can do (40_sequencer.md R164). -/
theorem runDrive_cases (s : State PinId) (l : Line) (v : Bool) :
    (s.claimed.get l = false ∧ runDrive s l v = .fault (.driveUnclaimed s.active)) ∨
    (s.claimed.get l = true ∧ s.draw.ok = true ∧
      runDrive s l v = .ok ((s.drawn.setLines (s.line.set l (Level.ofBit v))).log s.active (.drv l v))) ∨
    (s.claimed.get l = true ∧ s.draw.ok = false ∧
      runDrive s l v = .failed
        (((if s.draw.took then s.drawn.setLines (s.line.set l (Level.ofBit v)) else s.drawn).log s.active
          (.drvf l v s.draw.took)).modCtx s.active fun c => { c with err := some .backendFailure })) := by
  cases hc : s.claimed.get l <;> cases ho : s.draw.ok <;> simp [runDrive, hc, ho]

/-- Everything `DriveAll` can do (40_sequencer.md R165). -/
theorem runDriveAll_cases (s : State PinId) (v : Bool) :
    (allClaimed s.claimed = false ∧ runDriveAll s v = .fault (.driveUnclaimed s.active)) ∨
    (allClaimed s.claimed = true ∧ s.draw.ok = true ∧
      runDriveAll s v = .ok ((s.drawn.setLines (Quad.all (Level.ofBit v))).log s.active (.drvAll v))) ∨
    (allClaimed s.claimed = true ∧ s.draw.ok = false ∧
      runDriveAll s v = .failed
        (((if s.draw.took then s.drawn.setLines (Quad.all (Level.ofBit v)) else s.drawn).log s.active
          (.drvAllf v s.draw.took)).modCtx s.active fun c => { c with err := some .backendFailure })) := by
  cases hc : allClaimed s.claimed <;> cases ho : s.draw.ok <;> simp [runDriveAll, hc, ho]

/-- Everything `Claim` can do (40_sequencer.md R170). -/
theorem runClaim_cases (s : State PinId) (l : Line) :
    (s.pins = none ∧ runClaim s l = .fault (.readUndefined s.active)) ∨
    (s.pins ≠ none ∧ s.draw.ok = true ∧
      runClaim s l = .ok (({ s.drawn with claimed := s.claimed.set l true }.setLines (s.line.set l .x)).log s.active
        (.claim l true))) ∨
    (s.pins ≠ none ∧ s.draw.ok = false ∧ runClaim s l = .failed (s.drawn.log s.active (.claim l false))) := by
  cases hp : s.pins <;> cases ho : s.draw.ok <;> simp [runClaim, hp, ho]

/-- Everything `Release` can do (40_sequencer.md R171). -/
theorem runRelease_cases (s : State PinId) (l : Line) :
    (s.claimed.get l = false ∧ runRelease s l = .fault (.doubleRelease s.active)) ∨
    (s.claimed.get l = true ∧ s.pins = none ∧ runRelease s l = .fault (.readUndefined s.active)) ∨
    (s.claimed.get l = true ∧ s.pins ≠ none ∧ s.draw.ok = true ∧
      runRelease s l = .ok (({ s.drawn with claimed := s.claimed.set l false }.setLines (s.line.set l .z)).log s.active
        (.rel l))) ∨
    (s.claimed.get l = true ∧ s.pins ≠ none ∧ s.draw.ok = false ∧
      runRelease s l = .fault (.releaseFailed s.active)) := by
  cases hc : s.claimed.get l <;> cases hp : s.pins <;> cases ho : s.draw.ok <;> simp [runRelease, hc, hp, ho]

/-- Everything `LockAcquire` can do (40_sequencer.md R166). -/
theorem runLockAcquire_cases (s : State PinId) :
    (s.lock ≠ none ∧ runLockAcquire s = .held) ∨
    (s.lock = none ∧ runLockAcquire s =
      .ok (({ s with lock := some s.active }.modCtx s.active fun c => { c with holdsLock := true }).log s.active .acq)) := by
  cases h : s.lock <;> simp [runLockAcquire, h]

/-- Everything `LockRelease` can do (40_sequencer.md R167). -/
theorem runLockRelease_cases (s : State PinId) :
    (s.lock ≠ some s.active ∧ runLockRelease s = .fault (.lockNotHeld s.active)) ∨
    (s.lock = some s.active ∧ runLockRelease s =
      .ok (({ s with lock := none }.modCtx s.active fun c => { c with holdsLock := false }).log s.active .rls)) := by
  by_cases h : s.lock = some s.active <;> simp [runLockRelease, h]

/-- Everything `BufRead` can do (40_sequencer.md R168). -/
theorem runBufRead_cases (s : State PinId) (f : Int → Ctx PinId → Ctx PinId) :
    (s.buf = none ∧ runBufRead s f = .fault (.readUndefined s.active)) ∨
    ∃ v, s.buf = some v ∧ runBufRead s f = .ok ((s.modCtx s.active (f v)).log s.active (.brd v)) := by
  cases h : s.buf <;> simp [runBufRead, h]

/-- Everything `Complete` can do on a port that exists (40_sequencer.md R173). -/
theorem runComplete_cases {s : State PinId} {c : Ctx PinId} (h : s.ctx s.active = some c) (st : Status) (r : Option Int) :
    (c.holdsLock = true ∧ runComplete s st r = .fault (.lockLeaked s.active)) ∨
    (c.holdsLock = false ∧ runComplete s st r =
      .ok ((s.modCtx s.active fun c => { c with sts := some st, res := some r, busy := false }).log s.active (.done st))) := by
  cases hl : c.holdsLock <;> simp [runComplete, h, hl]

/-- The rule of each instruction. -/
def ruleOf [DecidableEq PinId] : Instr PinId → Rule PinId
  | .drvCap => { check := admitReady, begin := beginAt .done, prog := progCap }
  | .drvClr => { check := admitReady, begin := beginAt .clearLow, prog := progDrvClr }
  | .drvWr word => { check := admitReady, begin := beginDrvWr word, prog := progDrvWr }
  | .drvZero => { check := admitReady, begin := beginAt .driveAll, prog := progDrvZero }
  | .bufCap => { check := admitReady, begin := beginAt .done, prog := progCap }
  | .bufClr => { check := admitReady, begin := beginByScope .bufWrite .acquire, prog := progBufClr }
  | .bufWr word => { check := admitReady, begin := beginByScope .bufWrite .acquire, prog := progBufWr word }
  | .bufChk pos => { check := admitReady, begin := beginPos pos .done, prog := progBufChk }
  | .bufGet pos => { check := admitReady, begin := beginPos pos .bufRead, prog := progBufGet pos }
  | .bufSet pos value => { check := admitReady, begin := beginBufSet pos value, prog := progBufSet pos value }
  | .bufCommit => { check := admitReady, begin := beginAt .acquire, prog := progBufCommit }
  | .bufGetbuf => { check := admitReady, begin := beginAt .bufRead, prog := progBufGetbuf }
  | .init pins count =>
    { check := admitInit pins
      onLife := fun s => { s with life := .building }
      begin := beginInit count
      prog := progInit pins count }
  | .fini => { check := admitFini, onLife := startTeardown, begin := beginFini, prog := progFini }

/-- Every instruction is its rule run by the shared operation. -/
theorem execIn_eq_runRule [DecidableEq PinId] (i : Instr PinId) (s : State PinId) : execIn i s = runRule i (ruleOf i) s := by
  cases i <;> rfl

/-- `exec` is the machine over the default pin identifiers (00_scope.md R10). -/
theorem exec_eq_execIn (i : Instr) (s : State) : exec i s = execIn i s := by cases i <;> rfl

/-- `exec_eq_execIn` and `execIn_eq_runRule` in one. -/
theorem exec_eq_runRule (i : Instr) (s : State) : exec i s = runRule i (ruleOf i) s := by
  rw [exec_eq_execIn, execIn_eq_runRule]

/-- `step` is the machine over the default pin identifiers (00_scope.md R10). -/
theorem step_eq_stepIn (s : State) : step s = stepIn s := by
  unfold step stepIn
  cases fetch s with
  | run i t => exact exec_eq_execIn i t
  | answer o => rfl

/-- When an atomic step answers a next state: no fault is recorded, the active port exists, and the step is the next micro-step
of a busy port or the issue on an idle one. -/
theorem runRule_next {i : Instr PinId} {r : Rule PinId} {s t : State PinId} (h : runRule i r s = .next t) :
    s.mark = none ∧ ∃ c, s.ctx s.active = some c ∧
      ((c.busy = true ∧ microStep r c s = .next t) ∨ (c.busy = false ∧ issueStep i r s = .next t)) := by
  unfold runRule at h
  split at h
  · cases h
  · rename_i hm
    split at h
    · cases h
    · rename_i c hc
      split at h
      · rename_i hb
        exact ⟨hm, c, hc, .inl ⟨hb, h⟩⟩
      · rename_i hb
        exact ⟨hm, c, hc, .inr ⟨by simpa using hb, h⟩⟩

/-- When a micro-step answers a next state: what the step at its position came to. -/
theorem perform_next {f : Fetched PinId} {s t : State PinId} (h : perform f s = .next t) :
    (f = .undef ∧ t = s.enterFault (.readUndefined s.active)) ∨
    ∃ m, f = .step m ∧
      ((∃ u, m.op.run (m.writes s) = .ok u ∧ t = u.modCtx u.active m.next) ∨
       (∃ u, m.op.run (m.writes s) = .failed u ∧ t = u.modCtx u.active m.onFail) ∨
       (m.op.run (m.writes s) = .held ∧ t = s) ∨
       ∃ e, m.op.run (m.writes s) = .fault e ∧ t = s.enterFault e) := by
  cases f with
  | off => cases h
  | undef => exact .inl ⟨rfl, by simpa [perform] using h.symm⟩
  | step m =>
    refine .inr ⟨m, rfl, ?_⟩
    simp only [perform] at h
    split at h
    · exact .inl ⟨_, ‹_›, by simpa using h.symm⟩
    · exact .inr (.inl ⟨_, ‹_›, by simpa using h.symm⟩)
    · exact .inr (.inr (.inl ⟨‹_›, by simpa using h.symm⟩))
    · exact .inr (.inr (.inr ⟨_, ‹_›, by simpa using h.symm⟩))

/-- When an issue answers a next state: the command was malformed, not admitted, or admitted (40_sequencer.md R160). -/
theorem issueStep_next {i : Instr PinId} {r : Rule PinId} {s t : State PinId} (h : issueStep i r s = .next t) :
    (i.wellFormed = false ∧ t = (s.present (encode i)).enterFault (.malformedCommand s.active)) ∨
    (i.wellFormed = true ∧
      ((∃ f, r.check (s.present (encode i)) = some f ∧ t = (s.present (encode i)).enterFault f) ∨
       (r.check (s.present (encode i)) = none ∧ ∃ c, (s.present (encode i)).ctx s.active = some c ∧
         ((r.begin (s.present (encode i)) c = none ∧ t = (s.present (encode i)).enterFault (.readUndefined s.active)) ∨
          ∃ c', r.begin (s.present (encode i)) c = some c' ∧
            t = (r.onLife (s.present (encode i))).modCtx s.active fun _ => c')))) := by
  simp only [issueStep] at h
  split at h
  · rename_i hw
    exact .inl ⟨by simpa using hw, by simpa using h.symm⟩
  · rename_i hw
    refine .inr ⟨by simpa using hw, ?_⟩
    split at h
    · exact .inl ⟨_, ‹_›, by simpa using h.symm⟩
    · refine .inr ⟨‹_›, ?_⟩
      split at h
      · cases h
      · rename_i c hc
        refine ⟨c, hc, ?_⟩
        split at h
        · exact .inl ⟨‹_›, by simpa using h.symm⟩
        · exact .inr ⟨_, ‹_›, by simpa using h.symm⟩

/-- When a step answers a next state: it ran an instruction, or the fetch answered it (40_sequencer.md R161). -/
theorem stepIn_next [DecidableEq PinId] {s t : State PinId} (h : stepIn s = .next t) :
    (∃ i u, fetch s = .run i u ∧ execIn i u = .next t) ∨ fetch s = .answer (.next t) := by
  unfold stepIn at h
  split at h
  · exact .inl ⟨_, _, ‹_›, h⟩
  · rename_i o ho
    subst h
    exact .inr ho

/-- `stepIn_next` for `step`. -/
theorem step_next {s t : State} (h : step s = .next t) :
    (∃ i u, fetch s = .run i u ∧ exec i u = .next t) ∨ fetch s = .answer (.next t) := by
  simp only [exec_eq_execIn]
  exact stepIn_next (step_eq_stepIn s ▸ h)

end Sys2Proof.Machine
end

