-- ==== Sys2Proof/Laws/PerInstr.lean ====
section
/-! SUPPORT. Statements for all instructions, one lemma per constructor. Family OpcodeFormat: the opcode of an instruction is a
listed one, and the instruction's encoding fits that opcode's format exactly when the instruction is well formed
(30_encoding.md R122, R125 to R127). -/

namespace Sys2Proof.Laws.OpcodeFormat

/-- The encoding of an instruction fits its opcode's format exactly when the instruction is well formed. -/
def Statement (i : Instr) : Prop := ∃ f, formatOf i.opcode = some f ∧ (encode i).fits f = i.wellFormed

theorem drvCap : Statement .drvCap := ⟨.n, by decide, by decide⟩
theorem drvClr : Statement .drvClr := ⟨.n, by decide, by decide⟩
theorem drvWr (word : Arg) : Statement (.drvWr word) := ⟨.w, (by decide : formatOf 0x02#8 = some .w), by cases word <;> rfl⟩
theorem drvZero : Statement .drvZero := ⟨.n, by decide, by decide⟩
theorem bufCap : Statement .bufCap := ⟨.n, by decide, by decide⟩
theorem bufClr : Statement .bufClr := ⟨.n, by decide, by decide⟩
theorem bufWr (word : Arg) : Statement (.bufWr word) := ⟨.w, (by decide : formatOf 0x12#8 = some .w), by cases word <;> rfl⟩
theorem bufChk (pos : Arg) : Statement (.bufChk pos) := ⟨.p, (by decide : formatOf 0x13#8 = some .p), by cases pos <;> rfl⟩
theorem bufGet (pos : Arg) : Statement (.bufGet pos) := ⟨.p, (by decide : formatOf 0x14#8 = some .p), by cases pos <;> rfl⟩
theorem bufSet (pos value : Arg) : Statement (.bufSet pos value) :=
  ⟨.pv, (by decide : formatOf 0x15#8 = some .pv), by cases pos <;> cases value <;> rfl⟩
theorem bufCommit : Statement .bufCommit := ⟨.n, by decide, by decide⟩
theorem bufGetbuf : Statement .bufGetbuf := ⟨.n, by decide, by decide⟩
theorem init (pins : Quad Nat) (count : Arg) : Statement (.init pins count) := ⟨.i, (by decide : formatOf 0xF0#8 = some .i), rfl⟩
theorem fini : Statement .fini := ⟨.n, by decide, by decide⟩

end Sys2Proof.Laws.OpcodeFormat
end

