-- ==== Sys2Proof/Laws/Pins.lean ====
section
/-! SUPPORT. `PinId` as a parameter (00_scope.md R10, 93_implementation_defined.md I13): the block over one type of pin identifiers
and the block over another are one machine. No injection between the identifiers changes what `execIn` and `stepIn` do, whatever
the two types; so what `exec` and `step` do over the identifiers `Nat` is what the block does over any type that has an injection
into `Nat` (notes/assumptions/11.md). -/

namespace Sys2Proof.Machine

variable {PinId PinId' : Type}

/-- Rename the four identifiers. -/
def renameQuad (f : PinId → PinId') (q : Quad PinId) : Quad PinId' := ⟨f q.sdata, f q.sclk, f q.lclk, f q.clrN⟩

/-- Rename the identifiers of a command. -/
def renameCommand (f : PinId → PinId') (c : Command PinId) : Command PinId' := { c with pins := c.pins.map (renameQuad f) }

/-- Rename the identifiers of an instruction. -/
def renameInstr (f : PinId → PinId') (i : Instr PinId) : Instr PinId' :=
  match i with
  | .init pins count => .init (renameQuad f pins) count
  | .drvCap => .drvCap
  | .drvClr => .drvClr
  | .drvWr word => .drvWr word
  | .drvZero => .drvZero
  | .bufCap => .bufCap
  | .bufClr => .bufClr
  | .bufWr word => .bufWr word
  | .bufChk pos => .bufChk pos
  | .bufGet pos => .bufGet pos
  | .bufSet pos value => .bufSet pos value
  | .bufCommit => .bufCommit
  | .bufGetbuf => .bufGetbuf
  | .fini => .fini

/-- Rename the identifiers in a context. -/
def renameCtx (f : PinId → PinId') (c : Ctx PinId) : Ctx PinId' :=
  { c with pins := c.pins.map (Option.map (renameQuad f)), queue := c.queue.map (renameCommand f) }

/-- Rename the identifiers in a state. -/
def renameState (f : PinId → PinId') (s : State PinId) : State PinId' :=
  { s with pins := s.pins.map (renameQuad f), ports := s.ports.map (renameCtx f) }

/-- Rename the identifiers in an outcome. -/
def renameOut (f : PinId → PinId') (o : Out PinId) : Out PinId' :=
  match o with
  | .next s => .next (renameState f s)
  | .fault r => .fault r
  | .refused r => .refused r

/-- Rename the identifiers in what a micro-step comes to. -/
def renameResult (f : PinId → PinId') (r : Result PinId) : Result PinId' :=
  match r with
  | .ok s => .ok (renameState f s)
  | .failed s => .failed (renameState f s)
  | .held => .held
  | .fault e => .fault e

variable {f : PinId → PinId'}

@[simp] theorem renameState_ctx (s : State PinId) (p : Nat) : (renameState f s).ctx p = (s.ctx p).map (renameCtx f) := by
  simp [State.ctx, renameState]

/-- A change of a context that does not look at pin identifiers commutes with renaming. -/
theorem renameState_modCtx {g : Ctx PinId → Ctx PinId} {h : Ctx PinId' → Ctx PinId'}
    (e : ∀ c, h (renameCtx f c) = renameCtx f (g c)) (s : State PinId) (p : Nat) :
    (renameState f s).modCtx p h = renameState f (s.modCtx p g) := by
  have hp : (s.ports.map (renameCtx f)).modify p h = (s.ports.modify p g).map (renameCtx f) := by
    apply List.ext_getElem?
    intro q
    simp only [List.getElem?_modify, List.getElem?_map]
    by_cases hq : p = q <;> cases s.ports[q]? <;> simp [hq, e]
  simp [State.modCtx, renameState, hp]

@[simp] theorem renameState_cfg (s : State PinId) : (renameState f s).cfg = s.cfg := rfl
@[simp] theorem renameState_life (s : State PinId) : (renameState f s).life = s.life := rfl
@[simp] theorem renameState_cc (s : State PinId) : (renameState f s).cc = s.cc := rfl
@[simp] theorem renameState_cap (s : State PinId) : (renameState f s).cap = s.cap := rfl
@[simp] theorem renameState_claimed (s : State PinId) : (renameState f s).claimed = s.claimed := rfl
@[simp] theorem renameState_line (s : State PinId) : (renameState f s).line = s.line := rfl
@[simp] theorem renameState_lock (s : State PinId) : (renameState f s).lock = s.lock := rfl
@[simp] theorem renameState_buf (s : State PinId) : (renameState f s).buf = s.buf := rfl
@[simp] theorem renameState_hist (s : State PinId) : (renameState f s).hist = s.hist := rfl
@[simp] theorem renameState_chain (s : State PinId) : (renameState f s).chain = s.chain := rfl
@[simp] theorem renameState_mark (s : State PinId) : (renameState f s).mark = s.mark := rfl
@[simp] theorem renameState_active (s : State PinId) : (renameState f s).active = s.active := rfl
@[simp] theorem renameState_sched (s : State PinId) : (renameState f s).sched = s.sched := rfl
@[simp] theorem renameState_draws (s : State PinId) : (renameState f s).draws = s.draws := rfl
@[simp] theorem renameState_tick (s : State PinId) : (renameState f s).tick = s.tick := rfl
@[simp] theorem renameState_pins (s : State PinId) : (renameState f s).pins = s.pins.map (renameQuad f) := rfl
@[simp] theorem renameState_draw (s : State PinId) : (renameState f s).draw = s.draw := rfl

@[simp] theorem renameState_setLines (s : State PinId) (q : Quad Level) :
    (renameState f s).setLines q = renameState f (s.setLines q) := rfl
@[simp] theorem renameState_log (s : State PinId) (p : Nat) (e : Event) :
    (renameState f s).log p e = renameState f (s.log p e) := rfl

@[simp] theorem renameState_drawn (s : State PinId) : (renameState f s).drawn = renameState f s.drawn := by
  unfold State.drawn
  cases hb : s.cfg.backendFaults <;> cases hd : s.draws <;> simp [renameState, hb, hd]

/-- Every micro-step commutes with renaming. -/
theorem run_rename (m : Micro) (s : State PinId) : m.run (renameState f s) = renameResult f (m.run s) := by
  cases m with
  | drive l v =>
    simp only [Micro.run, runDrive, renameState_claimed, renameState_draw, renameState_drawn, renameState_active,
      renameState_line, renameState_setLines, renameState_log]
    split
    · rfl
    · split
      · rfl
      · split <;> simp only [renameState_log] <;>
        · refine congrArg Result.failed (renameState_modCtx ?_ _ _)
          exact fun _ => rfl
  | driveAll v =>
    simp only [Micro.run, runDriveAll, renameState_claimed, renameState_draw, renameState_drawn, renameState_active,
      renameState_setLines, renameState_log]
    split
    · rfl
    · split
      · rfl
      · split <;> simp only [renameState_log] <;>
        · refine congrArg Result.failed (renameState_modCtx ?_ _ _)
          exact fun _ => rfl
  | lockAcquire =>
    simp only [Micro.run, runLockAcquire, renameState_lock, renameState_active]
    cases s.lock with
    | some _ => rfl
    | none =>
      refine congrArg (fun t : State PinId' => Result.ok (t.log s.active .acq))
        (renameState_modCtx ?_ { s with lock := some s.active } s.active)
      exact fun _ => rfl
  | lockRelease =>
    show (if s.lock = some s.active then _ else _) = renameResult f (if s.lock = some s.active then _ else _)
    by_cases h : s.lock = some s.active
    · rw [if_pos h, if_pos h]
      refine congrArg (fun t : State PinId' => Result.ok (t.log s.active .rls))
        (renameState_modCtx ?_ { s with lock := none } s.active)
      exact fun _ => rfl
    · rw [if_neg h, if_neg h]
      rfl
  | bufReadSnap =>
    simp only [Micro.run, runBufRead, renameState_buf, renameState_active]
    cases s.buf with
    | none => rfl
    | some v =>
      refine congrArg (fun t : State PinId' => Result.ok (t.log s.active (.brd v))) (renameState_modCtx ?_ s s.active)
      exact fun _ => rfl
  | bufReadTmp =>
    simp only [Micro.run, runBufRead, renameState_buf, renameState_active]
    cases s.buf with
    | none => rfl
    | some v =>
      refine congrArg (fun t : State PinId' => Result.ok (t.log s.active (.brd v))) (renameState_modCtx ?_ s s.active)
      exact fun _ => rfl
  | bufWrite v => rfl
  | claim l =>
    simp only [Micro.run, runClaim, renameState_pins, renameState_draw, renameState_drawn]
    cases s.pins with
    | none => rfl
    | some q =>
      simp only [Option.map_some]
      split <;> rfl
  | release l =>
    simp only [Micro.run, runRelease, renameState_claimed, renameState_pins, renameState_draw, renameState_drawn]
    split
    · rfl
    · cases s.pins with
      | none => rfl
      | some q =>
        simp only [Option.map_some]
        split <;> rfl
  | delay => rfl
  | complete st r =>
    simp only [Micro.run, runComplete, renameState_active, renameState_ctx]
    cases s.ctx s.active with
    | none => rfl
    | some c =>
      simp only [Option.map_some]
      show (if c.holdsLock = true then _ else _) = renameResult f (if c.holdsLock = true then _ else _)
      split
      · rfl
      · refine congrArg (fun t : State PinId' => Result.ok (t.log s.active (.done st))) (renameState_modCtx ?_ s s.active)
        exact fun _ => rfl

/-- Two micro-steps are one but for the names of the pins. -/
structure SameStep (f : PinId → PinId') (m : MicroStep PinId) (n : MicroStep PinId') : Prop where
  op     : n.op = m.op
  next   : ∀ c, n.next (renameCtx f c) = renameCtx f (m.next c)
  onFail : ∀ c, n.onFail (renameCtx f c) = renameCtx f (m.onFail c)
  writes : ∀ s, n.writes (renameState f s) = renameState f (m.writes s)

/-- Two positions of a micro-program hold one thing but for the names of the pins. -/
def SameFetched (f : PinId → PinId') (x : Fetched PinId) (y : Fetched PinId') : Prop :=
  match x, y with
  | .step m, .step n => SameStep f m n
  | .undef, .undef => True
  | .off, .off => True
  | _, _ => False

/-- Performing a position commutes with renaming. -/
theorem perform_rename {x : Fetched PinId} {y : Fetched PinId'} (h : SameFetched f x y) (s : State PinId) :
    perform y (renameState f s) = renameOut f (perform x s) := by
  cases x with
  | off => cases y <;> first | rfl | exact h.elim
  | undef => cases y <;> first | rfl | exact h.elim
  | step m =>
    cases y with
    | off => exact h.elim
    | undef => exact h.elim
    | step n =>
      obtain ⟨ho, hn, hf, hw⟩ := h
      simp only [perform, ho, hw, run_rename]
      cases m.op.run (m.writes s) with
      | ok t => exact congrArg Host.Outcome.next (renameState_modCtx hn t _)
      | failed t => exact congrArg Host.Outcome.next (renameState_modCtx hf t _)
      | held => rfl
      | fault e => rfl

theorem goto_rename (u : UPos) (c : Ctx PinId) : goto u (renameCtx f c) = renameCtx f (goto u c) := rfl

theorem epilogue_rename (c : Ctx PinId) : epilogue (renameCtx f c) = renameCtx f (epilogue c) := by
  show (if c.holdsLock = true then _ else _) = renameCtx f (if c.holdsLock = true then _ else _)
  split <;> rfl

theorem orElse_rename {x x' : Fetched PinId} {y y' : Fetched PinId'} (h : SameFetched f x y) (h' : SameFetched f x' y') :
    SameFetched f (x.orElse x') (y.orElse y') := by
  cases x <;> cases y <;> first | exact h' | exact h | exact h.elim

theorem clearPulse_rename {a e : Ctx PinId → Ctx PinId} {a' e' : Ctx PinId' → Ctx PinId'}
    (ha : ∀ c, a' (renameCtx f c) = renameCtx f (a c)) (he : ∀ c, e' (renameCtx f c) = renameCtx f (e c)) (u : UPos) :
    SameFetched f (clearPulse a e u) (clearPulse a' e' u) := by
  cases u <;> first | trivial | exact ⟨rfl, ha, he, fun _ => rfl⟩ | exact ⟨rfl, fun _ => rfl, he, fun _ => rfl⟩

theorem latchPulse_rename {a e : Ctx PinId → Ctx PinId} {a' e' : Ctx PinId' → Ctx PinId'}
    (ha : ∀ c, a' (renameCtx f c) = renameCtx f (a c)) (he : ∀ c, e' (renameCtx f c) = renameCtx f (e c)) (u : UPos) :
    SameFetched f (latchPulse a e u) (latchPulse a' e' u) := by
  cases u <;> first | trivial | exact ⟨rfl, ha, he, fun _ => rfl⟩ | exact ⟨rfl, fun _ => rfl, he, fun _ => rfl⟩

theorem errorEpilogue_rename (c : Ctx PinId) (u : UPos) :
    SameFetched f (errorEpilogue c u) (errorEpilogue (renameCtx f c) u) := by
  cases u with
  | errUnlock => exact ⟨rfl, fun _ => rfl, epilogue_rename, fun _ => rfl⟩
  | errComplete =>
    show SameFetched f (match c.err with | some e => _ | none => _) (match c.err with | some e => _ | none => _)
    cases c.err with
    | none => trivial
    | some e => exact ⟨rfl, fun _ => rfl, epilogue_rename, fun _ => rfl⟩
  | _ => trivial

theorem shiftLoop_rename (c : Ctx PinId) (u : UPos) : SameFetched f (shiftLoop c u) (shiftLoop (renameCtx f c) u) := by
  show SameFetched f (shiftLoop c u) (if isShift u then match c.snap, c.i with | some w, some i => _ | _, _ => _ else _)
  unfold shiftLoop
  split
  · cases c.snap with
    | none => trivial
    | some w =>
      cases c.i with
      | none => trivial
      | some i =>
        cases u <;> first
          | trivial
          | exact ⟨rfl, fun _ => rfl, epilogue_rename, fun _ => rfl⟩
          | exact ⟨rfl, fun d => (by cases i <;> rfl), epilogue_rename, fun _ => rfl⟩
  · trivial

theorem transmit_rename {a : Ctx PinId → Ctx PinId} {a' : Ctx PinId' → Ctx PinId'}
    (ha : ∀ c, a' (renameCtx f c) = renameCtx f (a c)) (cap : Option Nat) (c : Ctx PinId) (u : UPos) :
    SameFetched f (transmit cap c a u) (transmit cap (renameCtx f c) a' u) := by
  have hs (n : Nat) (d : Ctx PinId) : startShift n (renameCtx f d) = renameCtx f (startShift n d) := by cases n <;> rfl
  have rest (u : UPos) : SameFetched f
      ((clearPulse id epilogue u).orElse ((shiftLoop c u).orElse (latchPulse a epilogue u)))
      ((clearPulse id epilogue u).orElse ((shiftLoop (renameCtx f c) u).orElse (latchPulse a' epilogue u))) :=
    orElse_rename (clearPulse_rename (a := id) (a' := id) (fun _ => rfl) epilogue_rename u)
      (orElse_rename (shiftLoop_rename c u) (latchPulse_rename ha epilogue_rename u))
  cases u with
  | clearHigh =>
    cases cap with
    | none => trivial
    | some n => exact clearPulse_rename (hs n) epilogue_rename .clearHigh
  | _ => cases cap <;> simp only [transmit] <;> exact rest _

theorem commitBody_rename (cap : Option Nat) (c : Ctx PinId) (u : UPos) :
    SameFetched f (commitBody cap c u) (commitBody cap (renameCtx f c) u) := by
  have hok (n : Nat) (d : Ctx PinId) : snapOk n (renameCtx f d) = snapOk n d := rfl
  have rest (u : UPos) : SameFetched f ((transmit cap c (goto .unlock) u).orElse (errorEpilogue c u))
      ((transmit cap (renameCtx f c) (goto .unlock) u).orElse (errorEpilogue (renameCtx f c) u)) :=
    orElse_rename (transmit_rename (goto_rename _) cap c u) (errorEpilogue_rename c u)
  cases u with
  | bufRead =>
    cases cap with
    | none => trivial
    | some n =>
      refine ⟨rfl, fun d => ?_, epilogue_rename, fun _ => rfl⟩
      show checkSnap n (renameCtx f d) = renameCtx f (checkSnap n d)
      simp only [checkSnap, hok]
      split <;> rfl
  | unlock =>
    have hc : (renameCtx f c).snap = c.snap := rfl
    simp only [commitBody, hc]
    cases cap with
    | none => trivial
    | some n =>
      cases c.snap with
      | none => trivial
      | some _ =>
        refine ⟨rfl, fun _ => rfl, epilogue_rename, fun t => renameState_modCtx (fun d => ?_) t t.active⟩
        simp only [hok]
        split <;> rfl
  | done => exact ⟨rfl, fun _ => rfl, epilogue_rename, fun _ => rfl⟩
  | _ => simp only [commitBody]; exact rest _

/-- Two rules are one but for the names of the pins. -/
structure SameRule (f : PinId → PinId') (r : Rule PinId) (q : Rule PinId') : Prop where
  check  : ∀ s, q.check (renameState f s) = r.check s
  onLife : ∀ s, q.onLife (renameState f s) = renameState f (r.onLife s)
  begin  : ∀ s c, q.begin (renameState f s) (renameCtx f c) = (r.begin s c).map (renameCtx f)
  prog   : ∀ s c u, SameFetched f (r.prog s c u) (q.prog (renameState f s) (renameCtx f c) u)

theorem othersIdle_rename (s : State PinId) (p : Nat) : (renameState f s).othersIdle p = s.othersIdle p := by
  have h (q : Nat) : (renameState f s).ports[q]? = (s.ports[q]?).map (renameCtx f) := renameState_ctx s q
  simp only [State.othersIdle, h]
  simp only [renameState, List.length_map]
  congr 1
  funext q
  cases s.ports[q]? <;> rfl

theorem distinctPins_rename [DecidableEq PinId] [DecidableEq PinId'] (hf : Function.Injective f) (q : Quad PinId) :
    distinctPins (renameQuad f q) = distinctPins q := by
  have h (a b : PinId) : (f a != f b) = (a != b) := by
    by_cases e : a = b <;> simp [e, hf.eq_iff, bne]
  simp [distinctPins, renameQuad, h]

theorem byScope_rename (s : State PinId) (u w : UPos) : byScope (renameState f s) u w = byScope s u w := rfl

theorem beginPos_rename (pos : Arg) (u : UPos) (s : State PinId) (c : Ctx PinId) :
    beginPos pos u (renameState f s) (renameCtx f c) = (beginPos pos u s c).map (renameCtx f) := by
  simp only [beginPos, renameState_cap]
  cases s.cap with
  | none => rfl
  | some n =>
    show (match validPos n pos with | some _ => _ | none => _) = Option.map _ (match validPos n pos with | some _ => _ | none => _)
    cases validPos n pos <;> rfl

/-- INIT's rule commutes with an injective renaming. -/
theorem init_sameRule [DecidableEq PinId] [DecidableEq PinId'] (hf : Function.Injective f)
    (pins : Quad PinId) (count : Arg) :
    SameRule f (ruleOf (.init pins count)) (ruleOf (.init (renameQuad f pins) count)) where
  check s := by
    simp only [ruleOf, admitInit, renameState_life, renameState_active, othersIdle_rename, distinctPins_rename hf]
  onLife _ := rfl
  begin s c := by
    show (match validCount s.cfg.capMax count with | some _ => _ | none => _) =
      Option.map _ (match validCount s.cfg.capMax count with | some _ => _ | none => _)
    cases validCount s.cfg.capMax count <;> rfl
  prog s c u := by
    cases u with
    | claim =>
      show SameFetched f (claimStep pins count s c) (claimStep (renameQuad f pins) count (renameState f s) (renameCtx f c))
      have hk (k : Nat) (d : Ctx PinId) : afterClaim k (renameCtx f d) = renameCtx f (afterClaim k d) := by
        unfold afterClaim
        split <;> rfl
      have hj (k : Nat) (d : Ctx PinId) : afterFailedClaim k (renameCtx f d) = renameCtx f (afterFailedClaim k d) := by
        unfold afterFailedClaim
        split <;> rfl
      have hc : (renameCtx f c).k = c.k := rfl
      simp only [claimStep, hc, renameState_cfg]
      match c.k with
      | none => trivial
      | some 0 =>
        cases validCount s.cfg.capMax count with
        | none => trivial
        | some n =>
          refine ⟨rfl, hk 0, hj 0, fun t => ?_⟩
          exact renameState_modCtx (g := fun d => { d with n := some n }) (fun _ => rfl) (writeInstance n pins t) t.active
      | some (k + 1) =>
        show SameFetched f (match Line.ofIndex (k + 1) with | some l => _ | none => _)
          (match Line.ofIndex (k + 1) with | some l => _ | none => _)
        cases Line.ofIndex (k + 1) with
        | none => trivial
        | some l => exact ⟨rfl, hk (k + 1), hj (k + 1), fun _ => rfl⟩
    | rollback =>
      show SameFetched f (match c.k, c.j with | some k, some j => _ | _, _ => _)
        (match c.k, c.j with | some k, some j => _ | _, _ => _)
      cases c.k with
      | none => trivial
      | some k =>
        cases c.j with
        | none => trivial
        | some j =>
          show SameFetched f (match Line.ofIndex j with | some l => _ | none => _)
            (match Line.ofIndex j with | some l => _ | none => _)
          cases Line.ofIndex j with
          | none => trivial
          | some l =>
            refine ⟨rfl, fun d => ?_, epilogue_rename, fun _ => rfl⟩
            show afterRollback k j (renameCtx f d) = renameCtx f (afterRollback k j d)
            unfold afterRollback
            split <;> rfl
    | reject => exact ⟨rfl, fun _ => rfl, epilogue_rename, fun _ => rfl⟩
    | claimFailed => exact ⟨rfl, fun _ => rfl, epilogue_rename, fun _ => rfl⟩
    | bufWrite => exact ⟨rfl, fun _ => rfl, epilogue_rename, fun _ => rfl⟩
    | done => exact ⟨rfl, fun _ => rfl, epilogue_rename, fun _ => rfl⟩
    | _ => trivial

/-- FINI's rule commutes with renaming. -/
theorem fini_sameRule [DecidableEq PinId] [DecidableEq PinId'] : SameRule f (ruleOf .fini) (ruleOf .fini) where
  check s := by
    simp only [ruleOf, admitFini, renameState_life, renameState_active, othersIdle_rename]
  onLife s := by
    simp only [ruleOf, startTeardown, renameState_life]
    cases s.life <;> rfl
  begin s c := by
    simp only [ruleOf, beginFini, renameState_life]
    cases s.life <;> rfl
  prog s c u := by
    have hr (d : Ctx PinId) : startRelease (renameCtx f d) = renameCtx f (startRelease d) := rfl
    have hk (k : Nat) (d : Ctx PinId) : afterRelease k (renameCtx f d) = renameCtx f (afterRelease k d) := by
      unfold afterRelease
      split <;> rfl
    have rest (u : UPos) : SameFetched f
        ((clearPulse (goto .latchLow) startRelease u).orElse (latchPulse (goto .driveAll) startRelease u))
        ((clearPulse (goto .latchLow) startRelease u).orElse (latchPulse (goto .driveAll) startRelease u)) :=
      orElse_rename (clearPulse_rename (goto_rename _) hr u) (latchPulse_rename (goto_rename _) hr u)
    cases u with
    | guard => exact ⟨rfl, fun _ => rfl, epilogue_rename, fun _ => rfl⟩
    | driveAll => exact ⟨rfl, hr, hr, fun _ => rfl⟩
    | done => exact ⟨rfl, fun _ => rfl, epilogue_rename, fun _ => rfl⟩
    | release =>
      have hc : (renameCtx f c).k = c.k := rfl
      simp only [ruleOf, progFini, releaseStep, hc]
      cases c.k with
      | none => trivial
      | some k =>
        dsimp only
        cases Line.ofIndex k with
        | none => trivial
        | some l => exact ⟨rfl, hk k, epilogue_rename, fun _ => rfl⟩
    | _ => simp only [ruleOf, progFini]; exact rest _

/-- A position that holds one simple step. -/
theorem simple_rename {m : Micro} {u : UPos} :
    SameFetched f (.step { op := m, next := goto u }) (.step { op := m, next := goto u }) :=
  ⟨rfl, goto_rename u, epilogue_rename, fun _ => rfl⟩

theorem complete_rename {st : Status} {r : Option Int} : SameFetched f (completeStep st r) (completeStep st r) :=
  ⟨rfl, fun _ => rfl, epilogue_rename, fun _ => rfl⟩

theorem beginDrvWr_rename (word : Arg) (s : State PinId) (c : Ctx PinId) :
    beginDrvWr word (renameState f s) (renameCtx f c) = (beginDrvWr word s c).map (renameCtx f) := by
  simp only [beginDrvWr, renameState_cap]
  cases s.cap with
  | none => rfl
  | some n =>
    dsimp only
    cases validWord n word <;> rfl

theorem beginBufSet_rename (pos value : Arg) (s : State PinId) (c : Ctx PinId) :
    beginBufSet pos value (renameState f s) (renameCtx f c) = (beginBufSet pos value s c).map (renameCtx f) := by
  simp only [beginBufSet, renameState_cap, byScope_rename]
  cases s.cap with
  | none => rfl
  | some n =>
    dsimp only
    cases validPos n pos <;> cases validVal value <;> rfl

theorem progCap_rename (s : State PinId) (c : Ctx PinId) (u : UPos) :
    SameFetched f (progCap s c u) (progCap (renameState f s) (renameCtx f c) u) := by
  cases u with
  | done =>
    simp only [progCap, renameState_cap]
    cases s.cap with
    | none => trivial
    | some n => exact complete_rename
  | _ => trivial

theorem progBufGet_rename (pos : Arg) (s : State PinId) (c : Ctx PinId) (u : UPos) :
    SameFetched f (progBufGet pos s c u) (progBufGet pos (renameState f s) (renameCtx f c) u) := by
  cases u with
  | reject => exact complete_rename
  | bufRead => exact simple_rename
  | done =>
    have hc : (renameCtx f c).tmp = c.tmp := rfl
    simp only [progBufGet, getBitStep, renameState_cap, hc]
    cases s.cap with
    | none => trivial
    | some n =>
      cases c.tmp with
      | none => trivial
      | some t =>
        dsimp only
        cases validPos n pos with
        | none => trivial
        | some v => exact complete_rename
  | _ => trivial

theorem progBufSet_rename (pos value : Arg) (s : State PinId) (c : Ctx PinId) (u : UPos) :
    SameFetched f (progBufSet pos value s c u) (progBufSet pos value (renameState f s) (renameCtx f c) u) := by
  cases u with
  | reject => exact complete_rename
  | acquire => exact simple_rename
  | bufRead => exact simple_rename
  | unlock => exact simple_rename
  | done => exact complete_rename
  | bufWrite =>
    have hc : (renameCtx f c).tmp = c.tmp := rfl
    simp only [progBufSet, setBitStep, renameState_cap, byScope_rename, hc]
    cases s.cap with
    | none => trivial
    | some n =>
      cases c.tmp with
      | none => trivial
      | some t =>
        dsimp only
        cases validPos n pos with
        | none => trivial
        | some v =>
          cases validVal value with
          | none => trivial
          | some x => exact simple_rename
  | _ => trivial

/-- The rule of every instruction commutes with an injective renaming. -/
theorem ruleOf_rename [DecidableEq PinId] [DecidableEq PinId'] (hf : Function.Injective f)
    (i : Instr PinId) : SameRule f (ruleOf i) (ruleOf (renameInstr f i)) := by
  have hready (s : State PinId) : admitReady (renameState f s) = admitReady s := rfl
  have hcommit (s : State PinId) (c : Ctx PinId) (u : UPos) :
      SameFetched f (commitBody s.cap c u) (commitBody (renameState f s).cap (renameCtx f c) u) :=
    commitBody_rename s.cap c u
  cases i with
  | init pins count => exact init_sameRule hf pins count
  | fini => exact fini_sameRule
  | drvCap => exact ⟨hready, fun _ => rfl, fun _ _ => rfl, progCap_rename⟩
  | bufCap => exact ⟨hready, fun _ => rfl, fun _ _ => rfl, progCap_rename⟩
  | bufGet pos => exact ⟨hready, fun _ => rfl, beginPos_rename pos _, progBufGet_rename pos⟩
  | bufSet pos value => exact ⟨hready, fun _ => rfl, beginBufSet_rename pos value, progBufSet_rename pos value⟩
  | drvClr =>
    refine ⟨hready, fun _ => rfl, fun _ _ => rfl, fun s c u => ?_⟩
    have rest (u : UPos) : SameFetched f ((clearPulse (goto .done) epilogue u).orElse (errorEpilogue c u))
        ((clearPulse (goto .done) epilogue u).orElse (errorEpilogue (renameCtx f c) u)) :=
      orElse_rename (clearPulse_rename (goto_rename _) epilogue_rename u) (errorEpilogue_rename c u)
    cases u with
    | done => exact complete_rename
    | _ => simp only [ruleOf, renameInstr, progDrvClr]; exact rest _
  | drvWr word =>
    refine ⟨hready, fun _ => rfl, beginDrvWr_rename word, fun s c u => ?_⟩
    have rest (u : UPos) : SameFetched f ((transmit s.cap c (goto .done) u).orElse (errorEpilogue c u))
        ((transmit s.cap (renameCtx f c) (goto .done) u).orElse (errorEpilogue (renameCtx f c) u)) :=
      orElse_rename (transmit_rename (goto_rename _) s.cap c u) (errorEpilogue_rename c u)
    cases u with
    | reject => exact complete_rename
    | done => exact complete_rename
    | _ => simp only [ruleOf, renameInstr, progDrvWr, renameState_cap]; exact rest _
  | drvZero =>
    refine ⟨hready, fun _ => rfl, fun _ _ => rfl, fun s c u => ?_⟩
    cases u with
    | driveAll => exact simple_rename
    | done => exact complete_rename
    | _ => simp only [ruleOf, renameInstr, progDrvZero]; exact errorEpilogue_rename c _
  | bufClr =>
    refine ⟨hready, fun _ => rfl, fun _ _ => rfl, fun s c u => ?_⟩
    have rest (u : UPos) : SameFetched f
        ((clearPulse (goto (byScope s .done .unlock)) epilogue u).orElse (errorEpilogue c u))
        ((clearPulse (goto (byScope s .done .unlock)) epilogue u).orElse (errorEpilogue (renameCtx f c) u)) :=
      orElse_rename (clearPulse_rename (goto_rename _) epilogue_rename u) (errorEpilogue_rename c u)
    cases u with
    | acquire => exact simple_rename
    | bufWrite => exact simple_rename
    | unlock => exact simple_rename
    | done => exact complete_rename
    | _ => simp only [ruleOf, renameInstr, progBufClr, byScope_rename]; exact rest _
  | bufWr word =>
    refine ⟨hready, fun _ => rfl, fun _ _ => rfl, fun s c u => ?_⟩
    cases u with
    | bufWrite => exact simple_rename
    | acquire => exact simple_rename
    | _ => simp only [ruleOf, renameInstr, progBufWr]; exact hcommit s c _
  | bufChk pos =>
    refine ⟨hready, fun _ => rfl, beginPos_rename pos _, fun s c u => ?_⟩
    cases u with
    | done => exact complete_rename
    | reject => exact complete_rename
    | _ => trivial
  | bufCommit =>
    refine ⟨hready, fun _ => rfl, fun _ _ => rfl, fun s c u => ?_⟩
    cases u with
    | acquire => exact simple_rename
    | _ => simp only [ruleOf, renameInstr, progBufCommit]; exact hcommit s c _
  | bufGetbuf =>
    refine ⟨hready, fun _ => rfl, fun _ _ => rfl, fun s c u => ?_⟩
    cases u with
    | bufRead => exact simple_rename
    | done =>
      have hc : (renameCtx f c).tmp = c.tmp := rfl
      simp only [ruleOf, renameInstr, progBufGetbuf, hc]
      cases c.tmp with
      | none => trivial
      | some t => exact complete_rename
    | _ => trivial

theorem encode_rename (i : Instr PinId) : encode (renameInstr f i) = renameCommand f (encode i) := by cases i <;> rfl

theorem wellFormed_rename (i : Instr PinId) : (renameInstr f i).wellFormed = i.wellFormed := by cases i <;> rfl

theorem present_rename (s : State PinId) (c : Command PinId) :
    (renameState f s).present (renameCommand f c) = renameState f (s.present c) := by
  refine congrArg (fun t : State PinId' => t.log s.active (.issue c.opc)) (renameState_modCtx ?_ s s.active)
  exact fun _ => rfl

/-- Running a rule commutes with renaming. -/
theorem runRule_rename {r : Rule PinId} {q : Rule PinId'} (h : SameRule f r q) (i : Instr PinId) (s : State PinId) :
    runRule (renameInstr f i) q (renameState f s) = renameOut f (runRule i r s) := by
  simp only [runRule, renameState_mark, renameState_active, renameState_ctx]
  cases s.mark with
  | some e => rfl
  | none =>
    cases s.ctx s.active with
    | none => rfl
    | some c =>
      have hb : (renameCtx f c).busy = c.busy := rfl
      simp only [Option.map_some, hb]
      split
      · have hu : (renameCtx f c).upc = c.upc := rfl
        simp only [microStep, hu]
        cases c.upc with
        | none => rfl
        | some u => exact perform_rename (h.prog s c u) s
      · simp only [issueStep, wellFormed_rename, encode_rename, present_rename, h.check, renameState_active, renameState_ctx]
        split
        · rfl
        · cases r.check (s.present (encode i)) with
          | some e => rfl
          | none =>
            cases (s.present (encode i)).ctx s.active with
            | none => rfl
            | some d =>
              simp only [Option.map_some, h.begin]
              cases r.begin (s.present (encode i)) d with
              | none => rfl
              | some d' =>
                simp only [Option.map_some, h.onLife]
                exact congrArg Host.Outcome.next
                  (renameState_modCtx (g := fun _ => d') (fun _ => rfl) (r.onLife (s.present (encode i))) s.active)

/-- No injection between types of pin identifiers changes what an instruction does. -/
theorem execIn_rename [DecidableEq PinId] [DecidableEq PinId'] (hf : Function.Injective f)
    (i : Instr PinId) (s : State PinId) : execIn (renameInstr f i) (renameState f s) = renameOut f (execIn i s) := by
  rw [execIn_eq_runRule, execIn_eq_runRule]
  exact runRule_rename (ruleOf_rename hf i) i s

/-- Rename the identifiers in a turn. -/
def renameTurn (f : PinId → PinId') (t : Turn PinId) : Turn PinId' :=
  match t with
  | .run i s => .run (renameInstr f i) (renameState f s)
  | .answer o => .answer (renameOut f o)

theorem decode_rename (c : Command PinId) : decode (renameCommand f c) = (decode c).map (renameInstr f) := by
  have hfit (g : Format) : (renameCommand f c).fits g = c.fits g := by
    cases g <;> simp [Command.fits, renameCommand]
  have hsel : select (renameCommand f c) = (select c).map (renameInstr f) := by
    have hp : (renameCommand f c).pins = c.pins.map (renameQuad f) := rfl
    have ho : (renameCommand f c).opc = c.opc := rfl
    simp only [select, ho, hp]
    split <;> first | rfl | (cases c.pins <;> rfl)
  have ho : (renameCommand f c).opc = c.opc := rfl
  simp only [decode, ho, hfit, hsel]
  cases formatOf c.opc with
  | none => rfl
  | some g =>
    dsimp only
    split
    · cases select c <;> rfl
    · rfl

theorem ready_rename (s : State PinId) : (renameState f s).ready = s.ready := by
  have h (q : Nat) : (renameState f s).ports[q]? = (s.ports[q]?).map (renameCtx f) := renameState_ctx s q
  have hs (c : Ctx PinId) : canStep (renameState f s) (renameCtx f c) = canStep s c := by
    have hq : (renameCtx f c).queue.isEmpty = c.queue.isEmpty := by
      show (c.queue.map (renameCommand f)).isEmpty = c.queue.isEmpty
      cases c.queue <;> rfl
    show (if c.busy = true then _ else !(renameCtx f c).queue.isEmpty) = canStep s c
    rw [hq]
    rfl
  simp only [State.ready, h]
  simp only [renameState, List.length_map]
  congr 1
  funext q
  cases s.ports[q]? with
  | none => rfl
  | some c => exact hs c

theorem choose_rename (s : State PinId) :
    choose (renameState f s) = (choose s).map fun x => (x.1, renameState f x.2) := by
  simp only [choose, renameState_sched, ready_rename, renameState_tick]
  cases s.sched with
  | cons p ps => rfl
  | nil =>
    match s.ready with
    | [] => rfl
    | [p] => rfl
    | p :: q :: ps => rfl

theorem turnOf_rename (p : Nat) (s : State PinId) : turnOf p (renameState f s) = renameTurn f (turnOf p s) := by
  have ha : { renameState f s with active := p } = renameState f { s with active := p } := rfl
  simp only [turnOf, ha, renameState_ctx]
  generalize { s with active := p } = t
  cases t.ctx p with
  | none => rfl
  | some c =>
    have hb : (renameCtx f c).busy = c.busy := rfl
    simp only [Option.map_some, hb]
    split
    · have hc : (renameCtx f c).command = c.command.map (renameCommand f) := by
        show (match c.opc, c.a, c.b, c.pins.map (Option.map (renameQuad f)) with
          | some opc, some a, some b, some pins => some ({ opc := opc, a := a, b := b, pins := pins } : Command PinId')
          | _, _, _, _ => none) = _
        unfold Ctx.command
        cases c.opc <;> cases c.a <;> cases c.b <;> cases c.pins <;> rfl
      simp only [resume, hc]
      cases c.command with
      | none => rfl
      | some cmd =>
        simp only [Option.map_some, decode_rename]
        cases decode cmd <;> rfl
    · have hq : (renameCtx f c).queue = c.queue.map (renameCommand f) := rfl
      simp only [accept, hq]
      cases c.queue with
      | nil => rfl
      | cons cmd rest =>
        have hm : ((renameState f t).modCtx (renameState f t).active
            fun x => { x with queue := rest.map (renameCommand f) }) =
            renameState f (t.modCtx t.active fun x => { x with queue := rest }) :=
          renameState_modCtx (g := fun x => { x with queue := rest }) (fun _ => rfl) t t.active
        simp only [List.map_cons, hm, decode_rename]
        cases decode cmd with
        | ok i => rfl
        | error e =>
          simp only [Except.map, present_rename]
          rfl

/-- No injection between types of pin identifiers changes what a step does. -/
theorem stepIn_rename [DecidableEq PinId] [DecidableEq PinId'] (hf : Function.Injective f)
    (s : State PinId) : stepIn (renameState f s) = renameOut f (stepIn s) := by
  have h : fetch (renameState f s) = renameTurn f (fetch s) := by
    simp only [fetch, renameState_mark, choose_rename]
    cases s.mark with
    | some e => rfl
    | none =>
      dsimp only
      cases choose s with
      | none => rfl
      | some x => exact turnOf_rename x.1 x.2
  simp only [stepIn, h]
  cases fetch s with
  | run i t => exact execIn_rename hf i t
  | answer o => rfl

/-- An instruction over any identifiers that `f` numbers is `exec` on their numbers. -/
theorem exec_of_numbering [DecidableEq PinId] {f : PinId → Nat} (hf : Function.Injective f) (i : Instr PinId)
    (s : State PinId) : exec (renameInstr f i) (renameState f s) = renameOut f (execIn i s) := by
  rw [exec_eq_execIn, execIn_rename hf]

/-- A step over any identifiers that `f` numbers is `step` on their numbers. -/
theorem step_of_numbering [DecidableEq PinId] {f : PinId → Nat} (hf : Function.Injective f) (s : State PinId) :
    step (renameState f s) = renameOut f (stepIn s) := by
  rw [step_eq_stepIn, stepIn_rename hf]

end Sys2Proof.Machine
end

