-- ==== Sys2Proof/Tests/Slice0.lean ====
section
/-! SUPPORT. The model's own tests, small named theorems by `decide`; expected results are the spec's own examples and tables.
Then one witness for each statement that has hypotheses: concrete states and operands that meet them together. -/

namespace Sys2Proof.Tests

open Sys2Proof Sys2Proof.Machine

/-! Well-formedness: an ill-formed term for each check (30_encoding.md R122). -/

theorem test_drvWr_without_word_ill_formed : (Instr.drvWr .absent : Instr).wellFormed = false := by decide
theorem test_bufWr_without_word_ill_formed : (Instr.bufWr .absent : Instr).wellFormed = false := by decide
theorem test_bufChk_without_position_ill_formed : (Instr.bufChk .absent : Instr).wellFormed = false := by decide
theorem test_bufGet_without_position_ill_formed : (Instr.bufGet .absent : Instr).wellFormed = false := by decide
theorem test_bufSet_without_position_ill_formed : (Instr.bufSet .absent (.int 1) : Instr).wellFormed = false := by decide
theorem test_bufSet_without_value_ill_formed : (Instr.bufSet (.int 1) .absent : Instr).wellFormed = false := by decide
theorem test_init_without_count_well_formed : (Instr.initDefault ⟨1, 2, 3, 4⟩ : Instr).wellFormed = true := by decide

/-! Decoding: one written-out command for each constructor (opcodes 30_encoding.md R125 to R127, slots R122). -/

/-- A command written out slot by slot. -/
def word (opc : BitVec 8) (a b : Arg) (pins : Option (Quad Nat)) : Command := ⟨opc, a, b, pins⟩

theorem test_decode_drvCap : decode (word 0b00000000#8 .absent .absent none) = .ok .drvCap := by decide
theorem test_decode_drvClr : decode (word 0b00000001#8 .absent .absent none) = .ok .drvClr := by decide
theorem test_decode_drvWr : decode (word 0b00000010#8 (.int (-1)) .absent none) = .ok (.drvWr (.int (-1))) := by decide
theorem test_decode_drvZero : decode (word 0b00000011#8 .absent .absent none) = .ok .drvZero := by decide
theorem test_decode_bufCap : decode (word 0b00010000#8 .absent .absent none) = .ok .bufCap := by decide
theorem test_decode_bufClr : decode (word 0b00010001#8 .absent .absent none) = .ok .bufClr := by decide
theorem test_decode_bufWr : decode (word 0b00010010#8 .nonInt .absent none) = .ok (.bufWr .nonInt) := by decide
theorem test_decode_bufChk : decode (word 0b00010011#8 (.int 15) .absent none) = .ok (.bufChk (.int 15)) := by decide
theorem test_decode_bufGet : decode (word 0b00010100#8 (.int 11) .absent none) = .ok (.bufGet (.int 11)) := by decide
theorem test_decode_bufSet :
    decode (word 0b00010101#8 (.int 3) (.int 1) none) = .ok (.bufSet (.int 3) (.int 1)) := by decide
theorem test_decode_bufCommit : decode (word 0b00010110#8 .absent .absent none) = .ok .bufCommit := by decide
theorem test_decode_bufGetbuf : decode (word 0b00010111#8 .absent .absent none) = .ok .bufGetbuf := by decide
theorem test_decode_init :
    decode (word 0b11110000#8 (.int 1) .absent (some ⟨9, 8, 7, 6⟩)) = .ok (.init ⟨9, 8, 7, 6⟩ (.int 1)) := by decide
theorem test_decode_fini : decode (word 0b11110001#8 .absent .absent none) = .ok .fini := by decide

/-- The bounds of the three reserved ranges (R128). -/
theorem test_decode_reserved :
    [0x04#8, 0x0F#8, 0x18#8, 0x20#8, 0xE0#8, 0xEF#8, 0xF2#8, 0xFF#8].all
      (fun o => decide (decode (Command.bare o : Command) = .error (.reservedOpcode o))) = true := by decide

/-- A required slot left out, and a slot that the format does not use (R122). -/
theorem test_decode_malformed :
    decode (word 0x14#8 .absent .absent none) = .error (.malformedCommand 0x14#8) ∧
      decode (word 0x00#8 (.int 0) .absent none) = .error (.malformedCommand 0x00#8) ∧
      decode (word 0xF1#8 .absent .absent (some ⟨1, 2, 3, 4⟩)) = .error (.malformedCommand 0xF1#8) ∧
      decode (word 0xF0#8 .absent .absent none) = .error (.malformedCommand 0xF0#8) := by decide

theorem test_encode_bufSet : encode (.bufSet (.int 3) .nonInt) = word 0x15#8 (.int 3) .nonInt none := by decide
theorem test_encode_init : encode (.init ⟨9, 8, 7, 6⟩ .absent) = word 0xF0#8 .absent .absent (some ⟨9, 8, 7, 6⟩) := by decide

/-! Words of spec/opcode_table.json. -/

theorem test_table_word_bufSet : decodeTableWord 8 0x15 = some (.bufSet (.int 0) (.int 0)) := by decide
theorem test_table_word_reserved : decodeTableWord 8 0x18 = none := by decide

/-! The assembler (30_encoding.md R130, R131). -/

theorem test_parse_line_with_port :
    parseLine "@1: BUF.SET 3, true ; stage".toList = some ⟨1, encode (.bufSet (.int 3) (.int 1))⟩ := by decide
theorem test_parse_hexadecimal : parseLine "DRV.WR 0x0900".toList = some ⟨0, encode (.drvWr (.int 2304))⟩ := by decide
theorem test_parse_fraction : parseLine "BUF.CHK 1.5".toList = some ⟨0, encode (.bufChk .nonInt)⟩ := by decide
theorem test_parse_init_with_count :
    parseLine "INIT (4, 5, 6, 7), -1".toList = some ⟨0, encode (.init ⟨4, 5, 6, 7⟩ (.int (-1)))⟩ := by decide
theorem test_parse_on : parseLine "BUF.ON 7".toList = some ⟨0, encode (.bufSet (.int 7) (.int 1))⟩ := by decide
theorem test_parse_off : parseLine "BUF.OFF 0b11".toList = some ⟨0, encode (.bufSet (.int 3) (.int 0))⟩ := by decide

/-! Helper states. -/

/-- `Config.atReset` with a backend that may fail. -/
def faulty : Config := { Config.atReset with backendFaults := true }

/-- `Config.atReset` with the wider lock. -/
def wide : Config := { Config.atReset with arbScope := .wide }

/-- A stage of `n` bits of one value. -/
def same (n : Nat) (b : CBit) : List CBit := List.replicate n b

/-- An instance right after INIT with pins 4 to 7 (41_driver.md R193). -/
def inst (g : Config) (n : Nat) : State :=
  { State.powerOn g with
    life := .ready, cc := true, cap := some n, pins := some ⟨4, 5, 6, 7⟩, claimed := Quad.all true, line := Quad.all .x,
    buf := some 0, chain := ⟨same n .x, same n .x⟩ }

/-- The instance after a write of `w`: lines as R180 leaves them. -/
def written (g : Config) (n : Nat) (w : Int) : State :=
  { inst g n with
    line := ⟨Level.ofBit (levelBit w 0), .low, .low, .high⟩, chain := ⟨wordStage n w, wordStage n w⟩, buf := some w }

/-- The context of a port that runs `i` and stands at `u`. -/
def running (i : Instr) (u : UPos) : Ctx := issued i u Ctx.powerOn

/-- Port 0 has the context `c`, port 1 is idle. -/
def on0 (c : Ctx) (s : State) : State := { s with ports := [c, Ctx.powerOn] }

/-- Port 0's host thread presents `cmd`, and port 0 steps next. -/
def offered (cmd : Command) (s : State) : State := s.offer 0 cmd

/-- The state an outcome leads to, or `State.reset`. -/
def nextOf (o : Out) : State :=
  match o with
  | .next t => t
  | .fault _ => State.reset
  | .refused _ => State.reset

/-- Port 0's context after `exec i` on a state. -/
def ctxOf (i : Instr) (s : State) : Ctx := ((nextOf (exec i s)).ctx 0).getD Ctx.powerOn

/-! The configuration. -/

/-- R10: BUF_INIT is legal from 0 to 2^CAP - 1, and CAP_MAX bounds the capacity. -/
theorem test_config_legal_range :
    ({ Config.atReset with bufInit := 255 } : Config).legalFor 8 = true ∧
      ({ Config.atReset with bufInit := 256 } : Config).legalFor 8 = false ∧
      ({ Config.atReset with bufInit := -1 } : Config).legalFor 8 = false ∧
      ({ Config.atReset with capMax := some 8 } : Config).legalFor 16 = false := by decide

/-! One step of each instruction. -/

/-- R195 example: CAP = 24. -/
theorem test_drvCap_result :
    (ctxOf .drvCap (on0 (running .drvCap .done) (inst wide 24))).res = some (some 24) := by decide

/-- R197 example: from S = Q = 0x00FF the low clear line zeroes S and leaves Q. -/
theorem test_drvClr_clears_shift_stage_only :
    (nextOf (exec .drvClr (on0 (running .drvClr .clearLow) (written wide 16 0xFF)))).chain =
      ⟨same 16 .b0, wordStage 16 0xFF⟩ := by decide

/-- R201: 0x100 is invalid at CAP = 8 and valid at CAP = 16. -/
theorem test_drvWr_range :
    (ctxOf (.drvWr (.int 0x100)) (inst wide 8)).upc = some .reject ∧
      (ctxOf (.drvWr (.int 0x100)) (inst wide 16)).upc = some .clearLow := by decide

/-- R175: the rising edge shifts SDATA into S[0] and S[k-1] into S[k]. -/
theorem test_drvWr_shifts_on_rising_edge :
    (nextOf (exec (.drvWr (.int 1))
      (on0 { running (.drvWr (.int 1)) .shiftHigh with snap := some 1, i := some 0 }
        { written wide 8 0x81 with line := ⟨.low, .low, .low, .high⟩ }))).chain = ⟨wordStage 8 2, wordStage 8 0x81⟩ := by decide

/-- R205 example: LINE = (L, L, L, L), event DRVALL(0). -/
theorem test_drvZero_drives_all_low :
    let t := nextOf (exec .drvZero (on0 (running .drvZero .driveAll) (written wide 8 0xA5)))
    t.line = Quad.all .low ∧ t.hist = [⟨0, .drvAll false⟩] ∧ t.chain.q = wordStage 8 0xA5 := by decide

/-- R240 example: CAP = 16. -/
theorem test_bufCap_result :
    (ctxOf .bufCap (on0 (running .bufCap .done) (inst wide 16))).res = some (some 16) := by decide

/-- R256 example: BUF = 0x81 becomes 0 at the BufWrite, the chain unchanged. -/
theorem test_bufClr_zeroes_buffer :
    let t := nextOf (exec .bufClr (on0 (running .bufClr .bufWrite) (written Config.atReset 8 0x81)))
    t.buf = some 0 ∧ t.chain = ⟨wordStage 8 0x81, wordStage 8 0x81⟩ := by decide

/-- R255: BUF.CLR starts with the lock in WIDE only. -/
theorem test_bufClr_first_step_by_scope :
    (ctxOf .bufClr (inst Config.atReset 8)).upc = some .bufWrite ∧ (ctxOf .bufClr (inst wide 8)).upc = some .acquire := by decide

/-- R251: a non-integer word makes BUF undefined. -/
theorem test_bufWr_non_integer :
    (nextOf (exec (.bufWr .nonInt) (on0 (running (.bufWr .nonInt) .bufWrite) (inst Config.atReset 8)))).buf = none := by decide

/-- R252, R162: a stored word outside the range goes to the unlock, and the unlock sets `err`. -/
theorem test_bufWr_out_of_range :
    let i := Instr.bufWr (.int 256)
    let s := { on0 { running i .bufRead with holdsLock := true } (inst wide 8) with buf := some 256, lock := some 0 }
    let t := nextOf (exec i s)
    (ctxOf i s).upc = some .unlock ∧ (ctxOf i s).err = none ∧ (ctxOf i t).upc = some .done ∧
      (ctxOf i t).err = some .invalidArgument := by decide

/-- R242 example: at CAP = 16 position 15 is valid, 16 is not. -/
theorem test_bufChk_range :
    (ctxOf (.bufChk (.int 15)) (inst wide 16)).upc = some .done ∧
      (ctxOf (.bufChk (.int 16)) (inst wide 16)).upc = some .reject := by decide

/-- R245 example: bit 11 of 0x0900 is 1, bit 10 is 0. -/
theorem test_bufGet_result :
    (ctxOf (.bufGet (.int 11)) (on0 { running (.bufGet (.int 11)) .done with tmp := some 0x900 } (inst wide 16))).res =
        some (some 1) ∧
      (ctxOf (.bufGet (.int 10)) (on0 { running (.bufGet (.int 10)) .done with tmp := some 0x900 } (inst wide 16))).res =
        some (some 0) := by decide

/-- R245: every position of BUF = -1 reads 1. -/
theorem test_bufGet_of_minus_one :
    (ctxOf (.bufGet (.int 7)) (on0 { running (.bufGet (.int 7)) .done with tmp := some (-1) } (inst wide 8))).res =
      some (some 1) := by decide

/-- R247 example: BUF.SET 3, 1 from BUF = 0 gives 0x08. -/
theorem test_bufSet_writes_bit :
    (nextOf (exec (.bufSet (.int 3) (.int 1))
      (on0 { running (.bufSet (.int 3) (.int 1)) .bufWrite with tmp := some 0 } (inst wide 8)))).buf = some 8 := by decide

/-- R247: the value 2 is invalid. -/
theorem test_bufSet_value_two :
    (ctxOf (.bufSet (.int 3) (.int 2)) (inst wide 8)).upc = some .reject := by decide

/-- R166: a held LockAcquire takes no step. -/
theorem test_bufCommit_held :
    let s := { on0 (running .bufCommit .acquire) (inst wide 8) with lock := some 1 }
    nextOf (exec .bufCommit s) = s := by decide

/-- R249: the buffer is read into `snap` once, and the transmit starts with the clear pulse. -/
theorem test_bufCommit_reads_buffer :
    let c := ctxOf .bufCommit (on0 { running .bufCommit .bufRead with holdsLock := true } (written wide 8 0x81))
    c.snap = some 0x81 ∧ c.upc = some .clearLow := by decide

/-- R253 example: BUF = 0x81. -/
theorem test_bufGetbuf_result :
    (ctxOf .bufGetbuf (on0 { running .bufGetbuf .done with tmp := some 0x81 } (inst wide 8))).res = some (some 0x81) := by decide

/-- R192, R162: count 1 gives `n` = 1 and CAP = 16, written with the first claim. -/
theorem test_init_capacity :
    let t := nextOf (exec (.init ⟨4, 5, 6, 7⟩ (.int 1))
      (on0 { running (.init ⟨4, 5, 6, 7⟩ (.int 1)) .claim with k := some 0 } { State.reset with life := .building }))
    (t.ctx 0).map (fun c => c.n) = some (some 1) ∧ t.cap = some 16 ∧ t.hist = [⟨0, .claim .sdata true⟩] ∧ t.line = ⟨.x, .z, .z, .z⟩ := by decide

/-- R192: after a failed claim at k = 2, pin 0 is released first. -/
theorem test_init_rollback_starts_at_zero :
    let t := nextOf (exec (.init ⟨4, 5, 6, 7⟩ .absent)
      (on0 { running (.init ⟨4, 5, 6, 7⟩ .absent) .claim with k := some 2, n := some 0 }
        { inst faulty 8 with life := .building, claimed := ⟨true, true, false, false⟩, draws := [⟨false, false⟩] }))
    (t.ctx 0).map (fun c => (c.upc, c.j)) = some (some .rollback, some 0) ∧ t.hist = [⟨0, .claim .lclk false⟩] := by decide

/-- R304: FINI with no instance goes to the guard. -/
theorem test_fini_unbuilt : (ctxOf .fini State.reset).upc = some .guard := by decide

/-- R208: the last Complete ends the instance. -/
theorem test_fini_ends_instance :
    let t := nextOf (exec .fini (on0 (running .fini .done) { inst wide 8 with life := .tearing }))
    t.life = .unbuilt ∧ t.cc = false ∧ t.buf = none ∧ t.cap = none ∧ t.pins = none := by decide

/-! The chain, faults and the step. -/

/-- R93, R92: a latch pulse copies S to Q; a low clear line clears S and not Q. -/
theorem test_chain_latch_and_clear :
    (Chain.mk (wordStage 8 0x5A) (same 8 .b0)).react ⟨.low, .low, .low, .high⟩ ⟨.low, .low, .high, .high⟩ =
        ⟨wordStage 8 0x5A, wordStage 8 0x5A⟩ ∧
      (Chain.mk (wordStage 8 0x5A) (same 8 .b1)).react ⟨.low, .low, .low, .high⟩ ⟨.low, .low, .low, .low⟩ =
        ⟨same 8 .b0, same 8 .b1⟩ := by decide

/-- R201, R71: word 0x0900 is outputs A and D of register 1. -/
theorem test_outputs_of_0x0900 :
    let c := Chain.mk (wordStage 16 0x900) (wordStage 16 0x900)
    c.output 1 0 = some .b1 ∧ c.output 1 3 = some .b1 ∧ c.output 1 1 = some .b0 ∧ c.output 0 0 = some .b0 ∧
      outputLetter 0 = 'A' ∧ outputLetter 3 = 'D' := by decide

/-- R178: 104 wire events for CAP = 16. -/
theorem test_transmit_length : (transmitEvents 16 0x900).length = 104 := by decide

/-- R355: a clear pulse takes its port one `T_EDGE`, whatever another port does between its events. -/
theorem test_line_time_of_one_port :
    minLineTime ⟨3, by decide⟩ 0 [⟨0, .drv .clrN false⟩, ⟨1, .dly⟩, ⟨0, .dly⟩, ⟨1, .dly⟩, ⟨0, .drv .clrN true⟩] = 3 := by
  simp [minLineTime]

/-- R344: from power-on a command other than INIT and FINI faults NotReady; then nothing steps (R310). -/
theorem test_not_ready :
    let t := nextOf (exec .drvCap State.reset)
    t.mark = some (.notReady 0) ∧ nextOf (exec .drvCap t) = State.reset := by decide

/-- R10, R300: the block over pin identifiers that are no numbers, and its only question about them: are two of them equal? -/
theorem test_other_pin_identifiers :
    let s : State String := State.powerOn Config.atReset
    let marked (o : Out String) := match o with | .next t => some (t.mark, t.life) | .fault _ => none | .refused _ => none
    marked (execIn (.init ⟨"ser", "clk", "lat", "clr"⟩ (.int 1)) s) = some (none, .building) ∧
      marked (execIn (.init ⟨"ser", "clk", "clk", "clr"⟩ (.int 1)) s) = some (some (.pinsNotDistinct 0), .unbuilt) := by
  decide

/-- R12: bits and bit strings of a negative integer. -/
theorem test_bits_of_negative :
    bit (-1) 9 = 1 ∧ bits (-1) 7 4 = some 15 ∧ setbit (-1) 0 0 = -2 ∧ zext 8 (-1) = 255 ∧ sext 8 255 = -1 := by decide

/-- R12: at `hi = lo - 1` the modulus is `2^0 = 1`; below it the rule gives no value. -/
theorem test_bits_empty : bits (-1) 3 4 = some 0 ∧ bits (-1) 2 4 = none ∧ bits 5 0 0 = some 1 := by decide

/-- A word of the table placed by withFetchWord is issued by the next step. -/
theorem test_step_issues_init :
    ((nextOf (step (State.reset.withFetchWord 8 0xF0))).ctx 0).map (fun c => (c.busy, c.opc, c.upc)) =
      some (true, some 0xF0#8, some .claim) := by decide

/-- A word of the table is the first instruction after reset: DRV.ZERO faults NotReady (R344). -/
theorem test_step_issues_drvZero :
    let t := nextOf (step (State.reset.withFetchWord 8 0x03))
    t.mark = some (.notReady 0) ∧ t.hist = [⟨0, .issue 0x03#8⟩] := by decide

/-! Witnesses: states and operands that meet the hypotheses of each statement, at the ends of their ranges. -/

/-- Port `p` steps next, is idle, and its host thread presents `cmd`. -/
abbrev Presents (s : State) (p : Nat) (cmd : Command) : Prop :=
  s.mark = none ∧ s.sched = [p] ∧ (s.ports[p]?).map (fun c => (c.busy, c.queue)) = some (false, [cmd])

/-- The active port is busy and stands at `u`. -/
abbrev Stands (s : State) (u : UPos) : Prop :=
  s.mark = none ∧ (s.ctx s.active).map (fun c => (c.busy, c.upc)) = some (true, some u)

/-- The oracle's answers are `n` successes. -/
def good (n : Nat) : List Draw := List.replicate n ⟨true, false⟩

/-- An instance whose backend may fail, with these answers listed. -/
def instWith (ds : List Draw) : State := { inst faulty 8 with draws := ds }

theorem witness_ReservedOpcodesFault : ∀ o ∈ [0x04#8, 0x0F#8, 0x18#8, 0xEF#8, 0xF2#8, 0xFF#8],
    Presents (offered (Command.bare o) State.reset) 0 (Command.bare o) ∧ reservedOpcode o = true := by decide

theorem witness_MalformedCommandsFault : formatOf 0x14#8 = some .p ∧
    Presents (offered (Command.bare 0x14#8) State.reset) 0 (Command.bare 0x14#8) ∧
    decode (Command.bare 0x14#8 : Command) = .error (.malformedCommand 0x14#8) := by decide

theorem witness_PseudoCommandsExpand : parsePins parsePin "(4, p5, 6, 7)".toList = some ⟨4, 5, 6, 7⟩ := by decide

theorem witness_PowerOnState : 1 < Config.atReset.nPorts ∧ 0 < Config.atReset.nPorts := by decide

theorem witness_StepIssuesDecodedCommand :
    Presents (offered (encode (.bufSet (.int 7) (.int 1))) (inst wide 8)) 0 (encode (.bufSet (.int 7) (.int 1))) ∧
    decode (encode (.bufSet (.int 7) (.int 1)) : Command) = .ok (.bufSet (.int 7) (.int 1)) := by decide

theorem witness_StepResumesBusyPort :
    let s := { on0 (running (.bufGet (.int 7)) .bufRead) (inst wide 8) with sched := [0] }
    s.mark = none ∧ s.sched = [0] ∧ s.ports[0]? = some (running (.bufGet (.int 7)) .bufRead) ∧
      (running (.bufGet (.int 7)) .bufRead).busy = true ∧ (running (.bufGet (.int 7)) .bufRead).opc = some 0x14#8 ∧
      (Instr.bufGet (.int 7) : Instr).wellFormed = true := by decide

/-- Both clauses: two ports with a command to present, and none. -/
theorem witness_UnlistedTurnGoesToSomeReadyPort :
    let c := { Ctx.powerOn with queue := [encode .drvCap] }
    ({ inst wide 8 with ports := [c, c] } : State).ready = [0, 1] ∧ (inst wide 8).ready = [] ∧
      (inst wide 8).mark = none ∧ (inst wide 8).sched = [] := by decide

theorem witness_FaultedStateHasNoStep : (nextOf (exec .drvCap State.reset)).mark = some (.notReady 0) ∧
    step State.reset = .next State.reset := ⟨by decide, rfl⟩

theorem witness_AdmittedCommandsAreIssued : (Instr.bufSet (.int 8) .nonInt : Instr).wellFormed = true ∧
    (∀ q a, (Instr.bufSet (.int 8) .nonInt : Instr) ≠ .init q a) ∧ (Instr.bufSet (.int 8) .nonInt : Instr) ≠ .fini ∧
    (inst wide 8).mark = none ∧ (inst wide 8).ctx (inst wide 8).active = some Ctx.powerOn ∧ (Ctx.powerOn : Ctx).busy = false ∧
    (inst wide 8).life = .ready ∧ (inst wide 8).cap = some 8 :=
  ⟨by decide, fun _ _ h => (by cases h), fun h => (by cases h), by decide⟩

/-- The three values of LIFE that are not READY. -/
theorem witness_NotReadyFault : (Instr.drvCap : Instr).wellFormed = true ∧ (∀ q a, (Instr.drvCap : Instr) ≠ .init q a) ∧ (Instr.drvCap : Instr) ≠ .fini ∧
    ∀ l ∈ [Life.unbuilt, .building, .tearing], atRest { State.reset with life := l } = true ∧ l ≠ .ready :=
  ⟨by decide, fun _ _ h => (by cases h), fun h => (by cases h), by decide⟩

/-- The three clauses; the other port of `s` is busy. -/
theorem witness_LifecycleFaults :
    let s := { State.reset with ports := [Ctx.powerOn, running .drvClr .clearLow] }
    (∀ l ∈ [Life.building, .ready, .tearing], atRest { State.reset with life := l } = true) ∧
      (atRest s = true ∧ s.othersIdle s.active = false) ∧
      (atRest State.reset = true ∧ State.reset.life = .unbuilt ∧ State.reset.othersIdle 0 = true) ∧
      (atRest { s with life := .ready } = true ∧ ({ s with life := .ready } : State).othersIdle 0 = false) := by decide

/-- No count, a count, and the largest that CAP_MAX = 16 allows, with a backend that may fail. -/
theorem witness_InitBuildsInstance :
    let s : State := { State.powerOn { faulty with capMax := some 16 } with draws := good 4 }
    (atRest State.reset = true ∧ State.reset.life = .unbuilt ∧ State.reset.othersIdle 0 = true ∧
      distinctPins ⟨4, 5, 6, 7⟩ = true ∧ State.reset.cfg.capMax = none ∧ State.reset.line = Quad.all .z ∧
      oracleOk State.reset 4 = true) ∧
    (atRest s = true ∧ s.life = .unbuilt ∧ s.othersIdle 0 = true ∧ s.cfg.capMax = some 16 ∧ 8 * (1 + 1) ≤ 16 ∧
      s.line = Quad.all .z ∧ oracleOk s 4 = true) := by decide

/-- A non-integer, a negative count, and a count one above CAP_MAX = 8. -/
theorem witness_InitRejectsBadCount :
    let s : State := State.powerOn { Config.atReset with capMax := some 8 }
    atRest s = true ∧ s.life = .unbuilt ∧ s.othersIdle s.active = true ∧ distinctPins ⟨4, 5, 6, 7⟩ = true ∧ (-1 : Int) < 0 ∧
      s.cfg.capMax = some 8 ∧ 8 < 8 * (1 + 1) := by decide

/-- A failure of the first claim, and of the last. -/
theorem witness_InitRollsBackFailedClaim :
    let s (ds : List Draw) : State := { State.powerOn faulty with draws := ds ++ [] }
    let ok (k : Nat) (ds : List Draw) : Prop := ∀ m, m < 2 * k + 1 → m ≠ k → ∀ e, ds[m]? = some e → e.ok = true
    let d0 : List Draw := [⟨false, true⟩]
    let d3 : List Draw := good 3 ++ [⟨false, false⟩] ++ good 3
    (atRest (s d0) = true ∧ (s d0).life = .unbuilt ∧ (s d0).cc = false ∧ (s d0).othersIdle 0 = true ∧ (s d0).cfg.capMax = none ∧
      (s d0).line = Quad.all .z ∧ (s d0).claimed = Quad.all false ∧ d0.length = 2 * 0 + 1 ∧ d0[0]? = some ⟨false, true⟩) ∧
    ok 0 d0 ∧
    (atRest (s d3) = true ∧ (s d3).cfg.backendFaults = true ∧ d3.length = 2 * 3 + 1 ∧ d3[3]? = some ⟨false, false⟩) ∧
    ok 3 d3 := by
  refine ⟨by decide, ?_, by decide, ?_⟩
  · intro m hm hk
    omega
  · intro m hm hk e he
    interval_cases m <;> simp_all [good] <;> simp [← he]

theorem witness_FiniTearsDown : ∀ s ∈ [inst Config.atReset 8, instWith (good 10)],
    atRest s = true ∧ built s 8 = true ∧ s.pins ≠ none ∧ s.othersIdle s.active = true ∧ oracleOk s 10 = true := by decide

theorem witness_FiniGuardsUnbuilt : atRest State.reset = true ∧ State.reset.life = .unbuilt := by decide

/-- The four clauses: the first and the last drive of FINI's pulses and its DriveAll; then the releases, and a release that fails,
the first and the last of FINI and one of INIT's rollback. -/
theorem witness_FiniReleasesAfterFailure :
    (∀ u ∈ [(UPos.clearLow, Line.clrN, false), (.latchFall, .lclk, false)],
      let s := { on0 (running .fini u.1) (instWith [⟨false, true⟩]) with life := .tearing }
      Stands s u.1 ∧ (isClear u.1 ∨ isLatch u.1) ∧ driveAt (dataBit (running .fini u.1)) u.1 = some u.2 ∧
        allClaimed s.claimed = true ∧ s.cfg.backendFaults = true ∧ s.draws = [⟨false, true⟩]) ∧
    (let s := { on0 (running .fini .driveAll) (instWith [⟨false, false⟩]) with life := .tearing }
     Stands s .driveAll ∧ allClaimed s.claimed = true ∧ s.cfg.backendFaults = true ∧ s.draws = [⟨false, false⟩]) := by decide

theorem witness_FiniReleasesAfterFailure_releases :
    (let c := { running .fini .release with k := some 0 }
     let s := { on0 c (instWith (good 4)) with life := .tearing }
     Stands s .release ∧ s.ctx s.active = some c ∧ c.holdsLock = false ∧ c.k = some 0 ∧ s.claimed = Quad.all true ∧
       s.pins ≠ none ∧ oracleOk s 4 = true) ∧
    (∀ l ∈ [Line.sdata, .clrN],
      let c := { running .fini .release with k := some l.index }
      let s := { on0 c (instWith [⟨false, true⟩]) with life := .tearing }
      Stands s .release ∧ s.ctx s.active = some c ∧ s.claimed.get l = true ∧ s.pins ≠ none ∧ s.draw.ok = false) ∧
    let c := { running (.init ⟨4, 5, 6, 7⟩ .absent) .rollback with k := some 3, j := some 2 }
    let s := { on0 c (instWith [⟨false, true⟩]) with life := .building }
    Stands s .rollback ∧ s.ctx s.active = some c ∧ c.k ≠ none ∧ c.j = some Line.lclk.index ∧ s.claimed.get .lclk = true ∧
      s.pins ≠ none ∧ s.draw.ok = false := by decide

theorem witness_CapacityReads :
    atRest (inst wide 8) = true ∧ (inst wide 8).life = .ready ∧ (inst wide 8).cap = some 8 := by decide

theorem witness_DrvClrClearsShiftStage : ∀ s ∈ [inst Config.atReset 8, instWith (good 2)],
    atRest s = true ∧ built s 8 = true ∧ oracleOk s 2 = true := by decide

/-- The least and the greatest word. -/
theorem witness_DrvWrReachesOutputs : ∀ s ∈ [inst Config.atReset 8, instWith (good 37)], ∀ w ∈ [(0 : Int), 255],
    atRest s = true ∧ built s 8 = true ∧ 0 ≤ w ∧ w < 2 ^ 8 ∧ oracleOk s (4 * 8 + 5) = true := by decide

theorem witness_DrvWrRejectsInvalidWord : atRest (inst wide 8) = true ∧ (inst wide 8).life = .ready ∧
    (inst wide 8).cap = some 8 ∧ ((-1 : Int) < 0) ∧ (2 : Int) ^ 8 ≤ 256 := by decide

theorem witness_DrvZeroDrivesLinesLow : ∀ s ∈ [inst Config.atReset 8, instWith (good 1)],
    atRest s = true ∧ built s 8 = true ∧ oracleOk s 1 = true := by decide

/-- Both clauses at the ends of the range of positions. -/
theorem witness_BufChkChecksPosition : atRest (inst wide 8) = true ∧ (inst wide 8).life = .ready ∧
    (inst wide 8).cap = some 8 ∧ (∀ v ∈ [(0 : Int), 7], 0 ≤ v ∧ v < (8 : Nat)) ∧
    ∀ v ∈ [(-1 : Int), 8], v < 0 ∨ ((8 : Nat) : Int) ≤ v := by decide

/-- The three clauses; in the last, `BUF` has changed since the BufRead. -/
theorem witness_BufGetReadsBit :
    (atRest (inst wide 8) = true ∧ (inst wide 8).life = .ready ∧ (inst wide 8).cap = some 8 ∧
      7 < 8 ∧ (inst wide 8).buf = some 0 ∧ ∀ v ∈ [(-1 : Int), 8], v < 0 ∨ ((8 : Nat) : Int) ≤ v) ∧
    let c := { running (.bufGet (.int 7)) .done with tmp := some 128 }
    Stands (on0 c (inst wide 8)) .done ∧ c.holdsLock = false ∧ c.tmp = some 128 ∧
      (on0 c (inst wide 8)).buf = some 0 := by decide

/-- Both clauses; in the last, `BUF` has changed since the BufRead. -/
theorem witness_BufGetbufReadsBuffer :
    (atRest (inst wide 8) = true ∧ (inst wide 8).life = .ready ∧ (inst wide 8).buf = some 0) ∧
    let c := { running .bufGetbuf .done with tmp := some 128 }
    Stands (on0 c (inst wide 8)) .done ∧ c.holdsLock = false ∧ c.tmp = some 128 ∧
      (on0 c (inst wide 8)).buf = some 0 := by decide

/-- Both scopes. -/
theorem witness_BufSetWritesBit :
    (∀ s ∈ [inst Config.atReset 8, inst wide 8], atRest s = true ∧ s.life = .ready ∧ s.cap = some 8 ∧ 7 < 8 ∧
      ((1 : Int) = 0 ∨ (1 : Int) = 1) ∧ s.buf = some 0) ∧
    (inst Config.atReset 8).cfg.arbScope = .commitOnly ∧ (inst wide 8).cfg.arbScope = .wide ∧
      (inst wide 8).lock = none := by decide

/-- An invalid position with a valid value, and a valid position with an invalid value. -/
theorem witness_BufSetRejectsInvalidOperands :
    atRest (inst wide 8) = true ∧ (inst wide 8).life = .ready ∧ (inst wide 8).cap = some 8 ∧
    (Arg.int 8 ≠ .absent ∧ Arg.int 1 ≠ .absent ∧ ∀ v : Int, Arg.int 8 = .int v → v < 0 ∨ ((8 : Nat) : Int) ≤ v) ∧
    (Arg.int 0 ≠ .absent ∧ Arg.nonInt ≠ .absent ∧ ∀ x : Int, Arg.nonInt = .int x → x ≠ 0 ∧ x ≠ 1) :=
  ⟨by decide, by decide, by decide, ⟨by decide, by decide, fun v h => by cases h; decide⟩, by decide, by decide,
    fun x h => by cases h⟩

theorem witness_BufCommitTransmitsBuffer :
    ∀ s ∈ [inst Config.atReset 8, { instWith (good 37) with buf := some 255 }], ∀ b ∈ s.buf.toList,
      atRest s = true ∧ built s 8 = true ∧ s.lock = none ∧ s.buf = some b ∧ 0 ≤ b ∧ b < 2 ^ 8 ∧
        oracleOk s (4 * 8 + 5) = true := by decide

theorem witness_BufCommitRejectsBadBuffer : ∀ b ∈ [(-1 : Int), 256],
    let s := { inst wide 8 with buf := some b }
    atRest s = true ∧ s.life = .ready ∧ s.cap = some 8 ∧ s.lock = none ∧ s.buf = some b ∧ (b < 0 ∨ 2 ^ 8 ≤ b) := by decide

/-- Both scopes, the least and the greatest word. -/
theorem witness_BufWrStoresAndCommits :
    ∀ s ∈ [inst Config.atReset 8, inst wide 8, instWith (good 37)], ∀ w ∈ [(0 : Int), 255],
      atRest s = true ∧ built s 8 = true ∧ s.lock = none ∧ 0 ≤ w ∧ w < 2 ^ 8 ∧ oracleOk s (4 * 8 + 5) = true := by decide

theorem witness_BufWrInvalidWord : ∀ s ∈ [inst Config.atReset 8, inst wide 8], ∀ w ∈ [(-1 : Int), 256],
    atRest s = true ∧ s.life = .ready ∧ s.cap = some 8 ∧ s.lock = none ∧ (w < 0 ∨ 2 ^ 8 ≤ w) := by decide

/-- Both scopes. -/
theorem witness_BufClrClearsBufferAndShiftStage :
    (∀ s ∈ [inst Config.atReset 8, inst wide 8, instWith (good 2)], atRest s = true ∧ built s 8 = true ∧
      oracleOk s 2 = true) ∧
    (inst Config.atReset 8).cfg.arbScope = .commitOnly ∧ (inst wide 8).cfg.arbScope = .wide ∧
      (inst wide 8).lock = none := by decide

theorem witness_StageThenCommitEqualsWrite : ∀ s ∈ [inst Config.atReset 8, inst wide 8, instWith (good 37)],
    atRest s = true ∧ built s 8 = true ∧ s.lock = none ∧ 7 < 8 ∧ ((1 : Int) = 0 ∨ (1 : Int) = 1) ∧ s.buf = some 0 ∧
      (0 : Int) ≤ 0 ∧ (0 : Int) < 2 ^ 8 ∧ oracleOk s (4 * 8 + 5) = true := by decide

/-- Both clauses: a drive inside a commit, which holds the lock, and DRV.ZERO. -/
theorem witness_FailedDriveGoesToEpilogue :
    (let c := { running .bufCommit .shiftData with snap := some 255, i := some 7, holdsLock := true }
     let s := { on0 c (instWith [⟨false, true⟩]) with lock := some 0 }
     drivesLines (.bufCommit : Instr) = true ∧ Stands s .shiftData ∧ posOk s c .bufCommit .shiftData = true ∧
       driveAt (dataBit c) .shiftData = some (.sdata, true) ∧ allClaimed s.claimed = true ∧ s.cfg.backendFaults = true ∧
       s.draws = [⟨false, true⟩]) ∧
    let s := on0 (running .drvZero .driveAll) (instWith [⟨false, false⟩])
    Stands s .driveAll ∧ allClaimed s.claimed = true ∧ s.cfg.backendFaults = true ∧ s.draws = [⟨false, false⟩] := by decide

/-- Both clauses: with the lock and without. -/
theorem witness_EpilogueReleasesLockAndCompletes :
    (let c := { running .bufCommit .errUnlock with holdsLock := true, err := some .backendFailure }
     let s := { on0 c (inst wide 8) with lock := some 0 }
     drivesLines (.bufCommit : Instr) = true ∧ Stands s .errUnlock ∧ c.err = some .backendFailure ∧ s.lock = some s.active) ∧
    let c := { running .drvClr .errComplete with err := some .backendFailure }
    drivesLines (.drvClr : Instr) = true ∧ Stands (on0 c (inst wide 8)) .errComplete ∧ c.err = some .backendFailure ∧
      c.holdsLock = false := by decide

/-- Both clauses for each of the four commands. -/
theorem witness_LockAcquireWaitsOrTakes :
    ∀ i ∈ [Instr.bufCommit, .bufClr, .bufWr (.int 0), .bufSet (.int 0) (.int 0)],
      let s := on0 (running i .acquire) (inst wide 8)
      Stands s .acquire ∧ s.lock = none ∧ Stands { s with lock := some 1 } .acquire ∧
        ({ s with lock := some 1 } : State).lock ≠ none := by decide

theorem witness_LostUpdateRace :
    let c := { Ctx.powerOn with queue := [encode (.bufSet (.int 7) (.int 1))] }
    let d := { Ctx.powerOn with queue := [encode (.bufSet (.int 0) (.int 1))] }
    let s := { inst Config.atReset 8 with ports := [c, d], sched := [0, 1, 0, 1, 0, 1] }
    s.mark = none ∧ s.cfg.arbScope = .commitOnly ∧ s.life = .ready ∧ s.cap = some 8 ∧ s.buf = some 0 ∧ 7 < 8 ∧ 0 < 8 ∧
      s.ports[0]? = some c ∧ s.ports[1]? = some d ∧ c.busy = false ∧ d.busy = false := by decide

/-- A step of each command of the three frames, and of the frame of every command. -/
theorem witness_OtherPortsUnchanged : exec .drvCap (inst wide 8) = .next (nextOf (exec .drvCap (inst wide 8))) := rfl

theorem witness_ReadingCommandsFrame :
    exec .drvCap (inst wide 8) = .next (nextOf (exec .drvCap (inst wide 8))) ∧
    exec .bufCap (inst wide 8) = .next (nextOf (exec .bufCap (inst wide 8))) ∧
    exec .bufGetbuf (inst wide 8) = .next (nextOf (exec .bufGetbuf (inst wide 8))) ∧
    exec (.bufChk (.int 7)) (inst wide 8) = .next (nextOf (exec (.bufChk (.int 7)) (inst wide 8))) ∧
    exec (.bufGet (.int 7)) (inst wide 8) = .next (nextOf (exec (.bufGet (.int 7)) (inst wide 8))) :=
  ⟨rfl, rfl, rfl, rfl, rfl⟩

theorem witness_BufSetFrame :
    exec (.bufSet (.int 7) (.int 1)) (inst wide 8) = .next (nextOf (exec (.bufSet (.int 7) (.int 1)) (inst wide 8))) := rfl

theorem witness_LineDrivingCommandsFrame : drivesLines (.drvWr (.int 255) : Instr) = true ∧
    exec (.drvWr (.int 255)) (inst wide 8) = .next (nextOf (exec (.drvWr (.int 255)) (inst wide 8))) := ⟨rfl, rfl⟩

theorem witness_LifecycleCommandsFrame :
    exec .fini (inst wide 8) = .next (nextOf (exec .fini (inst wide 8))) ∧
    exec (.init ⟨4, 5, 6, 7⟩ .absent) State.reset = .next (nextOf (exec (.init ⟨4, 5, 6, 7⟩ .absent) State.reset)) :=
  ⟨rfl, rfl⟩

/-- A state with a commit's LockAcquire next. -/
def committing : State := { on0 (running .bufCommit .acquire) (inst wide 8) with sched := [0] }

theorem committing_lockInv : LockInv committing := by
  intro p c h
  match p with
  | 0 => cases h; decide
  | 1 => cases h; decide
  | _ + 2 => cases h

theorem committing_inv : Inv committing :=
  fun _ => ⟨committing_lockInv, by decide, by decide, by decide, by decide, by decide⟩

theorem witness_EveryStepKeepsInv : Inv committing ∧ step committing = .next (nextOf (step committing)) :=
  ⟨committing_inv, rfl⟩

theorem witness_InternalFaultsUnreachable : Inv committing ∧ committing.mark = none := ⟨committing_inv, rfl⟩

theorem witness_NoUnknownClockEdge : Inv committing ∧ step committing = .next (nextOf (step committing)) :=
  ⟨committing_inv, rfl⟩

/-- The reset state with an INIT to issue. -/
def starting : State := offered (encode (.init ⟨4, 5, 6, 7⟩ .absent)) State.reset

theorem starting_inv : Inv starting := by
  refine fun _ => ⟨?_, by decide, by decide, by decide, by decide, by decide⟩
  intro p c h
  match p with
  | 0 => cases h; decide
  | 1 => cases h; decide
  | _ + 2 => cases h

theorem witness_HistoryDeterminesOutputsAndLock : Inv starting ∧ starting.mark = none ∧ HistInv starting ∧
    step starting = .next (nextOf (step starting)) :=
  ⟨starting_inv, rfl, ⟨fun _ => rfl, fun n h => (by cases h), rfl⟩, rfl⟩

theorem witness_HistoryGrowsByOneEvent : step starting = .next (nextOf (step starting)) := rfl

theorem witness_ReadsReturnLatestWrite :
    let s := { on0 (running .bufGetbuf .bufRead) (inst wide 8) with hist := [⟨0, .bwr (some 0)⟩], sched := [0] }
    bufWalk none s.hist = some (some 0) ∧ s.buf = some 0 ∧ step s = .next (nextOf (step s)) :=
  ⟨rfl, rfl, rfl⟩

theorem witness_EveryStepKeepsLockInv : LockInv committing ∧ step committing = .next (nextOf (step committing)) :=
  ⟨committing_lockInv, rfl⟩

theorem witness_EveryStepKeepsClaimInv : claimInv committing = true ∧ step committing = .next (nextOf (step committing)) ∧
    (nextOf (step committing)).hist = committing.hist ++ [⟨0, .acq⟩] := ⟨rfl, rfl, by decide⟩

theorem witness_ConfigurationIsFixed : step starting = .next (nextOf (step starting)) := rfl

/-- With internal events between the wire events, for the least width and for a register. -/
theorem witness_TransmitTraceLatchesWord : ∀ n ∈ [1, 8],
    floating (Quad.all .low) = false ∧ 0 < n ∧ (same n .x).length = n ∧
      wireTrace (⟨1, .acq⟩ :: ⟨1, .brd 1⟩ :: tagged 1 (transmitEvents n 1) ++ [⟨1, .rls⟩]) =
        tagged 1 (transmitEvents n 1) := by decide

/-- Both clauses at the position of the latch's rising edge. -/
theorem witness_OutputsChangeOnceInTransmit : floating (Quad.all .x) = false ∧ 0 < 8 ∧ (same 8 .x).length = 8 ∧
    53 < 6 * 8 + 6 ∧ 6 * 8 + 6 ≤ 54 := by decide

/-- Before the first shift pulse, and after the last. -/
theorem witness_ClearInsideTransmitLosesShiftedBits : ∀ k ∈ [0, 8],
    floating (Quad.all .x) = false ∧ k ≤ 8 ∧ 0 < 8 ∧ (same 8 .x).length = 8 := by decide

/-- A change of levels for each clause: floating, clear, unknown clear, shift, latch. -/
theorem witness_ChainReactions :
    floating ⟨.z, .low, .low, .high⟩ = true ∧ floating ⟨.x, .high, .high, .low⟩ = false ∧
      floating ⟨.x, .high, .high, .x⟩ = false ∧ floating ⟨.x, .high, .high, .high⟩ = false := by decide

/-- The bounds of the first two clauses, and for the last a BufWrite of BUF.SET and of INIT with the greatest BUF_INIT. -/
theorem witness_SetbitChangesOneBit :
    (((1 : Int) = 0 ∨ (1 : Int) = 1) ∧ 7 < 8 ∧ (0 : Int) ≤ 255 ∧ (255 : Int) < 2 ^ 8) ∧
    (let i := Instr.bufSet (.int 7) (.int 1)
     let s := on0 { running i .bufWrite with tmp := some 127 } (written Config.atReset 8 127)
     (∀ a, i ≠ .bufWr a) ∧ s.cfg.legalFor 8 = true ∧ s.cap = some 8 ∧ s.buf = some 127 ∧ inRange 8 127 = true ∧
       exec i s = .next (nextOf (exec i s)) ∧ (nextOf (exec i s)).cap = some 8) ∧
    let i := Instr.init ⟨4, 5, 6, 7⟩ .absent
    let s := { on0 (running i .bufWrite) (inst { Config.atReset with bufInit := 255 } 8) with buf := none }
    (∀ a, i ≠ .bufWr a) ∧ s.cfg.legalFor 8 = true ∧ s.cap = some 8 ∧ s.buf = none ∧
      exec i s = .next (nextOf (exec i s)) ∧ (nextOf (exec i s)).cap = some 8 :=
  ⟨by decide, ⟨fun _ h => (by cases h), by decide, rfl, rfl, by decide, rfl, rfl⟩,
    fun _ h => (by cases h), by decide, rfl, rfl, rfl, rfl⟩

end Sys2Proof.Tests
end

section
/-! The lines and the pins under a change of one line: facts about `Quad`, `claimInv`, `claimedRange` and `chainInv`. -/

namespace Sys2Proof.Machine

variable {PinId : Type}

@[simp] theorem quad_get_set {α : Type} (q : Quad α) (l k : Line) (v : α) :
    (q.set l v).get k = if k = l then v else q.get k := by
  cases l <;> cases k <;> rfl

@[simp] theorem quad_get_all {α : Type} (v : α) (l : Line) : (Quad.all v).get l = v := by cases l <;> rfl

theorem line_ofIndex_eq_some {k : Nat} {l : Line} (h : Line.ofIndex k = some l) : l.index = k := by
  unfold Line.ofIndex at h
  split at h <;> cases h <;> rfl

theorem line_index_inj {l k : Line} : l.index = k.index ↔ l = k := by
  cases l <;> cases k <;> simp [Line.index]

/-- Reading `claimedRange` line by line. -/
theorem claimedRange_iff {q : Quad Bool} {lo hi : Nat} :
    claimedRange q lo hi = true ↔ ∀ l, q.get l = decide (lo ≤ l.index ∧ l.index < hi) := by
  constructor
  · intro h l
    simp only [claimedRange, Bool.and_eq_true, beq_iff_eq] at h
    obtain ⟨⟨⟨h0, h1⟩, h2⟩, h3⟩ := h
    cases l <;> assumption
  · intro h
    simp only [claimedRange, Bool.and_eq_true, beq_iff_eq]
    exact ⟨⟨⟨h .sdata, h .sclk⟩, h .lclk⟩, h .clrN⟩

theorem claimedRange_empty {q : Quad Bool} {lo hi lo' hi' : Nat} (h : hi ≤ lo) (h' : hi' ≤ lo')
    (hq : claimedRange q lo hi = true) : claimedRange q lo' hi' = true := by
  rw [claimedRange_iff] at hq ⊢
  intro l
  rw [hq l, decide_eq_decide]
  omega

/-- A claim of the next line makes the claimed range longer. -/
theorem claimedRange_claim {q : Quad Bool} {k : Nat} {l : Line} (hl : Line.ofIndex k = some l)
    (h : claimedRange q 0 k = true) : claimedRange (q.set l true) 0 (k + 1) = true := by
  have hk := line_ofIndex_eq_some hl
  rw [claimedRange_iff] at h ⊢
  intro m
  have hm := line_index_inj (l := m) (k := l)
  rw [quad_get_set]
  split
  · next e => subst e; simp [hk]
  · next e =>
    rw [h m, decide_eq_decide]
    have hne : m.index ≠ k := fun e' => e (hm.mp (e'.trans hk.symm))
    omega

/-- A release of the lowest claimed line makes the claimed range shorter. -/
theorem claimedRange_release {q : Quad Bool} {j k : Nat} {l : Line} (hl : Line.ofIndex j = some l)
    (h : claimedRange q j k = true) : claimedRange (q.set l false) (j + 1) k = true := by
  have hj := line_ofIndex_eq_some hl
  rw [claimedRange_iff] at h ⊢
  intro m
  have hm := line_index_inj (l := m) (k := l)
  rw [quad_get_set]
  split
  · next e => subst e; simp [hj]
  · next e =>
    rw [h m, decide_eq_decide]
    have hne : m.index ≠ j := fun e' => e (hm.mp (e'.trans hj.symm))
    omega

/-- Reading `claimInv` line by line (10_state.md R43). -/
theorem claimInv_iff {s : State PinId} :
    claimInv s = true ↔ ∀ l, (s.line.get l = .z ↔ s.claimed.get l = false) := by
  have key (v : Level) (b : Bool) : (v == Level.z) = (!b) ↔ (v = .z ↔ b = false) := by
    cases b <;> simp
  simp only [claimInv, Bool.and_eq_true, beq_iff_eq, key]
  constructor
  · rintro ⟨⟨⟨h0, h1⟩, h2⟩, h3⟩ l
    cases l <;> assumption
  · intro h
    exact ⟨⟨⟨h .sdata, h .sclk⟩, h .lclk⟩, h .clrN⟩

theorem ofBit_ne_z (v : Bool) : Level.ofBit v ≠ .z := by cases v <;> simp [Level.ofBit]

theorem ofBit_driven (v : Bool) : (Level.ofBit v).driven = true := by cases v <;> rfl

/-- Driving a claimed line keeps `claimInv`. -/
theorem claimInv_drive {s t : State PinId} {l : Line} {v : Bool} (h : claimInv s = true) (hl : s.claimed.get l = true)
    (hline : t.line = s.line.set l (Level.ofBit v)) (hclaimed : t.claimed = s.claimed) : claimInv t = true := by
  rw [claimInv_iff] at h ⊢
  intro k
  rw [hline, hclaimed, quad_get_set]
  split
  · next e => subst e; simp [hl, ofBit_ne_z]
  · exact h k

theorem allClaimed_get {q : Quad Bool} (h : allClaimed q = true) (l : Line) : q.get l = true := by
  simp only [allClaimed, Bool.and_eq_true] at h
  obtain ⟨⟨⟨h0, h1⟩, h2⟩, h3⟩ := h
  cases l <;> assumption

/-- Driving all four claimed lines keeps `claimInv`. -/
theorem claimInv_driveAll {s t : State PinId} {v : Bool} (hl : allClaimed s.claimed = true)
    (hline : t.line = Quad.all (Level.ofBit v)) (hclaimed : t.claimed = s.claimed) : claimInv t = true := by
  rw [claimInv_iff]
  intro k
  simp [hline, hclaimed, allClaimed_get hl, ofBit_ne_z]

/-- A claim or a release sets the line and its claim together. -/
theorem claimInv_set {s t : State PinId} {l : Line} {v : Level} {b : Bool} (h : claimInv s = true) (hv : v = .z ↔ b = false)
    (hline : t.line = s.line.set l v) (hclaimed : t.claimed = s.claimed.set l b) : claimInv t = true := by
  rw [claimInv_iff] at h ⊢
  intro k
  rw [hline, hclaimed, quad_get_set, quad_get_set]
  split
  · exact hv
  · exact h k

theorem floating_iff {ls : Quad Level} : floating ls = true ↔ ∃ l, ls.get l = .z := by
  constructor
  · intro h
    simp only [floating, Bool.or_eq_true, decide_eq_true_eq] at h
    obtain ((h | h) | h) | h := h
    · exact ⟨.sdata, h⟩
    · exact ⟨.sclk, h⟩
    · exact ⟨.lclk, h⟩
    · exact ⟨.clrN, h⟩
  · rintro ⟨l, h⟩
    cases l <;> simp_all [floating, Quad.get]

/-! The chain under a change of the levels (20_memory.md R90 to R96). -/

@[simp] theorem fillStage_length (v : CBit) (st : List CBit) : (fillStage v st).length = st.length := by simp [fillStage]

@[simp] theorem fillStage_fillStage (v w : CBit) (st : List CBit) : fillStage v (fillStage w st) = fillStage v st := by
  simp [fillStage]

@[simp] theorem shiftStage_length (old new : Quad Level) (st : List CBit) : (shiftStage old new st).length = st.length := by
  unfold shiftStage
  split
  · simp
  · simp
  · simp
  · split
    · simp [shiftIn]
    · split <;> simp

theorem outputStage_length {old new : Quad Level} {sNow qOld : List CBit} (h : sNow.length = qOld.length) :
    (outputStage old new sNow qOld).length = qOld.length := by
  unfold outputStage
  split
  · split <;> simp [h]
  · split <;> simp

/-- What `chainInv` says. -/
structure ChainFits (cap : Option Nat) (line : Quad Level) (c : Chain) : Prop where
  len : c.s.length = c.q.length
  width : ∀ n, cap = some n → c.s.length = n
  afloat : floating line = true → c = c.unknown
  clear : floating line = false → line.clrN = .low → c.s = fillStage .b0 c.s
  unclear : line.clrN = .x → c.s = fillStage .x c.s

theorem chainInv_iff {s : State PinId} : chainInv s = true ↔ ChainFits s.cap s.line s.chain := by
  constructor
  · intro h
    simp only [chainInv, Bool.and_eq_true, decide_eq_true_eq, Bool.or_eq_true, Bool.not_eq_true', bne_iff_ne] at h
    obtain ⟨⟨⟨⟨hlen, hwidth⟩, hfloat⟩, hclear⟩, hx⟩ := h
    refine ⟨hlen, fun n hn => ?_, fun hf => ?_, fun hf hl => ?_, fun hl => ?_⟩
    · simpa [hn] using hwidth
    · simpa [hf] using hfloat
    · simpa [hf, hl] using hclear
    · simpa [hl] using hx
  · rintro ⟨hlen, hwidth, hfloat, hclear, hx⟩
    simp only [chainInv, Bool.and_eq_true, decide_eq_true_eq, Bool.or_eq_true, Bool.not_eq_true', bne_iff_ne]
    refine ⟨⟨⟨⟨hlen, ?_⟩, ?_⟩, ?_⟩, ?_⟩
    · split
      · next n hn => simpa using hwidth n hn
      · rfl
    · by_cases h : floating s.line = true
      · exact .inr (hfloat h)
      · exact .inl (by simpa using h)
    · by_cases h : floating s.line = true
      · exact .inl (.inl h)
      · by_cases hl : s.line.clrN = .low
        · exact .inr (hclear (by simpa using h) hl)
        · exact .inl (.inr hl)
    · by_cases h : s.line.clrN = .x
      · exact .inr (hx h)
      · exact .inl h

/-- However the levels change, the chain's reaction makes it what the new levels force on it. -/
theorem ChainFits.react {cap : Option Nat} {old : Quad Level} {c : Chain} (h : ChainFits cap old c) (new : Quad Level) :
    ChainFits cap new (c.react old new) := by
  by_cases hf : floating new = true
  · have hr : c.react old new = c.unknown := by simp [Chain.react, hf]
    rw [hr]
    refine ⟨by simpa [Chain.unknown] using h.len, fun n hn => by simpa [Chain.unknown] using h.width n hn,
      fun _ => by simp [Chain.unknown], fun hf' => ?_, fun _ => by simp [Chain.unknown]⟩
    rw [hf] at hf'
    cases hf'
  · have hr : c.react old new = ⟨shiftStage old new c.s, outputStage old new (shiftStage old new c.s) c.q⟩ := by
      simp [Chain.react, hf]
    rw [hr]
    refine ⟨?_, fun n hn => by simpa using h.width n hn, fun hf' => absurd hf' hf, fun _ hl => ?_, fun hl => ?_⟩
    · rw [shiftStage_length, outputStage_length (by simpa using h.len), h.len]
    · simp [shiftStage, hl]
    · simp [shiftStage, hl]

theorem chainInv_react {s t : State PinId} (h : chainInv s = true) (hcap : t.cap = s.cap)
    (hchain : t.chain = s.chain.react s.line t.line) : chainInv t = true := by
  rw [chainInv_iff] at h ⊢
  rw [hcap, hchain]
  exact h.react t.line

theorem chainInv_of_eq {s t : State PinId} (h : chainInv s = true) (hcap : t.cap = s.cap ∨ t.cap = none)
    (hline : t.line = s.line) (hchain : t.chain = s.chain) : chainInv t = true := by
  rw [chainInv_iff] at h ⊢
  rw [hline, hchain]
  refine ⟨h.len, fun n hn => h.width n ?_, h.afloat, h.clear, h.unclear⟩
  obtain e | e := hcap
  · exact e ▸ hn
  · rw [e] at hn; cases hn

theorem widenStage_length (w : Nat) (st : List CBit) : (widenStage w st).length = w := by
  simp only [widenStage, List.length_append, List.length_take, List.length_replicate]
  omega

theorem widenStage_unknown {w : Nat} {st : List CBit} (h : st = fillStage .x st) :
    widenStage w st = fillStage .x (widenStage w st) := by
  simp only [widenStage, fillStage, List.map_append, List.map_take, List.map_replicate]
  congr 2

/-- Seen with a new width, the chain is still what floating lines force on it. -/
theorem chainInv_writeInstance {s : State PinId} (n : Nat) (pins : Quad PinId) (h : chainInv s = true)
    (hf : floating s.line = true) : chainInv (writeInstance n pins s) = true := by
  rw [chainInv_iff] at h ⊢
  have hu : s.chain = s.chain.unknown := h.afloat hf
  have hs : s.chain.s = fillStage .x s.chain.s := congrArg Chain.s hu
  have hq : s.chain.q = fillStage .x s.chain.q := congrArg Chain.q hu
  show ChainFits (some (capacity n)) s.line (s.chain.resize (capacity n))
  refine ⟨by simp [Chain.resize, widenStage_length], ?_, fun _ => ?_, fun hf' => ?_, fun _ => widenStage_unknown hs⟩
  · rintro m ⟨⟩
    exact widenStage_length _ _
  · simp only [Chain.resize, Chain.unknown, ← widenStage_unknown hs, ← widenStage_unknown hq]
  · rw [hf] at hf'
    cases hf'

end Sys2Proof.Machine
end

section
/-! Contexts of the ports under a step: what a context's command is, where it stands, and which changes of the state leave
`LockInv`, `oneBusy` and the other ports' `ctxOk` as they were. -/

namespace Sys2Proof.Machine

variable {PinId : Type}

/-- A well-formed instruction's encoding decodes to it (30_encoding.md R129). -/
theorem decode_encode_of_wellFormed {i : Instr PinId} (h : i.wellFormed = true) : decode (encode i) = .ok i := by
  cases i <;>
    simp_all [decode, encode, Command.bare, Instr.opcode, formatOf, select, group, function, Command.fits, Instr.wellFormed,
      Arg.present]

/-- A busy port whose context holds the command of `i`. -/
def Runs (c : Ctx PinId) (i : Instr PinId) : Prop := c.busy = true ∧ ∃ cmd, c.command = some cmd ∧ decode cmd = .ok i

/-- A change of a context that keeps its command, its `busy` and its `holds_lock`. -/
def SameCommand (c d : Ctx PinId) : Prop := d.busy = c.busy ∧ d.holdsLock = c.holdsLock ∧ d.command = c.command

/-- The context `c` of a port running `i` goes on as `d`, at a position of `i`'s micro-program. -/
def Stays (s : State PinId) (i : Instr PinId) (c d : Ctx PinId) : Prop :=
  SameCommand c d ∧ ∃ u, d.upc = some u ∧ posOk s d i u = true

theorem Runs.of_command {c d : Ctx PinId} {i : Instr PinId} (h : Runs c i) (hb : d.busy = c.busy)
    (hc : d.command = c.command) : Runs d i := by
  obtain ⟨hbusy, cmd, hcmd, hdec⟩ := h
  exact ⟨hb ▸ hbusy, cmd, hc ▸ hcmd, hdec⟩

@[simp] theorem posOk_goto (s : State PinId) (c : Ctx PinId) (i : Instr PinId) (u v : UPos) :
    posOk s (goto v c) i u = posOk s c i u := by
  cases i <;> rfl

theorem stays_goto {s : State PinId} {i : Instr PinId} {c : Ctx PinId} {u : UPos} (h : posOk s c i u = true) :
    Stays s i c (goto u c) :=
  ⟨⟨rfl, rfl, rfl⟩, u, rfl, by rwa [posOk_goto]⟩

theorem ctxOk_of_idle {s : State PinId} {c : Ctx PinId} (h : c.busy = false) : ctxOk s c = !c.holdsLock := by
  simp [ctxOk, h]

theorem ctxOk_iff_of_runs {s : State PinId} {c : Ctx PinId} {i : Instr PinId} (h : Runs c i) :
    ctxOk s c = true ↔ ∃ u, c.upc = some u ∧ posOk s c i u = true := by
  obtain ⟨hbusy, cmd, hcmd, hdec⟩ := h
  cases hu : c.upc <;> simp [ctxOk, hbusy, hcmd, hu, hdec]

/-- A busy port in order runs some instruction and stands in its micro-program. -/
theorem runs_of_ctxOk {s : State PinId} {c : Ctx PinId} (hb : c.busy = true) (h : ctxOk s c = true) :
    ∃ i u, Runs c i ∧ c.upc = some u ∧ posOk s c i u = true := by
  cases hcmd : c.command with
  | none => simp [ctxOk, hb, hcmd] at h
  | some cmd =>
    cases hdec : decode cmd with
    | error e =>
      cases hu : c.upc <;> simp [ctxOk, hb, hcmd, hu, hdec] at h
    | ok i =>
      have hr : Runs c i := ⟨hb, cmd, hcmd, hdec⟩
      obtain ⟨u, hu, hp⟩ := (ctxOk_iff_of_runs hr).mp h
      exact ⟨i, u, hr, hu, hp⟩

theorem ctxOk_of_stays {s : State PinId} {i : Instr PinId} {c d : Ctx PinId} (hr : Runs c i) (h : Stays s i c d) :
    ctxOk s d = true := by
  obtain ⟨⟨hb, -, hc⟩, hpos⟩ := h
  exact (ctxOk_iff_of_runs (hr.of_command hb hc)).mpr hpos

/-! What of the state a position depends on. -/

/-- From `s` to `t` nothing changes that the micro-program positions of ports depend on, but that lines become driven, and `BUF`
while `LIFE` is READY. -/
structure KeepsView (s t : State PinId) : Prop where
  cfg : t.cfg = s.cfg
  life : t.life = s.life
  cap : t.cap = s.cap
  claimed : t.claimed = s.claimed
  driven : ∀ l, (s.line.get l).driven = true → (t.line.get l).driven = true
  buf : s.life ≠ .ready → t.buf = s.buf

/-- A state with the same lines and, while `LIFE` is READY, any `BUF`. -/
theorem KeepsView.of_line_eq {s t : State PinId} (cfg : t.cfg = s.cfg) (life : t.life = s.life) (cap : t.cap = s.cap)
    (claimed : t.claimed = s.claimed) (line : t.line = s.line) (buf : s.life ≠ .ready → t.buf = s.buf) : KeepsView s t :=
  ⟨cfg, life, cap, claimed, fun _ h => line ▸ h, buf⟩

theorem pulseOk_of_driven {s t : State PinId} {u : UPos} (h : ∀ l, (s.line.get l).driven = true → (t.line.get l).driven = true)
    (hu : pulseOk s u = true) : pulseOk t u = true := by
  cases u with
  | clearWait | clearHigh => exact h .clrN hu
  | shiftWait | shiftHigh => exact h .sclk hu
  | latchWait | latchHigh => exact h .lclk hu
  | _ => rfl

theorem posOk_pulse {s : State PinId} {c : Ctx PinId} {i : Instr PinId} {u : UPos} (h : posOk s c i u = true) :
    pulseOk s u = true := by
  simp only [posOk, Bool.and_eq_true] at h
  exact h.1

/-- A port's place in its micro-program is still one when another port's step keeps the view. -/
theorem posOk_keepsView {s t : State PinId} {c : Ctx PinId} {i : Instr PinId} {u : UPos} (h : KeepsView s t)
    (hpos : posOk s c i u = true) : posOk t c i u = true := by
  have hpulse : pulseOk t u = true := pulseOk_of_driven h.driven (posOk_pulse hpos)
  cases i with
  | init pins count =>
    simp only [posOk, initOk, Bool.and_eq_true, decide_eq_true_eq, h.cfg, h.life, h.claimed, h.cap] at hpos ⊢
    have hbuf : t.buf = s.buf := h.buf (by rw [hpos.2.1.1]; decide)
    rw [hbuf]
    exact ⟨hpulse, hpos.2⟩
  | fini =>
    simp only [posOk, finiOk, Bool.and_eq_true, h.life, h.claimed, h.cap] at hpos ⊢
    exact ⟨hpulse, hpos.2⟩
  | _ =>
    simp only [posOk, Bool.and_eq_true, h.cfg, h.life, h.cap] at hpos ⊢
    exact ⟨hpulse, hpos.2⟩

theorem ctxOk_keepsView {s t : State PinId} {c : Ctx PinId} (h : KeepsView s t) (hc : ctxOk s c = true) : ctxOk t c = true := by
  cases hb : c.busy with
  | false => rwa [ctxOk_of_idle hb] at hc ⊢
  | true =>
    obtain ⟨i, u, hr, hu, hp⟩ := runs_of_ctxOk hb hc
    exact (ctxOk_iff_of_runs hr).mpr ⟨u, hu, posOk_keepsView h hp⟩

/-! The lock, and the ports that are busy. -/

theorem getElem?_modify_self {α : Type} {l : List α} {p : Nat} {f : α → α} {d : α} (h : (l.modify p f)[p]? = some d) :
    ∃ c, l[p]? = some c ∧ d = f c := by
  rw [List.getElem?_modify_eq] at h
  obtain ⟨c, hc, e⟩ := Option.map_eq_some_iff.mp h
  exact ⟨c, hc, e.symm⟩

theorem getElem?_modify_other {α : Type} {l : List α} {p q : Nat} {f : α → α} (h : q ≠ p) : (l.modify p f)[q]? = l[q]? := by
  have h' : p ≠ q := fun e => h e.symm
  simp [h']

/-- A step that leaves `LOCK` and its port's `holds_lock` as they were keeps `LockInv`. -/
theorem lockInv_of_same {s t : State PinId} {p : Nat} {f : Ctx PinId → Ctx PinId} (h : LockInv s) (hlock : t.lock = s.lock)
    (hports : t.ports = s.ports.modify p f) (hf : ∀ c, s.ctx p = some c → (f c).holdsLock = c.holdsLock) : LockInv t := by
  intro q d hd
  rw [hlock]
  rw [hports] at hd
  by_cases hq : q = p
  · subst hq
    obtain ⟨c, hc, rfl⟩ := getElem?_modify_self hd
    rw [hf c hc]
    exact h q c hc
  · rw [getElem?_modify_other hq] at hd
    exact h q d hd

/-- Taking the free lock keeps `LockInv` (40_sequencer.md R166). -/
theorem lockInv_acquire {s t : State PinId} {p : Nat} {f : Ctx PinId → Ctx PinId} (h : LockInv s) (hfree : s.lock = none)
    (hlock : t.lock = some p) (hports : t.ports = s.ports.modify p f) (hf : ∀ c, s.ctx p = some c → (f c).holdsLock = true) :
    LockInv t := by
  intro q d hd
  rw [hlock]
  rw [hports] at hd
  by_cases hq : q = p
  · subst hq
    obtain ⟨c, hc, rfl⟩ := getElem?_modify_self hd
    simp [hf c hc]
  · rw [getElem?_modify_other hq] at hd
    have hnot : ¬ d.holdsLock = true := fun e => by
      have := (h q d hd).mp e
      rw [hfree] at this
      cases this
    have hne : ¬ some p = some q := fun e => hq (Option.some.inj e).symm
    exact iff_of_false hnot hne

/-- The holder's release keeps `LockInv` (40_sequencer.md R167). -/
theorem lockInv_release {s t : State PinId} {p : Nat} {f : Ctx PinId → Ctx PinId} (h : LockInv s) (hheld : s.lock = some p)
    (hlock : t.lock = none) (hports : t.ports = s.ports.modify p f) (hf : ∀ c, s.ctx p = some c → (f c).holdsLock = false) :
    LockInv t := by
  intro q d hd
  rw [hlock]
  rw [hports] at hd
  by_cases hq : q = p
  · subst hq
    obtain ⟨c, hc, rfl⟩ := getElem?_modify_self hd
    simp [hf c hc]
  · rw [getElem?_modify_other hq] at hd
    have hnot : ¬ d.holdsLock = true := fun e => by
      have := (h q d hd).mp e
      rw [hheld] at this
      exact hq (Option.some.inj this).symm
    simp [hnot]

/-- Every port other than `p` is idle. -/
def Alone (s : State PinId) (p : Nat) : Prop := ∀ q c, q ≠ p → s.ports[q]? = some c → c.busy = false

theorem alone_of_othersIdle {s : State PinId} {p : Nat} (h : s.othersIdle p = true) : Alone s p := by
  intro q c hq hc
  have hlt : q < s.ports.length := by
    rw [List.getElem?_eq_some_iff] at hc
    exact hc.1
  have hi := List.all_eq_true.mp h q (List.mem_range.mpr hlt)
  simpa [hc, hq] using hi

theorem filter_length_le_one_iff {α : Type} {f : α → Bool} {l : List α} :
    (l.filter f).length ≤ 1 ↔ ∀ (p q : Nat) (a b : α), l[p]? = some a → l[q]? = some b → f a = true → f b = true → p = q := by
  induction l with
  | nil => simp
  | cons x xs ih =>
    cases hx : f x with
    | false =>
      rw [List.filter_cons_of_neg (by simp [hx]), ih]
      constructor
      · intro h p q a b ha hb hfa hfb
        cases p with
        | zero => simp only [List.getElem?_cons_zero, Option.some.injEq] at ha; subst ha; simp [hx] at hfa
        | succ p =>
          cases q with
          | zero => simp only [List.getElem?_cons_zero, Option.some.injEq] at hb; subst hb; simp [hx] at hfb
          | succ q => exact congrArg (· + 1) (h p q a b (by simpa using ha) (by simpa using hb) hfa hfb)
      · intro h p q a b ha hb hfa hfb
        exact Nat.succ.inj (h (p + 1) (q + 1) a b (by simpa using ha) (by simpa using hb) hfa hfb)
    | true =>
      simp only [List.filter_cons_of_pos hx, List.length_cons, add_le_iff_nonpos_left, Nat.le_zero_eq,
        List.length_eq_zero_iff, List.filter_eq_nil_iff]
      constructor
      · intro h p q a b ha hb hfa hfb
        cases p with
        | succ p => exact absurd hfa (h a (List.mem_of_getElem? (by simpa using ha)))
        | zero =>
          cases q with
          | succ q => exact absurd hfb (h b (List.mem_of_getElem? (by simpa using hb)))
          | zero => rfl
      · intro h y hy hfy
        obtain ⟨q, hq⟩ := List.mem_iff_getElem?.mp hy
        cases h 0 (q + 1) x y rfl (by simpa using hq) hx hfy

theorem oneBusy_iff {s : State PinId} : oneBusy s = true ↔
    ∀ (p q : Nat) (c d : Ctx PinId), s.ports[p]? = some c → s.ports[q]? = some d → c.busy = true → d.busy = true → p = q := by
  rw [oneBusy, decide_eq_true_eq, filter_length_le_one_iff]

theorem Alone.oneBusy {s : State PinId} {p : Nat} (h : Alone s p) : oneBusy s = true := by
  rw [oneBusy_iff]
  have key (q : Nat) (c : Ctx PinId) (hc : s.ports[q]? = some c) (hb : c.busy = true) : q = p := by
    by_contra hq
    rw [h q c hq hc] at hb
    cases hb
  intro q r c d hc hd hcb hdb
  rw [key q c hc hcb, key r d hd hdb]

theorem alone_of_oneBusy {s : State PinId} {p : Nat} {c : Ctx PinId} (h : oneBusy s = true) (hc : s.ctx p = some c)
    (hb : c.busy = true) : Alone s p := by
  intro q d hq hd
  cases hdb : d.busy with
  | false => rfl
  | true => exact absurd (oneBusy_iff.mp h q p d c hd hc hdb hb) hq

theorem Alone.modify {s t : State PinId} {p : Nat} {f : Ctx PinId → Ctx PinId} (h : Alone s p)
    (hports : t.ports = s.ports.modify p f) : Alone t p := by
  intro q d hq hd
  rw [hports, getElem?_modify_other hq] at hd
  exact h q d hq hd

/-- At most one port stays busy when the port that acts was busy already or ends idle. -/
theorem oneBusy_modify {s t : State PinId} {p : Nat} {c : Ctx PinId} {f : Ctx PinId → Ctx PinId} (h : oneBusy s = true)
    (hc : s.ctx p = some c) (hports : t.ports = s.ports.modify p f) (hf : (f c).busy = true → c.busy = true) :
    oneBusy t = true := by
  rw [oneBusy_iff] at h ⊢
  have key (q : Nat) (d : Ctx PinId) (hd : t.ports[q]? = some d) (hb : d.busy = true) :
      ∃ e, s.ports[q]? = some e ∧ e.busy = true := by
    rw [hports] at hd
    by_cases hq : q = p
    · subst hq
      obtain ⟨e, he, rfl⟩ := getElem?_modify_self hd
      have hec : e = c := Option.some.inj (he.symm.trans hc)
      subst hec
      exact ⟨e, he, hf hb⟩
    · rw [getElem?_modify_other hq] at hd
      exact ⟨d, hd, hb⟩
  intro q r d e hd he hdb heb
  obtain ⟨d', hd', hdb'⟩ := key q d hd hdb
  obtain ⟨e', he', heb'⟩ := key r e he heb
  exact h q r d' e' hd' he' hdb' heb'

end Sys2Proof.Machine
end

section
/-! The rule of each micro-step: when the port goes on at a position of its micro-program, the step keeps `Inv`. -/

namespace Sys2Proof.Machine

variable {PinId : Type}

/-- What `Inv` says of a state with no fault recorded. -/
structure Sound (s : State PinId) : Prop where
  lock : LockInv s
  claim : claimInv s = true
  chain : chainInv s = true
  life : lifeInv s = true
  len : s.ports.length = s.cfg.nPorts
  ctx : ∀ p c, s.ctx p = some c → ctxOk s c = true

theorem sound_iff {s : State PinId} : (s.mark = none → Sound s) ↔ Inv s := by
  constructor
  · intro h hm
    obtain ⟨hlock, hclaim, hchain, hlife, hlen, hctx⟩ := h hm
    refine ⟨hlock, hclaim, hchain, hlife, hlen, fun c hc => ?_⟩
    obtain ⟨p, hp⟩ := List.mem_iff_getElem?.mp hc
    exact hctx p c hp
  · intro h hm
    obtain ⟨hlock, hclaim, hchain, hlife, hlen, hctx⟩ := h hm
    exact ⟨hlock, hclaim, hchain, hlife, hlen, fun p c hc => hctx c (List.mem_of_getElem? hc)⟩

theorem inv_enterFault (s : State PinId) (f : Fault) : Inv (s.enterFault f) := by
  intro h
  cases h

/-- What a step keeps that leaves the lifecycle's registers as they are. -/
structure KeepsRegs (s t : State PinId) : Prop extends KeepsView s t where
  cc : t.cc = s.cc
  pins : t.pins = s.pins

/-- What `lifeInv` says of the registers (10_state.md R35; 41_driver.md R191 to R193, R208). -/
structure LifeRegs (s : State PinId) : Prop where
  cc : s.cc = true ↔ s.life = .ready ∨ s.life = .tearing
  pins : s.cap.isSome = s.pins.isSome
  width : ∀ n, s.cap = some n → n % 8 = 0 ∧ 0 < n
  unbuilt : s.life = .unbuilt → claimedRange s.claimed 0 0 = true ∧ s.cap = none ∧ s.buf = none
  ready : s.life = .ready → claimedRange s.claimed 0 4 = true ∧ s.cap.isSome = true
  tearing : s.life = .tearing → s.cap.isSome = true

/-- `lifeInv` is about the registers, and while INIT or FINI runs also about the ports. -/
theorem lifeInv_iff {s : State PinId} :
    lifeInv s = true ↔ LifeRegs s ∧ (s.life = .building ∨ s.life = .tearing → oneBusy s = true) := by
  have hcc : (s.cc == (decide (s.life = .ready) || decide (s.life = .tearing))) = true ↔
      (s.cc = true ↔ s.life = .ready ∨ s.life = .tearing) := by
    cases s.cc <;> simp
  rw [lifeInv, Bool.and_eq_true, Bool.and_eq_true, Bool.and_eq_true, hcc, beq_iff_eq]
  constructor
  · rintro ⟨⟨⟨h1, h2⟩, h3⟩, h4⟩
    refine ⟨⟨h1, h2, fun n hn => ?_, fun hl => ?_, fun hl => ?_, fun hl => ?_⟩, fun hl => ?_⟩
    · simpa [hn] using h3
    · simpa [hl, and_assoc] using h4
    · simpa [hl] using h4
    · rw [hl] at h4
      exact (Bool.and_eq_true _ _ ▸ h4).2
    · obtain hl | hl := hl
      · rwa [hl] at h4
      · rw [hl] at h4
        exact (Bool.and_eq_true _ _ ▸ h4).1
  · rintro ⟨⟨h1, h2, h3, h4, h5, h6⟩, h7⟩
    refine ⟨⟨⟨h1, h2⟩, ?_⟩, ?_⟩
    · cases hcap : s.cap with
      | none => rfl
      | some n => simpa using h3 n hcap
    cases hl : s.life with
    | unbuilt => simpa [and_assoc] using h4 hl
    | building => exact h7 (.inl hl)
    | ready => simpa using h5 hl
    | tearing => simpa using ⟨h7 (.inr hl), h6 hl⟩

theorem LifeRegs.keepsRegs {s t : State PinId} (h : KeepsRegs s t) (hs : LifeRegs s) : LifeRegs t where
  cc := by rw [h.cc, h.life]; exact hs.cc
  pins := by rw [h.cap, h.pins]; exact hs.pins
  width := by rw [h.cap]; exact hs.width
  unbuilt := by
    intro hl
    have hl' : s.life = .unbuilt := h.life ▸ hl
    rw [h.claimed, h.cap, h.buf (by rw [hl']; decide)]
    exact hs.unbuilt hl'
  ready := by rw [h.life, h.claimed, h.cap]; exact hs.ready
  tearing := by rw [h.life, h.cap]; exact hs.tearing

theorem LifeRegs.cc_false {s : State PinId} (h : LifeRegs s) (hl : ¬ (s.life = .ready ∨ s.life = .tearing)) : s.cc = false := by
  rw [← h.cc] at hl
  simpa using hl

theorem Sound.regs {s : State PinId} (hs : Sound s) : LifeRegs s := (lifeInv_iff.mp hs.life).1

/-- A step of port `p` that keeps the view and the lifecycle's registers, and leaves its own context in order, keeps the
invariant. -/
theorem Sound.step {s t : State PinId} {p : Nat} {c : Ctx PinId} {f : Ctx PinId → Ctx PinId} (hs : Sound s)
    (hc : s.ctx p = some c) (hports : t.ports = s.ports.modify p f) (hregs : KeepsRegs s t)
    (hbusy : s.life = .building ∨ s.life = .tearing → (f c).busy = true → c.busy = true)
    (hlock : LockInv t) (hclaim : claimInv t = true) (hchain : chainInv t = true) (hown : ctxOk t (f c) = true) : Sound t where
  lock := hlock
  claim := hclaim
  chain := hchain
  life := by
    obtain ⟨-, hone⟩ := lifeInv_iff.mp hs.life
    refine lifeInv_iff.mpr ⟨hs.regs.keepsRegs hregs, fun hl => ?_⟩
    rw [hregs.life] at hl
    exact oneBusy_modify (hone hl) hc hports (hbusy hl)
  len := by rw [hports, List.length_modify, hs.len, hregs.cfg]
  ctx := by
    intro q d hd
    rw [State.ctx, hports] at hd
    by_cases hq : q = p
    · subst hq
      obtain ⟨e, he, rfl⟩ := getElem?_modify_self hd
      have hec : e = c := Option.some.inj (he.symm.trans hc)
      rw [hec]
      exact hown
    · rw [getElem?_modify_other hq] at hd
      exact ctxOk_keepsView hregs.toKeepsView (hs.ctx q d hd)

/-- A step of port `p` with every other port idle keeps the invariant when it leaves the registers and its own context in
order. -/
theorem Sound.step_alone {s t : State PinId} {p : Nat} {c : Ctx PinId} {f : Ctx PinId → Ctx PinId} (hs : Sound s)
    (ha : Alone s p) (hc : s.ctx p = some c) (hports : t.ports = s.ports.modify p f) (hcfg : t.cfg = s.cfg)
    (hlock : LockInv t) (hclaim : claimInv t = true) (hchain : chainInv t = true) (hlife : LifeRegs t)
    (hown : ctxOk t (f c) = true) : Sound t where
  lock := hlock
  claim := hclaim
  chain := hchain
  life := lifeInv_iff.mpr ⟨hlife, fun _ => (ha.modify hports).oneBusy⟩
  len := by rw [hports, List.length_modify, hs.len, hcfg]
  ctx := by
    intro q d hd
    rw [State.ctx, hports] at hd
    by_cases hq : q = p
    · subst hq
      obtain ⟨e, he, rfl⟩ := getElem?_modify_self hd
      have hec : e = c := Option.some.inj (he.symm.trans hc)
      rw [hec]
      exact hown
    · rw [getElem?_modify_other hq] at hd
      have hb := ha q d hq hd
      rw [ctxOk_of_idle hb, ← ctxOk_of_idle (s := s) hb]
      exact hs.ctx q d hd

/-- The port that runs INIT or FINI is alone (60_exceptions.md R300). -/
theorem Sound.alone {s : State PinId} {p : Nat} {c : Ctx PinId} (hs : Sound s) (hc : s.ctx p = some c) (hb : c.busy = true)
    (hl : s.life = .building ∨ s.life = .tearing) : Alone s p :=
  alone_of_oneBusy ((lifeInv_iff.mp hs.life).2 hl) hc hb

/-! Positions in states that differ only in what no position depends on. -/

/-- Two states in which the same positions are in order. -/
structure SameView (s t : State PinId) : Prop where
  cfg : t.cfg = s.cfg
  life : t.life = s.life
  cap : t.cap = s.cap
  claimed : t.claimed = s.claimed
  line : t.line = s.line
  buf : t.buf = s.buf

theorem Stays.of_keepsView {s t : State PinId} {i : Instr PinId} {c d : Ctx PinId} (h : KeepsView s t) (hd : Stays s i c d) :
    Stays t i c d := by
  obtain ⟨hsame, u, hu, hpos⟩ := hd
  exact ⟨hsame, u, hu, posOk_keepsView h hpos⟩

theorem Stays.of_sameView {s t : State PinId} {i : Instr PinId} {c d : Ctx PinId} (h : SameView s t) (hd : Stays s i c d) :
    Stays t i c d :=
  hd.of_keepsView (.of_line_eq h.cfg h.life h.cap h.claimed h.line fun _ => h.buf)

/-- A context with the backend's failure in `err` (40_sequencer.md R164). -/
def failedCtx (c : Ctx PinId) : Ctx PinId := { c with err := some .backendFailure }

/-- What stands at a position of `i`'s micro-program leads to a position of it again: one rule for each micro-step that changes no
register of the lifecycle. -/
inductive StepOk (i : Instr PinId) (s : State PinId) (c : Ctx PinId) : Fetched PinId → Prop
  | off : StepOk i s c .off
  | undef : StepOk i s c .undef
  | delay {next onFail} (h : Stays s i c (next c)) : StepOk i s c (.step { op := .delay, next := next, onFail := onFail })
  | drive {l v next onFail} (h : Stays { s with line := s.line.set l (Level.ofBit v) } i c (next c))
      (hf : ∀ ls, Stays { s with line := ls } i (failedCtx c) (onFail (failedCtx c))) :
      StepOk i s c (.step { op := .drive l v, next := next, onFail := onFail })
  | driveAll {v next onFail} (h : Stays { s with line := Quad.all (Level.ofBit v) } i c (next c))
      (hf : ∀ ls, Stays { s with line := ls } i (failedCtx c) (onFail (failedCtx c))) :
      StepOk i s c (.step { op := .driveAll v, next := next, onFail := onFail })
  | lockAcquire {next onFail} (h : Stays s i { c with holdsLock := true } (next { c with holdsLock := true })) :
      StepOk i s c (.step { op := .lockAcquire, next := next, onFail := onFail })
  | lockRelease {next onFail writes} {w : Ctx PinId → Ctx PinId} (hw : writes s = s.modCtx s.active w)
      (hc : SameCommand c (w c)) (h : Stays s i { w c with holdsLock := false } (next { w c with holdsLock := false })) :
      StepOk i s c (.step { op := .lockRelease, next := next, onFail := onFail, writes := writes })
  | bufReadSnap {next onFail} (h : ∀ v, Stays s i { c with snap := some v } (next { c with snap := some v })) :
      StepOk i s c (.step { op := .bufReadSnap, next := next, onFail := onFail })
  | bufReadTmp {next onFail} (h : ∀ v, Stays s i { c with tmp := some v } (next { c with tmp := some v })) :
      StepOk i s c (.step { op := .bufReadTmp, next := next, onFail := onFail })
  | bufWrite {v next onFail} (hl : s.life = .ready) (h : Stays s i c (next c)) :
      StepOk i s c (.step { op := .bufWrite v, next := next, onFail := onFail })
  | complete (st : Status) (r : Option Int) : StepOk i s c (completeStep st r)

theorem StepOk.orElse {i : Instr PinId} {s : State PinId} {c : Ctx PinId} {f g : Fetched PinId} (hf : StepOk i s c f)
    (hg : StepOk i s c g) : StepOk i s c (f.orElse g) := by
  cases f with
  | off => exact hg
  | step m => exact hf
  | undef => exact .undef

section
variable {i : Instr PinId} {s t : State PinId} {c : Ctx PinId} (hs : Sound s) (hc : s.ctx s.active = some c) (hr : Runs c i)
include hs hc hr

/-- A micro-step that touches neither lines nor lock nor `BUF` keeps the invariant. -/
theorem Sound.quiet_step {f : Ctx PinId → Ctx PinId} (hports : t.ports = s.ports.modify s.active f) (hview : SameView s t)
    (hcc : t.cc = s.cc) (hpins : t.pins = s.pins) (hlock : t.lock = s.lock) (hchain : t.chain = s.chain)
    (hheld : (f c).holdsLock = c.holdsLock) (hown : ctxOk t (f c) = true) : Sound t := by
  refine hs.step hc hports ⟨.of_line_eq hview.cfg hview.life hview.cap hview.claimed hview.line fun _ => hview.buf, hcc, hpins⟩
    (fun _ _ => hr.1) ?_ ?_ (chainInv_of_eq hs.chain (.inl hview.cap) hview.line hchain) hown
  · refine lockInv_of_same hs.lock hlock hports fun d hd => ?_
    rw [Option.some.inj (hd.symm.trans hc), hheld]
  · rw [claimInv_iff, hview.line, hview.claimed, ← claimInv_iff]
    exact hs.claim

/-- A drive of lines, successful or failing, keeps the invariant when the port goes on in its micro-program. -/
theorem Sound.driven_step {g next : Ctx PinId → Ctx PinId} {ls : Quad Level} {e : Event} {u : State PinId}
    (hu : u = s.drawn.setLines ls ∨ ls = s.line ∧ u = s.drawn)
    (hclaim : claimInv { s with line := ls } = true) (hdriven : ∀ l, (s.line.get l).driven = true → (ls.get l).driven = true)
    (hg : SameCommand c (g c)) (h : Stays { s with line := ls } i (g c) (next (g c)))
    (ht : t = ((u.log s.active e).modCtx s.active g).modCtx s.active next) : Sound t := by
  have hview : SameView { s with line := ls } t := by
    subst ht
    obtain rfl | ⟨rfl, rfl⟩ := hu <;> constructor <;> simp
  have hports : t.ports = s.ports.modify s.active fun d => next (g d) := by
    rw [ht, State.modCtx_modCtx]
    obtain rfl | ⟨rfl, rfl⟩ := hu <;> simp
  obtain ⟨hcc, hpins, hlock⟩ : t.cc = s.cc ∧ t.pins = s.pins ∧ t.lock = s.lock := by
    subst ht
    obtain rfl | ⟨rfl, rfl⟩ := hu <;> simp
  have hkeeps : KeepsView s t :=
    ⟨hview.cfg, hview.life, hview.cap, hview.claimed, by rw [hview.line]; exact hdriven, fun _ => hview.buf⟩
  refine hs.step hc hports ⟨hkeeps, hcc, hpins⟩ (fun _ _ => hr.1) ?_ ?_ ?_ ?_
  · refine lockInv_of_same hs.lock hlock hports fun d hd => ?_
    rw [Option.some.inj (hd.symm.trans hc), h.1.2.1, hg.2.1]
  · rw [claimInv_iff, hview.line, hview.claimed, ← claimInv_iff]
    exact hclaim
  · obtain rfl | ⟨rfl, rfl⟩ := hu
    · refine chainInv_react hs.chain hview.cap ?_
      rw [hview.line, ht]
      simp
    · refine chainInv_of_eq hs.chain (.inl hview.cap) hview.line ?_
      rw [ht]
      simp
  · exact ctxOk_of_stays (hr.of_command hg.1 hg.2.2) (h.of_sameView hview)

end

end Sys2Proof.Machine
end

section
/-! The rules of `StepOk` are sound: what they allow keeps `Inv`. -/

namespace Sys2Proof.Machine

variable {PinId : Type}

theorem inv_of_sound {s : State PinId} (h : Sound s) : Inv s := sound_iff.mp fun _ => h

@[simp] theorem State.modCtx_id (s : State PinId) (p : Nat) : s.modCtx p id = s := by
  simp [State.modCtx]

section
variable {i : Instr PinId} {s t : State PinId} {c : Ctx PinId} (hs : Sound s) (hc : s.ctx s.active = some c) (hr : Runs c i)
include hs hc hr

/-- The rule of the two drives: the lines become `ls`, or on a failure may stay as they are. -/
theorem inv_driven {op : Micro} {ls : Quad Level} {next onFail : Ctx PinId → Ctx PinId}
    (hrun : (∃ e, op.run s = .fault e) ∨ claimInv { s with line := ls } = true ∧
      ((∃ ev, op.run s = .ok ((s.drawn.setLines ls).log s.active ev)) ∨
        ∃ ev, op.run s = .failed
          (((if s.draw.took then s.drawn.setLines ls else s.drawn).log s.active ev).modCtx s.active failedCtx)))
    (hdriven : ∀ l, (s.line.get l).driven = true → (ls.get l).driven = true)
    (h : Stays { s with line := ls } i c (next c))
    (hf : ∀ ls, Stays { s with line := ls } i (failedCtx c) (onFail (failedCtx c)))
    (hp : perform (.step { op := op, next := next, onFail := onFail }) s = .next t) : Inv t := by
  simp only [perform, id_eq] at hp
  obtain ⟨_, e⟩ | ⟨hclaim, ⟨ev, e⟩ | ⟨ev, e⟩⟩ := hrun <;> rw [e] at hp <;> cases hp
  · exact inv_enterFault _ _
  · exact inv_of_sound (hs.driven_step hc hr (g := id) (e := ev) (.inl rfl) hclaim hdriven ⟨rfl, rfl, rfl⟩ h (by simp))
  · split
    · exact inv_of_sound (hs.driven_step hc hr (e := ev) (.inl rfl) hclaim hdriven ⟨rfl, rfl, rfl⟩ (hf _) (by simp))
    · exact inv_of_sound (hs.driven_step hc hr (e := ev) (.inr ⟨rfl, rfl⟩) hs.claim (fun _ hk => hk) ⟨rfl, rfl, rfl⟩ (hf _)
        (by simp))

theorem inv_drive {l : Line} {v : Bool} {next onFail : Ctx PinId → Ctx PinId}
    (h : Stays { s with line := s.line.set l (Level.ofBit v) } i c (next c))
    (hf : ∀ ls, Stays { s with line := ls } i (failedCtx c) (onFail (failedCtx c)))
    (hp : perform (.step { op := .drive l v, next := next, onFail := onFail }) s = .next t) : Inv t := by
  refine inv_driven hs hc hr ?_ (fun k hk => ?_) h hf hp
  · obtain ⟨-, e⟩ | ⟨hl, -, e⟩ | ⟨hl, -, e⟩ := runDrive_cases s l v
    · exact .inl ⟨_, e⟩
    · exact .inr ⟨claimInv_drive hs.claim hl rfl rfl, .inl ⟨_, e⟩⟩
    · exact .inr ⟨claimInv_drive hs.claim hl rfl rfl, .inr ⟨_, e⟩⟩
  · rw [quad_get_set]
    split
    · exact ofBit_driven v
    · exact hk

theorem inv_driveAll {v : Bool} {next onFail : Ctx PinId → Ctx PinId}
    (h : Stays { s with line := Quad.all (Level.ofBit v) } i c (next c))
    (hf : ∀ ls, Stays { s with line := ls } i (failedCtx c) (onFail (failedCtx c)))
    (hp : perform (.step { op := .driveAll v, next := next, onFail := onFail }) s = .next t) : Inv t := by
  refine inv_driven hs hc hr ?_ (fun k _ => ?_) h hf hp
  · obtain ⟨-, e⟩ | ⟨hl, -, e⟩ | ⟨hl, -, e⟩ := runDriveAll_cases s v
    · exact .inl ⟨_, e⟩
    · exact .inr ⟨claimInv_driveAll (s := s) hl rfl rfl, .inl ⟨_, e⟩⟩
    · exact .inr ⟨claimInv_driveAll (s := s) hl rfl rfl, .inr ⟨_, e⟩⟩
  · rw [quad_get_all]
    exact ofBit_driven v

theorem inv_lockAcquire {next onFail : Ctx PinId → Ctx PinId}
    (h : Stays s i { c with holdsLock := true } (next { c with holdsLock := true }))
    (hp : perform (.step { op := .lockAcquire, next := next, onFail := onFail }) s = .next t) : Inv t := by
  simp only [perform, Micro.run, id_eq] at hp
  obtain ⟨-, e⟩ | ⟨hfree, e⟩ := runLockAcquire_cases s <;> rw [e] at hp <;> cases hp
  · exact inv_of_sound hs
  · have hown := ctxOk_of_stays (c := { c with holdsLock := true }) (hr.of_command rfl rfl) h
    refine inv_of_sound (hs.step hc (f := fun d => next { d with holdsLock := true })
      ?_ ⟨.of_line_eq rfl rfl rfl rfl rfl fun _ => rfl, rfl, rfl⟩ (fun _ _ => hr.1) ?_ hs.claim hs.chain
      (ctxOk_keepsView (s := s) (.of_line_eq rfl rfl rfl rfl rfl fun _ => rfl) hown))
    · exact congrArg State.ports (State.modCtx_modCtx s _ _ _)
    · refine lockInv_acquire hs.lock hfree rfl (congrArg State.ports (State.modCtx_modCtx s _ _ _)) fun d hd => ?_
      rw [Option.some.inj (hd.symm.trans hc), h.1.2.1]

theorem inv_lockRelease {next onFail : Ctx PinId → Ctx PinId} {writes : State PinId → State PinId} {w : Ctx PinId → Ctx PinId}
    (hw : writes s = s.modCtx s.active w) (hwc : SameCommand c (w c))
    (h : Stays s i { w c with holdsLock := false } (next { w c with holdsLock := false }))
    (hp : perform (.step { op := .lockRelease, next := next, onFail := onFail, writes := writes }) s = .next t) : Inv t := by
  simp only [perform, Micro.run, hw] at hp
  obtain ⟨-, e⟩ | ⟨hheld, e⟩ := runLockRelease_cases (s.modCtx s.active w) <;> rw [e] at hp <;> cases hp
  · exact inv_enterFault _ _
  · have hown := ctxOk_of_stays (c := { w c with holdsLock := false }) (hr.of_command hwc.1 hwc.2.2) h
    have hports : ((s.modCtx s.active w).modCtx s.active fun d => next { d with holdsLock := false }).ports =
        s.ports.modify s.active fun d => next { w d with holdsLock := false } :=
      congrArg State.ports (State.modCtx_modCtx s _ _ _)
    have hports' := (congrArg State.ports (State.modCtx_modCtx (s.modCtx s.active w) s.active
      (fun d => { d with holdsLock := false }) next)).trans hports
    refine inv_of_sound (hs.step hc hports' ⟨.of_line_eq rfl rfl rfl rfl rfl fun _ => rfl, rfl, rfl⟩ (fun _ _ => hr.1) ?_
      hs.claim hs.chain (ctxOk_keepsView (s := s) (.of_line_eq rfl rfl rfl rfl rfl fun _ => rfl) hown))
    refine lockInv_release hs.lock hheld rfl hports' fun d hd => ?_
    rw [Option.some.inj (hd.symm.trans hc), h.1.2.1]

theorem inv_bufRead {op : Micro} {f : Int → Ctx PinId → Ctx PinId} {next onFail : Ctx PinId → Ctx PinId}
    (hop : op.run s = runBufRead s f) (hf : ∀ v, SameCommand c (f v c)) (h : ∀ v, Stays s i (f v c) (next (f v c)))
    (hp : perform (.step { op := op, next := next, onFail := onFail }) s = .next t) : Inv t := by
  simp only [perform, id_eq, hop] at hp
  obtain ⟨-, e⟩ | ⟨v, -, e⟩ := runBufRead_cases s f <;> rw [e] at hp <;> cases hp
  · exact inv_enterFault _ _
  · exact inv_of_sound (hs.quiet_step hc hr (f := fun d => next (f v d)) (congrArg State.ports (State.modCtx_modCtx s _ _ _))
      ⟨rfl, rfl, rfl, rfl, rfl, rfl⟩ rfl rfl rfl rfl ((h v).1.2.1.trans (hf v).2.1)
      (ctxOk_of_stays (hr.of_command (hf v).1 (hf v).2.2) ((h v).of_sameView ⟨rfl, rfl, rfl, rfl, rfl, rfl⟩)))

theorem inv_bufWrite {v : Option Int} {next onFail : Ctx PinId → Ctx PinId} (hl : s.life = .ready) (h : Stays s i c (next c))
    (hp : perform (.step { op := .bufWrite v, next := next, onFail := onFail }) s = .next t) : Inv t := by
  simp only [perform, Micro.run, runBufWrite, id_eq] at hp
  cases hp
  refine inv_of_sound (hs.step hc rfl ⟨.of_line_eq rfl rfl rfl rfl rfl fun hn => absurd hl hn, rfl, rfl⟩ (fun _ _ => hr.1)
    ?_ hs.claim hs.chain
    (ctxOk_of_stays hr (h.of_keepsView (.of_line_eq (s := s) rfl rfl rfl rfl rfl fun hn => absurd hl hn))))
  refine lockInv_of_same hs.lock rfl rfl fun d hd => ?_
  rw [Option.some.inj (hd.symm.trans hc), h.1.2.1]

theorem inv_complete {st : Status} {r : Option Int} (hp : perform (completeStep st r) s = .next t) : Inv t := by
  simp only [perform, completeStep, Micro.run, id_eq] at hp
  obtain ⟨-, e⟩ | ⟨hl, e⟩ := runComplete_cases hc st r <;> rw [e] at hp <;> cases hp
  · exact inv_enterFault _ _
  · refine inv_of_sound (hs.quiet_step hc hr (f := fun d => { d with sts := some st, res := some r, busy := false })
      ?_ ⟨rfl, rfl, rfl, rfl, rfl, rfl⟩ rfl rfl rfl rfl rfl ?_)
    · exact congrArg State.ports (State.modCtx_id (s.modCtx s.active _) s.active)
    · rw [ctxOk_of_idle rfl, hl]
      rfl

/-- What the rules allow keeps the invariant. -/
theorem StepOk.keeps_inv {f : Fetched PinId} (h : StepOk i s c f) (hp : perform f s = .next t) : Inv t := by
  cases h with
  | off => cases hp
  | undef =>
    cases hp
    exact inv_enterFault _ _
  | delay h =>
    simp only [perform, Micro.run, runDelay, id_eq] at hp
    cases hp
    exact inv_of_sound (hs.quiet_step hc hr rfl ⟨rfl, rfl, rfl, rfl, rfl, rfl⟩ rfl rfl rfl rfl h.1.2.1
      (ctxOk_of_stays hr (h.of_sameView ⟨rfl, rfl, rfl, rfl, rfl, rfl⟩)))
  | drive h hf => exact inv_drive hs hc hr h hf hp
  | driveAll h hf => exact inv_driveAll hs hc hr h hf hp
  | lockAcquire h => exact inv_lockAcquire hs hc hr h hp
  | lockRelease hw hwc h => exact inv_lockRelease hs hc hr hw hwc h hp
  | bufReadSnap h => exact inv_bufRead hs hc hr rfl (fun _ => ⟨rfl, rfl, rfl⟩) h hp
  | bufReadTmp h => exact inv_bufRead hs hc hr rfl (fun _ => ⟨rfl, rfl, rfl⟩) h hp
  | bufWrite hl h => exact inv_bufWrite hs hc hr hl h hp
  | complete st r => exact inv_complete hs hc hr hp

end

end Sys2Proof.Machine
end

section
/-! The shared parts of the micro-programs (40_sequencer.md R174 to R179, 42_wrapper.md R249) follow the rules of `StepOk`. -/

namespace Sys2Proof.Machine

variable {PinId : Type}

section
variable {i : Instr PinId} {s : State PinId} {c : Ctx PinId} {u : UPos} {after onFail : Ctx PinId → Ctx PinId}

/-- `ClearPulse`, when all its positions are positions of `i`. -/
theorem clearPulse_stepOk
    (hstay : ∀ ls u, isClear u = true → pulseOk { s with line := ls } u = true → posOk { s with line := ls } c i u = true)
    (hafter : ∀ ls, Stays { s with line := ls } i c (after c))
    (hfail : ∀ ls, Stays { s with line := ls } i (failedCtx c) (onFail (failedCtx c)))
    (hu : pulseOk s u = true) : StepOk i s c (clearPulse after onFail u) := by
  cases u with
  | clearLow => exact .drive (stays_goto (hstay _ .clearWait rfl rfl)) hfail
  | clearWait => exact .delay (stays_goto (hstay s.line .clearHigh rfl hu))
  | clearHigh => exact .drive (hafter _) hfail
  | _ => exact .off

/-- `LatchPulse`, when all its positions are positions of `i`. -/
theorem latchPulse_stepOk
    (hstay : ∀ ls u, isLatch u = true → pulseOk { s with line := ls } u = true → posOk { s with line := ls } c i u = true)
    (hafter : ∀ ls, Stays { s with line := ls } i c (after c))
    (hfail : ∀ ls, Stays { s with line := ls } i (failedCtx c) (onFail (failedCtx c)))
    (hu : pulseOk s u = true) : StepOk i s c (latchPulse after onFail u) := by
  cases u with
  | latchLow => exact .drive (stays_goto (hstay _ .latchWait rfl rfl)) hfail
  | latchWait => exact .delay (stays_goto (hstay s.line .latchHigh rfl hu))
  | latchHigh => exact .drive (stays_goto (hstay _ .latchHold rfl rfl)) hfail
  | latchHold => exact .delay (stays_goto (hstay s.line .latchFall rfl rfl))
  | latchFall => exact .drive (hafter _) hfail
  | _ => exact .off

/-- `ShiftBit`, when all its positions are positions of `i` and its loop control leads to one. -/
theorem shiftBit_stepOk {w : Int} {k : Nat}
    (hstay : ∀ ls u, isShift u = true → pulseOk { s with line := ls } u = true → posOk { s with line := ls } c i u = true)
    (hafter : ∀ ls, Stays { s with line := ls } i c (nextBit k c))
    (hfail : ∀ ls, Stays { s with line := ls } i (failedCtx c) (epilogue (failedCtx c)))
    (hu : pulseOk s u = true) : StepOk i s c (shiftBit w k u) := by
  cases u with
  | shiftData => exact .drive (stays_goto (hstay _ .shiftLow rfl rfl)) hfail
  | shiftLow => exact .drive (stays_goto (hstay _ .shiftWait rfl rfl)) hfail
  | shiftWait => exact .delay (stays_goto (hstay s.line .shiftHigh rfl hu))
  | shiftHigh => exact .drive (stays_goto (hstay _ .shiftHold rfl rfl)) hfail
  | shiftHold => exact .delay (stays_goto (hstay s.line .shiftFall rfl rfl))
  | shiftFall => exact .drive (hafter _) hfail
  | _ => exact .off

theorem isShift_of_isClear (hu : isClear u = true) : isShift u = false := by
  cases u with
  | clearLow | clearWait | clearHigh => rfl
  | _ => cases hu

theorem isShift_of_isLatch (hu : isLatch u = true) : isShift u = false := by
  cases u with
  | latchLow | latchWait | latchHigh | latchHold | latchFall => rfl
  | _ => cases hu

/-- A position of `Transmit` (40_sequencer.md R177). -/
def isTransmit (u : UPos) : Bool := isClear u || isShift u || isLatch u

theorem transmitOk_iff {n : Nat} : transmitOk n c u = true ↔
    isTransmit u = true ∧ (∃ w, c.snap = some w ∧ inRange n w = true) ∧
      (isShift u = true → ∃ k, c.i = some k ∧ k < n) := by
  cases hw : c.snap <;> cases hk : c.i <;> cases hu : isShift u <;> simp [transmitOk, isTransmit, hw, hk, hu]

theorem transmit_of_clear {n : Nat} (hu : isClear u = true) :
    transmit (some n) c after u = clearPulse (startShift n) epilogue u := by
  cases u with
  | clearLow | clearWait | clearHigh => rfl
  | _ => cases hu

theorem transmit_of_shift {cap : Option Nat} {w : Int} {k : Nat} (hw : c.snap = some w) (hk : c.i = some k)
    (hu : isShift u = true) : transmit cap c after u = shiftBit w k u := by
  have hloop : shiftLoop c u = shiftBit w k u := by simp [shiftLoop, hu, hw, hk]
  cases u with
  | shiftData | shiftLow | shiftWait | shiftHigh | shiftHold | shiftFall => simp only [transmit, hloop]; rfl
  | _ => cases hu

theorem transmit_of_latch {cap : Option Nat} (hu : isLatch u = true) :
    transmit cap c after u = latchPulse after epilogue u := by
  cases u with
  | latchLow | latchWait | latchHigh | latchHold | latchFall => rfl
  | _ => cases hu

theorem transmit_off {cap : Option Nat} (hu : isTransmit u = false) : transmit cap c after u = .off := by
  cases u with
  | clearLow | clearWait | clearHigh => cases hu
  | shiftData | shiftLow | shiftWait | shiftHigh | shiftHold | shiftFall => cases hu
  | latchLow | latchWait | latchHigh | latchHold | latchFall => cases hu
  | _ => rfl

/-- `Transmit`, when all its positions with a word in range are positions of `i`. -/
theorem transmit_stepOk {n : Nat} (hcap : s.cap = some n)
    (hstay : ∀ ls (d : Ctx PinId) u, d.holdsLock = c.holdsLock → transmitOk n d u = true →
      pulseOk { s with line := ls } u = true → posOk { s with line := ls } d i u = true)
    (hafter : ∀ ls, Stays { s with line := ls } i c (after c))
    (hfail : ∀ ls, Stays { s with line := ls } i (failedCtx c) (epilogue (failedCtx c)))
    (ht : isTransmit u = true → transmitOk n c u = true) (hu : pulseOk s u = true) :
    StepOk i s c (transmit s.cap c after u) := by
  by_cases htu : isTransmit u = true
  swap
  · rw [transmit_off (by simpa using htu)]
    exact .off
  obtain ⟨-, ⟨w, hw, hrange⟩, hi⟩ := transmitOk_iff.mp (ht htu)
  have hclear (ls : Quad Level) (v : UPos) (hv : isClear v = true) (hp : pulseOk { s with line := ls } v = true) :
      posOk { s with line := ls } c i v = true :=
    hstay ls c v rfl (transmitOk_iff.mpr ⟨by simp [isTransmit, hv], ⟨w, hw, hrange⟩, by simp [isShift_of_isClear hv]⟩) hp
  have hlatch (ls : Quad Level) (v : UPos) (hv : isLatch v = true) (hp : pulseOk { s with line := ls } v = true) :
      posOk { s with line := ls } c i v = true :=
    hstay ls c v rfl (transmitOk_iff.mpr ⟨by simp [isTransmit, hv], ⟨w, hw, hrange⟩, by simp [isShift_of_isLatch hv]⟩) hp
  have hshift (ls : Quad Level) (d : Ctx PinId) (k : Nat) (hd : d.holdsLock = c.holdsLock) (hdw : d.snap = some w)
      (hdk : d.i = some k) (hk : k < n) (v : UPos) (hv : isShift v = true) (hp : pulseOk { s with line := ls } v = true) :
      posOk { s with line := ls } d i v = true :=
    hstay ls d v hd (transmitOk_iff.mpr ⟨by simp [isTransmit, hv], ⟨w, hdw, hrange⟩, fun _ => ⟨k, hdk, hk⟩⟩) hp
  have hloop (ls : Quad Level) (m : Nat) (hm : m < n) :
      Stays { s with line := ls } i c (goto .shiftData { c with i := some m }) := by
    obtain ⟨-, hpos⟩ := stays_goto (hshift ls { c with i := some m } m rfl hw rfl hm .shiftData rfl rfl)
    exact ⟨⟨rfl, rfl, rfl⟩, hpos⟩
  simp only [isTransmit, Bool.or_eq_true] at htu
  obtain (hv | hv) | hv := htu
  · rw [hcap, transmit_of_clear hv]
    refine clearPulse_stepOk hclear (fun ls => ?_) hfail hu
    cases n with
    | zero => exact stays_goto (hlatch ls _ rfl rfl)
    | succ m => exact hloop ls m (by omega)
  · obtain ⟨k, hk, hkn⟩ := hi hv
    rw [transmit_of_shift hw hk hv]
    refine shiftBit_stepOk (fun ls => hshift ls c k rfl hw hk hkn) (fun ls => ?_) hfail hu
    cases k with
    | zero => exact stays_goto (hlatch ls _ rfl rfl)
    | succ m => exact hloop ls m (by omega)
  · rw [transmit_of_latch hv]
    exact latchPulse_stepOk hlatch hafter hfail hu

/-- The error epilogue (40_sequencer.md R179), when its last position is one of `i` once the lock is released. -/
theorem errorEpilogue_stepOk (h : u = .errUnlock → posOk s { c with holdsLock := false } i .errComplete = true) :
    StepOk i s c (errorEpilogue c u) := by
  cases u with
  | errUnlock => exact .lockRelease (w := id) (by simp) ⟨rfl, rfl, rfl⟩ (stays_goto (h rfl))
  | errComplete =>
    show StepOk i s c (match c.err with | some e => completeStep e none | none => .undef)
    cases c.err with
    | some e => exact .complete _ _
    | none => exact .undef
  | _ => exact .off

end

end Sys2Proof.Machine
end

section
/-! The micro-programs of DRV.* and BUF.* (41_driver.md, 42_wrapper.md) follow the rules of `StepOk`. -/

namespace Sys2Proof.Machine

variable {PinId : Type}

/-- INIT and FINI. -/
def isLifecycle (i : Instr PinId) : Bool :=
  match i with
  | .init _ _ | .fini => true
  | _ => false

section
variable {i : Instr PinId} {s : State PinId} {c : Ctx PinId} {u : UPos}

/-- A port inside a DRV.* or BUF.* command finds `LIFE` READY and `CAP` defined (60_exceptions.md R300). -/
theorem ready_of_posOk (hi : isLifecycle i = false) (h : posOk s c i u = true) :
    s.life = .ready ∧ ∃ n, s.cap = some n := by
  cases i with
  | init | fini => cases hi
  | _ =>
    simp only [posOk, Bool.and_eq_true, decide_eq_true_eq] at h
    obtain ⟨-, hl, hbody⟩ := h
    cases hcap : s.cap with
    | none => simp [hcap] at hbody
    | some n => exact ⟨hl, n, rfl⟩

/-- The error epilogue starts where the port's lock says (40_sequencer.md R179). -/
theorem epilogue_stays (hheld : c.holdsLock = true → posOk s (failedCtx c) i .errUnlock = true)
    (hfree : c.holdsLock = false → posOk s (failedCtx c) i .errComplete = true) :
    Stays s i (failedCtx c) (epilogue (failedCtx c)) := by
  unfold epilogue
  split
  · next h => exact stays_goto (hheld h)
  · next h => exact stays_goto (hfree (Bool.not_eq_true _ ▸ h))

theorem progCap_stepOk : StepOk i s c (progCap s c u) := by
  cases u with
  | done =>
    show StepOk i s c (match s.cap with | some n => completeStep .ok (some (n : Int)) | none => .undef)
    cases s.cap with
    | some n => exact .complete _ _
    | none => exact .undef
  | _ => exact .off

/-- DRV.*, which never take the lock (D27). -/
def isDriver (i : Instr PinId) : Bool :=
  match i with
  | .drvCap | .drvClr | .drvWr _ | .drvZero => true
  | _ => false

theorem not_lifecycle_of_drivesLines (hi : drivesLines i = true) : isLifecycle i = false := by
  cases i with
  | init | fini => cases hi
  | _ => rfl

/-! Where each command may stand while `LIFE` is READY and `CAP` is `n`. -/

section
variable {n : Nat} (hl : s.life = .ready) (hcap : s.cap = some n)
include hl hcap

theorem posOk_drvClr : posOk s c .drvClr u = true ↔ pulseOk s u = true ∧
    ((isClear u = true ∨ u = .done) ∧ c.holdsLock = false ∨ epilogueOk c u = true ∧ u ≠ .errUnlock) := by
  simp [posOk, hl, hcap]

theorem posOk_drvWr {word : Arg} : posOk s c (.drvWr word) u = true ↔ pulseOk s u = true ∧
    ((u = .reject ∨ u = .done ∨ transmitOk n c u = true) ∧ c.holdsLock = false ∨ epilogueOk c u = true ∧ u ≠ .errUnlock) := by
  simp [posOk, hl, hcap, or_assoc]

theorem posOk_drvZero : posOk s c .drvZero u = true ↔ pulseOk s u = true ∧
    ((u = .driveAll ∨ u = .done) ∧ c.holdsLock = false ∨ epilogueOk c u = true ∧ u ≠ .errUnlock) := by
  simp [posOk, hl, hcap]

theorem posOk_bufClr : posOk s c .bufClr u = true ↔ pulseOk s u = true ∧
    (u = .acquire ∧ s.cfg.arbScope = .wide ∧ c.holdsLock = false ∨
      (u = .bufWrite ∨ isClear u = true) ∧ c.holdsLock = (s.cfg.arbScope == .wide) ∨
      u = .unlock ∧ c.holdsLock = true ∧ s.cfg.arbScope = .wide ∨ u = .done ∧ c.holdsLock = false ∨ epilogueOk c u = true) := by
  simp [posOk, hl, hcap, or_assoc, and_assoc]

theorem posOk_bufWr {word : Arg} : posOk s c (.bufWr word) u = true ↔ pulseOk s u = true ∧
    (u = .bufWrite ∧ c.holdsLock = (s.cfg.arbScope == .wide) ∨ u = .acquire ∧ c.holdsLock = false ∨ commitOk n c u = true) := by
  simp [posOk, hl, hcap, or_assoc]

theorem posOk_bufGet {pos : Arg} : posOk s c (.bufGet pos) u = true ↔ pulseOk s u = true ∧
    ((u = .reject ∨ u = .bufRead ∧ (validPos n pos).isSome = true ∨
      u = .done ∧ (validPos n pos).isSome = true ∧ c.tmp.isSome = true) ∧ c.holdsLock = false) := by
  simp [posOk, hl, hcap, or_assoc, and_assoc]

theorem posOk_bufSet {pos value : Arg} : posOk s c (.bufSet pos value) u = true ↔ pulseOk s u = true ∧
    ((u = .reject ∨ u = .done) ∧ c.holdsLock = false ∨
      ((validPos n pos).isSome = true ∧ (validVal value).isSome = true) ∧
        (u = .acquire ∧ s.cfg.arbScope = .wide ∧ c.holdsLock = false ∨
          (u = .bufRead ∨ u = .bufWrite ∧ c.tmp.isSome = true) ∧ c.holdsLock = (s.cfg.arbScope == .wide)) ∨
      u = .unlock ∧ s.cfg.arbScope = .wide ∧ c.holdsLock = true) := by
  simp only [posOk, hl, hcap]
  simp
  tauto

theorem posOk_bufCommit : posOk s c .bufCommit u = true ↔ pulseOk s u = true ∧
    (u = .acquire ∧ c.holdsLock = false ∨ commitOk n c u = true) := by
  simp [posOk, hl, hcap]

theorem posOk_bufGetbuf : posOk s c .bufGetbuf u = true ↔ pulseOk s u = true ∧
    ((u = .bufRead ∨ u = .done ∧ c.tmp.isSome = true) ∧ c.holdsLock = false) := by
  simp [posOk, hl, hcap]

end

theorem epilogueOk_iff : epilogueOk c u = true ↔
    c.err.isSome = true ∧ (u = .errUnlock ∧ c.holdsLock = true ∨ u = .errComplete ∧ c.holdsLock = false) := by
  simp [epilogueOk]
  tauto

theorem commitOk_iff {n : Nat} : commitOk n c u = true ↔
    (u = .bufRead ∨ u = .unlock ∧ c.snap.isSome = true ∨ transmitOk n c u = true) ∧ c.holdsLock = true ∨
      u = .done ∧ c.holdsLock = false ∨ epilogueOk c u = true := by
  simp [commitOk, or_assoc]

theorem free_of_driver (hi : isDriver i = true) (hd : drivesLines i = true) (h : posOk s c i u = true) :
    c.holdsLock = false := by
  obtain ⟨hl, n, hcap⟩ := ready_of_posOk (not_lifecycle_of_drivesLines hd) h
  have hepi (he : epilogueOk c u = true ∧ u ≠ .errUnlock) : c.holdsLock = false := by
    obtain ⟨he, hu⟩ := he
    obtain ⟨-, ⟨hu', -⟩ | ⟨-, hf⟩⟩ := epilogueOk_iff.mp he
    · exact absurd hu' hu
    · exact hf
  cases i with
  | drvClr =>
    obtain ⟨-, ⟨-, hf⟩ | he⟩ := (posOk_drvClr hl hcap).mp h
    · exact hf
    · exact hepi he
  | drvWr word =>
    obtain ⟨-, ⟨-, hf⟩ | he⟩ := (posOk_drvWr hl hcap).mp h
    · exact hf
    · exact hepi he
  | drvZero =>
    obtain ⟨-, ⟨-, hf⟩ | he⟩ := (posOk_drvZero hl hcap).mp h
    · exact hf
    · exact hepi he
  | bufClr | bufWr | bufCommit => cases hi
  | _ => cases hd

/-- The error epilogue belongs to every command that drives lines; DRV.* have no lock to release in it. -/
theorem posOk_of_epilogueOk {n : Nat} (hl : s.life = .ready) (hcap : s.cap = some n) (hi : drivesLines i = true)
    (hu : isDriver i = true → u ≠ .errUnlock) (he : epilogueOk c u = true) : posOk s c i u = true := by
  have hp : pulseOk s u = true := by
    obtain ⟨-, ⟨rfl, -⟩ | ⟨rfl, -⟩⟩ := epilogueOk_iff.mp he <;> rfl
  cases i with
  | drvClr => exact (posOk_drvClr hl hcap).mpr ⟨hp, .inr ⟨he, hu rfl⟩⟩
  | drvWr word => exact (posOk_drvWr hl hcap).mpr ⟨hp, .inr ⟨he, hu rfl⟩⟩
  | drvZero => exact (posOk_drvZero hl hcap).mpr ⟨hp, .inr ⟨he, hu rfl⟩⟩
  | bufClr => exact (posOk_bufClr hl hcap).mpr ⟨hp, .inr (.inr (.inr (.inr he)))⟩
  | bufWr word => exact (posOk_bufWr hl hcap).mpr ⟨hp, .inr (.inr (commitOk_iff.mpr (.inr (.inr he))))⟩
  | bufCommit => exact (posOk_bufCommit hl hcap).mpr ⟨hp, .inr (commitOk_iff.mpr (.inr (.inr he)))⟩
  | _ => cases hi

/-- A failing drive of a command that drives lines, INIT and FINI apart, leads to its error epilogue. -/
theorem failed_stays (hi : drivesLines i = true) (h : posOk s c i u = true) (ls : Quad Level) :
    Stays { s with line := ls } i (failedCtx c) (epilogue (failedCtx c)) := by
  obtain ⟨hl, n, hcap⟩ := ready_of_posOk (not_lifecycle_of_drivesLines hi) h
  refine epilogue_stays (fun hh => ?_) (fun hh => ?_)
  · refine posOk_of_epilogueOk (n := n) hl hcap hi (fun hd => ?_) (epilogueOk_iff.mpr ⟨rfl, .inl ⟨rfl, hh⟩⟩)
    rw [free_of_driver hd hi h] at hh
    cases hh
  · exact posOk_of_epilogueOk (n := n) hl hcap hi (fun _ => by decide) (epilogueOk_iff.mpr ⟨rfl, .inr ⟨rfl, hh⟩⟩)

theorem epilogueOk_of_errUnlock (hi : drivesLines i = true) (h : posOk s c i .errUnlock = true) :
    epilogueOk c .errUnlock = true := by
  obtain ⟨hl, n, hcap⟩ := ready_of_posOk (not_lifecycle_of_drivesLines hi) h
  have hc (h : commitOk n c .errUnlock = true) : epilogueOk c .errUnlock = true := by
    simpa [commitOk_iff, transmitOk_iff, isTransmit, isClear, isShift, isLatch] using h
  cases i with
  | drvClr => simp [posOk_drvClr hl hcap, isClear] at h
  | drvWr word => simp [posOk_drvWr hl hcap, transmitOk_iff, isTransmit, isClear, isShift, isLatch] at h
  | drvZero => simp [posOk_drvZero hl hcap] at h
  | bufClr => simpa [posOk_bufClr hl hcap, isClear, pulseOk] using h
  | bufWr word => exact hc (by simpa [posOk_bufWr hl hcap, pulseOk] using h)
  | bufCommit => exact hc (by simpa [posOk_bufCommit hl hcap, pulseOk] using h)
  | _ => cases hi

/-- The error epilogue in its place in a command that drives lines. -/
theorem errorEpilogue_stepOk_of_posOk (hi : drivesLines i = true) (h : posOk s c i u = true) :
    StepOk i s c (errorEpilogue c u) := by
  obtain ⟨hl, n, hcap⟩ := ready_of_posOk (not_lifecycle_of_drivesLines hi) h
  refine errorEpilogue_stepOk fun hu => ?_
  subst hu
  obtain ⟨herr, -⟩ := epilogueOk_iff.mp (epilogueOk_of_errUnlock hi h)
  exact posOk_of_epilogueOk hl hcap hi (fun _ => by decide) (epilogueOk_iff.mpr ⟨herr, .inr ⟨rfl, rfl⟩⟩)

theorem progDrvClr_stepOk (h : posOk s c .drvClr u = true) : StepOk .drvClr s c (progDrvClr s c u) := by
  obtain ⟨hl, n, hcap⟩ := ready_of_posOk rfl h
  have hfree := free_of_driver rfl rfl h
  have hrest : StepOk .drvClr s c ((clearPulse (goto .done) epilogue u).orElse (errorEpilogue c u)) :=
    .orElse
      (clearPulse_stepOk (fun ls _ hv hp => (posOk_drvClr (s := { s with line := ls }) hl hcap).mpr ⟨hp, .inl ⟨.inl hv, hfree⟩⟩)
        (fun ls => stays_goto ((posOk_drvClr (s := { s with line := ls }) hl hcap).mpr ⟨rfl, .inl ⟨.inr rfl, hfree⟩⟩))
        (failed_stays rfl h) (posOk_pulse h))
      (errorEpilogue_stepOk_of_posOk rfl h)
  cases u with
  | done => exact .complete _ _
  | _ => exact hrest

theorem not_epilogueOk_of_transmit (hu : isTransmit u = true) : ¬ epilogueOk c u = true := by
  rw [epilogueOk_iff]
  rintro ⟨-, ⟨rfl, -⟩ | ⟨rfl, -⟩⟩ <;> cases hu

theorem progDrvWr_stepOk {word : Arg} (h : posOk s c (.drvWr word) u = true) :
    StepOk (.drvWr word) s c (progDrvWr s c u) := by
  obtain ⟨hl, n, hcap⟩ := ready_of_posOk rfl h
  have hfree := free_of_driver rfl rfl h
  have htransmit (hu : isTransmit u = true) : transmitOk n c u = true := by
    obtain ⟨-, ⟨rfl | rfl | ht, -⟩ | ⟨he, -⟩⟩ := (posOk_drvWr hl hcap).mp h
    · cases hu
    · cases hu
    · exact ht
    · exact absurd he (not_epilogueOk_of_transmit hu)
  have hrest : StepOk (.drvWr word) s c ((transmit s.cap c (goto .done) u).orElse (errorEpilogue c u)) :=
    .orElse
      (transmit_stepOk hcap
        (fun ls _ _ hd hv hp => (posOk_drvWr (s := { s with line := ls }) hl hcap).mpr ⟨hp, .inl ⟨.inr (.inr hv), hd.trans hfree⟩⟩)
        (fun ls => stays_goto ((posOk_drvWr (s := { s with line := ls }) hl hcap).mpr ⟨rfl, .inl ⟨.inr (.inl rfl), hfree⟩⟩))
        (failed_stays rfl h) htransmit (posOk_pulse h))
      (errorEpilogue_stepOk_of_posOk rfl h)
  cases u with
  | reject => exact .complete _ _
  | done => exact .complete _ _
  | _ => exact hrest

theorem progDrvZero_stepOk (h : posOk s c .drvZero u = true) : StepOk .drvZero s c (progDrvZero s c u) := by
  obtain ⟨hl, n, hcap⟩ := ready_of_posOk rfl h
  have hfree := free_of_driver rfl rfl h
  cases u with
  | driveAll =>
    refine .driveAll (stays_goto ?_) (failed_stays rfl h)
    exact (posOk_drvZero (n := n) hl hcap).mpr ⟨rfl, .inl ⟨.inr rfl, hfree⟩⟩
  | done => exact .complete _ _
  | _ => exact errorEpilogue_stepOk_of_posOk rfl h

theorem progBufClr_stepOk (h : posOk s c .bufClr u = true) : StepOk .bufClr s c (progBufClr s c u) := by
  obtain ⟨hl, n, hcap⟩ := ready_of_posOk rfl h
  have hpos := (posOk_bufClr hl hcap).mp h
  have hclear (hu : isClear u = true) : StepOk .bufClr s c (clearPulse (goto (byScope s .done .unlock)) epilogue u) := by
    have hscope : c.holdsLock = (s.cfg.arbScope == .wide) := by
      obtain ⟨-, ⟨rfl, -⟩ | ⟨-, hs⟩ | ⟨rfl, -⟩ | ⟨rfl, -⟩ | he⟩ := hpos
      · cases hu
      · exact hs
      · cases hu
      · cases hu
      · exact absurd he (not_epilogueOk_of_transmit (by simp [isTransmit, hu]))
    refine clearPulse_stepOk (fun ls _ hv hp => ?_) (fun ls => stays_goto ?_) (failed_stays rfl h) (posOk_pulse h)
    · exact (posOk_bufClr (s := { s with line := ls }) hl hcap).mpr ⟨hp, .inr (.inl ⟨.inr hv, hscope⟩)⟩
    cases hs : s.cfg.arbScope with
    | commitOnly => simp [posOk_bufClr (n := n), hl, hcap, byScope, hs, hscope, pulseOk]
    | wide => simp [posOk_bufClr (n := n), hl, hcap, byScope, hs, hscope, pulseOk]
  cases u with
  | acquire =>
    obtain ⟨hwide, -⟩ : s.cfg.arbScope = .wide ∧ c.holdsLock = false := by
      simpa [isClear, epilogueOk_iff, pulseOk] using hpos
    exact .lockAcquire (stays_goto ((posOk_bufClr hl hcap).mpr ⟨rfl, .inr (.inl ⟨.inl rfl, by simp [hwide]⟩)⟩))
  | bufWrite =>
    have hscope : c.holdsLock = (s.cfg.arbScope == .wide) := by simpa [isClear, epilogueOk_iff, pulseOk] using hpos
    exact .bufWrite hl (stays_goto ((posOk_bufClr hl hcap).mpr ⟨rfl, .inr (.inl ⟨.inr rfl, hscope⟩)⟩))
  | unlock =>
    exact .lockRelease (w := id) (by simp) ⟨rfl, rfl, rfl⟩
      (stays_goto ((posOk_bufClr hl hcap).mpr ⟨rfl, .inr (.inr (.inr (.inl ⟨rfl, rfl⟩)))⟩))
  | done => exact .complete _ _
  | clearLow | clearWait | clearHigh => exact hclear rfl
  | _ => exact errorEpilogue_stepOk_of_posOk rfl h

/-! The commit body. -/

theorem commitOk_transmit {n : Nat} (h : commitOk n c u = true) (hu : isTransmit u = true) :
    transmitOk n c u = true ∧ c.holdsLock = true := by
  obtain ⟨rfl | ⟨rfl, -⟩ | ht, hheld⟩ | ⟨rfl, -⟩ | he := commitOk_iff.mp h
  · cases hu
  · cases hu
  · exact ⟨ht, hheld⟩
  · cases hu
  · exact absurd he (not_epilogueOk_of_transmit hu)

/-- `CommitBody()` (42_wrapper.md R249) in a command that has all its positions. -/
theorem commitBody_stepOk {n : Nat} (hi : drivesLines i = true) (h : posOk s c i u = true) (hcap : s.cap = some n)
    (hcommit : commitOk n c u = true)
    (hpos : ∀ ls d v, commitOk n d v = true → pulseOk { s with line := ls } v = true → posOk { s with line := ls } d i v = true) :
    StepOk i s c (commitBody s.cap c u) := by
  have hrest : StepOk i s c ((transmit s.cap c (goto .unlock) u).orElse (errorEpilogue c u)) := by
    refine .orElse ?_ (errorEpilogue_stepOk_of_posOk hi h)
    by_cases hu : isTransmit u = true
    · obtain ⟨ht, hheld⟩ := commitOk_transmit hcommit hu
      obtain ⟨-, ⟨w, hw, -⟩, -⟩ := transmitOk_iff.mp ht
      exact transmit_stepOk hcap
        (fun ls d v hd hv hp => hpos ls d v (commitOk_iff.mpr (.inl ⟨.inr (.inr hv), hd.trans hheld⟩)) hp)
        (fun ls => stays_goto (hpos ls c _ (commitOk_iff.mpr (.inl ⟨.inr (.inl ⟨rfl, by simp [hw]⟩), hheld⟩)) rfl))
        (failed_stays hi h) (fun _ => ht) (posOk_pulse h)
    · rw [transmit_off (by simpa using hu)]
      exact .off
  cases u with
  | bufRead =>
    have hheld : c.holdsLock = true := by simpa [commitOk_iff, epilogueOk_iff] using hcommit
    rw [hcap]
    refine .bufReadSnap fun v => ?_
    unfold checkSnap
    split
    · next hv =>
      refine stays_goto (hpos s.line _ _ (commitOk_iff.mpr (.inl ⟨.inr (.inr (transmitOk_iff.mpr ?_)), hheld⟩)) rfl)
      exact ⟨rfl, ⟨v, rfl, hv⟩, fun hs => by cases hs⟩
    · exact stays_goto (hpos s.line _ _ (commitOk_iff.mpr (.inl ⟨.inr (.inl ⟨rfl, rfl⟩), hheld⟩)) rfl)
  | unlock =>
    show StepOk i s c (match s.cap, c.snap with
      | some n, some _ => .step { op := .lockRelease, next := goto .done, writes := rejectSnap n }
      | _, _ => .undef)
    rw [hcap]
    cases c.snap with
    | none => exact .undef
    | some w =>
      refine .lockRelease (w := fun c => if snapOk n c then c else { c with err := some .invalidArgument }) rfl ?_
        (stays_goto (hpos s.line _ _ (commitOk_iff.mpr (.inr (.inl ⟨rfl, rfl⟩))) rfl))
      split <;> exact ⟨rfl, rfl, rfl⟩
  | done => exact .complete _ _
  | _ => exact hrest

theorem progBufWr_stepOk {word : Arg} (h : posOk s c (.bufWr word) u = true) :
    StepOk (.bufWr word) s c (progBufWr word s c u) := by
  obtain ⟨hl, n, hcap⟩ := ready_of_posOk rfl h
  have hpos := (posOk_bufWr hl hcap).mp h
  have hbody (hu : u ≠ .bufWrite) (hu' : u ≠ .acquire) : StepOk (.bufWr word) s c (commitBody s.cap c u) := by
    obtain ⟨-, ⟨e, -⟩ | ⟨e, -⟩ | hc⟩ := hpos
    · exact absurd e hu
    · exact absurd e hu'
    · exact commitBody_stepOk rfl h hcap hc fun ls _ _ hv hp =>
        (posOk_bufWr (s := { s with line := ls }) hl hcap).mpr ⟨hp, .inr (.inr hv)⟩
  cases u with
  | bufWrite =>
    have hscope : c.holdsLock = (s.cfg.arbScope == .wide) := by
      simpa [commitOk_iff, transmitOk_iff, isTransmit, isClear, isShift, isLatch, epilogueOk_iff, pulseOk] using hpos
    refine .bufWrite hl (stays_goto ((posOk_bufWr hl hcap).mpr ?_))
    cases hs : s.cfg.arbScope <;> simp [byScope, hs, hscope, pulseOk, commitOk_iff]
  | acquire =>
    refine .lockAcquire (stays_goto ((posOk_bufWr hl hcap).mpr ?_))
    cases hs : s.cfg.arbScope <;> simp [byScope, hs, pulseOk, commitOk_iff]
  | _ => exact hbody (by decide) (by decide)

theorem progBufCommit_stepOk (h : posOk s c .bufCommit u = true) : StepOk .bufCommit s c (progBufCommit s c u) := by
  obtain ⟨hl, n, hcap⟩ := ready_of_posOk rfl h
  have hbody (hu : u ≠ .acquire) : StepOk .bufCommit s c (commitBody s.cap c u) := by
    obtain ⟨-, ⟨e, -⟩ | hc⟩ := (posOk_bufCommit hl hcap).mp h
    · exact absurd e hu
    · exact commitBody_stepOk rfl h hcap hc fun ls _ _ hv hp =>
        (posOk_bufCommit (s := { s with line := ls }) hl hcap).mpr ⟨hp, .inr hv⟩
  cases u with
  | acquire =>
    exact .lockAcquire (stays_goto ((posOk_bufCommit hl hcap).mpr ⟨rfl, .inr (commitOk_iff.mpr (.inl ⟨.inl rfl, rfl⟩))⟩))
  | _ => exact hbody (by decide)

/-! The commands that drive no line. -/

theorem progBufChk_stepOk : StepOk i s c (progBufChk s c u) := by
  cases u with
  | done | reject => exact .complete _ _
  | _ => exact .off

theorem getBitStep_stepOk {pos : Arg} : StepOk i s c (getBitStep pos s c) := by
  unfold getBitStep
  split
  · split
    · exact .complete _ _
    · exact .off
  · exact .undef

theorem progBufGet_stepOk {pos : Arg} (h : posOk s c (.bufGet pos) u = true) :
    StepOk (.bufGet pos) s c (progBufGet pos s c u) := by
  obtain ⟨hl, n, hcap⟩ := ready_of_posOk rfl h
  cases u with
  | reject => exact .complete _ _
  | bufRead =>
    obtain ⟨hvalid, hfree⟩ : (validPos n pos).isSome = true ∧ c.holdsLock = false := by
      simpa [posOk_bufGet hl hcap, pulseOk] using h
    exact .bufReadTmp fun v => stays_goto ((posOk_bufGet hl hcap).mpr ⟨rfl, .inr (.inr ⟨rfl, hvalid, rfl⟩), hfree⟩)
  | done => exact getBitStep_stepOk
  | _ => exact .off

theorem progBufGetbuf_stepOk (h : posOk s c .bufGetbuf u = true) : StepOk .bufGetbuf s c (progBufGetbuf s c u) := by
  obtain ⟨hl, n, hcap⟩ := ready_of_posOk rfl h
  obtain ⟨-, -, hfree⟩ := (posOk_bufGetbuf hl hcap).mp h
  cases u with
  | bufRead => exact .bufReadTmp fun v => stays_goto ((posOk_bufGetbuf hl hcap).mpr ⟨rfl, .inr ⟨rfl, rfl⟩, hfree⟩)
  | done =>
    show StepOk .bufGetbuf s c (match c.tmp with | some t => completeStep .ok (some t) | none => .undef)
    cases c.tmp with
    | some t => exact .complete _ _
    | none => exact .undef
  | _ => exact .off

theorem progBufSet_stepOk {pos value : Arg} (h : posOk s c (.bufSet pos value) u = true) :
    StepOk (.bufSet pos value) s c (progBufSet pos value s c u) := by
  obtain ⟨hl, n, hcap⟩ := ready_of_posOk rfl h
  have hpos := (posOk_bufSet hl hcap).mp h
  cases u with
  | reject => exact .complete _ _
  | acquire =>
    obtain ⟨hvalid, hwide, -⟩ : ((validPos n pos).isSome = true ∧ (validVal value).isSome = true) ∧
        s.cfg.arbScope = .wide ∧ c.holdsLock = false := by simpa [pulseOk] using hpos
    exact .lockAcquire (stays_goto ((posOk_bufSet hl hcap).mpr ⟨rfl, .inr (.inl ⟨hvalid, .inr ⟨.inl rfl, by simp [hwide]⟩⟩)⟩))
  | bufRead =>
    obtain ⟨hvalid, hscope⟩ : ((validPos n pos).isSome = true ∧ (validVal value).isSome = true) ∧
        c.holdsLock = (s.cfg.arbScope == .wide) := by simpa [pulseOk] using hpos
    exact .bufReadTmp fun v => stays_goto ((posOk_bufSet hl hcap).mpr ⟨rfl, .inr (.inl ⟨hvalid, .inr ⟨.inr ⟨rfl, rfl⟩, hscope⟩⟩)⟩)
  | bufWrite =>
    obtain ⟨-, -, hscope⟩ : ((validPos n pos).isSome = true ∧ (validVal value).isSome = true) ∧ c.tmp.isSome = true ∧
        c.holdsLock = (s.cfg.arbScope == .wide) := by simpa [pulseOk] using hpos
    show StepOk _ s c (setBitStep pos value s c)
    unfold setBitStep
    split
    · split
      · refine .bufWrite hl (stays_goto ((posOk_bufSet hl hcap).mpr ?_))
        cases hs : s.cfg.arbScope <;> simp [byScope, hs, hscope, pulseOk]
      · exact .off
    · exact .undef
  | unlock =>
    exact .lockRelease (w := id) (by simp) ⟨rfl, rfl, rfl⟩
      (stays_goto ((posOk_bufSet hl hcap).mpr ⟨rfl, .inl ⟨.inr rfl, rfl⟩⟩))
  | done => exact .complete _ _
  | _ => exact .off

/-- Every command but INIT and FINI follows the rules of `StepOk`. -/
theorem prog_stepOk [DecidableEq PinId] (hi : isLifecycle i = false) (h : posOk s c i u = true) :
    StepOk i s c ((ruleOf i).prog s c u) := by
  cases i with
  | drvCap | bufCap => exact progCap_stepOk
  | drvClr => exact progDrvClr_stepOk h
  | drvWr word => exact progDrvWr_stepOk h
  | drvZero => exact progDrvZero_stepOk h
  | bufClr => exact progBufClr_stepOk h
  | bufWr word => exact progBufWr_stepOk h
  | bufChk pos => exact progBufChk_stepOk
  | bufGet pos => exact progBufGet_stepOk h
  | bufSet pos value => exact progBufSet_stepOk h
  | bufCommit => exact progBufCommit_stepOk h
  | bufGetbuf => exact progBufGetbuf_stepOk h
  | init | fini => cases hi

end

end Sys2Proof.Machine
end

section
/-! INIT and FINI keep the invariant (41_driver.md R191, R208): every other port is idle while one of them runs. -/

namespace Sys2Proof.Machine

variable {PinId : Type}

section
variable {i : Instr PinId} {s : State PinId} {c : Ctx PinId} {u : UPos} {pins : Quad PinId} {count : Arg}

/-! Where INIT and FINI may stand. -/

theorem posOk_init : posOk s c (.init pins count) u = true ↔ pulseOk s u = true ∧ initOk s c count u = true := by
  simp [posOk]

theorem posOk_fini : posOk s c .fini u = true ↔ pulseOk s u = true ∧ finiOk s c u = true := by
  simp [posOk]

theorem building_of_posOk (h : posOk s c (.init pins count) u = true) : s.life = .building ∧ c.holdsLock = false := by
  obtain ⟨-, h⟩ := posOk_init.mp h
  simp only [initOk, Bool.and_eq_true, decide_eq_true_eq, Bool.not_eq_true'] at h
  exact h.1

theorem initOk_claim (hl : s.life = .building) (hf : c.holdsLock = false) : initOk s c count .claim = true ↔
    ∃ k, c.k = some k ∧ k ≤ 3 ∧ claimedRange s.claimed 0 k = true ∧ s.buf = none ∧
      ∃ n, validCount s.cfg.capMax count = some n ∧
        if k = 0 then s.cap = none else c.n = some n ∧ s.cap = some (capacity n) := by
  cases hk : c.k with
  | none => simp [initOk, hk]
  | some k =>
    cases hn : validCount s.cfg.capMax count with
    | none => simp [initOk, hk, hn]
    | some n => by_cases h0 : k = 0 <;> simp [initOk, hl, hf, hk, hn, h0, and_assoc]

theorem initOk_rollback (hl : s.life = .building) (hf : c.holdsLock = false) : initOk s c count .rollback = true ↔
    ∃ k j, c.k = some k ∧ c.j = some j ∧ k ≤ 3 ∧ j < k ∧ claimedRange s.claimed j k = true ∧ s.cap.isSome = true ∧
      s.buf = none := by
  cases hk : c.k with
  | none => simp [initOk, hk]
  | some k =>
    cases hj : c.j with
    | none => simp [initOk, hk, hj]
    | some j => simp [initOk, hl, hf, hk, hj, and_assoc]

theorem finiOk_release : finiOk s c .release = true ↔ s.life = .tearing ∧ c.holdsLock = false ∧ s.cap.isSome = true ∧
    ∃ k, c.k = some k ∧ k ≤ 3 ∧ claimedRange s.claimed k 4 = true := by
  cases hk : c.k with
  | none => simp [finiOk, hk]
  | some k =>
    simp [finiOk, hk]
    tauto

theorem finiOk_drive (hu : isClear u = true ∨ isLatch u = true ∨ u = .driveAll) : finiOk s c u = true ↔
    s.life = .tearing ∧ c.holdsLock = false ∧ s.cap.isSome = true ∧ claimedRange s.claimed 0 4 = true := by
  have hdrive : (isClear u || isLatch u || decide (u = .driveAll)) = true := by simpa [or_assoc] using hu
  have heq : finiOk s c u = (!c.holdsLock && ((isClear u || isLatch u || decide (u = .driveAll)) && decide (s.life = .tearing) &&
      s.cap.isSome && claimedRange s.claimed 0 4)) := by
    cases u with
    | guard | release | done => simp [isClear, isLatch] at hu
    | _ => rfl
  rw [heq, hdrive]
  simp
  tauto

/-- While INIT or FINI runs `lifeInv` leaves the registers `CLAIMED` and `BUF` free. -/
theorem LifeRegs.of_running {s t : State PinId} (h : LifeRegs s) (hl : s.life = .building ∨ s.life = .tearing)
    (life : t.life = s.life) (cc : t.cc = s.cc) (cap : t.cap = s.cap) (pins : t.pins = s.pins) : LifeRegs t where
  cc := by rw [cc, life]; exact h.cc
  pins := by rw [cap, pins]; exact h.pins
  width := by rw [cap]; exact h.width
  unbuilt := by
    rw [life]
    rintro e
    rw [e] at hl
    simp at hl
  ready := by
    rw [life]
    rintro e
    rw [e] at hl
    simp at hl
  tearing := by rw [life, cap]; exact h.tearing

/-! The rules of the micro-steps that change a register of the lifecycle. -/

/-- The registers that are written with a micro-step (00_scope.md R15): lines, claims and lock are not among them, and of the
contexts only the active port's changes. -/
structure WritesRegs (s s' : State PinId) (g : Ctx PinId → Ctx PinId) : Prop where
  ports : s'.ports = s.ports.modify s.active g
  active : s'.active = s.active
  cfg : s'.cfg = s.cfg
  lock : s'.lock = s.lock
  line : s'.line = s.line
  claimed : s'.claimed = s.claimed

theorem WritesRegs.claimInv {s s' : State PinId} {g : Ctx PinId → Ctx PinId} (h : WritesRegs s s' g)
    (hs : claimInv s = true) : claimInv s' = true := by
  rw [claimInv_iff, h.line, h.claimed, ← claimInv_iff]
  exact hs

section
variable {t : State PinId} (hs : Sound s) (hc : s.ctx s.active = some c) (ha : Alone s s.active)
include hs hc ha

theorem Sound.lifecycle_step {f : Ctx PinId → Ctx PinId} (hports : t.ports = s.ports.modify s.active f) (hcfg : t.cfg = s.cfg)
    (hlock : t.lock = s.lock) (hheld : (f c).holdsLock = c.holdsLock) (hclaim : claimInv t = true) (hchain : chainInv t = true)
    (hregs : LifeRegs t) (hown : ctxOk t (f c) = true) : Sound t := by
  refine hs.step_alone ha hc hports hcfg (lockInv_of_same hs.lock hlock hports fun d hd => ?_) hclaim hchain hregs hown
  rw [Option.some.inj (hd.symm.trans hc), hheld]

/-- A last Complete that ends INIT or FINI writes the lifecycle's registers with it. -/
theorem inv_finish {st : Status} {r : Option Int} {s' : State PinId} {writes : State PinId → State PinId} (hw : writes s = s')
    (hwr : WritesRegs s s' id) (hchain : chainInv s' = true) (hregs : LifeRegs s')
    (hp : perform (completeStep st r writes) s = .next t) : Inv t := by
  have hports : s'.ports = s.ports := hwr.ports.trans (List.modify_id _ _)
  have hc' : s'.ctx s'.active = some c := by rw [State.ctx, hports, hwr.active]; exact hc
  simp only [perform, completeStep, Micro.run, hw] at hp
  obtain ⟨-, e⟩ | ⟨hl, e⟩ := runComplete_cases hc' st r <;> rw [e] at hp <;> cases hp
  · exact inv_enterFault _ _
  · refine inv_of_sound (hs.lifecycle_step hc ha (f := fun d => { d with sts := some st, res := some r, busy := false })
      ?_ hwr.cfg hwr.lock rfl (hwr.claimInv hs.claim) hchain
      (hregs.keepsRegs ⟨.of_line_eq (s := s') rfl rfl rfl rfl rfl fun _ => rfl, rfl, rfl⟩) ?_)
    · refine (congrArg State.ports (State.modCtx_id (s'.modCtx s'.active _) s'.active)).trans ?_
      rw [State.modCtx_ports, hports, hwr.active]
    · rw [ctxOk_of_idle rfl, hl]
      rfl

/-- `Claim` in INIT (40_sequencer.md R170): `s'` is the state with the registers that are written with it. -/
theorem inv_claim {l : Line} {next onFail g : Ctx PinId → Ctx PinId} {writes : State PinId → State PinId} {s' : State PinId}
    (hr : Runs c i) (hw : writes s = s') (hwr : WritesRegs s s' g) (hl : s'.life = .building)
    (hchain : chainInv s' = true) (hregs : LifeRegs s') (hg : SameCommand c (g c))
    (hok : Stays { s' with claimed := s'.claimed.set l true, line := s'.line.set l .x } i (g c) (next (g c)))
    (hfail : Stays s' i (g c) (onFail (g c)))
    (hp : perform (.step { op := .claim l, next := next, onFail := onFail, writes := writes }) s = .next t) : Inv t := by
  have hr' : Runs (g c) i := hr.of_command hg.1 hg.2.2
  have hclaim := hwr.claimInv hs.claim
  simp only [perform, Micro.run, hw] at hp
  obtain ⟨-, e⟩ | ⟨-, -, e⟩ | ⟨-, -, e⟩ := runClaim_cases s' l <;> rw [e] at hp <;> cases hp
  · exact inv_enterFault _ _
  · refine inv_of_sound (hs.lifecycle_step hc ha (f := next ∘ g) ?_ ?_ ?_ (hok.1.2.1.trans hg.2.1) ?_ ?_ ?_ ?_)
    · simp [hwr.ports, hwr.active, List.modify_modify_eq]
    · simpa using hwr.cfg
    · simpa using hwr.lock
    · exact claimInv_set (v := .x) (b := true) (l := l) hclaim (by simp) (by simp) (by simp)
    · exact chainInv_react hchain (by simp) (by simp)
    · exact hregs.of_running (.inl hl) (by simp) (by simp) (by simp) (by simp)
    · exact ctxOk_of_stays hr' (hok.of_sameView (by constructor <;> simp))
  · refine inv_of_sound (hs.lifecycle_step hc ha (f := onFail ∘ g) ?_ ?_ ?_ (hfail.1.2.1.trans hg.2.1) ?_ ?_ ?_ ?_)
    · simp [hwr.ports, hwr.active, List.modify_modify_eq]
    · simpa using hwr.cfg
    · simpa using hwr.lock
    · rw [claimInv_iff] at hclaim ⊢
      simpa using hclaim
    · exact chainInv_of_eq hchain (.inl (by simp)) (by simp) (by simp)
    · exact hregs.of_running (.inl hl) (by simp) (by simp) (by simp) (by simp)
    · exact ctxOk_of_stays hr' (hfail.of_sameView (by constructor <;> simp))

/-- `Release` in INIT's rollback and in FINI (40_sequencer.md R171). -/
theorem inv_release {l : Line} {next onFail : Ctx PinId → Ctx PinId} (hr : Runs c i)
    (hl : s.life = .building ∨ s.life = .tearing)
    (hok : Stays { s with claimed := s.claimed.set l false, line := s.line.set l .z } i c (next c))
    (hp : perform (.step { op := .release l, next := next, onFail := onFail }) s = .next t) : Inv t := by
  simp only [perform, Micro.run, id_eq] at hp
  obtain ⟨-, e⟩ | ⟨-, -, e⟩ | ⟨-, -, -, e⟩ | ⟨-, -, -, e⟩ := runRelease_cases s l <;> rw [e] at hp <;> cases hp
  · exact inv_enterFault _ _
  · exact inv_enterFault _ _
  · refine inv_of_sound (hs.lifecycle_step hc ha (f := next) ?_ ?_ ?_ hok.1.2.1 ?_ ?_ ?_ ?_)
    · simp
    · simp
    · simp
    · exact claimInv_set (v := .z) (b := false) (l := l) hs.claim (by simp) (by simp) (by simp)
    · exact chainInv_react hs.chain (by simp) (by simp)
    · exact hs.regs.of_running hl (by simp) (by simp) (by simp) (by simp)
    · exact ctxOk_of_stays hr (hok.of_sameView (by constructor <;> simp))
  · exact inv_enterFault _ _

/-- The creation of the buffer in INIT (41_driver.md R191). -/
theorem inv_createBuf {v : Option Int} {next onFail : Ctx PinId → Ctx PinId} (hr : Runs c i) (hl : s.life = .building)
    (hok : Stays { s with buf := v } i c (next c))
    (hp : perform (.step { op := .bufWrite v, next := next, onFail := onFail }) s = .next t) : Inv t := by
  simp only [perform, Micro.run, runBufWrite, id_eq] at hp
  cases hp
  exact inv_of_sound (hs.lifecycle_step hc ha (f := next) rfl rfl rfl hok.1.2.1 hs.claim hs.chain
    (hs.regs.of_running (.inl hl) rfl rfl rfl rfl) (ctxOk_of_stays hr (hok.of_sameView ⟨rfl, rfl, rfl, rfl, rfl, rfl⟩)))

end

/-! The micro-programs. -/

theorem stays_of_goto {v : UPos} {d : Ctx PinId} (hd : SameCommand c d) (h : posOk s d i v = true) : Stays s i c (goto v d) := by
  obtain ⟨hsame, hpos⟩ := stays_goto h
  exact ⟨⟨hsame.1.trans hd.1, hsame.2.1.trans hd.2.1, hsame.2.2.trans hd.2.2⟩, hpos⟩

theorem afterClaim_stays {k n : Nat} (hl : s.life = .building) (hf : c.holdsLock = false) (hk : k ≤ 3)
    (hclaimed : claimedRange s.claimed 0 (k + 1) = true) (hbuf : s.buf = none)
    (hn : validCount s.cfg.capMax count = some n) (hcn : c.n = some n) (hcap : s.cap = some (capacity n)) :
    Stays s (.init pins count) c (afterClaim k c) := by
  unfold afterClaim
  split
  · refine stays_of_goto ⟨rfl, rfl, rfl⟩ (posOk_init.mpr ⟨rfl, (initOk_claim (c := { c with k := some (k + 1) }) hl hf).mpr ?_⟩)
    exact ⟨k + 1, rfl, by omega, hclaimed, hbuf, n, hn, by simp [hcn, hcap]⟩
  · have hk3 : k = 3 := by omega
    subst hk3
    refine stays_goto (posOk_init.mpr ⟨rfl, ?_⟩)
    simp [initOk, hl, hf, hclaimed, hcap]

theorem afterFailedClaim_stays {k : Nat} (hl : s.life = .building) (hf : c.holdsLock = false) (hk : k ≤ 3) (hck : c.k = some k)
    (hclaimed : claimedRange s.claimed 0 k = true) (hbuf : s.buf = none) (hcap : s.cap.isSome = true) :
    Stays s (.init pins count) c (afterFailedClaim k c) := by
  unfold afterFailedClaim
  split
  · next h0 =>
    subst h0
    refine stays_goto (posOk_init.mpr ⟨rfl, ?_⟩)
    simp [initOk, hl, hf, hclaimed, hbuf]
  · refine stays_of_goto ⟨rfl, rfl, rfl⟩ (posOk_init.mpr ⟨rfl, (initOk_rollback (c := { c with j := some 0 }) hl hf).mpr ?_⟩)
    exact ⟨k, 0, hck, rfl, hk, by omega, hclaimed, hcap, hbuf⟩

theorem afterRollback_stays {k j : Nat} (hl : s.life = .building) (hf : c.holdsLock = false) (hk : k ≤ 3) (hck : c.k = some k)
    (hclaimed : claimedRange s.claimed (j + 1) k = true) (hbuf : s.buf = none) (hcap : s.cap.isSome = true) :
    Stays s (.init pins count) c (afterRollback k j c) := by
  unfold afterRollback
  split
  · next hj =>
    refine stays_of_goto ⟨rfl, rfl, rfl⟩ (posOk_init.mpr ⟨rfl, (initOk_rollback (c := { c with j := some (j + 1) }) hl hf).mpr ?_⟩)
    exact ⟨k, j + 1, hck, rfl, hk, hj, hclaimed, hcap, hbuf⟩
  · next hj =>
    refine stays_goto (posOk_init.mpr ⟨rfl, ?_⟩)
    simp [initOk, hl, hf, claimedRange_empty (by omega) (Nat.le_refl 0) hclaimed, hbuf]

theorem afterRelease_stays {k : Nat} (hl : s.life = .tearing) (hf : c.holdsLock = false) (hk : k ≤ 3)
    (hclaimed : claimedRange s.claimed (k + 1) 4 = true) (hcap : s.cap.isSome = true) :
    Stays s .fini c (afterRelease k c) := by
  unfold afterRelease
  split
  · refine stays_of_goto ⟨rfl, rfl, rfl⟩ (posOk_fini.mpr ⟨rfl, finiOk_release.mpr ?_⟩)
    exact ⟨hl, hf, hcap, k + 1, rfl, by omega, hclaimed⟩
  · refine stays_goto (posOk_fini.mpr ⟨rfl, ?_⟩)
    simp [finiOk, hl, hf, claimedRange_empty (by omega) (Nat.le_refl 0) hclaimed]

/-- FINI's drives lead to one another and then to its releases; so do its failing drives. -/
theorem progFini_drive_stepOk (hpos : posOk s c .fini u = true) (hu : isClear u = true ∨ isLatch u = true ∨ u = .driveAll) :
    StepOk .fini s c (progFini s c u) := by
  obtain ⟨hpulse, hok⟩ := posOk_fini.mp hpos
  obtain ⟨hl, hf, hcap, hclaimed⟩ := (finiOk_drive hu).mp hok
  have hstay (ls : Quad Level) (v : UPos) (hv : isClear v = true ∨ isLatch v = true ∨ v = .driveAll)
      (hp : pulseOk { s with line := ls } v = true) : posOk { s with line := ls } c .fini v = true :=
    posOk_fini.mpr ⟨hp, (finiOk_drive hv).mpr ⟨hl, hf, hcap, hclaimed⟩⟩
  have hrelease (ls : Quad Level) (d : Ctx PinId) (hd : d.holdsLock = false) : Stays { s with line := ls } .fini d (startRelease d) :=
    stays_of_goto ⟨rfl, rfl, rfl⟩ (posOk_fini.mpr ⟨rfl, finiOk_release.mpr ⟨hl, hd, hcap, 0, rfl, by omega, hclaimed⟩⟩)
  have hpulses : StepOk .fini s c ((clearPulse (goto .latchLow) startRelease u).orElse
      (latchPulse (goto .driveAll) startRelease u)) :=
    .orElse
      (clearPulse_stepOk (fun ls v hv hp => hstay ls v (.inl hv) hp)
        (fun ls => stays_goto (hstay ls _ (.inr (.inl rfl)) rfl)) (fun ls => hrelease ls _ hf) hpulse)
      (latchPulse_stepOk (fun ls v hv hp => hstay ls v (.inr (.inl hv)) hp)
        (fun ls => stays_goto (hstay ls _ (.inr (.inr rfl)) rfl)) (fun ls => hrelease ls _ hf) hpulse)
  cases u with
  | clearLow | clearWait | clearHigh => exact hpulses
  | latchLow | latchWait | latchHigh | latchHold | latchFall => exact hpulses
  | driveAll => exact .driveAll (hrelease _ c hf) (fun ls => hrelease ls _ hf)
  | _ => simp [isClear, isLatch] at hu

section
variable {t : State PinId} (hs : Sound s)
include hs

theorem floating_of_unclaimed (h : claimedRange s.claimed 0 0 = true) : floating s.line = true := by
  rw [claimedRange_iff] at h
  exact floating_iff.mpr ⟨.sdata, (claimInv_iff.mp hs.claim .sdata).mpr (by simpa using h .sdata)⟩

/-- The registers after INIT's first claim has written `CAP` and `PINS` (41_driver.md R191). -/
theorem lifeRegs_firstClaimWrites (hl : s.life = .building) (n : Nat) : LifeRegs (firstClaimWrites n pins s) where
  cc := hs.regs.cc
  pins := rfl
  width := by
    rintro m ⟨⟩
    simp only [capacity]
    omega
  unbuilt := by
    intro h
    cases hl.symm.trans h
  ready := by
    intro h
    cases hl.symm.trans h
  tearing := fun _ => rfl

variable (hc : s.ctx s.active = some c)
include hc

/-- INIT's claims: the first writes `CAP` and `PINS`; each leads to the next, to the rollback, or to the buffer. -/
theorem inv_claimStep (hr : Runs c (.init pins count)) (hpos : posOk s c (.init pins count) .claim = true)
    (hp : perform (claimStep pins count s c) s = .next t) : Inv t := by
  obtain ⟨hl, hf⟩ := building_of_posOk hpos
  obtain ⟨k, hk, hk3, hclaimed, hbuf, n, hn, hcap⟩ := (initOk_claim hl hf).mp (posOk_init.mp hpos).2
  have ha : Alone s s.active := hs.alone hc hr.1 (.inl hl)
  cases k with
  | zero =>
    simp only [claimStep, hk, hn] at hp
    have hchain : chainInv (firstClaimWrites n pins s) = true :=
      chainInv_writeInstance n pins hs.chain (floating_of_unclaimed hs hclaimed)
    refine inv_claim hs hc ha hr (s' := firstClaimWrites n pins s) (g := fun c => { c with n := some n }) rfl
      ⟨rfl, rfl, rfl, rfl, rfl, rfl⟩ hl hchain (lifeRegs_firstClaimWrites hs hl n) ⟨rfl, rfl, rfl⟩ ?_ ?_ hp
    · exact afterClaim_stays hl hf hk3 (claimedRange_claim rfl hclaimed) hbuf hn rfl rfl
    · exact afterFailedClaim_stays hl hf hk3 hk hclaimed hbuf rfl
  | succ j =>
    simp only [claimStep, hk] at hp
    obtain ⟨hcn, hcap⟩ : c.n = some n ∧ s.cap = some (capacity n) := by simpa using hcap
    cases hline : Line.ofIndex (j + 1) with
    | none => rw [hline] at hp; cases hp
    | some l =>
      rw [hline] at hp
      refine inv_claim hs hc ha hr (s' := s) (g := id) rfl ⟨?_, rfl, rfl, rfl, rfl, rfl⟩ hl hs.chain hs.regs ⟨rfl, rfl, rfl⟩ ?_ ?_ hp
      · exact (List.modify_id _ _).symm
      · exact afterClaim_stays hl hf hk3 (claimedRange_claim hline hclaimed) hbuf hn hcn hcap
      · exact afterFailedClaim_stays hl hf hk3 hk hclaimed hbuf (by simp [hcap])

/-- INIT's rollback releases one pin after the other. -/
theorem inv_rollbackStep (hr : Runs c (.init pins count)) (hpos : posOk s c (.init pins count) .rollback = true)
    (hp : perform (rollbackStep c) s = .next t) : Inv t := by
  obtain ⟨hl, hf⟩ := building_of_posOk hpos
  obtain ⟨k, j, hk, hj, hk3, hjk, hclaimed, hcap, hbuf⟩ := (initOk_rollback hl hf).mp (posOk_init.mp hpos).2
  simp only [rollbackStep, hk, hj] at hp
  cases hline : Line.ofIndex j with
  | none => rw [hline] at hp; cases hp
  | some l =>
    rw [hline] at hp
    refine inv_release hs hc (hs.alone hc hr.1 (.inl hl)) hr (.inl hl) ?_ hp
    exact afterRollback_stays hl hf hk3 hk (claimedRange_release hline hclaimed) hbuf hcap

/-- INIT keeps the invariant. -/
theorem inv_progInit (hr : Runs c (.init pins count)) (hpos : posOk s c (.init pins count) u = true)
    (hp : perform (progInit pins count s c u) s = .next t) : Inv t := by
  obtain ⟨hl, hf⟩ := building_of_posOk hpos
  have ha : Alone s s.active := hs.alone hc hr.1 (.inl hl)
  have hok := (posOk_init.mp hpos).2
  have hcc : s.cc = false := hs.regs.cc_false (by simp [hl])
  have hports : s.ports = s.ports.modify s.active id := (List.modify_id _ _).symm
  cases u with
  | reject =>
    obtain ⟨hclaimed, hcap, hbuf⟩ : claimedRange s.claimed 0 0 = true ∧ s.cap = none ∧ s.buf = none := by
      simpa [initOk, hl, hf, and_assoc] using hok
    refine inv_finish hs hc ha rfl ⟨hports, rfl, rfl, rfl, rfl, rfl⟩ hs.chain ?_ hp
    exact ⟨by simp [hcc], hs.regs.pins, hs.regs.width, fun _ => ⟨hclaimed, hcap, hbuf⟩, fun h => (by cases h), fun h => (by cases h)⟩
  | claim => exact inv_claimStep hs hc hr hpos hp
  | rollback => exact inv_rollbackStep hs hc hr hpos hp
  | claimFailed =>
    obtain ⟨hclaimed, hbuf⟩ : claimedRange s.claimed 0 0 = true ∧ s.buf = none := by simpa [initOk, hl, hf] using hok
    refine inv_finish hs hc ha rfl ⟨hports, rfl, rfl, rfl, rfl, rfl⟩ (chainInv_of_eq hs.chain (.inr rfl) rfl rfl) ?_ hp
    exact ⟨by simp [dropInstance, hcc], rfl, fun _ h => (by cases h), fun _ => ⟨hclaimed, rfl, hbuf⟩, fun h => (by cases h),
      fun h => (by cases h)⟩
  | bufWrite =>
    obtain ⟨hclaimed, hcap⟩ : claimedRange s.claimed 0 4 = true ∧ s.cap.isSome = true := by simpa [initOk, hl, hf] using hok
    refine inv_createBuf hs hc ha hr hl (stays_goto (posOk_init.mpr ⟨rfl, ?_⟩)) hp
    simp [initOk, hl, hf, hclaimed, hcap]
  | done =>
    obtain ⟨hclaimed, hcap⟩ : claimedRange s.claimed 0 4 = true ∧ s.cap.isSome = true := by simpa [initOk, hl, hf] using hok
    refine inv_finish hs hc ha rfl ⟨hports, rfl, rfl, rfl, rfl, rfl⟩ hs.chain ?_ hp
    exact ⟨by simp, hs.regs.pins, hs.regs.width, fun h => (by cases h), fun _ => ⟨hclaimed, hcap⟩, fun h => (by cases h)⟩
  | _ => cases hp

/-- FINI keeps the invariant. -/
theorem inv_progFini (hr : Runs c .fini) (hpos : posOk s c .fini u = true)
    (hp : perform (progFini s c u) s = .next t) : Inv t := by
  have hok := (posOk_fini.mp hpos).2
  have hports : s.ports = s.ports.modify s.active id := (List.modify_id _ _).symm
  cases u with
  | guard => exact inv_complete hs hc hr hp
  | release =>
    obtain ⟨hl, hf, hcap, k, hk, hk3, hclaimed⟩ := finiOk_release.mp hok
    have hp' : perform (releaseStep c) s = .next t := hp
    simp only [releaseStep, hk] at hp'
    cases hline : Line.ofIndex k with
    | none => rw [hline] at hp'; cases hp'
    | some l =>
      rw [hline] at hp'
      refine inv_release hs hc (hs.alone hc hr.1 (.inr hl)) hr (.inr hl) ?_ hp'
      exact afterRelease_stays hl hf hk3 (claimedRange_release hline hclaimed) hcap
  | done =>
    obtain ⟨hf, hl, hclaimed⟩ : c.holdsLock = false ∧ s.life = .tearing ∧ claimedRange s.claimed 0 0 = true := by
      simpa [finiOk] using hok
    refine inv_finish hs hc (hs.alone hc hr.1 (.inr hl)) rfl ⟨hports, rfl, rfl, rfl, rfl, rfl⟩
      (chainInv_of_eq hs.chain (.inr rfl) rfl rfl) ?_ hp
    exact ⟨by simp [endInstance], rfl, fun _ h => (by cases h), fun _ => ⟨hclaimed, rfl, rfl⟩, fun h => (by cases h),
      fun h => (by cases h)⟩
  | clearLow | clearWait | clearHigh => exact (progFini_drive_stepOk hpos (.inl rfl)).keeps_inv hs hc hr hp
  | latchLow | latchWait | latchHigh | latchHold | latchFall =>
    exact (progFini_drive_stepOk hpos (.inr (.inl rfl))).keeps_inv hs hc hr hp
  | driveAll => exact (progFini_drive_stepOk hpos (.inr (.inr rfl))).keeps_inv hs hc hr hp
  | _ => cases hp

end

end

end Sys2Proof.Machine
end

section
/-! The issue step (40_sequencer.md R160) and the fetch (R161) keep the invariant, and so does every step. -/

namespace Sys2Proof.Machine

variable {PinId : Type}

theorem inRange_of_validWord {n : Nat} {a : Arg} {w : Int} (h : validWord n a = some w) : inRange n w = true := by
  cases a with
  | int v =>
    simp only [validWord, Option.ite_none_right_eq_some, Option.some.injEq] at h
    exact h.2 ▸ h.1
  | nonInt | absent => cases h

section
variable {i : Instr PinId} {s t : State PinId} {c d : Ctx PinId} {n : Nat}

theorem beginAt_stays {u : UPos} (hpos : posOk s c i u = true) (h : beginAt u s c = some d) : Stays s i c d := by
  cases h
  exact stays_goto hpos

theorem beginByScope_stays {u v : UPos} (hcommit : s.cfg.arbScope = .commitOnly → posOk s c i u = true)
    (hwide : s.cfg.arbScope = .wide → posOk s c i v = true) (h : beginByScope u v s c = some d) : Stays s i c d := by
  cases h
  refine stays_goto ?_
  cases hs : s.cfg.arbScope with
  | commitOnly => simpa [byScope, hs] using hcommit hs
  | wide => simpa [byScope, hs] using hwide hs

theorem beginPos_stays {pos : Arg} {u : UPos} (hcap : s.cap = some n)
    (hvalid : (validPos n pos).isSome = true → posOk s c i u = true) (hreject : posOk s c i .reject = true)
    (h : beginPos pos u s c = some d) : Stays s i c d := by
  simp only [beginPos, hcap] at h
  split at h <;> cases h
  · next v hv => exact stays_goto (hvalid (by simp [hv]))
  · exact stays_goto hreject

/-- The first position of an admitted command other than INIT and FINI is one of its micro-program. -/
theorem begin_stays [DecidableEq PinId] (hi : isLifecycle i = false) (hl : s.life = .ready) (hcap : s.cap = some n)
    (hf : c.holdsLock = false) (h : (ruleOf i).begin s c = some d) : Stays s i c d := by
  cases i with
  | drvCap | bufCap => exact beginAt_stays (by simp [posOk, pulseOk, hl, hcap, hf]) h
  | drvClr => exact beginAt_stays ((posOk_drvClr hl hcap).mpr ⟨rfl, .inl ⟨.inl rfl, hf⟩⟩) h
  | drvWr word =>
    simp only [ruleOf, beginDrvWr, hcap] at h
    split at h <;> cases h
    · next w hw =>
      refine stays_of_goto ⟨rfl, rfl, rfl⟩ ((posOk_drvWr hl hcap).mpr ⟨rfl, .inl ⟨.inr (.inr ?_), hf⟩⟩)
      exact transmitOk_iff.mpr ⟨rfl, ⟨w, rfl, inRange_of_validWord hw⟩, fun hs => by cases hs⟩
    · exact stays_goto ((posOk_drvWr hl hcap).mpr ⟨rfl, .inl ⟨.inl rfl, hf⟩⟩)
  | drvZero => exact beginAt_stays ((posOk_drvZero hl hcap).mpr ⟨rfl, .inl ⟨.inl rfl, hf⟩⟩) h
  | bufClr =>
    refine beginByScope_stays (fun hs => ?_) (fun hs => ?_) h
    · exact (posOk_bufClr hl hcap).mpr ⟨rfl, .inr (.inl ⟨.inl rfl, by simp [hs, hf]⟩)⟩
    · exact (posOk_bufClr hl hcap).mpr ⟨rfl, .inl ⟨rfl, hs, hf⟩⟩
  | bufWr word =>
    refine beginByScope_stays (fun hs => ?_) (fun hs => ?_) h
    · exact (posOk_bufWr hl hcap).mpr ⟨rfl, .inl ⟨rfl, by simp [hs, hf]⟩⟩
    · exact (posOk_bufWr hl hcap).mpr ⟨rfl, .inr (.inl ⟨rfl, hf⟩)⟩
  | bufChk pos =>
    refine beginPos_stays hcap (fun _ => ?_) ?_ h <;> simp [posOk, pulseOk, hl, hcap, hf]
  | bufGet pos =>
    refine beginPos_stays hcap (fun hv => ?_) ?_ h
    · exact (posOk_bufGet hl hcap).mpr ⟨rfl, .inr (.inl ⟨rfl, hv⟩), hf⟩
    · exact (posOk_bufGet hl hcap).mpr ⟨rfl, .inl rfl, hf⟩
  | bufSet pos value =>
    simp only [ruleOf, beginBufSet, hcap] at h
    split at h <;> cases h
    · next v x hv hx =>
      have hvalid : (validPos n pos).isSome = true ∧ (validVal value).isSome = true := by simp [hv, hx]
      refine beginByScope_stays (u := .bufRead) (v := .acquire) (fun hs => ?_) (fun hs => ?_) rfl
      · exact (posOk_bufSet hl hcap).mpr ⟨rfl, .inr (.inl ⟨hvalid, .inr ⟨.inl rfl, by simp [hs, hf]⟩⟩)⟩
      · exact (posOk_bufSet hl hcap).mpr ⟨rfl, .inr (.inl ⟨hvalid, .inl ⟨rfl, hs, hf⟩⟩)⟩
    · exact stays_goto ((posOk_bufSet hl hcap).mpr ⟨rfl, .inl ⟨.inl rfl, hf⟩⟩)
  | bufCommit => exact beginAt_stays ((posOk_bufCommit hl hcap).mpr ⟨rfl, .inl ⟨rfl, hf⟩⟩) h
  | bufGetbuf => exact beginAt_stays ((posOk_bufGetbuf hl hcap).mpr ⟨rfl, .inl rfl, hf⟩) h
  | init | fini => cases hi

/-- The context that holds a command just issued (40_sequencer.md R160). -/
def given (i : Instr PinId) (c : Ctx PinId) : Ctx PinId :=
  { c with
    busy := true
    opc := some (encode i).opc
    a := some (encode i).a
    b := some (encode i).b
    pins := some (encode i).pins
    err := none }

theorem present_eq (i : Instr PinId) (s : State PinId) :
    s.present (encode i) = (s.modCtx s.active (given i)).log s.active (.issue (encode i).opc) := rfl

theorem runs_given (h : i.wellFormed = true) : Runs (given i c) i := ⟨rfl, encode i, rfl, decode_encode_of_wellFormed h⟩

theorem admitted_of_admitReady (h : admitReady s = none) : s.life = .ready := by
  by_contra hl
  simp [admitReady, hl] at h

theorem check_of_not_lifecycle [DecidableEq PinId] (hi : isLifecycle i = false) :
    (ruleOf i).check = admitReady ∧ (ruleOf i).onLife = id := by
  cases i with
  | init | fini => cases hi
  | _ => exact ⟨rfl, rfl⟩

theorem alone_of_present (h : (s.present (encode i)).othersIdle (s.present (encode i)).active = true) : Alone s s.active := by
  intro q e hq he
  exact alone_of_othersIdle h q e hq ((getElem?_modify_other hq).trans he)

section
variable (hs : Sound s) (hc : s.ctx s.active = some c)
include hs hc

theorem free_of_idle (hb : c.busy = false) : c.holdsLock = false := by
  have h := hs.ctx _ _ hc
  rw [ctxOk_of_idle hb] at h
  simpa using h

/-- An issue that writes no register of the lifecycle. -/
theorem inv_issue (hw : i.wellFormed = true) (hl : s.life = .ready ∨ s.life = .unbuilt) (hd : Stays s i (given i c) d) :
    Inv ((s.present (encode i)).modCtx s.active fun _ => d) := by
  have hports : ((s.present (encode i)).modCtx s.active fun _ => d).ports = s.ports.modify s.active fun _ => d :=
    List.modify_modify_eq (given i) (fun _ => d) s.active s.ports
  refine inv_of_sound (hs.step hc hports ⟨.of_line_eq rfl rfl rfl rfl rfl fun _ => rfl, rfl, rfl⟩ (fun hl' => ?_) ?_ hs.claim
    hs.chain (ctxOk_of_stays (runs_given hw) (hd.of_sameView ⟨rfl, rfl, rfl, rfl, rfl, rfl⟩)))
  · obtain e | e := hl <;> simp [e] at hl'
  · refine lockInv_of_same hs.lock rfl hports fun e he => ?_
    rw [Option.some.inj (he.symm.trans hc)]
    exact hd.1.2.1

/-- The issue of INIT, or of FINI while `LIFE` is READY: every other port is idle, and `LIFE` becomes `l`. -/
theorem inv_issue_alone {l : Life} (hw : i.wellFormed = true) (ha : Alone s s.active)
    (hregs : LifeRegs { s with life := l }) (hd : Stays { s with life := l } i (given i c) d) :
    Inv ({ s.present (encode i) with life := l }.modCtx s.active fun _ => d) := by
  have hports : ({ s.present (encode i) with life := l }.modCtx s.active fun _ => d).ports = s.ports.modify s.active fun _ => d :=
    List.modify_modify_eq (given i) (fun _ => d) s.active s.ports
  exact inv_of_sound (hs.lifecycle_step hc ha hports rfl rfl hd.1.2.1 hs.claim hs.chain
    (hregs.keepsRegs ⟨.of_line_eq (s := { s with life := l }) rfl rfl rfl rfl rfl fun _ => rfl, rfl, rfl⟩)
    (ctxOk_of_stays (runs_given hw) (hd.of_sameView ⟨rfl, rfl, rfl, rfl, rfl, rfl⟩)))

/-- The issue of INIT (60_exceptions.md R300, 41_driver.md R191). -/
theorem inv_issue_init [DecidableEq PinId] {pins : Quad PinId} {count : Arg} (hi : i = .init pins count) (hb : c.busy = false)
    (hcheck : admitInit pins (s.present (encode i)) = none)
    (hbegin : beginInit count (s.present (encode i)) (given i c) = some d) :
    Inv ({ s.present (encode i) with life := .building }.modCtx s.active fun _ => d) := by
  have hf := free_of_idle hs hc hb
  obtain ⟨hl, ha⟩ : s.life = .unbuilt ∧ (s.present (encode i)).othersIdle (s.present (encode i)).active = true := by
    unfold admitInit at hcheck
    split at hcheck
    · cases hcheck
    · next hl =>
      split at hcheck
      · cases hcheck
      · next ha => exact ⟨not_not.mp hl, by simpa using ha⟩
  obtain ⟨hclaimed, hcap, hbuf⟩ := hs.regs.unbuilt hl
  have hcc : s.cc = false := hs.regs.cc_false (by simp [hl])
  refine inv_issue_alone hs hc (hi ▸ rfl) (alone_of_present ha) ?_ ?_
  · exact ⟨by simp [hcc], hs.regs.pins, hs.regs.width, fun h => (by cases h), fun h => (by cases h), fun h => (by cases h)⟩
  · subst hi
    unfold beginInit at hbegin
    split at hbegin <;> cases hbegin
    · next n hn =>
      refine stays_of_goto ⟨rfl, rfl, rfl⟩ (posOk_init.mpr ⟨rfl, ?_⟩)
      refine (initOk_claim (c := { given (.init pins count) c with k := some 0 }) rfl hf).mpr ?_
      exact ⟨0, rfl, by omega, hclaimed, hbuf, n, hn, by simpa using hcap⟩
    · refine stays_goto (posOk_init.mpr ⟨rfl, ?_⟩)
      simp [initOk, given, hf, hclaimed, hcap, hbuf]

/-- The issue of FINI (60_exceptions.md R300, 41_driver.md R208). -/
theorem inv_issue_fini (hi : i = .fini) (hb : c.busy = false) (hcheck : admitFini (s.present (encode i)) = none)
    (hbegin : beginFini (s.present (encode i)) (given i c) = some d) :
    Inv ((startTeardown (s.present (encode i))).modCtx s.active fun _ => d) := by
  have hf := free_of_idle hs hc hb
  have hlife : (s.present (encode i)).life = s.life := rfl
  cases hl : s.life with
  | building => simp [admitFini, hlife, hl] at hcheck
  | tearing => simp [admitFini, hlife, hl] at hcheck
  | unbuilt =>
    simp only [beginFini, hlife, hl, Option.some.injEq] at hbegin
    simp only [startTeardown, hlife, hl]
    subst hbegin hi
    refine inv_issue hs hc rfl (.inr hl) (stays_goto (posOk_fini.mpr ⟨rfl, ?_⟩))
    simp [finiOk, given, hl, hf]
  | ready =>
    obtain ⟨hclaimed, hcap⟩ := hs.regs.ready hl
    simp only [beginFini, hlife, hl, Option.some.injEq] at hbegin
    have ha : (s.present (encode i)).othersIdle (s.present (encode i)).active = true := by
      by_contra h
      simp only [admitFini, hlife, hl] at hcheck
      exact absurd hcheck (by simpa using h)
    simp only [startTeardown, hlife, hl]
    subst hbegin hi
    have hcc : s.cc = true := hs.regs.cc.mpr (.inl hl)
    refine inv_issue_alone hs hc rfl (alone_of_present ha) ?_ (stays_goto (posOk_fini.mpr ⟨rfl, ?_⟩))
    · exact ⟨by simp [hcc], hs.regs.pins, hs.regs.width, fun h => (by cases h), fun h => (by cases h), fun _ => hcap⟩
    · exact (finiOk_drive (.inl rfl)).mpr ⟨rfl, hf, hcap, hclaimed⟩

/-- The issue step keeps the invariant. -/
theorem inv_issueStep [DecidableEq PinId] (hb : c.busy = false) (hp : issueStep i (ruleOf i) s = .next t) : Inv t := by
  have hctx : (s.present (encode i)).ctx s.active = some (given i c) := by
    rw [present_eq, State.ctx_log, State.ctx_modCtx_self, hc]
    rfl
  obtain ⟨-, rfl⟩ | ⟨hw, ⟨f, -, rfl⟩ | ⟨hcheck, e, he, hbegin⟩⟩ := issueStep_next hp
  · exact inv_enterFault _ _
  · exact inv_enterFault _ _
  · cases hctx.symm.trans he
    obtain ⟨-, rfl⟩ | ⟨d, hbegin, rfl⟩ := hbegin
    · exact inv_enterFault _ _
    · cases hi : isLifecycle i with
      | false =>
        have hf : c.holdsLock = false := free_of_idle hs hc hb
        obtain ⟨hck, hon⟩ := check_of_not_lifecycle hi
        rw [hck] at hcheck
        rw [hon]
        have hl : s.life = .ready := admitted_of_admitReady hcheck
        obtain ⟨n, hcap⟩ := Option.isSome_iff_exists.mp (hs.regs.ready hl).2
        have hd : Stays (s.present (encode i)) i (given i c) d := begin_stays hi hl hcap hf hbegin
        exact inv_issue hs hc hw (.inl hl) (hd.of_sameView ⟨rfl, rfl, rfl, rfl, rfl, rfl⟩)
      | true =>
        cases i with
        | init pins count => exact inv_issue_init hs hc rfl hb hcheck hbegin
        | fini => exact inv_issue_fini hs hc rfl hb hcheck hbegin
        | _ => cases hi

/-- The next micro-step of a busy port keeps the invariant. -/
theorem inv_microStep [DecidableEq PinId] (hr : Runs c i) (hp : microStep (ruleOf i) c s = .next t) : Inv t := by
  obtain ⟨u, hu, hpos⟩ := (ctxOk_iff_of_runs hr).mp (hs.ctx _ _ hc)
  have hp' : perform ((ruleOf i).prog s c u) s = .next t := by
    simpa [microStep, hu] using hp
  cases hi : isLifecycle i with
  | false => exact (prog_stepOk hi hpos).keeps_inv hs hc hr hp'
  | true =>
    cases i with
    | init pins count => exact inv_progInit hs hc hr hpos hp'
    | fini => exact inv_progFini hs hc hr hpos hp'
    | _ => cases hi

end

/-- An atomic step of an instruction keeps the invariant, when a busy port is given the instruction in its context. -/
theorem inv_execIn [DecidableEq PinId] (hs : Sound s) (hi : ∀ c, s.ctx s.active = some c → c.busy = true → Runs c i)
    (hp : execIn i s = .next t) : Inv t := by
  rw [execIn_eq_runRule] at hp
  obtain ⟨-, c, hc, ⟨hb, h⟩ | ⟨hb, h⟩⟩ := runRule_next hp
  · exact inv_microStep hs hc (hi c hc hb) h
  · exact inv_issueStep hs hc hb h

/-! The fetch. -/

/-- What a step comes to before any instruction runs keeps the invariant, and a busy port runs the instruction in its context. -/
def TurnOk (x : Turn PinId) : Prop :=
  match x with
  | .run i s => Sound s ∧ ∀ c, s.ctx s.active = some c → c.busy = true → Runs c i
  | .answer o => ∀ t, o = .next t → Inv t

theorem Sound.choose {p : Nat} (hs : Sound s) (h : choose s = some (p, t)) : Sound { t with active := p } := by
  have hkeep (ps : List Nat) (k a : Nat) : Sound { s with sched := ps, tick := k, active := a } :=
    ⟨hs.lock, hs.claim, hs.chain, hs.life, hs.len, hs.ctx⟩
  unfold Machine.choose at h
  split at h
  · cases h
    exact hkeep _ _ _
  · split at h
    · cases h
    · cases h
      exact hkeep _ _ _
    · cases h
      exact hkeep _ _ _

/-- Taking a command from an idle port's host thread keeps the invariant. -/
theorem Sound.take_command (hs : Sound s) (hc : s.ctx s.active = some c) (q : List (Command PinId)) :
    Sound (s.modCtx s.active fun x => { x with queue := q }) := by
  have hown : ctxOk s c = true := hs.ctx _ _ hc
  refine hs.step hc rfl ⟨.of_line_eq rfl rfl rfl rfl rfl fun _ => rfl, rfl, rfl⟩ (fun _ h => h) ?_ hs.claim hs.chain
    (ctxOk_keepsView (s := s) (.of_line_eq rfl rfl rfl rfl rfl fun _ => rfl) hown)
  exact lockInv_of_same hs.lock rfl rfl fun _ _ => rfl

theorem turnOk_fault (s : State PinId) (f : Fault) : TurnOk (.answer (.next (s.enterFault f))) := by
  rintro t ⟨⟩
  exact inv_enterFault _ _

theorem resume_turnOk (hs : Sound s) (hc : s.ctx s.active = some c) (hb : c.busy = true) : TurnOk (resume s c) := by
  unfold resume
  split
  · exact turnOk_fault _ _
  · next cmd hcmd =>
    split
    · next i hdec =>
      refine ⟨hs, fun d hd _ => ?_⟩
      cases hc.symm.trans hd
      exact ⟨hb, cmd, hcmd, hdec⟩
    · exact turnOk_fault _ _

theorem accept_turnOk (hs : Sound s) (hc : s.ctx s.active = some c) (hb : c.busy = false) : TurnOk (accept s c) := by
  unfold accept
  split
  · rintro t ⟨⟩
    exact inv_of_sound hs
  · next cmd rest hq =>
    dsimp only
    split
    · refine ⟨hs.take_command hc rest, fun d hd hdb => ?_⟩
      have hd' : (s.modCtx s.active fun x => { x with queue := rest }).ctx s.active = some d := hd
      rw [State.ctx_modCtx_self, hc] at hd'
      cases hd'
      cases hb.symm.trans hdb
    · exact turnOk_fault _ _

theorem fetch_turnOk (hs : Inv s) : TurnOk (fetch s) := by
  unfold fetch
  split
  · rintro t ⟨⟩
  · next hm =>
    split
    · rintro t ⟨⟩
      exact hs
    · next p u hch =>
      have hu : Sound { u with active := p } := (sound_iff.mpr hs hm).choose hch
      unfold turnOf
      dsimp only
      split
      · rintro t ⟨⟩
        exact inv_of_sound hu
      · next c hc =>
        split
        · next hb => exact resume_turnOk hu hc hb
        · next hb => exact accept_turnOk hu hc (by simpa using hb)

theorem stepIn_keeps_inv [DecidableEq PinId] (hs : Inv s) (h : stepIn s = .next t) : Inv t := by
  have hf := fetch_turnOk hs
  obtain ⟨i, u, he, hrun⟩ | he := stepIn_next h
  · rw [he] at hf
    exact inv_execIn hf.1 hf.2 hrun
  · rw [he] at hf
    exact hf t rfl

end

/-- Settles O45: every micro-step leads to a position of its micro-program again, and its rule keeps the rest of `Inv`. -/
theorem everyStepKeepsInv : Obligations.EveryStepKeepsInv := by
  unfold Obligations.EveryStepKeepsInv
  refine ⟨fun s t hs h => ?_, fun _ _ s t hs h => stepIn_keeps_inv hs h⟩
  rw [step_eq_stepIn] at h
  exact stepIn_keeps_inv hs h

end Sys2Proof.Machine
end

section
/-! Bits of integers (00_scope.md R12), and the range of `BUF` (R10, R37). -/

namespace Sys2Proof.Machine

variable {PinId : Type}

theorem two_pow_pos_int (i : Nat) : (0 : Int) < ((2 ^ i : Nat) : Int) := by positivity

/-- `setbit` changes the quotient by `2^i` in its lowest bit only. -/
theorem setbit_ediv (v b : Int) (i : Nat) :
    setbit v i b / ((2 ^ i : Nat) : Int) = v / ((2 ^ i : Nat) : Int) - v / ((2 ^ i : Nat) : Int) % 2 + b := by
  have h : setbit v i b = v + (b - bit v i) * ((2 ^ i : Nat) : Int) := by
    unfold setbit
    ring
  rw [h, Int.add_mul_ediv_right _ _ (two_pow_pos_int i).ne', bit]
  ring

/-- The bits from `i` on are those of the quotient by `2^i`. -/
theorem bit_add (v : Int) (i k : Nat) : bit v (i + k) = bit (v / ((2 ^ i : Nat) : Int)) k := by
  have h : ((2 ^ (i + k) : Nat) : Int) = ((2 ^ i : Nat) : Int) * ((2 ^ k : Nat) : Int) := by
    rw [pow_add, Nat.cast_mul]
  rw [bit, bit, h, Int.ediv_ediv_of_nonneg (two_pow_pos_int i).le]

theorem bit_setbit_self {b : Int} (hb : b = 0 ∨ b = 1) (v : Int) (i : Nat) : bit (setbit v i b) i = b := by
  rw [bit, setbit_ediv]
  omega

theorem bit_setbit_above {b : Int} (hb : b = 0 ∨ b = 1) (v : Int) (i k : Nat) :
    bit (setbit v i b) (i + (k + 1)) = bit v (i + (k + 1)) := by
  have hhalf (q : Int) : (q - q % 2 + b) / ((2 ^ 1 : Nat) : Int) = q / ((2 ^ 1 : Nat) : Int) := by
    norm_num
    omega
  rw [bit_add, bit_add v, setbit_ediv, Nat.add_comm k 1, bit_add, bit_add (v / _), hhalf]

theorem bit_setbit_below (v b : Int) (j k : Nat) : bit (setbit v (j + (k + 1)) b) j = bit v j := by
  have h : setbit v (j + (k + 1)) b = v + (b - bit v (j + (k + 1))) * ((2 ^ k : Nat) : Int) * 2 * ((2 ^ j : Nat) : Int) := by
    unfold setbit
    push_cast
    ring
  rw [bit, bit, h, Int.add_mul_ediv_right _ _ (two_pow_pos_int j).ne']
  omega

theorem bit_setbit {b : Int} (hb : b = 0 ∨ b = 1) (v : Int) (i j : Nat) :
    bit (setbit v i b) j = if j = i then b else bit v j := by
  obtain h | rfl | h := Nat.lt_trichotomy j i
  · obtain ⟨k, rfl⟩ := Nat.exists_eq_add_of_lt h
    rw [if_neg (by omega), Nat.add_assoc]
    exact bit_setbit_below v b j k
  · rw [if_pos rfl]
    exact bit_setbit_self hb v j
  · obtain ⟨k, rfl⟩ := Nat.exists_eq_add_of_lt h
    rw [if_neg (by omega), Nat.add_assoc]
    exact bit_setbit_above hb v i k

theorem inRange_iff {n : Nat} {w : Int} : inRange n w = true ↔ 0 ≤ w ∧ w < ((2 ^ n : Nat) : Int) := by
  simp [inRange]

/-- `setbit` below the capacity keeps a word in range. -/
theorem inRange_setbit {v b : Int} {i n : Nat} (hb : b = 0 ∨ b = 1) (hi : i < n) (hv : inRange n v = true) :
    inRange n (setbit v i b) = true := by
  obtain ⟨k, rfl⟩ := Nat.exists_eq_add_of_lt hi
  have hpow : ((2 ^ (i + k + 1) : Nat) : Int) = ((2 ^ k : Nat) : Int) * 2 * ((2 ^ i : Nat) : Int) := by
    push_cast
    ring
  have hpos := two_pow_pos_int i
  rw [inRange_iff, hpow] at hv ⊢
  obtain ⟨hv0, hv1⟩ := hv
  have hq := setbit_ediv v b i
  have hq0 : 0 ≤ v / ((2 ^ i : Nat) : Int) := Int.ediv_nonneg hv0 hpos.le
  have hq1 : v / ((2 ^ i : Nat) : Int) < ((2 ^ k : Nat) : Int) * 2 := (Int.ediv_lt_iff_lt_mul hpos).mpr hv1
  constructor
  · have h : 0 ≤ setbit v i b / ((2 ^ i : Nat) : Int) := by omega
    simpa using (Int.le_ediv_iff_mul_le hpos).mp h
  · exact (Int.ediv_lt_iff_lt_mul hpos).mp (by omega)

/-! The writers of `BUF`. -/

/-- What a micro-step comes to leaves `b` in `BUF`. -/
def Result.LeavesBuf (b : Option Int) (r : Result PinId) : Prop :=
  match r with
  | .ok t => t.buf = b
  | .failed t => t.buf = b
  | .held => True
  | .fault _ => True

/-- Only a BufWrite changes `BUF` (20_memory.md R83). -/
theorem run_leavesBuf {m : Micro} (hm : ∀ v, m ≠ .bufWrite v) (s : State PinId) : (m.run s).LeavesBuf s.buf := by
  cases m with
  | drive l v =>
    obtain ⟨-, e⟩ | ⟨-, -, e⟩ | ⟨-, -, e⟩ := runDrive_cases s l v <;> simp only [Micro.run, e, Result.LeavesBuf]
    · simp
    · split <;> simp
  | driveAll v =>
    obtain ⟨-, e⟩ | ⟨-, -, e⟩ | ⟨-, -, e⟩ := runDriveAll_cases s v <;> simp only [Micro.run, e, Result.LeavesBuf]
    · simp
    · split <;> simp
  | lockAcquire =>
    obtain ⟨-, e⟩ | ⟨-, e⟩ := runLockAcquire_cases s <;> simp [Micro.run, e, Result.LeavesBuf]
  | lockRelease =>
    obtain ⟨-, e⟩ | ⟨-, e⟩ := runLockRelease_cases s <;> simp [Micro.run, e, Result.LeavesBuf]
  | bufReadSnap =>
    obtain ⟨-, e⟩ | ⟨v, -, e⟩ := runBufRead_cases s (fun v c => { c with snap := some v }) <;>
      simp [Micro.run, e, Result.LeavesBuf]
  | bufReadTmp =>
    obtain ⟨-, e⟩ | ⟨v, -, e⟩ := runBufRead_cases s (fun v c => { c with tmp := some v }) <;>
      simp [Micro.run, e, Result.LeavesBuf]
  | bufWrite v => exact absurd rfl (hm v)
  | claim l =>
    obtain ⟨-, e⟩ | ⟨-, -, e⟩ | ⟨-, -, e⟩ := runClaim_cases s l <;> simp [Micro.run, e, Result.LeavesBuf]
  | release l =>
    obtain ⟨-, e⟩ | ⟨-, -, e⟩ | ⟨-, -, -, e⟩ | ⟨-, -, -, e⟩ := runRelease_cases s l <;> simp [Micro.run, e, Result.LeavesBuf]
  | delay => rfl
  | complete st r =>
    cases hc : s.ctx s.active with
    | none => simp [Micro.run, runComplete, hc, Result.LeavesBuf]
    | some c => obtain ⟨-, e⟩ | ⟨-, e⟩ := runComplete_cases hc st r <;> simp [Micro.run, e, Result.LeavesBuf]

/-- The value of `BUF`, if it is defined, is a word of `n` bits. -/
def BufInRange (n : Nat) (b : Option Int) : Prop := ∀ w, b = some w → inRange n w = true

/-- What stands at a position of a micro-program writes into `BUF` words of `n` bits only. -/
def WritesInRange (n : Nat) (f : Fetched PinId) : Prop :=
  match f with
  | .step m => (∀ v, m.op = .bufWrite v → BufInRange n v) ∧ ∀ s, (m.writes s).buf = s.buf ∨ (m.writes s).buf = none
  | .undef => True
  | .off => True

theorem WritesInRange.orElse {n : Nat} {f g : Fetched PinId} (hf : WritesInRange n f) (hg : WritesInRange n g) :
    WritesInRange n (f.orElse g) := by
  cases f with
  | off => exact hg
  | step m => exact hf
  | undef => trivial

theorem bufInRange_none (n : Nat) : BufInRange n none := by
  rintro w ⟨⟩

theorem perform_bufInRange {n : Nat} {f : Fetched PinId} {s t : State PinId} (hf : WritesInRange n f)
    (hs : BufInRange n s.buf) (h : perform f s = .next t) : BufInRange n t.buf := by
  obtain ⟨-, rfl⟩ | ⟨m, rfl, hrun⟩ := perform_next h
  · exact hs
  obtain ⟨hop, hwrites⟩ := hf
  have hw : BufInRange n (m.writes s).buf := by
    obtain e | e := hwrites s <;> rw [e]
    · exact hs
    · exact bufInRange_none n
  have hu (u : State PinId) (hu : m.op.run (m.writes s) = .ok u ∨ m.op.run (m.writes s) = .failed u) : BufInRange n u.buf := by
    by_cases hm : ∃ v, m.op = .bufWrite v
    · obtain ⟨v, hv⟩ := hm
      rw [hv] at hu
      obtain e | e := hu <;> cases e
      exact hop v hv
    · have hl := run_leavesBuf (not_exists.mp hm) (m.writes s)
      obtain e | e := hu <;> rw [e] at hl
      · exact (show u.buf = _ from hl) ▸ hw
      · exact (show u.buf = _ from hl) ▸ hw
  obtain ⟨u, e, rfl⟩ | ⟨u, e, rfl⟩ | ⟨-, rfl⟩ | ⟨_, -, rfl⟩ := hrun
  · exact hu u (.inl e)
  · exact hu u (.inr e)
  · exact hs
  · exact hs

section
variable {n : Nat} {c : Ctx PinId} {u : UPos} {after onFail : Ctx PinId → Ctx PinId}

theorem writesInRange_completeStep (st : Status) (r : Option Int) : WritesInRange n (completeStep st r : Fetched PinId) := by
  simp [WritesInRange, completeStep]

theorem writesInRange_clearPulse : WritesInRange n (clearPulse after onFail u) := by
  cases u <;> simp [clearPulse, WritesInRange]

theorem writesInRange_latchPulse : WritesInRange n (latchPulse after onFail u) := by
  cases u <;> simp [latchPulse, WritesInRange]

theorem writesInRange_shiftLoop : WritesInRange n (shiftLoop c u) := by
  unfold shiftLoop
  split
  · split
    · cases u <;> simp [shiftBit, WritesInRange]
    · trivial
  · trivial

theorem writesInRange_transmit {cap : Option Nat} : WritesInRange n (transmit cap c after u) := by
  unfold transmit
  split
  · trivial
  · exact writesInRange_clearPulse
  · exact writesInRange_clearPulse.orElse (writesInRange_shiftLoop.orElse writesInRange_latchPulse)

theorem writesInRange_errorEpilogue : WritesInRange n (errorEpilogue c u) := by
  unfold errorEpilogue
  split
  · simp [WritesInRange]
  · split
    · exact writesInRange_completeStep _ _
    · trivial
  · trivial

theorem writesInRange_commitBody {cap : Option Nat} : WritesInRange n (commitBody cap c u) := by
  unfold commitBody
  split
  · split
    · trivial
    · simp [WritesInRange]
  · split
    · simp [WritesInRange, rejectSnap]
    · trivial
  · exact writesInRange_completeStep _ _
  · exact writesInRange_transmit.orElse writesInRange_errorEpilogue

end

theorem validPos_lt {n p : Nat} {a : Arg} (h : validPos n a = some p) : p < n := by
  cases a with
  | int v =>
    simp only [validPos, Option.ite_none_right_eq_some, Option.some.injEq] at h
    omega
  | nonInt | absent => cases h

theorem validVal_bit {a : Arg} {x : Int} (h : validVal a = some x) : x = 0 ∨ x = 1 := by
  cases a with
  | int v =>
    simp only [validVal, Option.ite_none_right_eq_some, Option.some.injEq] at h
    exact h.2 ▸ h.1
  | nonInt | absent => cases h

theorem legalFor_bufInit {g : Config} {n : Nat} (h : g.legalFor n = true) : inRange n g.bufInit = true := by
  simp only [Config.legalFor, Bool.and_eq_true] at h
  simp only [inRange, Bool.and_eq_true]
  exact ⟨h.1.1.2, h.1.2⟩

section
variable {n : Nat} {s : State PinId} {c : Ctx PinId} {u : UPos}

theorem bufInRange_zero : BufInRange n (some 0) := by
  rintro w ⟨⟩
  rw [inRange_iff]
  exact ⟨le_refl 0, two_pow_pos_int n⟩

theorem writesInRange_setBitStep {pos value : Arg} (hcap : s.cap = some n) (htmp : ∀ b, c.tmp = some b → inRange n b = true) :
    WritesInRange n (setBitStep pos value s c) := by
  unfold setBitStep
  rw [hcap]
  split
  · next m t e ht =>
    cases e
    split
    · next v x hv hx =>
      refine ⟨?_, fun _ => .inl rfl⟩
      rintro _ ⟨⟩ w ⟨⟩
      exact inRange_setbit (validVal_bit hx) (validPos_lt hv) (htmp t ht)
    · trivial
  · trivial

theorem writesInRange_progInit {pins : Quad PinId} {count : Arg} (hcfg : s.cfg.legalFor n = true) :
    WritesInRange n (progInit pins count s c u) := by
  have hclaim : WritesInRange n (claimStep pins count s c) := by
    unfold claimStep
    split
    · trivial
    · split
      · simp [WritesInRange, firstClaimWrites, writeInstance]
      · trivial
    · split
      · simp [WritesInRange]
      · trivial
  have hrollback : WritesInRange n (rollbackStep c) := by
    unfold rollbackStep
    split
    · split
      · simp [WritesInRange]
      · trivial
    · trivial
  cases u with
  | reject => simp [progInit, completeStep, WritesInRange]
  | claim => exact hclaim
  | rollback => exact hrollback
  | claimFailed => simp [progInit, completeStep, dropInstance, WritesInRange]
  | bufWrite =>
    refine ⟨?_, fun _ => .inl rfl⟩
    rintro _ ⟨⟩ w ⟨⟩
    exact legalFor_bufInit hcfg
  | done => simp [progInit, completeStep, WritesInRange]
  | _ => trivial

theorem writesInRange_progFini : WritesInRange n (progFini s c u) := by
  have hrelease : WritesInRange n (releaseStep c) := by
    unfold releaseStep
    split
    · split
      · simp [WritesInRange]
      · trivial
    · trivial
  unfold progFini
  split
  · exact writesInRange_completeStep _ _
  · simp [WritesInRange]
  · exact hrelease
  · exact ⟨fun _ h => (by cases h), fun _ => .inr rfl⟩
  · exact writesInRange_clearPulse.orElse writesInRange_latchPulse

/-- Every instruction but BUF.WR writes only words of `CAP` bits. -/
theorem writesInRange_prog [DecidableEq PinId] {i : Instr PinId} (hi : ∀ a, i ≠ .bufWr a) (hcfg : s.cfg.legalFor n = true)
    (hcap : s.cap = some n) (htmp : ∀ b, c.tmp = some b → inRange n b = true) :
    WritesInRange n ((ruleOf i).prog s c u) := by
  cases i with
  | drvCap | bufCap =>
    show WritesInRange n (progCap s c u)
    unfold progCap
    split
    · split
      · exact writesInRange_completeStep _ _
      · trivial
    · trivial
  | drvClr =>
    show WritesInRange n (progDrvClr s c u)
    unfold progDrvClr
    split
    · exact writesInRange_completeStep _ _
    · exact writesInRange_clearPulse.orElse writesInRange_errorEpilogue
  | drvWr word =>
    show WritesInRange n (progDrvWr s c u)
    unfold progDrvWr
    split
    · exact writesInRange_completeStep _ _
    · exact writesInRange_completeStep _ _
    · exact writesInRange_transmit.orElse writesInRange_errorEpilogue
  | drvZero =>
    show WritesInRange n (progDrvZero s c u)
    unfold progDrvZero
    split
    · simp [WritesInRange]
    · exact writesInRange_completeStep _ _
    · exact writesInRange_errorEpilogue
  | bufClr =>
    show WritesInRange n (progBufClr s c u)
    unfold progBufClr
    split
    · simp [WritesInRange]
    · refine ⟨?_, fun _ => .inl rfl⟩
      rintro _ ⟨⟩
      exact bufInRange_zero
    · simp [WritesInRange]
    · exact writesInRange_completeStep _ _
    · exact writesInRange_clearPulse.orElse writesInRange_errorEpilogue
  | bufWr word => exact absurd rfl (hi word)
  | bufChk pos =>
    show WritesInRange n (progBufChk s c u)
    unfold progBufChk
    split
    · exact writesInRange_completeStep _ _
    · exact writesInRange_completeStep _ _
    · trivial
  | bufGet pos =>
    show WritesInRange n (progBufGet pos s c u)
    unfold progBufGet
    split
    · exact writesInRange_completeStep _ _
    · simp [WritesInRange]
    · unfold getBitStep
      split
      · split
        · exact writesInRange_completeStep _ _
        · trivial
      · trivial
    · trivial
  | bufSet pos value =>
    show WritesInRange n (progBufSet pos value s c u)
    unfold progBufSet
    split
    · exact writesInRange_completeStep _ _
    · simp [WritesInRange]
    · simp [WritesInRange]
    · exact writesInRange_setBitStep hcap htmp
    · simp [WritesInRange]
    · exact writesInRange_completeStep _ _
    · trivial
  | bufCommit =>
    show WritesInRange n (progBufCommit s c u)
    unfold progBufCommit
    split
    · simp [WritesInRange]
    · exact writesInRange_commitBody
  | bufGetbuf =>
    show WritesInRange n (progBufGetbuf s c u)
    unfold progBufGetbuf
    split
    · simp [WritesInRange]
    · split
      · exact writesInRange_completeStep _ _
      · trivial
    · trivial
  | init pins count => exact writesInRange_progInit hcfg
  | fini => exact writesInRange_progFini (s := s)

end

/-- The issue step changes no `BUF`. -/
theorem issueStep_buf [DecidableEq PinId] {i : Instr PinId} {s t : State PinId} (h : issueStep i (ruleOf i) s = .next t) :
    t.buf = s.buf := by
  have hlife (u : State PinId) : ((ruleOf i).onLife u).buf = u.buf := by
    cases i with
    | fini =>
      show (startTeardown u).buf = u.buf
      cases hl : u.life <;> simp [startTeardown, hl]
    | _ => rfl
  obtain ⟨-, rfl⟩ | ⟨-, ⟨_, -, rfl⟩ | ⟨-, _, -, ⟨-, rfl⟩ | ⟨_, -, rfl⟩⟩⟩ := issueStep_next h
  · rfl
  · rfl
  · rfl
  · exact hlife _

/-- An atomic step of any instruction but BUF.WR keeps `BUF` in range under a legal `BUF_INIT` (00_scope.md R10). -/
theorem exec_bufInRange {i : Instr} {s t : State} {n : Nat} (hi : ∀ a, i ≠ .bufWr a) (hcfg : s.cfg.legalFor n = true)
    (hcap : s.cap = some n) (hbuf : BufInRange n s.buf)
    (htmp : ∀ c b, s.ctx s.active = some c → c.tmp = some b → inRange n b = true) (h : exec i s = .next t) :
    BufInRange n t.buf := by
  rw [exec_eq_runRule] at h
  obtain ⟨-, c, hc, ⟨-, h⟩ | ⟨-, h⟩⟩ := runRule_next h
  · unfold microStep at h
    split at h
    · cases h
      exact hbuf
    · exact perform_bufInRange (writesInRange_prog hi hcfg hcap fun b => htmp c b hc) hbuf h
  · rw [issueStep_buf h]
    exact hbuf

/-- Settles O60, by the quotients of the integer by powers of two, and by what each micro-program's BufWrites write. -/
theorem setbitChangesOneBit : Obligations.SetbitChangesOneBit := by
  unfold Obligations.SetbitChangesOneBit
  refine ⟨fun v b i j hb => bit_setbit hb v i j, fun v b i n hb hi h0 h1 => ?_,
    fun i s t n hi hcfg hcap _ hbuf htmp h => exec_bufInRange hi hcfg hcap hbuf htmp h⟩
  have h := inRange_setbit hb hi (inRange_iff.mpr ⟨h0, by exact_mod_cast h1⟩)
  rw [inRange_iff] at h
  exact ⟨h.1, by exact_mod_cast h.2⟩

end Sys2Proof.Machine
end

section
/-! What one atomic step of a port can change (40_sequencer.md R161): it appends no event and is `Quiet`, or it appends one event
and does what that event says (`Acts`). Both compose, so a step is put together from its parts. -/

namespace Sys2Proof.Machine

variable {PinId : Type}

/-- A context without the registers that a micro-program computes with (10_state.md R40, fields P7 to P9 and P11 to P13). -/
def Ctx.header (c : Ctx PinId) : Ctx PinId :=
  { c with upc := none, snap := none, tmp := none, k := none, j := none, i := none, err := none, n := none }

theorem holdsLock_of_header_eq {c d : Ctx PinId} (h : d.header = c.header) : d.holdsLock = c.holdsLock := by
  have hh : d.header.holdsLock = c.header.holdsLock := congrArg _ h
  exact hh

/-- From `s` to `t` the contexts change at most at the active port, and there as `r` allows. -/
def OwnCtx (r : Ctx PinId → Ctx PinId → Prop) (s t : State PinId) : Prop :=
  ∃ g, t.ports = s.ports.modify s.active g ∧ ∀ c, s.ctx s.active = some c → r c (g c)

theorem OwnCtx.own {r : Ctx PinId → Ctx PinId → Prop} {s t : State PinId} {c : Ctx PinId} (h : OwnCtx r s t)
    (hc : s.ctx s.active = some c) : ∃ d, t.ctx s.active = some d ∧ r c d := by
  obtain ⟨g, hg, hr⟩ := h
  have hc' : s.ports[s.active]? = some c := hc
  exact ⟨g c, by simp [State.ctx, hg, hc'], hr c hc⟩

theorem OwnCtx.other {r : Ctx PinId → Ctx PinId → Prop} {s t : State PinId} {q : Nat} (h : OwnCtx r s t)
    (hq : q ≠ s.active) : t.ports[q]? = s.ports[q]? := by
  obtain ⟨g, hg, -⟩ := h
  rw [hg, getElem?_modify_other hq]

theorem OwnCtx.length_eq {r : Ctx PinId → Ctx PinId → Prop} {s t : State PinId} (h : OwnCtx r s t) :
    t.ports.length = s.ports.length := by
  obtain ⟨g, hg, -⟩ := h
  rw [hg, List.length_modify]

theorem OwnCtx.mono {r r' : Ctx PinId → Ctx PinId → Prop} {s t : State PinId} (h : OwnCtx r s t)
    (hr : ∀ c d, r c d → r' c d) : OwnCtx r' s t := by
  obtain ⟨g, hg, hrg⟩ := h
  exact ⟨g, hg, fun c hc => hr _ _ (hrg c hc)⟩

theorem OwnCtx.of_ports_eq {r : Ctx PinId → Ctx PinId → Prop} {s t : State PinId} (h : t.ports = s.ports) (hr : ∀ c, r c c) :
    OwnCtx r s t :=
  ⟨id, by simp [h], fun c _ => hr c⟩

theorem OwnCtx.trans {r r' r'' : Ctx PinId → Ctx PinId → Prop} {s t u : State PinId} (h : OwnCtx r s t)
    (h' : OwnCtx r' t u) (ha : t.active = s.active) (hr : ∀ c d e, r c d → r' d e → r'' c e) : OwnCtx r'' s u := by
  obtain ⟨g, hg, hrg⟩ := h
  obtain ⟨g', hg', hrg'⟩ := h'
  rw [ha] at hg' hrg'
  refine ⟨g' ∘ g, by rw [hg', hg, List.modify_modify_eq], fun c hc => hr _ _ _ (hrg c hc) (hrg' _ ?_)⟩
  have hc' : s.ports[s.active]? = some c := hc
  simp [State.ctx, hg, hc']

/-- A change that appends no event: lines, claims, lock and configuration stay, and contexts but for what their micro-programs
compute with. -/
structure Quiet (s t : State PinId) : Prop where
  cfg : t.cfg = s.cfg
  active : t.active = s.active
  sched : t.sched = s.sched
  hist : t.hist = s.hist
  line : t.line = s.line
  claimed : t.claimed = s.claimed
  lock : t.lock = s.lock
  ctx : OwnCtx (fun c d => d.header = c.header) s t

theorem Quiet.trans {s t u : State PinId} (h : Quiet s t) (h' : Quiet t u) : Quiet s u where
  cfg := h'.cfg.trans h.cfg
  active := h'.active.trans h.active
  sched := h'.sched.trans h.sched
  hist := h'.hist.trans h.hist
  line := h'.line.trans h.line
  claimed := h'.claimed.trans h.claimed
  lock := h'.lock.trans h.lock
  ctx := h.ctx.trans h'.ctx h.active fun _ _ _ e e' => e'.trans e

/-- The registers of the lifecycle, `BUF`, the chain and the fault mark are not what `Quiet` speaks of. -/
theorem quiet_registers (s : State PinId) (life : Life) (cc : Bool) (cap : Option Nat) (pins : Option (Quad PinId))
    (buf : Option Int) (chain : Chain) (mark : Option Fault) :
    Quiet s { s with life := life, cc := cc, cap := cap, pins := pins, buf := buf, chain := chain, mark := mark } :=
  ⟨rfl, rfl, rfl, rfl, rfl, rfl, rfl, .of_ports_eq rfl fun _ => rfl⟩

theorem quiet_refl (s : State PinId) : Quiet s s := quiet_registers s ..

theorem quiet_enterFault (s : State PinId) (f : Fault) : Quiet s (s.enterFault f) := quiet_registers s ..

theorem quiet_modCtx {s : State PinId} {p : Nat} {f : Ctx PinId → Ctx PinId} (hp : p = s.active)
    (hf : ∀ c, s.ctx p = some c → (f c).header = c.header) : Quiet s (s.modCtx p f) := by
  subst hp
  exact ⟨rfl, rfl, rfl, rfl, rfl, rfl, rfl, f, rfl, hf⟩

/-- The claims after an event (40_sequencer.md R170, R171). -/
def Event.claims (e : Event) (q : Quad Bool) : Quad Bool :=
  match e with
  | .claim l ok => if ok then q.set l true else q
  | .rel l => q.set l false
  | _ => q

/-- The lock's holder after an event of port `p` (40_sequencer.md R166, R167). -/
def Event.holder (e : Event) (p : Nat) (h : Option Nat) : Option Nat :=
  match e with
  | .acq => some p
  | .rls => none
  | _ => h

/-- The acting port's `holds_lock` after an event (40_sequencer.md R166, R167). -/
def Event.holds (e : Event) (b : Bool) : Bool :=
  match e with
  | .acq => true
  | .rls => false
  | _ => b

/-- What the micro-step of an event checks: a drive its claims (40_sequencer.md R164, R165), the lock steps the lock (R166,
R167). -/
def Event.Enabled (e : Event) (s : State PinId) : Prop :=
  match e with
  | .drv l _ => s.claimed.get l = true
  | .drvf l _ _ => s.claimed.get l = true
  | .drvAll _ => allClaimed s.claimed = true
  | .drvAllf _ _ => allClaimed s.claimed = true
  | .acq => s.lock = none
  | .rls => s.lock = some s.active
  | _ => True

/-- How a context changes in a step of its port: the command is written on an idle port only, its outcome by a step that ends
idle only (10_state.md R40). -/
structure CtxFrame (c d : Ctx PinId) : Prop where
  queue : d.queue = c.queue
  command : c.busy = true → d.opc = c.opc ∧ d.a = c.a ∧ d.b = c.b ∧ d.pins = c.pins
  outcome : d.busy = true → d.sts = c.sts ∧ d.res = c.res

/-- `CtxFrame` does not depend on what the micro-program computes with. -/
theorem CtxFrame.of_header_eq {c d c' d' : Ctx PinId} (h : CtxFrame c d) (hc : c.header = c'.header)
    (hd : d'.header = d.header) : CtxFrame c' d' := by
  have hh : CtxFrame c.header d.header := ⟨h.queue, h.command, h.outcome⟩
  rw [hc, ← hd] at hh
  exact ⟨hh.queue, hh.command, hh.outcome⟩

theorem ctxFrame_refl (c : Ctx PinId) : CtxFrame c c :=
  ⟨rfl, fun _ => ⟨rfl, rfl, rfl, rfl⟩, fun _ => ⟨rfl, rfl⟩⟩

/-- How the context of the port that appends the event `e` changes. -/
structure CtxActs (e : Event) (c d : Ctx PinId) : Prop extends CtxFrame c d where
  holdsLock : d.holdsLock = e.holds c.holdsLock

theorem CtxActs.of_header_eq {e : Event} {c d c' d' : Ctx PinId} (h : CtxActs e c d) (hc : c.header = c'.header)
    (hd : d'.header = d.header) : CtxActs e c' d' where
  toCtxFrame := h.toCtxFrame.of_header_eq hc hd
  holdsLock := by rw [holdsLock_of_header_eq hd, h.holdsLock, holdsLock_of_header_eq hc]

theorem ctxActs_of_header_eq {e : Event} {c d : Ctx PinId} (he : ∀ b, e.holds b = b) (h : d.header = c.header) :
    CtxActs e c d :=
  CtxActs.of_header_eq ⟨ctxFrame_refl c, (he _).symm⟩ rfl h

/-- The active port appends the event `e`, and lines, claims, lock and contexts become what the event says. -/
structure Acts (e : Event) (s t : State PinId) : Prop where
  cfg : t.cfg = s.cfg
  active : t.active = s.active
  sched : t.sched = s.sched
  hist : t.hist = s.hist ++ [⟨s.active, e⟩]
  line : t.line = (e.levels s.line).getD s.line
  claimed : t.claimed = e.claims s.claimed
  lock : t.lock = e.holder s.active s.lock
  enabled : e.Enabled s
  ctx : OwnCtx (CtxActs e) s t

theorem Acts.then_quiet {e : Event} {s t u : State PinId} (h : Acts e s t) (h' : Quiet t u) : Acts e s u where
  cfg := h'.cfg.trans h.cfg
  active := h'.active.trans h.active
  sched := h'.sched.trans h.sched
  hist := h'.hist.trans h.hist
  line := h'.line.trans h.line
  claimed := h'.claimed.trans h.claimed
  lock := h'.lock.trans h.lock
  enabled := h.enabled
  ctx := h.ctx.trans h'.ctx h.active fun _ _ _ hc hd => hc.of_header_eq rfl hd

theorem Event.Enabled.before_quiet {e : Event} {s t : State PinId} (h : Quiet s t) (he : e.Enabled t) : e.Enabled s := by
  cases e with
  | drv l v | drvf l v took => exact (congrArg (Quad.get · l) h.claimed).symm.trans he
  | drvAll v | drvAllf v took => exact (congrArg allClaimed h.claimed).symm.trans he
  | acq => exact h.lock.symm.trans he
  | rls => exact (h.lock.symm.trans he).trans (congrArg some h.active)
  | _ => trivial

theorem Acts.after_quiet {e : Event} {s t u : State PinId} (h : Quiet s t) (h' : Acts e t u) : Acts e s u where
  cfg := h'.cfg.trans h.cfg
  active := h'.active.trans h.active
  sched := h'.sched.trans h.sched
  hist := by rw [h'.hist, h.hist, h.active]
  line := by rw [h'.line, h.line]
  claimed := by rw [h'.claimed, h.claimed]
  lock := by rw [h'.lock, h.lock, h.active]
  enabled := h'.enabled.before_quiet h
  ctx := h.ctx.trans h'.ctx h.active fun _ _ _ hc hd => hd.of_header_eq hc rfl

/-- One atomic step of the active port. -/
def Moves (s t : State PinId) : Prop := Quiet s t ∨ ∃ e, Acts e s t

/-! The micro-steps (40_sequencer.md R164 to R173). -/

/-- No wire event moves the lock (20_memory.md R81, R86). -/
theorem lock_of_isWire {e : Event} (he : e.isWire = true) : (∀ b, e.holds b = b) ∧ ∀ p h, e.holder p h = h := by
  cases e with
  | acq | rls => cases he
  | _ => exact ⟨fun _ => rfl, fun _ _ => rfl⟩

/-- A micro-step that changes lines and claims as its event says, and leaves lock and contexts alone. -/
theorem acts_wire {e : Event} {s u : State PinId} (he : e.isWire = true)
    (hu : u.cfg = s.cfg ∧ u.active = s.active ∧ u.sched = s.sched ∧ u.hist = s.hist ∧ u.lock = s.lock ∧ u.ports = s.ports)
    (hline : u.line = (e.levels s.line).getD s.line) (hclaimed : u.claimed = e.claims s.claimed) (hen : e.Enabled s) :
    Acts e s (u.log s.active e) := by
  obtain ⟨hcfg, hactive, hsched, hhist, hlock, hports⟩ := hu
  obtain ⟨hholds, hholder⟩ := lock_of_isWire he
  exact ⟨hcfg, hactive, hsched, congrArg (· ++ _) hhist, hline, hclaimed, hlock.trans (hholder _ _).symm, hen,
    .of_ports_eq hports fun _ => ctxActs_of_header_eq hholds rfl⟩

/-- A failing drive: the lines become `ls` if they took the level, and `err` is set. -/
theorem acts_failed {e : Event} {s : State PinId} {ls : Quad Level} (he : e.isWire = true)
    (hline : e.levels s.line = if s.draw.took then some ls else none) (hclaimed : s.claimed = e.claims s.claimed)
    (hen : e.Enabled s) :
    Acts e s (((if s.draw.took then s.drawn.setLines ls else s.drawn).log s.active e).modCtx s.active failedCtx) := by
  have hacts (u : State PinId) (hu : u = if s.draw.took then s.drawn.setLines ls else s.drawn) : Acts e s (u.log s.active e) := by
    refine acts_wire he ?_ ?_ ?_ hen
    · rw [hu]
      split <;> simp
    · rw [hu, hline]
      split <;> simp
    · rw [hu, ← hclaimed]
      split <;> simp
  have h := hacts _ rfl
  exact h.then_quiet (quiet_modCtx h.active.symm fun _ _ => rfl)

/-- A micro-step that changes its port's context and appends an internal event that leaves the lock alone. -/
theorem acts_internal {e : Event} {s : State PinId} {f : Ctx PinId → Ctx PinId}
    (hline : e.levels s.line = none) (hclaimed : e.claims s.claimed = s.claimed) (hlock : e.holder s.active s.lock = s.lock)
    (hen : e.Enabled s) (hf : ∀ c, s.ctx s.active = some c → CtxActs e c (f c)) :
    Acts e s ((s.modCtx s.active f).log s.active e) :=
  ⟨rfl, rfl, rfl, rfl, by simp [hline], hclaimed.symm, hlock.symm, hen, f, rfl, hf⟩

/-- If the micro-step is done, or the backend failed it, it has appended one event and done what that event says. -/
def Result.ActsFrom (s : State PinId) (r : Result PinId) : Prop :=
  match r with
  | .ok u => ∃ e, Acts e s u
  | .failed u => ∃ e, Acts e s u
  | .held => True
  | .fault _ => True

/-- A BufRead, whichever register it writes (40_sequencer.md R168). -/
theorem runBufRead_actsFrom (s : State PinId) {f : Int → Ctx PinId → Ctx PinId} (hf : ∀ v c, (f v c).header = c.header) :
    (runBufRead s f).ActsFrom s := by
  obtain ⟨-, e⟩ | ⟨v, -, e⟩ := runBufRead_cases s f <;> rw [e]
  · trivial
  · exact ⟨.brd v, acts_internal rfl rfl rfl trivial fun c _ => ctxActs_of_header_eq (fun _ => rfl) (hf v c)⟩

theorem run_actsFrom (m : Micro) (s : State PinId) : (m.run s).ActsFrom s := by
  cases m with
  | drive l v =>
    obtain ⟨-, e⟩ | ⟨hl, -, e⟩ | ⟨hl, -, e⟩ := runDrive_cases s l v <;> rw [Micro.run, e]
    · trivial
    · exact ⟨.drv l v, acts_wire rfl (by simp) rfl (by simp [Event.claims]) hl⟩
    · exact ⟨.drvf l v s.draw.took, acts_failed rfl rfl rfl hl⟩
  | driveAll v =>
    obtain ⟨-, e⟩ | ⟨hl, -, e⟩ | ⟨hl, -, e⟩ := runDriveAll_cases s v <;> rw [Micro.run, e]
    · trivial
    · exact ⟨.drvAll v, acts_wire rfl (by simp) rfl (by simp [Event.claims]) hl⟩
    · exact ⟨.drvAllf v s.draw.took, acts_failed rfl rfl rfl hl⟩
  | lockAcquire =>
    obtain ⟨-, e⟩ | ⟨hfree, e⟩ := runLockAcquire_cases s <;> rw [Micro.run, e]
    · trivial
    · exact ⟨.acq, rfl, rfl, rfl, rfl, rfl, rfl, rfl, hfree, _, rfl,
        fun _ _ => ⟨⟨rfl, fun _ => ⟨rfl, rfl, rfl, rfl⟩, fun _ => ⟨rfl, rfl⟩⟩, rfl⟩⟩
  | lockRelease =>
    obtain ⟨-, e⟩ | ⟨hheld, e⟩ := runLockRelease_cases s <;> rw [Micro.run, e]
    · trivial
    · exact ⟨.rls, rfl, rfl, rfl, rfl, rfl, rfl, rfl, hheld, _, rfl,
        fun _ _ => ⟨⟨rfl, fun _ => ⟨rfl, rfl, rfl, rfl⟩, fun _ => ⟨rfl, rfl⟩⟩, rfl⟩⟩
  | bufReadSnap => exact runBufRead_actsFrom s (f := fun v c => { c with snap := some v }) fun _ _ => rfl
  | bufReadTmp => exact runBufRead_actsFrom s (f := fun v c => { c with tmp := some v }) fun _ _ => rfl
  | bufWrite v =>
    exact ⟨.bwr v, rfl, rfl, rfl, rfl, rfl, rfl, rfl, trivial,
      .of_ports_eq rfl fun _ => ctxActs_of_header_eq (fun _ => rfl) rfl⟩
  | claim l =>
    obtain ⟨-, e⟩ | ⟨-, -, e⟩ | ⟨-, -, e⟩ := runClaim_cases s l <;> rw [Micro.run, e]
    · trivial
    · exact ⟨.claim l true, acts_wire rfl (by simp) rfl rfl trivial⟩
    · exact ⟨.claim l false, acts_wire rfl (by simp) (by simp [Event.levels]) (by simp [Event.claims]) trivial⟩
  | release l =>
    obtain ⟨-, e⟩ | ⟨-, -, e⟩ | ⟨-, -, -, e⟩ | ⟨-, -, -, e⟩ := runRelease_cases s l <;> rw [Micro.run, e]
    · trivial
    · trivial
    · exact ⟨.rel l, acts_wire rfl (by simp) rfl rfl trivial⟩
    · trivial
  | delay => exact ⟨.dly, acts_wire rfl (by simp) rfl rfl trivial⟩
  | complete st r =>
    cases hc : s.ctx s.active with
    | none => simp [Micro.run, runComplete, hc, Result.ActsFrom]
    | some c =>
      obtain ⟨-, e⟩ | ⟨-, e⟩ := runComplete_cases hc st r <;> rw [Micro.run, e]
      · trivial
      · exact ⟨.done st, acts_internal rfl rfl rfl trivial
          fun _ _ => ⟨⟨rfl, fun _ => ⟨rfl, rfl, rfl, rfl⟩, fun hb => (by cases hb)⟩, rfl⟩⟩

end Sys2Proof.Machine
end

section
/-! Every micro-program computes with its own registers only: the local computation of a micro-step (40_sequencer.md R162) changes
neither a context's header nor lines, claims, lock and history. -/

namespace Sys2Proof.Machine

variable {PinId : Type}

/-- What stands at a position leaves the header of its port's context to the micro-step itself. -/
def Fetched.IsLocal (f : Fetched PinId) : Prop :=
  match f with
  | .step m =>
    (∀ c, (m.next c).header = c.header) ∧ (∀ c, (m.onFail c).header = c.header) ∧ ∀ s, Quiet s (m.writes s)
  | .undef => True
  | .off => True

theorem Fetched.IsLocal.orElse {f g : Fetched PinId} (hf : f.IsLocal) (hg : g.IsLocal) : (f.orElse g).IsLocal := by
  cases f with
  | off => exact hg
  | step m => exact hf
  | undef => trivial

/-- A step of a local position is one atomic step of its port. -/
theorem perform_moves {f : Fetched PinId} {s t : State PinId} (hf : f.IsLocal) (h : perform f s = .next t) : Moves s t := by
  obtain ⟨-, rfl⟩ | ⟨m, rfl, hrun⟩ := perform_next h
  · exact .inl (quiet_enterFault _ _)
  obtain ⟨hnext, hfail, hwrites⟩ := hf
  have hacts := run_actsFrom m.op (m.writes s)
  obtain ⟨u, e, rfl⟩ | ⟨u, e, rfl⟩ | ⟨-, rfl⟩ | ⟨_, -, rfl⟩ := hrun
  · rw [e] at hacts
    obtain ⟨ev, hev⟩ := hacts
    exact .inr ⟨ev, (hev.after_quiet (hwrites s)).then_quiet (quiet_modCtx rfl fun c _ => hnext c)⟩
  · rw [e] at hacts
    obtain ⟨ev, hev⟩ := hacts
    exact .inr ⟨ev, (hev.after_quiet (hwrites s)).then_quiet (quiet_modCtx rfl fun c _ => hfail c)⟩
  · exact .inl (quiet_refl _)
  · exact .inl (quiet_enterFault _ _)

/-! The local computations. -/

@[simp] theorem header_goto (u : UPos) (c : Ctx PinId) : (goto u c).header = c.header := rfl

@[simp] theorem header_epilogue (c : Ctx PinId) : (epilogue c).header = c.header := by
  unfold epilogue
  split <;> rfl

@[simp] theorem header_nextBit (i : Nat) (c : Ctx PinId) : (nextBit i c).header = c.header := by
  unfold nextBit
  split <;> rfl

@[simp] theorem header_startShift (n : Nat) (c : Ctx PinId) : (startShift n c).header = c.header := by
  unfold startShift
  split <;> rfl

@[simp] theorem header_checkSnap (n : Nat) (c : Ctx PinId) : (checkSnap n c).header = c.header := by
  unfold checkSnap
  split <;> rfl

@[simp] theorem header_afterClaim (k : Nat) (c : Ctx PinId) : (afterClaim k c).header = c.header := by
  unfold afterClaim
  split <;> rfl

@[simp] theorem header_afterFailedClaim (k : Nat) (c : Ctx PinId) : (afterFailedClaim k c).header = c.header := by
  unfold afterFailedClaim
  split <;> rfl

@[simp] theorem header_afterRollback (k j : Nat) (c : Ctx PinId) : (afterRollback k j c).header = c.header := by
  unfold afterRollback
  split <;> rfl

@[simp] theorem header_startRelease (c : Ctx PinId) : (startRelease c).header = c.header := rfl

@[simp] theorem header_afterRelease (k : Nat) (c : Ctx PinId) : (afterRelease k c).header = c.header := by
  unfold afterRelease
  split <;> rfl

theorem quiet_rejectSnap (n : Nat) (s : State PinId) : Quiet s (rejectSnap n s) :=
  quiet_modCtx rfl fun c _ => by split <;> rfl

theorem quiet_firstClaimWrites (n : Nat) (pins : Quad PinId) (s : State PinId) : Quiet s (firstClaimWrites n pins s) :=
  (quiet_registers s ..).trans (quiet_modCtx (s := writeInstance n pins s) rfl fun _ _ => rfl)

/-! The parts of the micro-programs. -/

section
variable {s : State PinId} {c : Ctx PinId} {u : UPos} {after onFail : Ctx PinId → Ctx PinId}

/-- A micro-step without writes. -/
theorem isLocal_step {op : Micro} (hn : ∀ c, (after c).header = c.header) (hf : ∀ c, (onFail c).header = c.header) :
    Fetched.IsLocal (.step { op := op, next := after, onFail := onFail }) :=
  ⟨hn, hf, quiet_refl⟩

/-- A micro-step without writes that goes on at one position. -/
theorem isLocal_goto (op : Micro) (v : UPos) : Fetched.IsLocal (.step { op := op, next := goto v } : Fetched PinId) :=
  isLocal_step (header_goto v) header_epilogue

theorem isLocal_completeStep (st : Status) (r : Option Int) {writes : State PinId → State PinId}
    (hw : ∀ s, Quiet s (writes s)) : (completeStep st r writes).IsLocal :=
  ⟨fun _ => rfl, header_epilogue, hw⟩

theorem isLocal_clearPulse (hn : ∀ c, (after c).header = c.header) (hf : ∀ c, (onFail c).header = c.header) :
    (clearPulse after onFail u).IsLocal := by
  cases u with
  | clearLow | clearWait => exact isLocal_step (header_goto _) hf
  | clearHigh => exact isLocal_step hn hf
  | _ => trivial

theorem isLocal_latchPulse (hn : ∀ c, (after c).header = c.header) (hf : ∀ c, (onFail c).header = c.header) :
    (latchPulse after onFail u).IsLocal := by
  cases u with
  | latchLow | latchWait | latchHigh | latchHold => exact isLocal_step (header_goto _) hf
  | latchFall => exact isLocal_step hn hf
  | _ => trivial

theorem isLocal_shiftBit (w : Int) (k : Nat) : (shiftBit w k u : Fetched PinId).IsLocal := by
  cases u with
  | shiftData | shiftLow | shiftWait | shiftHigh | shiftHold => exact isLocal_goto _ _
  | shiftFall => exact isLocal_step (header_nextBit k) header_epilogue
  | _ => trivial

theorem isLocal_shiftLoop : (shiftLoop c u).IsLocal := by
  unfold shiftLoop
  split
  · split
    · exact isLocal_shiftBit _ _
    · trivial
  · trivial

theorem isLocal_transmit {cap : Option Nat} (hn : ∀ c, (after c).header = c.header) : (transmit cap c after u).IsLocal := by
  unfold transmit
  split
  · trivial
  · exact isLocal_clearPulse (header_startShift _) header_epilogue
  · exact (isLocal_clearPulse (fun _ => rfl) header_epilogue).orElse
      (isLocal_shiftLoop.orElse (isLocal_latchPulse hn header_epilogue))

theorem isLocal_errorEpilogue : (errorEpilogue c u).IsLocal := by
  unfold errorEpilogue
  split
  · exact isLocal_goto _ _
  · split
    · exact isLocal_completeStep _ _ quiet_refl
    · trivial
  · trivial

theorem isLocal_commitBody {cap : Option Nat} : (commitBody cap c u).IsLocal := by
  unfold commitBody
  split
  · split
    · trivial
    · exact isLocal_step (header_checkSnap _) header_epilogue
  · split
    · exact ⟨header_goto _, header_epilogue, quiet_rejectSnap _⟩
    · trivial
  · exact isLocal_completeStep _ _ quiet_refl
  · exact (isLocal_transmit (header_goto _)).orElse isLocal_errorEpilogue

theorem isLocal_claimStep {pins : Quad PinId} {count : Arg} : (claimStep pins count s c).IsLocal := by
  unfold claimStep
  split
  · trivial
  · split
    · exact ⟨header_afterClaim 0, header_afterFailedClaim 0, quiet_firstClaimWrites _ pins⟩
    · trivial
  · split
    · exact isLocal_step (header_afterClaim _) (header_afterFailedClaim _)
    · trivial

theorem isLocal_rollbackStep : (rollbackStep c).IsLocal := by
  unfold rollbackStep
  split
  · split
    · exact isLocal_step (header_afterRollback _ _) header_epilogue
    · trivial
  · trivial

theorem isLocal_progInit {pins : Quad PinId} {count : Arg} : (progInit pins count s c u).IsLocal := by
  cases u with
  | reject | claimFailed | done => exact isLocal_completeStep _ _ fun s => quiet_registers s ..
  | claim => exact isLocal_claimStep
  | rollback => exact isLocal_rollbackStep
  | bufWrite => exact isLocal_goto _ _
  | _ => trivial

theorem isLocal_releaseStep : (releaseStep c).IsLocal := by
  unfold releaseStep
  split
  · split
    · exact isLocal_step (header_afterRelease _) header_epilogue
    · trivial
  · trivial

theorem isLocal_progFini : (progFini s c u).IsLocal := by
  unfold progFini
  split
  · exact isLocal_completeStep _ _ quiet_refl
  · exact isLocal_step header_startRelease header_startRelease
  · exact isLocal_releaseStep
  · exact isLocal_completeStep _ _ fun s => quiet_registers s ..
  · exact (isLocal_clearPulse (header_goto _) header_startRelease).orElse
      (isLocal_latchPulse (header_goto _) header_startRelease)

theorem isLocal_progCap : (progCap s c u).IsLocal := by
  unfold progCap
  split
  · split
    · exact isLocal_completeStep _ _ quiet_refl
    · trivial
  · trivial

theorem isLocal_getBitStep {pos : Arg} : (getBitStep pos s c).IsLocal := by
  unfold getBitStep
  split
  · split
    · exact isLocal_completeStep _ _ quiet_refl
    · trivial
  · trivial

theorem isLocal_setBitStep {pos value : Arg} : (setBitStep pos value s c).IsLocal := by
  unfold setBitStep
  split
  · split
    · exact isLocal_goto _ _
    · trivial
  · trivial

/-- Every position of every micro-program is local. -/
theorem isLocal_prog [DecidableEq PinId] (i : Instr PinId) : ((ruleOf i).prog s c u).IsLocal := by
  cases i with
  | drvCap | bufCap => exact isLocal_progCap (c := c)
  | drvClr =>
    show (progDrvClr s c u).IsLocal
    unfold progDrvClr
    split
    · exact isLocal_completeStep _ _ quiet_refl
    · exact (isLocal_clearPulse (header_goto _) header_epilogue).orElse isLocal_errorEpilogue
  | drvWr word =>
    show (progDrvWr s c u).IsLocal
    unfold progDrvWr
    split
    · exact isLocal_completeStep _ _ quiet_refl
    · exact isLocal_completeStep _ _ quiet_refl
    · exact (isLocal_transmit (header_goto _)).orElse isLocal_errorEpilogue
  | drvZero =>
    show (progDrvZero s c u).IsLocal
    unfold progDrvZero
    split
    · exact isLocal_goto _ _
    · exact isLocal_completeStep _ _ quiet_refl
    · exact isLocal_errorEpilogue
  | bufClr =>
    show (progBufClr s c u).IsLocal
    unfold progBufClr
    split
    · exact isLocal_goto _ _
    · exact isLocal_goto _ _
    · exact isLocal_goto _ _
    · exact isLocal_completeStep _ _ quiet_refl
    · exact (isLocal_clearPulse (header_goto _) header_epilogue).orElse isLocal_errorEpilogue
  | bufWr word =>
    show (progBufWr word s c u).IsLocal
    unfold progBufWr
    split
    · exact isLocal_goto _ _
    · exact isLocal_goto _ _
    · exact isLocal_commitBody
  | bufChk pos =>
    cases u with
    | reject | done => exact isLocal_completeStep _ _ quiet_refl
    | _ => trivial
  | bufGet pos =>
    cases u with
    | reject => exact isLocal_completeStep _ _ quiet_refl
    | bufRead => exact isLocal_goto _ _
    | done => exact isLocal_getBitStep
    | _ => trivial
  | bufSet pos value =>
    cases u with
    | reject | done => exact isLocal_completeStep _ _ quiet_refl
    | acquire | bufRead | unlock => exact isLocal_goto _ _
    | bufWrite => exact isLocal_setBitStep
    | _ => trivial
  | bufCommit =>
    show (progBufCommit s c u).IsLocal
    unfold progBufCommit
    split
    · exact isLocal_goto _ _
    · exact isLocal_commitBody
  | bufGetbuf =>
    show (progBufGetbuf s c u).IsLocal
    unfold progBufGetbuf
    split
    · exact isLocal_goto _ _
    · split
      · exact isLocal_completeStep _ _ quiet_refl
      · trivial
    · trivial
  | init pins count => exact isLocal_progInit
  | fini => exact isLocal_progFini (s := s)

end

end Sys2Proof.Machine
end

section
/-! One atomic step of an instruction, and one step of the block: what they change (40_sequencer.md R160, R161). -/

namespace Sys2Proof.Machine

variable {PinId : Type}

section
variable {i : Instr PinId} {s t : State PinId} {c d : Ctx PinId}

theorem header_beginPos {pos : Arg} {u : UPos} (h : beginPos pos u s c = some d) : d.header = c.header := by
  unfold beginPos at h
  split at h
  · cases h
  · split at h <;> cases h <;> rfl

/-- The local computation of an issue leaves the header that the issue has just written. -/
theorem header_begin [DecidableEq PinId] (h : (ruleOf i).begin s c = some d) : d.header = c.header := by
  cases i with
  | drvWr word =>
    simp only [ruleOf, beginDrvWr] at h
    split at h
    · cases h
    · split at h <;> cases h <;> rfl
  | bufChk pos | bufGet pos => exact header_beginPos h
  | bufSet pos value =>
    simp only [ruleOf, beginBufSet] at h
    split at h
    · cases h
    · split at h <;> cases h <;> rfl
  | init pins count =>
    simp only [ruleOf, beginInit] at h
    split at h <;> cases h <;> rfl
  | fini =>
    simp only [ruleOf, beginFini] at h
    split at h <;> cases h <;> rfl
  | _ =>
    cases h
    rfl

theorem quiet_onLife [DecidableEq PinId] (i : Instr PinId) (s : State PinId) : Quiet s ((ruleOf i).onLife s) := by
  cases i with
  | init pins count => exact quiet_registers s ..
  | fini =>
    show Quiet s (startTeardown s)
    unfold startTeardown
    split <;> exact quiet_registers s ..
  | _ => exact quiet_refl s

/-- A command presented on an idle port: its ISSUE event, and the port's context takes the command. -/
theorem acts_present {cmd : Command PinId} (hc : s.ctx s.active = some c) (hb : c.busy = false) :
    Acts (.issue cmd.opc) s (s.present cmd) := by
  refine acts_internal rfl rfl rfl trivial fun d hd => ?_
  cases hc.symm.trans hd
  exact ⟨⟨rfl, fun hb' => absurd hb' (by simp [hb]), fun _ => ⟨rfl, rfl⟩⟩, rfl⟩

theorem issueStep_acts [DecidableEq PinId] (hc : s.ctx s.active = some c) (hb : c.busy = false)
    (h : issueStep i (ruleOf i) s = .next t) : Acts (.issue (encode i).opc) s t := by
  refine (acts_present hc hb).then_quiet ?_
  obtain ⟨-, rfl⟩ | ⟨-, ⟨f, -, rfl⟩ | ⟨-, e, he, ⟨-, rfl⟩ | ⟨d, hd, rfl⟩⟩⟩ := issueStep_next h
  · exact quiet_enterFault _ _
  · exact quiet_enterFault _ _
  · exact quiet_enterFault _ _
  · have hlife := quiet_onLife i (s.present (encode i))
    obtain ⟨e', he', hheader⟩ := hlife.ctx.own he
    refine hlife.trans (quiet_modCtx hlife.active.symm fun x hx => ?_)
    cases he'.symm.trans hx
    exact (header_begin hd).trans hheader.symm

theorem execIn_moves [DecidableEq PinId] (h : execIn i s = .next t) : Moves s t := by
  rw [execIn_eq_runRule] at h
  obtain ⟨-, c, hc, ⟨-, h⟩ | ⟨hb, h⟩⟩ := runRule_next h
  · unfold microStep at h
    split at h
    · cases h
      exact .inl (quiet_enterFault _ _)
    · exact perform_moves (isLocal_prog i) h
  · exact .inr ⟨_, issueStep_acts hc hb h⟩

end

/-- From `s` to `t` the scheduler chose a port, and the next command of a host thread may have been taken (40_sequencer.md R160,
R161). -/
structure Fetches (s t : State PinId) : Prop where
  cfg : t.cfg = s.cfg
  hist : t.hist = s.hist
  line : t.line = s.line
  claimed : t.claimed = s.claimed
  lock : t.lock = s.lock
  ports : ∃ (p : Nat) (q : Ctx PinId → List (Command PinId)),
    t.ports = s.ports.modify p fun x => { x with queue := q x }

theorem Fetches.of_ports_eq {s t : State PinId} (hcfg : t.cfg = s.cfg) (hhist : t.hist = s.hist) (hline : t.line = s.line)
    (hclaimed : t.claimed = s.claimed) (hlock : t.lock = s.lock) (hports : t.ports = s.ports) : Fetches s t :=
  ⟨hcfg, hhist, hline, hclaimed, hlock, 0, Ctx.queue, hports.trans (List.modify_id 0 s.ports).symm⟩

/-- What a step comes to before any instruction runs: an instruction on the chosen port, or an atomic step of it. -/
def Turn.From (s : State PinId) (x : Turn PinId) : Prop :=
  match x with
  | .run _ u => Fetches s u
  | .answer o => ∀ t, o = .next t → ∃ u, Fetches s u ∧ Moves u t

section
variable {s t : State PinId} {c : Ctx PinId}

theorem from_answer (h : Fetches s t) (f : Fault) : (Turn.answer (.next (t.enterFault f))).From s := by
  rintro _ ⟨⟩
  exact ⟨t, h, .inl (quiet_enterFault t f)⟩

theorem resume_from (h : Fetches s t) : (resume t c).From s := by
  unfold resume
  split
  · exact from_answer h _
  · split
    · exact h
    · exact from_answer h _

theorem accept_from (h : Fetches s t) (hports : t.ports = s.ports) (hc : t.ctx t.active = some c) (hb : c.busy = false) :
    (accept t c).From s := by
  unfold accept
  split
  · rintro _ ⟨⟩
    exact ⟨t, h, .inl (quiet_refl t)⟩
  · next cmd rest hq =>
    have hu : Fetches s (t.modCtx t.active fun x => { x with queue := rest }) :=
      ⟨h.cfg, h.hist, h.line, h.claimed, h.lock, t.active, fun _ => rest, by rw [State.modCtx_ports, hports]⟩
    dsimp only
    split
    · exact hu
    · rintro _ ⟨⟩
      refine ⟨_, hu, .inr ⟨_, (acts_present (c := { c with queue := rest }) ?_ hb).then_quiet (quiet_enterFault _ _)⟩⟩
      exact (State.ctx_modCtx_self t t.active _).trans (congrArg _ hc)

theorem fetch_from (s : State PinId) : (fetch s).From s := by
  unfold fetch
  split
  · rintro _ ⟨⟩
  · split
    · rintro _ ⟨⟩
      exact ⟨s, .of_ports_eq rfl rfl rfl rfl rfl rfl, .inl (quiet_refl s)⟩
    · next p u hch =>
      obtain ⟨ps, k, rfl⟩ : ∃ ps k, u = { s with sched := ps, tick := k } := by
        unfold choose at hch
        split at hch
        · cases hch
          exact ⟨_, _, rfl⟩
        · split at hch <;> cases hch <;> exact ⟨_, _, rfl⟩
      have hu : Fetches s { s with sched := ps, tick := k, active := p } := .of_ports_eq rfl rfl rfl rfl rfl rfl
      unfold turnOf
      dsimp only
      split
      · rintro _ ⟨⟩
        exact ⟨_, hu, .inl (quiet_refl _)⟩
      · next c hc =>
        split
        · exact resume_from hu
        · next hb => exact accept_from hu rfl hc (by simpa using hb)

/-- One step of the block is a fetch and then one atomic step of the chosen port. -/
theorem stepIn_moves [DecidableEq PinId] (h : stepIn s = .next t) : ∃ u, Fetches s u ∧ Moves u t := by
  have hf := fetch_from s
  obtain ⟨i, u, he, hrun⟩ | he := stepIn_next h
  · rw [he] at hf
    exact ⟨u, hf, execIn_moves hrun⟩
  · rw [he] at hf
    exact hf t rfl

end

/-! The invariants of 10_state.md. -/

section
variable {s t : State PinId} {e : Event}

theorem Fetches.length_eq (h : Fetches s t) : t.ports.length = s.ports.length := by
  obtain ⟨p, q, hp⟩ := h.ports
  rw [hp, List.length_modify]

theorem Moves.config (h : Moves s t) : t.cfg = s.cfg ∧ t.active = s.active ∧ t.sched = s.sched := by
  obtain h | ⟨e, h⟩ := h
  · exact ⟨h.cfg, h.active, h.sched⟩
  · exact ⟨h.cfg, h.active, h.sched⟩

/-- The frame of an atomic step on the contexts. -/
theorem Moves.ctx (h : Moves s t) : OwnCtx CtxFrame s t := by
  obtain h | ⟨e, h⟩ := h
  · exact h.ctx.mono fun c d hd => (ctxFrame_refl c).of_header_eq rfl hd
  · exact h.ctx.mono fun c d hd => hd.toCtxFrame

theorem Fetches.lockInv (h : Fetches s t) (hs : LockInv s) : LockInv t := by
  obtain ⟨p, q, hp⟩ := h.ports
  exact lockInv_of_same hs h.lock hp fun _ _ => rfl

theorem Quiet.lockInv (h : Quiet s t) (hs : LockInv s) : LockInv t := by
  obtain ⟨g, hg, hr⟩ := h.ctx
  exact lockInv_of_same hs h.lock hg fun c hc => holdsLock_of_header_eq (hr c hc)

/-- `ACQ` and `RLS` change `LOCK` and the port's `holds_lock` together, other events neither (10_state.md R41). -/
theorem Acts.lockInv (h : Acts e s t) (hs : LockInv s) : LockInv t := by
  obtain ⟨g, hg, hr⟩ := h.ctx
  have hheld (c : Ctx PinId) (hc : s.ctx s.active = some c) : (g c).holdsLock = e.holds c.holdsLock := (hr c hc).holdsLock
  have hlock := h.lock
  have hen := h.enabled
  cases e with
  | acq => exact lockInv_acquire hs hen hlock hg hheld
  | rls => exact lockInv_release hs hen hlock hg hheld
  | _ => exact lockInv_of_same hs hlock hg hheld

theorem lockInv_powerOn (g : Config) : LockInv (State.powerOn g : State PinId) := by
  intro p c hc
  obtain rfl : c = Ctx.powerOn := List.eq_of_mem_replicate (List.mem_of_getElem? hc)
  simp [Ctx.powerOn, State.powerOn]

theorem claimInv_of_eq (hline : t.line = s.line) (hclaimed : t.claimed = s.claimed) (hs : claimInv s = true) :
    claimInv t = true := by
  rw [claimInv_iff, hline, hclaimed, ← claimInv_iff]
  exact hs

/-- A claim and a release change a line and its claim together, a drive only claimed lines (10_state.md R43). -/
theorem Acts.claimInv (h : Acts e s t) (hs : claimInv s = true) : claimInv t = true := by
  have hline := h.line
  have hclaimed := h.claimed
  have hen := h.enabled
  cases e with
  | claim l ok =>
    cases ok with
    | true => exact claimInv_set hs (v := .x) (b := true) (by simp) hline hclaimed
    | false => exact claimInv_of_eq hline hclaimed hs
  | rel l => exact claimInv_set hs (v := .z) (b := false) (by simp) hline hclaimed
  | drv l v => exact claimInv_drive hs hen hline hclaimed
  | drvf l v took =>
    cases took with
    | true => exact claimInv_drive hs hen hline hclaimed
    | false => exact claimInv_of_eq hline hclaimed hs
  | drvAll v => exact claimInv_driveAll hen hline hclaimed
  | drvAllf v took =>
    cases took with
    | true => exact claimInv_driveAll hen hline hclaimed
    | false => exact claimInv_of_eq hline hclaimed hs
  | _ => exact claimInv_of_eq hline hclaimed hs

/-- The event that an atomic step has appended says what became of the lines. -/
theorem Moves.line_of_hist {p : Nat} (h : Moves s t) (hh : t.hist = s.hist ++ [⟨p, e⟩]) :
    t.line = (e.levels s.line).getD s.line := by
  obtain h | ⟨e', h⟩ := h
  · simp [h.hist] at hh
  · obtain rfl : e' = e := by
      have hlast := List.append_cancel_left (h.hist.symm.trans hh)
      cases hlast
      rfl
    exact h.line

end

/-- Settles O40: an atomic step is `Quiet` or `Acts`, and both keep the frame of the contexts. -/
theorem otherPortsUnchanged : Obligations.OtherPortsUnchanged := by
  unfold Obligations.OtherPortsUnchanged
  intro i s t h
  rw [exec_eq_execIn] at h
  have hm := execIn_moves h
  obtain ⟨hcfg, hactive, hsched⟩ := hm.config
  refine ⟨hcfg, hactive, hsched, hm.ctx.length_eq, fun q => hm.ctx.other, fun c d hc hd => ?_⟩
  obtain ⟨d', hd', hframe⟩ := hm.ctx.own hc
  cases hd'.symm.trans hd
  exact ⟨hframe.queue, hframe.outcome, hframe.command⟩

/-- Settles O52: only `ACQ` and `RLS` move the lock, and both write `LOCK` and `holds_lock` together. -/
theorem everyStepKeepsLockInv : Obligations.EveryStepKeepsLockInv := by
  unfold Obligations.EveryStepKeepsLockInv
  refine ⟨fun _ g => lockInv_powerOn g, fun s t hs h => ?_⟩
  rw [step_eq_stepIn] at h
  obtain ⟨u, hu, hm | ⟨e, hm⟩⟩ := stepIn_moves h
  · exact hm.lockInv (hu.lockInv hs)
  · exact hm.lockInv (hu.lockInv hs)

/-- Settles O53: lines and claims change as the step's event says, and a drive needs its claim. -/
theorem everyStepKeepsClaimInv : Obligations.EveryStepKeepsClaimInv := by
  unfold Obligations.EveryStepKeepsClaimInv
  refine ⟨fun _ _ => rfl, fun s t hs h => ?_⟩
  rw [step_eq_stepIn] at h
  obtain ⟨u, hu, hm⟩ := stepIn_moves h
  have hus : claimInv u = true := claimInv_of_eq hu.line hu.claimed hs
  constructor
  · obtain hm | ⟨e, hm⟩ := hm
    · exact claimInv_of_eq hm.line hm.claimed hus
    · exact hm.claimInv hus
  · intro p e hh
    rw [← hu.hist] at hh
    have hline := hm.line_of_hist hh
    rw [hu.line] at hline
    cases e with
    | claim l ok => cases ok <;> exact hline
    | drvf l v took => cases took <;> exact hline
    | drvAllf v took => cases took <;> exact hline
    | _ => exact hline

/-- Settles O54: neither the fetch nor an atomic step writes the configuration or adds a port. -/
theorem configurationIsFixed : Obligations.ConfigurationIsFixed := by
  unfold Obligations.ConfigurationIsFixed
  intro s t h
  rw [step_eq_stepIn] at h
  obtain ⟨u, hu, hm⟩ := stepIn_moves h
  obtain ⟨hcfg, -, -⟩ := hm.config
  exact ⟨hcfg.trans hu.cfg, hm.ctx.length_eq.trans hu.length_eq⟩

end Sys2Proof.Machine
end

section
/-! What a step leaves in the history (20_memory.md R80 to R86, R97): the events it appends say what becomes of the lines, the
chain, `LOCK` and `BUF`. -/

namespace Sys2Proof.Machine

variable {PinId : Type}

theorem foldHist_append (x : Quad Level × Chain) (h h' : List Entry) :
    foldHist x (h ++ h') = foldHist (foldHist x h) h' := List.foldl_append

theorem lockWalk_append {h h' : List Entry} {k l : Option Nat} (hw : lockWalk k h = some l) :
    lockWalk k (h ++ h') = lockWalk l h' := by
  induction h generalizing k with
  | nil =>
    cases hw
    rfl
  | cons e es ih =>
    simp only [List.cons_append, lockWalk] at hw ⊢
    split at hw <;> simp_all

theorem bufWalk_append {h h' : List Entry} {v w : Option Int} (hw : bufWalk v h = some w) :
    bufWalk v (h ++ h') = bufWalk w h' := by
  induction h generalizing v with
  | nil =>
    cases hw
    rfl
  | cons e es ih =>
    simp only [List.cons_append, bufWalk] at hw ⊢
    split at hw <;> simp_all

/-- An event that its step was enabled for moves the walk to the holder that it makes (20_memory.md R85, R86). -/
theorem lockWalk_of_enabled {s : State PinId} {e : Event} (he : e.Enabled s) :
    lockWalk s.lock [⟨s.active, e⟩] = some (e.holder s.active s.lock) := by
  cases e with
  | acq | rls => exact if_pos he
  | _ => rfl

theorem foldHist_line {x : Quad Level × Chain} {p : Nat} {e : Event} :
    (foldHist x [⟨p, e⟩]).1 = (e.levels x.1).getD x.1 := by
  show (foldEvent x ⟨p, e⟩).1 = _
  unfold foldEvent
  cases e.levels x.1 <;> rfl

/-- The events of an atomic step lead from the old lines and lock to the new ones. -/
theorem Moves.walks {s t : State PinId} (h : Moves s t) : ∃ es, t.hist = s.hist ++ es ∧
    lockWalk s.lock es = some t.lock ∧ ∀ c, (foldHist (s.line, c) es).1 = t.line := by
  obtain h | ⟨e, h⟩ := h
  · exact ⟨[], by rw [h.hist, List.append_nil], by rw [h.lock]; rfl, fun _ => h.line.symm⟩
  · exact ⟨[⟨s.active, e⟩], h.hist, by rw [lockWalk_of_enabled h.enabled, h.lock],
      fun _ => by rw [foldHist_line, h.line]⟩

/-- The events `es` lead from `s` to `t`, and `BUF`, while it is defined, is the latest value written (20_memory.md R83). -/
structure BufFollows (es : List Entry) (s t : State PinId) : Prop where
  hist : t.hist = s.hist ++ es
  buf : ∀ v, s.buf = none ∨ s.buf = v → ∃ w, bufWalk v es = some w ∧ (t.buf = none ∨ t.buf = w)

/-- As `BufFollows`, and the events say what becomes of the chain, whose width is not written anew (20_memory.md R97). -/
structure Follows (es : List Entry) (s t : State PinId) : Prop extends BufFollows es s t where
  wires : (t.line, t.chain) = foldHist (s.line, s.chain) es
  cap : t.cap = s.cap ∨ t.cap = none

theorem BufFollows.trans {es es' : List Entry} {s t u : State PinId} (h : BufFollows es s t) (h' : BufFollows es' t u) :
    BufFollows (es ++ es') s u where
  hist := by rw [h'.hist, h.hist, List.append_assoc]
  buf v hv := by
    obtain ⟨w, hw, hb⟩ := h.buf v hv
    obtain ⟨w', hw', hb'⟩ := h'.buf w hb
    exact ⟨w', by rw [bufWalk_append hw, hw'], hb'⟩

theorem Follows.trans {es es' : List Entry} {s t u : State PinId} (h : Follows es s t) (h' : Follows es' t u) :
    Follows (es ++ es') s u where
  toBufFollows := h.toBufFollows.trans h'.toBufFollows
  wires := by rw [h'.wires, h.wires, foldHist_append]
  cap := by
    obtain e | e := h'.cap
    · rw [e]
      exact h.cap
    · exact .inr e

/-- A change of what neither the history nor the chain nor `BUF` speaks of. -/
theorem follows_nil {s t : State PinId} (hhist : t.hist = s.hist) (hline : t.line = s.line) (hchain : t.chain = s.chain)
    (hbuf : t.buf = s.buf ∨ t.buf = none) (hcap : t.cap = s.cap ∨ t.cap = none) : Follows [] s t where
  hist := hhist.trans (List.append_nil _).symm
  buf v hv := by
    refine ⟨v, rfl, ?_⟩
    obtain e | e := hbuf
    · exact e ▸ hv
    · exact .inl e
  wires := by rw [hline, hchain]; rfl
  cap := hcap

theorem follows_refl (s : State PinId) : Follows [] s s := follows_nil rfl rfl rfl (.inl rfl) (.inl rfl)

theorem Follows.modCtx {es : List Entry} {s t : State PinId} (h : Follows es s t) (p : Nat) (f : Ctx PinId → Ctx PinId) :
    Follows es s (t.modCtx p f) :=
  ⟨⟨h.hist, h.buf⟩, h.wires, h.cap⟩

theorem Follows.enterFault {es : List Entry} {s t : State PinId} (h : Follows es s t) (f : Fault) :
    Follows es s (t.enterFault f) :=
  ⟨⟨h.hist, h.buf⟩, h.wires, h.cap⟩

/-! The micro-steps (40_sequencer.md R164 to R173). -/

/-- An event that is no BRD or BWR, appended with its change of the lines. -/
theorem follows_log {s u : State PinId} {p : Nat} {e : Event} (he : ∀ v, bufWalk v [⟨p, e⟩] = some v)
    (hhist : u.hist = s.hist) (hbuf : u.buf = s.buf) (hcap : u.cap = s.cap)
    (hwires : (u.line, u.chain) = foldEvent (s.line, s.chain) ⟨p, e⟩) : Follows [⟨p, e⟩] s (u.log p e) :=
  ⟨⟨congrArg (· ++ _) hhist, fun v hv => ⟨v, he v, hbuf ▸ hv⟩⟩, hwires, .inl hcap⟩

/-- If the micro-step is done, or the backend failed it, what it has appended says what it did. -/
def Result.FollowsFrom (s : State PinId) (r : Result PinId) : Prop :=
  match r with
  | .ok u => ∃ es, Follows es s u
  | .failed u => ∃ es, Follows es s u
  | .held => True
  | .fault _ => True

theorem runBufRead_followsFrom (s : State PinId) (f : Int → Ctx PinId → Ctx PinId) : (runBufRead s f).FollowsFrom s := by
  obtain ⟨-, e⟩ | ⟨v, hv, e⟩ := runBufRead_cases s f <;> rw [e]
  · trivial
  · refine ⟨[⟨s.active, .brd v⟩], ⟨rfl, fun w hw => ⟨w, ?_, hw⟩⟩, rfl, .inl rfl⟩
    obtain hw | hw := hw
    · rw [hv] at hw
      cases hw
    · exact if_pos (hw.symm.trans hv)

/-- A failing drive of the lines to `ls`. -/
theorem follows_failed {s : State PinId} {p : Nat} {e : Event} {ls : Quad Level} (he : ∀ v, bufWalk v [⟨p, e⟩] = some v)
    (hlevels : e.levels s.line = if s.draw.took then some ls else none) :
    Follows [⟨p, e⟩] s ((if s.draw.took then s.drawn.setLines ls else s.drawn).log p e) := by
  split <;> next ht => exact follows_log he (by simp) (by simp) (by simp) (by simp [foldEvent, hlevels, ht])

theorem run_followsFrom (m : Micro) (s : State PinId) : (m.run s).FollowsFrom s := by
  cases m with
  | drive l v =>
    obtain ⟨-, e⟩ | ⟨-, -, e⟩ | ⟨-, -, e⟩ := runDrive_cases s l v <;> rw [Micro.run, e]
    · trivial
    · exact ⟨_, follows_log (fun _ => rfl) (by simp) (by simp) (by simp) (by simp [foldEvent, Event.levels])⟩
    · exact ⟨_, (follows_failed (fun _ => rfl) rfl).modCtx _ _⟩
  | driveAll v =>
    obtain ⟨-, e⟩ | ⟨-, -, e⟩ | ⟨-, -, e⟩ := runDriveAll_cases s v <;> rw [Micro.run, e]
    · trivial
    · exact ⟨_, follows_log (fun _ => rfl) (by simp) (by simp) (by simp) (by simp [foldEvent, Event.levels])⟩
    · exact ⟨_, (follows_failed (fun _ => rfl) rfl).modCtx _ _⟩
  | lockAcquire =>
    obtain ⟨-, e⟩ | ⟨-, e⟩ := runLockAcquire_cases s <;> rw [Micro.run, e]
    · trivial
    · exact ⟨_, follows_log (fun _ => rfl) rfl rfl rfl rfl⟩
  | lockRelease =>
    obtain ⟨-, e⟩ | ⟨-, e⟩ := runLockRelease_cases s <;> rw [Micro.run, e]
    · trivial
    · exact ⟨_, follows_log (fun _ => rfl) rfl rfl rfl rfl⟩
  | bufReadSnap => exact runBufRead_followsFrom s _
  | bufReadTmp => exact runBufRead_followsFrom s _
  | bufWrite v => exact ⟨_, ⟨rfl, fun _ _ => ⟨v, rfl, .inr rfl⟩⟩, rfl, .inl rfl⟩
  | claim l =>
    obtain ⟨-, e⟩ | ⟨-, -, e⟩ | ⟨-, -, e⟩ := runClaim_cases s l <;> rw [Micro.run, e]
    · trivial
    · exact ⟨_, follows_log (fun _ => rfl) (by simp) (by simp) (by simp) (by simp [foldEvent, Event.levels])⟩
    · exact ⟨_, follows_log (fun _ => rfl) (by simp) (by simp) (by simp) (by simp [foldEvent, Event.levels])⟩
  | release l =>
    obtain ⟨-, e⟩ | ⟨-, -, e⟩ | ⟨-, -, -, e⟩ | ⟨-, -, -, e⟩ := runRelease_cases s l <;> rw [Micro.run, e]
    · trivial
    · trivial
    · exact ⟨_, follows_log (fun _ => rfl) (by simp) (by simp) (by simp) (by simp [foldEvent, Event.levels])⟩
    · trivial
  | delay => exact ⟨_, follows_log (fun _ => rfl) rfl rfl rfl rfl⟩
  | complete st r =>
    cases hc : s.ctx s.active with
    | none => simp [Micro.run, runComplete, hc, Result.FollowsFrom]
    | some c =>
      obtain ⟨-, e⟩ | ⟨-, e⟩ := runComplete_cases hc st r <;> rw [Micro.run, e]
      · trivial
      · exact ⟨_, follows_log (fun _ => rfl) rfl rfl rfl rfl⟩

/-- A micro-step at its place follows its events from the state after its writes. -/
theorem perform_follows {f : Fetched PinId} {s t : State PinId} (h : perform f s = .next t) :
    Follows [] s t ∨ ∃ m es, f = .step m ∧ Follows es (m.writes s) t := by
  obtain ⟨-, rfl⟩ | ⟨m, rfl, hrun⟩ := perform_next h
  · exact .inl ((follows_refl s).enterFault _)
  have hfollows := run_followsFrom m.op (m.writes s)
  obtain ⟨u, e, rfl⟩ | ⟨u, e, rfl⟩ | ⟨-, rfl⟩ | ⟨_, -, rfl⟩ := hrun
  · rw [e] at hfollows
    obtain ⟨es, hes⟩ := hfollows
    exact .inr ⟨m, es, rfl, hes.modCtx _ _⟩
  · rw [e] at hfollows
    obtain ⟨es, hes⟩ := hfollows
    exact .inr ⟨m, es, rfl, hes.modCtx _ _⟩
  · exact .inl (follows_refl _)
  · exact .inl ((follows_refl s).enterFault _)

/-! What the micro-steps write besides (40_sequencer.md R162): no line and no chain bit, but for the chain's new width
at INIT's first claim. -/

/-- The writes of what stands at a position append nothing and leave lines, chain and `BUF` alone. -/
def Fetched.WritesFollow (s : State PinId) (f : Fetched PinId) : Prop :=
  match f with
  | .step m => Follows [] s (m.writes s)
  | .undef => True
  | .off => True

theorem Fetched.WritesFollow.orElse {s : State PinId} {f g : Fetched PinId} (hf : f.WritesFollow s) (hg : g.WritesFollow s) :
    (f.orElse g).WritesFollow s := by
  cases f with
  | off => exact hg
  | step m => exact hf
  | undef => trivial

section
variable {s : State PinId} {c : Ctx PinId} {u : UPos} {after onFail : Ctx PinId → Ctx PinId}

theorem writesFollow_clearPulse : (clearPulse after onFail u).WritesFollow s := by
  cases u with
  | clearLow | clearWait | clearHigh => exact follows_refl s
  | _ => trivial

theorem writesFollow_latchPulse : (latchPulse after onFail u).WritesFollow s := by
  cases u with
  | latchLow | latchWait | latchHigh | latchHold | latchFall => exact follows_refl s
  | _ => trivial

theorem writesFollow_shiftLoop : (shiftLoop c u).WritesFollow s := by
  unfold shiftLoop
  split
  · split
    · cases u with
      | shiftData | shiftLow | shiftWait | shiftHigh | shiftHold | shiftFall => exact follows_refl s
      | _ => trivial
    · trivial
  · trivial

theorem writesFollow_transmit {cap : Option Nat} : (transmit cap c after u).WritesFollow s := by
  unfold transmit
  split
  · trivial
  · exact writesFollow_clearPulse
  · exact writesFollow_clearPulse.orElse (writesFollow_shiftLoop.orElse writesFollow_latchPulse)

theorem writesFollow_errorEpilogue : (errorEpilogue c u).WritesFollow s := by
  unfold errorEpilogue
  split
  · exact follows_refl s
  · split
    · exact follows_refl s
    · trivial
  · trivial

theorem writesFollow_commitBody {cap : Option Nat} : (commitBody cap c u).WritesFollow s := by
  unfold commitBody
  split
  · split
    · trivial
    · exact follows_refl s
  · split
    · exact (follows_refl s).modCtx _ _
    · trivial
  · exact follows_refl s
  · exact writesFollow_transmit.orElse writesFollow_errorEpilogue

theorem writesFollow_progCap : (progCap s c u).WritesFollow s := by
  unfold progCap
  split
  · split
    · exact follows_refl s
    · trivial
  · trivial

theorem writesFollow_getBitStep {pos : Arg} : (getBitStep pos s c).WritesFollow s := by
  unfold getBitStep
  split
  · split
    · exact follows_refl s
    · trivial
  · trivial

theorem writesFollow_setBitStep {pos value : Arg} : (setBitStep pos value s c).WritesFollow s := by
  unfold setBitStep
  split
  · split
    · exact follows_refl s
    · trivial
  · trivial

theorem writesFollow_claimStep {pins : Quad PinId} {count : Arg} (hk : c.k ≠ some 0) :
    (claimStep pins count s c).WritesFollow s := by
  unfold claimStep
  split
  · trivial
  · next h => exact absurd h hk
  · split
    · exact follows_refl s
    · trivial

theorem writesFollow_rollbackStep : (rollbackStep c).WritesFollow s := by
  unfold rollbackStep
  split
  · split
    · exact follows_refl s
    · trivial
  · trivial

theorem writesFollow_releaseStep : (releaseStep c).WritesFollow s := by
  unfold releaseStep
  split
  · split
    · exact follows_refl s
    · trivial
  · trivial

theorem writesFollow_progInit {pins : Quad PinId} {count : Arg} (hfirst : ¬ (u = .claim ∧ c.k = some 0)) :
    (progInit pins count s c u).WritesFollow s := by
  cases u with
  | reject | done => exact follows_nil rfl rfl rfl (.inl rfl) (.inl rfl)
  | claim => exact writesFollow_claimStep fun hk => hfirst ⟨rfl, hk⟩
  | rollback => exact writesFollow_rollbackStep
  | claimFailed => exact follows_nil rfl rfl rfl (.inl rfl) (.inr rfl)
  | bufWrite => exact follows_refl s
  | _ => trivial

theorem writesFollow_progFini : (progFini s c u).WritesFollow s := by
  unfold progFini
  split
  · exact follows_refl s
  · exact follows_refl s
  · exact writesFollow_releaseStep
  · exact follows_nil rfl rfl rfl (.inr rfl) (.inr rfl)
  · exact writesFollow_clearPulse.orElse writesFollow_latchPulse

/-- At every position of every micro-program but INIT's first claim. -/
theorem writesFollow_prog [DecidableEq PinId] (i : Instr PinId) (hfirst : ¬ (u = .claim ∧ c.k = some 0)) :
    ((ruleOf i).prog s c u).WritesFollow s := by
  cases i with
  | drvCap | bufCap => exact writesFollow_progCap (c := c)
  | drvClr =>
    show (progDrvClr s c u).WritesFollow s
    unfold progDrvClr
    split
    · exact follows_refl s
    · exact writesFollow_clearPulse.orElse writesFollow_errorEpilogue
  | drvWr word =>
    show (progDrvWr s c u).WritesFollow s
    unfold progDrvWr
    split
    · exact follows_refl s
    · exact follows_refl s
    · exact writesFollow_transmit.orElse writesFollow_errorEpilogue
  | drvZero =>
    show (progDrvZero s c u).WritesFollow s
    unfold progDrvZero
    split
    · exact follows_refl s
    · exact follows_refl s
    · exact writesFollow_errorEpilogue
  | bufClr =>
    show (progBufClr s c u).WritesFollow s
    unfold progBufClr
    split
    · exact follows_refl s
    · exact follows_refl s
    · exact follows_refl s
    · exact follows_refl s
    · exact writesFollow_clearPulse.orElse writesFollow_errorEpilogue
  | bufWr word =>
    show (progBufWr word s c u).WritesFollow s
    unfold progBufWr
    split
    · exact follows_refl s
    · exact follows_refl s
    · exact writesFollow_commitBody
  | bufChk pos =>
    cases u with
    | reject | done => exact follows_refl s
    | _ => trivial
  | bufGet pos =>
    cases u with
    | reject | bufRead => exact follows_refl s
    | done => exact writesFollow_getBitStep
    | _ => trivial
  | bufSet pos value =>
    cases u with
    | reject | done | acquire | bufRead | unlock => exact follows_refl s
    | bufWrite => exact writesFollow_setBitStep
    | _ => trivial
  | bufCommit =>
    show (progBufCommit s c u).WritesFollow s
    unfold progBufCommit
    split
    · exact follows_refl s
    · exact writesFollow_commitBody
  | bufGetbuf =>
    show (progBufGetbuf s c u).WritesFollow s
    unfold progBufGetbuf
    split
    · exact follows_refl s
    · split
      · exact follows_refl s
      · trivial
    · trivial
  | init pins count => exact writesFollow_progInit hfirst
  | fini => exact writesFollow_progFini

end

end Sys2Proof.Machine
end

section
/-! A whole step follows its events, and so the history determines what it is folded to (20_memory.md R80 to R86, R97). -/

namespace Sys2Proof.Machine

variable {PinId : Type}

section
variable {i : Instr PinId} {s t : State PinId} {c : Ctx PinId}

theorem follows_present (s : State PinId) (cmd : Command PinId) :
    Follows [⟨s.active, .issue cmd.opc⟩] s (s.present cmd) := follows_log (fun _ => rfl) rfl rfl rfl rfl

theorem issueStep_follows [DecidableEq PinId] (h : issueStep i (ruleOf i) s = .next t) : ∃ es, Follows es s t := by
  have hp := follows_present s (encode i)
  have hlife (u : State PinId) : Follows [] u ((ruleOf i).onLife u) := by
    cases i with
    | init pins count => exact follows_nil rfl rfl rfl (.inl rfl) (.inl rfl)
    | fini =>
      show Follows [] u (startTeardown u)
      unfold startTeardown
      split <;> exact follows_nil rfl rfl rfl (.inl rfl) (.inl rfl)
    | _ => exact follows_refl u
  obtain ⟨-, rfl⟩ | ⟨-, ⟨f, -, rfl⟩ | ⟨-, e, -, ⟨-, rfl⟩ | ⟨d, -, rfl⟩⟩⟩ := issueStep_next h
  · exact ⟨_, hp.enterFault _⟩
  · exact ⟨_, hp.enterFault _⟩
  · exact ⟨_, hp.enterFault _⟩
  · exact ⟨_, (hp.trans (hlife _)).modCtx _ _⟩

theorem microStep_follows [DecidableEq PinId] (hfirst : ¬ (c.upc = some .claim ∧ c.k = some 0))
    (h : microStep (ruleOf i) c s = .next t) : ∃ es, Follows es s t := by
  unfold microStep at h
  split at h
  · cases h
    exact ⟨[], (follows_refl s).enterFault _⟩
  · next u hu =>
    obtain h | ⟨m, es, hm, h⟩ := perform_follows h
    · exact ⟨[], h⟩
    · have hw := writesFollow_prog (s := s) (u := u) i fun ⟨e, hk⟩ => hfirst ⟨e ▸ hu, hk⟩
      rw [hm] at hw
      exact ⟨es, Follows.trans (es := []) hw h⟩

/-- INIT's first claim gives the chain its width, but writes `BUF` no more than the others. -/
theorem microStep_bufFollows [DecidableEq PinId] (h : microStep (ruleOf i) c s = .next t) : ∃ es, BufFollows es s t := by
  by_cases hfirst : c.upc = some .claim ∧ c.k = some 0
  · obtain ⟨hu, hk⟩ := hfirst
    simp only [microStep, hu] at h
    obtain h | ⟨m, es, hm, h⟩ := perform_follows h
    · exact ⟨[], h.toBufFollows⟩
    · have hw : BufFollows [] s (m.writes s) := by
        cases i with
        | init pins count =>
          simp only [ruleOf, progInit, claimStep, hk] at hm
          split at hm <;> cases hm
          exact ⟨(List.append_nil _).symm, fun v hv => ⟨v, rfl, hv⟩⟩
        | _ => cases hm
      exact ⟨es, hw.trans (es := []) h.toBufFollows⟩
  · obtain ⟨es, h⟩ := microStep_follows hfirst h
    exact ⟨es, h.toBufFollows⟩

theorem execIn_bufFollows [DecidableEq PinId] (h : execIn i s = .next t) : ∃ es, BufFollows es s t := by
  rw [execIn_eq_runRule] at h
  obtain ⟨-, c, -, ⟨-, h⟩ | ⟨-, h⟩⟩ := runRule_next h
  · exact microStep_bufFollows h
  · obtain ⟨es, h⟩ := issueStep_follows h
    exact ⟨es, h.toBufFollows⟩

/-! INIT's first claim: the lines float still, and with floating lines the chain is unknown (20_memory.md R96). -/

/-- A claim, successful or failing, leaves the other lines as they were, and sets no mark. -/
theorem runClaim_floating {l k : Line} {s u : State PinId} (hkl : k ≠ l) (hz : s.line.get k = .z)
    (h : runClaim s l = .ok u ∨ runClaim s l = .failed u) : floating u.line = true ∧ u.mark = s.mark := by
  have hset : floating (s.line.set l .x) = true := floating_iff.mpr ⟨k, by rw [quad_get_set, if_neg hkl, hz]⟩
  have hs : floating s.line = true := floating_iff.mpr ⟨k, hz⟩
  obtain ⟨-, e⟩ | ⟨-, -, e⟩ | ⟨-, -, e⟩ := runClaim_cases s l <;> rw [e] at h <;> obtain h | h := h <;> cases h
  · exact ⟨hset, State.drawn_mark s⟩
  · exact ⟨by simpa using hs, State.drawn_mark s⟩

theorem perform_firstClaim {n : Nat} {pins : Quad PinId} {next onFail : Ctx PinId → Ctx PinId} (hz : s.line.sclk = .z)
    (h : perform (.step { op := .claim .sdata, next := next, onFail := onFail, writes := firstClaimWrites n pins }) s = .next t) :
    Follows [] s t ∨ floating t.line = true ∧ t.mark = s.mark := by
  obtain ⟨hc, -⟩ | ⟨m, hm, hrun⟩ := perform_next h
  · cases hc
  cases hm
  have hclaim (u : State PinId) := runClaim_floating (k := .sclk) (l := .sdata) (s := firstClaimWrites n pins s) (u := u)
    (by decide) hz
  obtain ⟨u, e, rfl⟩ | ⟨u, e, rfl⟩ | ⟨-, rfl⟩ | ⟨_, -, rfl⟩ := hrun
  · exact .inr (hclaim u (.inl e))
  · exact .inr (hclaim u (.inr e))
  · exact .inl (follows_refl _)
  · exact .inl ((follows_refl s).enterFault _)

/-- From a state in order a step follows its events, or leaves the lines floating. -/
theorem microStep_follows_or_floating [DecidableEq PinId] (hs : Sound s) (hc : s.ctx s.active = some c) (hr : Runs c i)
    (h : microStep (ruleOf i) c s = .next t) : (∃ es, Follows es s t) ∨ floating t.line = true ∧ t.mark = s.mark := by
  by_cases hfirst : c.upc = some .claim ∧ c.k = some 0
  swap
  · exact .inl (microStep_follows hfirst h)
  obtain ⟨hu, hk⟩ := hfirst
  simp only [microStep, hu] at h
  cases i with
  | init pins count =>
    obtain ⟨u, hu', hpos⟩ := (ctxOk_iff_of_runs hr).mp (hs.ctx _ _ hc)
    cases hu.symm.trans hu'
    obtain ⟨hl, hf⟩ := building_of_posOk hpos
    obtain ⟨k, hk', -, hclaimed, -⟩ := (initOk_claim hl hf).mp (posOk_init.mp hpos).2
    cases hk.symm.trans hk'
    have hz : s.line.get .sclk = .z := (claimInv_iff.mp hs.claim .sclk).mpr (by simp [claimedRange_iff.mp hclaimed])
    simp only [ruleOf, progInit, claimStep, hk] at h
    split at h
    · exact (perform_firstClaim hz h).imp (fun h => ⟨[], h⟩) id
    · cases h
  | _ => cases h

theorem execIn_follows_or_floating [DecidableEq PinId] (hs : Sound s)
    (hr : ∀ c, s.ctx s.active = some c → c.busy = true → Runs c i) (h : execIn i s = .next t) :
    (∃ es, Follows es s t) ∨ floating t.line = true ∧ t.mark = s.mark := by
  rw [execIn_eq_runRule] at h
  obtain ⟨-, c, hc, ⟨hb, h⟩ | ⟨-, h⟩⟩ := runRule_next h
  · exact microStep_follows_or_floating hs hc (hr c hc hb) h
  · exact .inl (issueStep_follows h)

end

/-! The fetch. -/

/-- What a step comes to before any instruction runs appends at most the ISSUE of a command that does not decode. -/
def Turn.FollowsFrom (s : State PinId) (x : Turn PinId) : Prop :=
  match x with
  | .run _ u => Follows [] s u ∧ u.mark = s.mark
  | .answer o => ∀ t, o = .next t → ∃ es, Follows es s t

section
variable {s t : State PinId} {c : Ctx PinId}

theorem followsFrom_answer {es : List Entry} (h : Follows es s t) : (Turn.answer (.next t)).FollowsFrom s := by
  rintro _ ⟨⟩
  exact ⟨es, h⟩

theorem resume_followsFrom (h : Follows [] s t) (hm : t.mark = s.mark) : (resume t c).FollowsFrom s := by
  unfold resume
  split
  · exact followsFrom_answer (h.enterFault _)
  · split
    · exact ⟨h, hm⟩
    · exact followsFrom_answer (h.enterFault _)

theorem accept_followsFrom (h : Follows [] s t) (hm : t.mark = s.mark) : (accept t c).FollowsFrom s := by
  unfold accept
  split
  · exact followsFrom_answer h
  · next cmd rest hq =>
    have hu := h.modCtx t.active fun x => { x with queue := rest }
    dsimp only
    split
    · exact ⟨hu, hm⟩
    · exact followsFrom_answer ((hu.trans (follows_present _ cmd)).enterFault _)

theorem fetch_followsFrom (s : State PinId) : (fetch s).FollowsFrom s := by
  unfold fetch
  split
  · rintro _ ⟨⟩
  · split
    · exact followsFrom_answer (follows_refl s)
    · next p u hch =>
      obtain ⟨hu, hm⟩ : Follows [] s { u with active := p } ∧ u.mark = s.mark := by
        have hset (ps : List Nat) (k : Nat) : Follows [] s { s with sched := ps, tick := k, active := p } :=
          follows_nil rfl rfl rfl (.inl rfl) (.inl rfl)
        unfold choose at hch
        split at hch
        · cases hch
          exact ⟨hset _ _, rfl⟩
        · split at hch <;> cases hch <;> exact ⟨hset _ _, rfl⟩
      unfold turnOf
      dsimp only
      split
      · exact followsFrom_answer hu
      · split
        · exact resume_followsFrom hu hm
        · exact accept_followsFrom hu hm

theorem stepIn_bufFollows [DecidableEq PinId] (h : stepIn s = .next t) : ∃ es, BufFollows es s t := by
  have hf := fetch_followsFrom s
  obtain ⟨i, u, he, hrun⟩ | he := stepIn_next h <;> rw [he] at hf
  · obtain ⟨es, h⟩ := execIn_bufFollows hrun
    exact ⟨es, hf.1.toBufFollows.trans h⟩
  · obtain ⟨es, h⟩ := hf t rfl
    exact ⟨es, h.toBufFollows⟩

theorem stepIn_follows_or_floating [DecidableEq PinId] (hs : Inv s) (h : stepIn s = .next t) :
    (∃ es, Follows es s t) ∨ floating t.line = true ∧ t.mark = s.mark := by
  have hf := fetch_followsFrom s
  have hok := fetch_turnOk hs
  obtain ⟨i, u, he, hrun⟩ | he := stepIn_next h <;> rw [he] at hf hok
  · obtain ⟨es, h⟩ | ⟨hfl, hm⟩ := execIn_follows_or_floating hok.1 hok.2 hrun
    · exact .inl ⟨es, hf.1.trans h⟩
    · exact .inr ⟨hfl, hm.trans hf.2⟩
  · exact .inl (hf t rfl)

/-- The events of a step lead from the old lines and lock to the new ones. -/
theorem stepIn_walks [DecidableEq PinId] (h : stepIn s = .next t) : ∃ es, t.hist = s.hist ++ es ∧
    lockWalk s.lock es = some t.lock ∧ ∀ c, (foldHist (s.line, c) es).1 = t.line := by
  obtain ⟨u, hu, hm⟩ := stepIn_moves h
  have hw := hm.walks
  rwa [hu.hist, hu.lock, hu.line] at hw

end

/-! The fold from power-on. -/

/-- With floating lines the chain's width says all of it (20_memory.md R96). -/
theorem ChainFits.eq_unknown {n : Nat} {line : Quad Level} {c : Chain} (h : ChainFits (some n) line c)
    (hf : floating line = true) : c = ⟨List.replicate n .x, List.replicate n .x⟩ := by
  have hs := h.width n rfl
  rw [h.afloat hf, Chain.unknown, fillStage, fillStage, List.map_const', List.map_const', ← h.len, hs]

theorem chainFits_foldHist {cap : Option Nat} {x : Quad Level × Chain} (hx : ChainFits cap x.1 x.2) (h : List Entry) :
    ChainFits cap (foldHist x h).1 (foldHist x h).2 := by
  induction h generalizing x with
  | nil => exact hx
  | cons e es ih =>
    refine ih (x := foldEvent x e) ?_
    unfold foldEvent
    split
    · exact hx.react _
    · exact hx

theorem chainFits_observe (n : Nat) (h : List Entry) : ChainFits (some n) (observe n h).1 (observe n h).2 := by
  refine chainFits_foldHist ⟨rfl, ?_, fun _ => ?_, fun hf => ?_, fun hx => ?_⟩ h
  · rintro m ⟨⟩
    exact List.length_replicate
  · simp [Chain.unknown, fillStage]
  · cases hf
  · cases hx

/-- Settles O50: an atomic step is `Quiet` or appends the event that it acts by. -/
theorem historyGrowsByOneEvent : Obligations.HistoryGrowsByOneEvent := by
  unfold Obligations.HistoryGrowsByOneEvent
  intro s t h
  rw [step_eq_stepIn] at h
  obtain ⟨u, hu, hm | ⟨e, hm⟩⟩ := stepIn_moves h
  · exact .inl (hm.hist.trans hu.hist)
  · exact .inr ⟨e, by rw [hm.hist, hu.hist, hm.active]⟩

/-- Settles O51: the events of a step carry the walk from `BUF` before it to `BUF` after it. -/
theorem readsReturnLatestWrite : Obligations.ReadsReturnLatestWrite := by
  unfold Obligations.ReadsReturnLatestWrite
  intro s t v hv hb h
  rw [step_eq_stepIn] at h
  obtain ⟨es, hes⟩ := stepIn_bufFollows h
  obtain ⟨w, hw, hb'⟩ := hes.buf v hb
  exact ⟨w, by rw [hes.hist, bufWalk_append hv, hw], hb'⟩

/-- Settles O49: the events of a step carry the fold and the walk on. Only INIT's first claim gives the chain a new width, and
there both the chain and the fold are unknown, because lines float. -/
theorem historyDeterminesOutputsAndLock : Obligations.HistoryDeterminesOutputsAndLock := by
  unfold Obligations.HistoryDeterminesOutputsAndLock
  rintro s t hinv hm ⟨hline, hchain, hlock⟩ h
  rw [step_eq_stepIn] at h
  obtain ⟨es, hhist, hlock', hline'⟩ := stepIn_walks h
  have hlines (w : Nat) : (observe w t.hist).1 = t.line := by
    rw [← hline' (observe w s.hist).2, ← hline w, hhist]
    exact congrArg Prod.fst (foldHist_append _ _ _)
  refine ⟨hlines, fun n hn => ?_, by rw [hhist, lockWalk_append hlock, hlock']⟩
  obtain ⟨es', hf⟩ | ⟨hfl, hmark⟩ := stepIn_follows_or_floating hinv h
  · have hcap : s.cap = some n := by
      obtain e | e := hf.cap
      · exact e.symm.trans hn
      · rw [e] at hn
        cases hn
    have hobs : observe n s.hist = (s.line, s.chain) := Prod.ext (hline n) (hchain n hcap)
    have hobs' : observe n t.hist = (t.line, t.chain) := by
      rw [hf.wires, ← hobs, hf.hist]
      exact foldHist_append _ _ _
    rw [hobs']
  · obtain ⟨-, -, hfits, -⟩ := stepIn_keeps_inv hinv h (hmark.trans hm)
    rw [chainInv_iff, hn] at hfits
    rw [hfits.eq_unknown hfl, (chainFits_observe n t.hist).eq_unknown (by rw [hlines, hfl])]

end Sys2Proof.Machine
end

section
/-! The commands that drive no line, INIT and FINI apart: DRV.CAP, BUF.CAP, BUF.CHK, BUF.GET, BUF.SET and BUF.GETBUF. What they
leave unchanged (20_memory.md R77, 42_wrapper.md R240 to R253), and the lock (R166). -/

namespace Sys2Proof.Machine

variable {PinId : Type}

/-- How the context of a port that stands at `u` changes when the port works with the buffer only; `b` is `BUF`. -/
structure BufCtx (u : Option UPos) (b : Option Int) (c d : Ctx PinId) : Prop where
  snap : d.snap = c.snap
  k : d.k = c.k
  j : d.j = c.j
  i : d.i = c.i
  n : d.n = c.n
  tmp : d.tmp = c.tmp ∨ u = some .bufRead ∧ d.tmp = b
  holdsLock : u ≠ some .acquire → u ≠ some .unlock → d.holdsLock = c.holdsLock

theorem BufCtx.goto {u : Option UPos} {b : Option Int} {c d : Ctx PinId} (h : BufCtx u b c d) (v : UPos) :
    BufCtx u b c (goto v d) :=
  ⟨h.snap, h.k, h.j, h.i, h.n, h.tmp, h.holdsLock⟩

theorem bufCtx_refl (u : Option UPos) (b : Option Int) (c : Ctx PinId) : BufCtx u b c c :=
  ⟨rfl, rfl, rfl, rfl, rfl, .inl rfl, fun _ _ => rfl⟩

/-- A step of a port that stands at `u` and works with the buffer only: `BUF` changes at a BufWrite, `LOCK` at a lock micro-step,
and no other engine register, no line and no chain bit changes. -/
structure BufFrame (u : Option UPos) (s t : State PinId) : Prop where
  life : t.life = s.life
  cc : t.cc = s.cc
  cap : t.cap = s.cap
  pins : t.pins = s.pins
  claimed : t.claimed = s.claimed
  line : t.line = s.line
  chain : t.chain = s.chain
  draws : t.draws = s.draws
  buf : u ≠ some .bufWrite → t.buf = s.buf
  lock : u ≠ some .acquire → u ≠ some .unlock → t.lock = s.lock
  ctx : OwnCtx (BufCtx u s.buf) s t

/-- A step that changes no engine register at all. -/
theorem bufFrame_ctx {u : Option UPos} {s : State PinId} {g : Ctx PinId → Ctx PinId} (h : List Entry) (m : Option Fault)
    (hg : ∀ c, s.ctx s.active = some c → BufCtx u s.buf c (g c)) :
    BufFrame u s { s with hist := h, mark := m, ports := s.ports.modify s.active g } :=
  ⟨rfl, rfl, rfl, rfl, rfl, rfl, rfl, rfl, fun _ => rfl, fun _ _ => rfl, g, rfl, hg⟩

theorem bufFrame_enterFault (u : Option UPos) (s : State PinId) (f : Fault) : BufFrame u s (s.enterFault f) :=
  ⟨rfl, rfl, rfl, rfl, rfl, rfl, rfl, rfl, fun _ => rfl, fun _ _ => rfl, .of_ports_eq rfl (bufCtx_refl _ _)⟩

theorem bufFrame_refl (u : Option UPos) (s : State PinId) : BufFrame u s s :=
  ⟨rfl, rfl, rfl, rfl, rfl, rfl, rfl, rfl, fun _ => rfl, fun _ _ => rfl, .of_ports_eq rfl (bufCtx_refl _ _)⟩

/-- What a micro-program that drives no line has at position `u`. -/
inductive BufStep (u : UPos) : Fetched PinId → Prop
  | off : BufStep u .off
  | undef : BufStep u .undef
  | complete (st : Status) (r : Option Int) : BufStep u (completeStep st r)
  | read (v : UPos) (hu : u = .bufRead) : BufStep u (.step { op := .bufReadTmp, next := goto v })
  | write (x : Option Int) (v : UPos) (hu : u = .bufWrite) : BufStep u (.step { op := .bufWrite x, next := goto v })
  | acquire (v : UPos) (hu : u = .acquire) : BufStep u (.step { op := .lockAcquire, next := goto v })
  | unlock (v : UPos) (hu : u = .unlock) : BufStep u (.step { op := .lockRelease, next := goto v })

theorem BufStep.frame {u : UPos} {f : Fetched PinId} {s t : State PinId} {c : Ctx PinId} (hc : s.ctx s.active = some c)
    (hf : BufStep u f) (h : perform f s = .next t) : BufFrame (some u) s t := by
  cases hf with
  | off => cases h
  | undef =>
    cases h
    exact bufFrame_enterFault _ _ _
  | complete st r =>
    simp only [perform, completeStep, Micro.run, id_eq] at h
    obtain ⟨-, e⟩ | ⟨-, e⟩ := runComplete_cases hc st r <;> rw [e] at h <;> cases h
    · exact bufFrame_enterFault _ _ _
    · rw [State.modCtx_id]
      exact bufFrame_ctx _ _ fun d _ => ⟨rfl, rfl, rfl, rfl, rfl, .inl rfl, fun _ _ => rfl⟩
  | read v hu =>
    subst hu
    simp only [perform, Micro.run, id_eq] at h
    obtain ⟨-, e⟩ | ⟨x, hx, e⟩ := runBufRead_cases s (fun v c => { c with tmp := some v }) <;> rw [e] at h <;> cases h
    · exact bufFrame_enterFault _ _ _
    · refine ⟨rfl, rfl, rfl, rfl, rfl, rfl, rfl, rfl, fun _ => rfl, fun _ _ => rfl, _,
        congrArg State.ports (State.modCtx_modCtx s _ _ _), fun d _ => ?_⟩
      exact ⟨rfl, rfl, rfl, rfl, rfl, .inr ⟨rfl, hx.symm⟩, fun _ _ => rfl⟩
  | write x v hu =>
    subst hu
    cases h
    exact ⟨rfl, rfl, rfl, rfl, rfl, rfl, rfl, rfl, fun h => absurd rfl h, fun _ _ => rfl, _, rfl,
      fun d _ => (bufCtx_refl _ _ d).goto v⟩
  | acquire v hu =>
    subst hu
    simp only [perform, Micro.run, id_eq] at h
    obtain ⟨-, e⟩ | ⟨-, e⟩ := runLockAcquire_cases s <;> rw [e] at h <;> cases h
    · exact bufFrame_refl _ _
    · refine ⟨rfl, rfl, rfl, rfl, rfl, rfl, rfl, rfl, fun _ => rfl, fun h => absurd rfl h, _,
        congrArg State.ports (State.modCtx_modCtx s _ _ _), fun d _ => ?_⟩
      exact ⟨rfl, rfl, rfl, rfl, rfl, .inl rfl, fun h => absurd rfl h⟩
  | unlock v hu =>
    subst hu
    simp only [perform, Micro.run, id_eq] at h
    obtain ⟨-, e⟩ | ⟨-, e⟩ := runLockRelease_cases s <;> rw [e] at h <;> cases h
    · exact bufFrame_enterFault _ _ _
    · refine ⟨rfl, rfl, rfl, rfl, rfl, rfl, rfl, rfl, fun _ => rfl, fun _ h => absurd rfl h, _,
        congrArg State.ports (State.modCtx_modCtx s _ _ _), fun d _ => ?_⟩
      exact ⟨rfl, rfl, rfl, rfl, rfl, .inl rfl, fun _ h => absurd rfl h⟩

section
variable {i : Instr PinId} {s t : State PinId} {c d : Ctx PinId} {u : UPos}

theorem bufStep_progCap : BufStep u (progCap s c u) := by
  unfold progCap
  split
  · split
    · exact .complete _ _
    · exact .undef
  · exact .off

theorem bufStep_getBitStep {pos : Arg} : BufStep u (getBitStep pos s c) := by
  unfold getBitStep
  split
  · split
    · exact .complete _ _
    · exact .off
  · exact .undef

theorem bufStep_setBitStep {pos value : Arg} : BufStep .bufWrite (setBitStep pos value s c) := by
  unfold setBitStep
  split
  · split
    · exact .write _ _ rfl
    · exact .off
  · exact .undef

theorem bufStep_prog [DecidableEq PinId] (hd : drivesLines i = false) (hl : isLifecycle i = false) :
    BufStep u ((ruleOf i).prog s c u) := by
  cases i with
  | drvCap | bufCap => exact bufStep_progCap (c := c)
  | bufChk pos =>
    cases u with
    | done | reject => exact .complete _ _
    | _ => exact .off
  | bufGet pos =>
    cases u with
    | reject => exact .complete _ _
    | bufRead => exact .read _ rfl
    | done => exact bufStep_getBitStep
    | _ => exact .off
  | bufSet pos value =>
    cases u with
    | reject | done => exact .complete _ _
    | acquire => exact .acquire _ rfl
    | bufRead => exact .read _ rfl
    | bufWrite => exact bufStep_setBitStep
    | unlock => exact .unlock _ rfl
    | _ => exact .off
  | bufGetbuf =>
    show BufStep u (progBufGetbuf s c u)
    unfold progBufGetbuf
    split
    · exact .read _ rfl
    · split
      · exact .complete _ _
      · exact .undef
    · exact .off
  | drvClr | drvWr | drvZero | bufClr | bufWr | bufCommit => cases hd
  | init | fini => cases hl

theorem beginPos_goto {pos : Arg} (h : beginPos pos u s c = some d) : ∃ v, d = goto v c := by
  unfold beginPos at h
  split at h
  · cases h
  · split at h <;> exact ⟨_, (Option.some.inj h).symm⟩

/-- The issue of these commands sets no register of the micro-program but `upc`. -/
theorem begin_goto [DecidableEq PinId] (hd : drivesLines i = false) (hl : isLifecycle i = false)
    (h : (ruleOf i).begin s c = some d) : ∃ v, d = goto v c := by
  cases i with
  | drvCap | bufCap | bufGetbuf => exact ⟨_, (Option.some.inj h).symm⟩
  | bufChk pos | bufGet pos => exact beginPos_goto h
  | bufSet pos value =>
    simp only [ruleOf, beginBufSet] at h
    split at h
    · cases h
    · split at h <;> exact ⟨_, (Option.some.inj h).symm⟩
  | drvClr | drvWr | drvZero | bufClr | bufWr | bufCommit => cases hd
  | init | fini => cases hl

/-- A command presented on a port stands in its context. -/
theorem ctx_present (hc : s.ctx s.active = some c) : (s.present (encode i)).ctx s.active = some (given i c) := by
  rw [present_eq, State.ctx_log, State.ctx_modCtx_self, hc]
  rfl

theorem issueStep_bufFrame [DecidableEq PinId] (hd : drivesLines i = false) (hl : isLifecycle i = false)
    (hc : s.ctx s.active = some c) (h : issueStep i (ruleOf i) s = .next t) : BufFrame none s t := by
  have hgiven (e : Ctx PinId) : BufCtx none s.buf e (given i e) := ⟨rfl, rfl, rfl, rfl, rfl, .inl rfl, fun _ _ => rfl⟩
  have hfault (f : Fault) : BufFrame none s ((s.present (encode i)).enterFault f) := bufFrame_ctx _ _ fun e _ => hgiven e
  obtain ⟨-, rfl⟩ | ⟨-, ⟨f, -, rfl⟩ | ⟨-, e, he, ⟨-, rfl⟩ | ⟨d, hbegin, rfl⟩⟩⟩ := issueStep_next h
  · exact hfault _
  · exact hfault _
  · exact hfault _
  · cases (ctx_present hc).symm.trans he
    obtain ⟨v, rfl⟩ := begin_goto hd hl hbegin
    obtain ⟨-, hlife⟩ := check_of_not_lifecycle hl
    rw [hlife]
    refine ⟨rfl, rfl, rfl, rfl, rfl, rfl, rfl, rfl, fun _ => rfl, fun _ _ => rfl, _,
      List.modify_modify_eq (given i) (fun _ => goto v (given i c)) s.active s.ports, fun e he => ?_⟩
    cases hc.symm.trans he
    exact (hgiven c).goto v

/-- Where the active port stands, if it is busy. -/
def Ctx.place (c : Ctx PinId) : Option UPos := if c.busy then c.upc else none

theorem Ctx.place_eq_some {v : UPos} : c.place = some v ↔ c.busy = true ∧ c.upc = some v := by
  simp [Ctx.place]

theorem exec_bufFrame {i : Instr} {s t : State} {c : Ctx} (hd : drivesLines i = false) (hl : isLifecycle i = false)
    (hc : s.ctx s.active = some c) (h : exec i s = .next t) : BufFrame c.place s t := by
  rw [exec_eq_runRule] at h
  obtain ⟨-, c', hc', h⟩ := runRule_next h
  cases hc.symm.trans hc'
  obtain ⟨hb, h⟩ | ⟨hb, h⟩ := h
  · unfold microStep at h
    rw [Ctx.place, if_pos hb]
    split at h
    · cases h
      exact bufFrame_enterFault _ _ _
    · next u hu =>
      rw [hu]
      exact (bufStep_prog hd hl).frame hc h
  · rw [Ctx.place, hb]
    exact issueStep_bufFrame hd hl hc h

/-- A reading command has neither a BufWrite nor a lock micro-step. -/
theorem exec_reading_place {i : Instr} {s t : State} {c : Ctx}
    (hi : i = .drvCap ∨ i = .bufCap ∨ i = .bufGetbuf ∨ (∃ a, i = .bufChk a) ∨ ∃ a, i = .bufGet a)
    (hc : s.ctx s.active = some c) (h : exec i s = .next t) :
    c.place ≠ some .bufWrite ∧ c.place ≠ some .acquire ∧ c.place ≠ some .unlock := by
  have hoff (u : UPos) (hu : u = .bufWrite ∨ u = .acquire ∨ u = .unlock) : (ruleOf i).prog s c u = .off := by
    obtain rfl | rfl | rfl := hu <;> obtain rfl | rfl | rfl | ⟨a, rfl⟩ | ⟨a, rfl⟩ := hi <;> rfl
  have hne (u : UPos) (hu : u = .bufWrite ∨ u = .acquire ∨ u = .unlock) : c.place ≠ some u := by
    intro hat
    obtain ⟨hb, hupc⟩ := Ctx.place_eq_some.mp hat
    rw [exec_eq_runRule] at h
    obtain ⟨-, c', hc', ⟨-, h⟩ | ⟨hb', -⟩⟩ := runRule_next h <;> cases hc.symm.trans hc'
    · rw [microStep, hupc] at h
      dsimp only at h
      rw [hoff u hu] at h
      cases h
    · rw [hb] at hb'
      cases hb'
  exact ⟨hne _ (.inl rfl), hne _ (.inr (.inl rfl)), hne _ (.inr (.inr rfl))⟩

end

/-- Settles O41: the frame of the commands that drive no line, at positions without BufWrite and lock micro-steps. -/
theorem readingCommandsFrame : Obligations.ReadingCommandsFrame := by
  unfold Obligations.ReadingCommandsFrame
  intro i s t hi h
  obtain ⟨hd, hl⟩ : drivesLines i = false ∧ isLifecycle i = false := by
    obtain rfl | rfl | rfl | ⟨a, rfl⟩ | ⟨a, rfl⟩ := hi <;> exact ⟨rfl, rfl⟩
  obtain ⟨-, c, hc, -⟩ := runRule_next (exec_eq_runRule i s ▸ h)
  obtain ⟨hwrite, hacquire, hunlock⟩ := exec_reading_place hi hc h
  have hf := exec_bufFrame hd hl hc h
  refine ⟨hf.life, hf.cc, hf.cap, hf.pins, hf.claimed, hf.line, hf.lock hacquire hunlock, hf.buf hwrite, hf.chain, hf.draws, ?_⟩
  intro c' d hc' hd'
  cases hc.symm.trans hc'
  obtain ⟨d', hd'', hctx⟩ := hf.ctx.own hc
  cases hd'.symm.trans hd''
  exact ⟨hctx.snap, hctx.k, hctx.j, hctx.i, hctx.n, hctx.holdsLock hacquire hunlock,
    hctx.tmp.imp_right fun ⟨hat, htmp⟩ => ⟨(Ctx.place_eq_some.mp hat).2, htmp⟩⟩

/-- Settles O42: BUF.SET is one of the commands that drive no line. -/
theorem bufSetFrame : Obligations.BufSetFrame := by
  unfold Obligations.BufSetFrame
  intro a b s t h
  obtain ⟨-, c, hc, -⟩ := runRule_next (exec_eq_runRule _ s ▸ h)
  have hf := exec_bufFrame rfl rfl hc h
  refine ⟨hf.life, hf.cc, hf.cap, hf.pins, hf.claimed, hf.line, hf.chain, hf.draws, ?_, ?_, ?_⟩
  · intro c' hc' hnot
    cases hc.symm.trans hc'
    exact hf.buf fun hat => hnot (Ctx.place_eq_some.mp hat)
  · intro c' hc' hnot
    cases hc.symm.trans hc'
    refine hf.lock (fun hat => hnot ?_) fun hat => hnot ?_
    · exact (Ctx.place_eq_some.mp hat).imp_right .inl
    · exact (Ctx.place_eq_some.mp hat).imp_right .inr
  · intro c' d hc' hd'
    cases hc.symm.trans hc'
    obtain ⟨d', hd'', hctx⟩ := hf.ctx.own hc
    cases hd'.symm.trans hd''
    exact ⟨hctx.snap, hctx.k, hctx.j, hctx.i, hctx.n⟩

/-- A busy port's step performs what stands at its position. -/
theorem exec_of_busy {i : Instr} {s : State} {c : Ctx} {u : UPos} (hm : s.mark = none) (hc : s.ctx s.active = some c)
    (hb : c.busy = true) (hu : c.upc = some u) : exec i s = perform ((ruleOf i).prog s c u) s := by
  simp [exec_eq_runRule, runRule, hm, hc, hb, microStep, hu]

/-- Settles O38: at `acquire` each of the four commands has a LockAcquire and goes on at a position of its own. -/
theorem lockAcquireWaitsOrTakes : Obligations.LockAcquireWaitsOrTakes := by
  unfold Obligations.LockAcquireWaitsOrTakes
  intro i s c hi hm hc hb hu
  obtain ⟨v, hv⟩ : ∃ v, (ruleOf i).prog s c .acquire = .step { op := .lockAcquire, next := goto v } := by
    obtain rfl | rfl | ⟨w, rfl⟩ | ⟨a, b, rfl⟩ := hi <;> exact ⟨_, rfl⟩
  rw [exec_of_busy hm hc hb hu, hv]
  simp only [perform, Micro.run, id_eq]
  obtain ⟨hl, e⟩ | ⟨hl, e⟩ := runLockAcquire_cases s <;> rw [e]
  · exact ⟨fun _ => rfl, fun h => absurd h hl⟩
  · refine ⟨fun h => absurd hl h, fun _ => ⟨v, ?_⟩⟩
    exact congrArg (fun t : State => Host.Outcome.next (t.log s.active .acq))
      (State.modCtx_modCtx { s with lock := some s.active } s.active _ _)

end Sys2Proof.Machine
end

section
/-! The reference chain under changes of the levels (20_memory.md R91 to R96), and the fold of the pulses and of a transmit
(R98, R99, 40_sequencer.md R174 to R180). -/

namespace Sys2Proof.Machine

section
variable {c : Chain} {old new : Quad Level}

theorem eq_of_mem_fillStage {v b : CBit} {st : List CBit} (h : b ∈ fillStage v st) : b = v := by
  obtain ⟨_, -, rfl⟩ := List.mem_map.mp h
  rfl

theorem shiftIn_zero {b : CBit} {st : List CBit} (h : 0 < st.length) : (shiftIn b st)[0]? = some b := by
  simp [shiftIn, h]

theorem shiftIn_succ {b : CBit} {st : List CBit} {k : Nat} (h : k + 1 < st.length) : (shiftIn b st)[k + 1]? = st[k]? := by
  simp [shiftIn, h]

@[simp] theorem shiftIn_length (b : CBit) (st : List CBit) : (shiftIn b st).length = st.length := by
  simp [shiftIn]

theorem react_of_floating (hf : floating new = true) : c.react old new = c.unknown := if_pos hf

theorem react_of_driven (hf : floating new = false) :
    c.react old new = ⟨shiftStage old new c.s, outputStage old new (shiftStage old new c.s) c.q⟩ := by
  simp [Chain.react, hf]

theorem shiftStage_of_low {st : List CBit} (h : new.clrN = .low) : shiftStage old new st = fillStage .b0 st := by
  simp [shiftStage, h]

theorem shiftStage_of_x {st : List CBit} (h : new.clrN = .x) : shiftStage old new st = fillStage .x st := by
  simp [shiftStage, h]

theorem shiftStage_rising {st : List CBit} (h : new.clrN = .high) (ho : old.sclk = .low) (hn : new.sclk = .high) :
    shiftStage old new st = shiftIn new.sdata.toCBit st := by
  simp [shiftStage, h, risingEdge, ho, hn]

theorem shiftStage_unknownEdge {st : List CBit} (h : new.clrN = .high) (ho : old.sclk = .x) (hn : new.sclk = .high) :
    shiftStage old new st = fillStage .x st := by
  simp [shiftStage, h, risingEdge, unknownEdge, ho, hn]

/-- No clock edge ends at a level other than high, or starts from high. -/
theorem no_edge {a b : Level} (h : b ≠ .high ∨ a = .high) : risingEdge a b = false ∧ unknownEdge a b = false := by
  obtain h | h := h <;> simp [risingEdge, unknownEdge, h]

theorem shiftStage_no_edge {st : List CBit} (h : new.clrN = .high) (hn : new.sclk ≠ .high ∨ old.sclk = .high) :
    shiftStage old new st = st := by
  obtain ⟨hr, hu⟩ := no_edge hn
  simp [shiftStage, h, hr, hu]

theorem outputStage_rising {sNow qOld : List CBit} (ho : old.lclk = .low) (hn : new.lclk = .high)
    (hs : new.sclk ≠ .high ∨ old.sclk = .high) : outputStage old new sNow qOld = sNow := by
  obtain ⟨hr, hu⟩ := no_edge hs
  have hl : risingEdge old.lclk new.lclk = true := by simp [risingEdge, ho, hn]
  simp [outputStage, hl, hr, hu]

theorem outputStage_unknownEdge {sNow qOld : List CBit} (ho : old.lclk = .x) (hn : new.lclk = .high) :
    outputStage old new sNow qOld = fillStage .x qOld := by
  simp [outputStage, risingEdge, unknownEdge, ho, hn]

theorem outputStage_no_edge {sNow qOld : List CBit} (hn : new.lclk ≠ .high ∨ old.lclk = .high) :
    outputStage old new sNow qOld = qOld := by
  obtain ⟨hr, hu⟩ := no_edge hn
  simp [outputStage, hr, hu]

end

/-- Settles O59, one clause by one lemma about `shiftStage` or `outputStage`. -/
theorem chainReactions : Obligations.ChainReactions := by
  unfold Obligations.ChainReactions
  intro c old new
  constructor
  · intro hf
    rw [react_of_floating hf]
    exact ⟨fun b => eq_of_mem_fillStage, fun b => eq_of_mem_fillStage⟩
  · intro hf
    rw [react_of_driven hf]
    refine ⟨fun h b hb => ?_, fun h b hb => ?_, fun h ho hn => ?_, fun h ho hn b hb => ?_, shiftStage_no_edge,
      outputStage_rising, fun ho hn b hb => ?_, outputStage_no_edge⟩
    · rw [shiftStage_of_low h] at hb
      exact eq_of_mem_fillStage hb
    · rw [shiftStage_of_x h] at hb
      exact eq_of_mem_fillStage hb
    · rw [shiftStage_rising h ho hn]
      exact ⟨fun k => shiftIn_succ, shiftIn_zero, shiftIn_length _ _⟩
    · rw [shiftStage_unknownEdge h ho hn] at hb
      exact eq_of_mem_fillStage hb
    · rw [outputStage_unknownEdge ho hn] at hb
      exact eq_of_mem_fillStage hb

/-! A drive of one line. -/

section
variable {ls : Quad Level} {ch : Chain} {p : Nat}

theorem floating_eq_false_iff : floating ls = false ↔ ∀ l, ls.get l ≠ .z := by
  rw [← Bool.not_eq_true, floating_iff, not_exists]

theorem floating_set (hf : floating ls = false) (l : Line) (v : Bool) : floating (ls.set l (Level.ofBit v)) = false := by
  rw [floating_eq_false_iff] at hf ⊢
  intro k
  rw [quad_get_set]
  split
  · exact ofBit_ne_z v
  · exact hf k

/-- Unless a line is driven high, no edge on it starts a clock. -/
theorem no_edge_of_drive {l k : Line} {v : Bool} (h : ¬ (l = k ∧ v = true)) :
    (ls.set l (Level.ofBit v)).get k ≠ .high ∨ ls.get k = .high := by
  rw [quad_get_set]
  split
  · next e =>
    cases v with
    | false => exact .inl (by decide)
    | true => exact absurd ⟨e.symm, rfl⟩ h
  · exact ne_or_eq _ _

/-- Only the drive of `LCLK` to high changes the outputs (20_memory.md R93, R99). -/
theorem react_drive_q (hf : floating ls = false) {l : Line} {v : Bool} (h : ¬ (l = .lclk ∧ v = true)) :
    (ch.react ls (ls.set l (Level.ofBit v))).q = ch.q := by
  rw [react_of_driven (floating_set hf l v)]
  exact outputStage_no_edge (no_edge_of_drive (k := .lclk) h)

/-- Drives that start neither clock keep the chain, while `CLR_N` is high (20_memory.md R94). -/
theorem react_drive_keeps (hf : floating ls = false) {l : Line} {v : Bool} (hclr : (ls.set l (Level.ofBit v)).clrN = .high)
    (hs : ¬ (l = .sclk ∧ v = true)) (hl : ¬ (l = .lclk ∧ v = true)) : ch.react ls (ls.set l (Level.ofBit v)) = ch := by
  have hstage := shiftStage_no_edge (st := ch.s) hclr (no_edge_of_drive (k := .sclk) hs)
  rw [react_of_driven (floating_set hf l v), hstage, outputStage_no_edge (no_edge_of_drive (k := .lclk) hl)]

/-! The pulses (40_sequencer.md R174 to R176). -/

theorem foldHist_cons (x : Quad Level × Chain) (e : Event) (es : List Event) :
    foldHist x (tagged p (e :: es)) = foldHist (foldEvent x ⟨p, e⟩) (tagged p es) := rfl

theorem tagged_append (es es' : List Event) : tagged p (es ++ es') = tagged p es ++ tagged p es' := List.map_append

theorem foldEvent_drv (l : Line) (v : Bool) : foldEvent (ls, ch) ⟨p, .drv l v⟩ =
    (ls.set l (Level.ofBit v), ch.react ls (ls.set l (Level.ofBit v))) := rfl

theorem foldEvent_dly : foldEvent (ls, ch) ⟨p, .dly⟩ = (ls, ch) := rfl

/-- `foldEvent` of a drive that keeps the chain. -/
theorem foldEvent_drv_keeps (l : Line) (v : Bool) (hf : floating ls = false) (hclr : (ls.set l (Level.ofBit v)).clrN = .high)
    (hs : ¬ (l = .sclk ∧ v = true)) (hl : ¬ (l = .lclk ∧ v = true)) :
    foldEvent (ls, ch) ⟨p, .drv l v⟩ = (ls.set l (Level.ofBit v), ch) := by
  rw [foldEvent_drv, react_drive_keeps hf hclr hs hl]

/-- `ClearPulse` zeroes the shift stage. -/
theorem foldHist_clear (hf : floating ls = false) : foldHist (ls, ch) (tagged p clearEvents) =
    (ls.set .clrN (Level.ofBit true), ⟨fillStage .b0 ch.s, ch.q⟩) := by
  have hf1 := floating_set hf .clrN false
  have hlow : ch.react ls (ls.set .clrN (Level.ofBit false)) = ⟨fillStage .b0 ch.s, ch.q⟩ :=
    (react_of_driven hf1).trans (congrArg₂ Chain.mk (shiftStage_of_low rfl) (outputStage_no_edge (ne_or_eq _ _)))
  rw [clearEvents, foldHist_cons, foldEvent_drv, hlow, foldHist_cons, foldEvent_dly, foldHist_cons,
    foldEvent_drv_keeps .clrN true hf1 rfl (by decide) (by decide)]
  rfl

/-- `ShiftBit(b)` shifts the bit in. -/
theorem foldHist_shift (hf : floating ls = false) (hclr : ls.clrN = .high) (b : Bool) :
    foldHist (ls, ch) (tagged p (shiftEvents b)) =
      ((ls.set .sdata (Level.ofBit b)).set .sclk (Level.ofBit false), ⟨shiftIn (Level.ofBit b).toCBit ch.s, ch.q⟩) := by
  have hf1 := floating_set hf .sdata b
  have hf2 := floating_set hf1 .sclk false
  have hf3 := floating_set hf2 .sclk true
  have hrise : ch.react ((ls.set .sdata (Level.ofBit b)).set .sclk (Level.ofBit false))
      (((ls.set .sdata (Level.ofBit b)).set .sclk (Level.ofBit false)).set .sclk (Level.ofBit true)) =
        ⟨shiftIn (Level.ofBit b).toCBit ch.s, ch.q⟩ :=
    (react_of_driven hf3).trans
      (congrArg₂ Chain.mk (shiftStage_rising hclr rfl rfl) (outputStage_no_edge (ne_or_eq _ _)))
  rw [shiftEvents, foldHist_cons, foldEvent_drv_keeps .sdata b hf hclr (by simp) (by simp),
    foldHist_cons, foldEvent_drv_keeps .sclk false hf1 hclr (by decide) (by decide), foldHist_cons, foldEvent_dly,
    foldHist_cons, foldEvent_drv, hrise, foldHist_cons, foldEvent_dly,
    foldHist_cons, foldEvent_drv_keeps .sclk false hf3 hclr (by decide) (by decide)]
  rfl

/-- `LatchPulse` copies the shift stage to the outputs. -/
theorem foldHist_latch (hf : floating ls = false) (hclr : ls.clrN = .high) : foldHist (ls, ch) (tagged p latchEvents) =
    (ls.set .lclk (Level.ofBit false), ⟨ch.s, ch.s⟩) := by
  have hf1 := floating_set hf .lclk false
  have hf2 := floating_set hf1 .lclk true
  have hrise : ch.react (ls.set .lclk (Level.ofBit false)) ((ls.set .lclk (Level.ofBit false)).set .lclk (Level.ofBit true)) =
      ⟨ch.s, ch.s⟩ := by
    have hs : shiftStage (ls.set .lclk (Level.ofBit false)) ((ls.set .lclk (Level.ofBit false)).set .lclk (Level.ofBit true))
        ch.s = ch.s := shiftStage_no_edge hclr (ne_or_eq _ _)
    rw [react_of_driven hf2, hs]
    exact congrArg (Chain.mk ch.s) (outputStage_rising rfl rfl (ne_or_eq _ _))
  rw [latchEvents, foldHist_cons, foldEvent_drv_keeps .lclk false hf hclr (by decide) (by decide), foldHist_cons,
    foldEvent_dly, foldHist_cons, foldEvent_drv, hrise, foldHist_cons, foldEvent_dly,
    foldHist_cons, foldEvent_drv_keeps .lclk false hf2 hclr (by decide) (by decide)]
  rfl

/-! The shift loop (40_sequencer.md R177). -/

@[simp] theorem wordStage_length (n : Nat) (w : Int) : (wordStage n w).length = n := by simp [wordStage]

theorem wordStage_succ (n : Nat) (w : Int) : wordStage (n + 1) w = wordStage n w ++ [CBit.ofBit w n] := by
  simp [wordStage, List.range_succ]

theorem toCBit_levelBit (w : Int) (i : Nat) : (Level.ofBit (levelBit w i)).toCBit = CBit.ofBit w i := by
  by_cases h : bit w i = 1
  · simp [levelBit, CBit.ofBit, h, Level.ofBit, Level.toCBit]
  · have hb : levelBit w i = false := beq_false_of_ne h
    simp [hb, CBit.ofBit, h, Level.ofBit, Level.toCBit]

/-- Shifting in the bits below `k` after bit `k` is shifting in the bits below `k + 1`. -/
theorem take_wordStage_shiftIn (k : Nat) (w : Int) (st : List CBit) :
    (wordStage k w ++ shiftIn (CBit.ofBit w k) st).take st.length = (wordStage (k + 1) w ++ st).take st.length := by
  rw [wordStage_succ, List.append_assoc, List.singleton_append, shiftIn, List.take_append, List.take_append, List.take_take,
    Nat.min_eq_left (Nat.sub_le _ _)]

/-- The lines after the pulses of bits `k - 1` down to 0. -/
def shiftedLines (w : Int) (k : Nat) (ls : Quad Level) : Quad Level :=
  match k with
  | 0 => ls
  | _ + 1 => (ls.set .sdata (Level.ofBit (levelBit w 0))).set .sclk (Level.ofBit false)

theorem shiftedLines_succ (w : Int) (k : Nat) (ls : Quad Level) :
    shiftedLines w k ((ls.set .sdata (Level.ofBit (levelBit w k))).set .sclk (Level.ofBit false)) = shiftedLines w (k + 1) ls := by
  cases k <;> rfl

theorem shiftedLines_driven (hf : floating ls = false) (hclr : ls.clrN = .high) (w : Int) (k : Nat) :
    floating (shiftedLines w k ls) = false ∧ (shiftedLines w k ls).clrN = .high := by
  cases k with
  | zero => exact ⟨hf, hclr⟩
  | succ k => exact ⟨floating_set (floating_set hf .sdata _) .sclk false, hclr⟩

/-- The pulses of bits `k - 1` down to 0 push those bits into the stage from below. -/
theorem foldHist_shiftLoop (hf : floating ls = false) (hclr : ls.clrN = .high) (w : Int) (k : Nat) :
    foldHist (ls, ch) (tagged p (shiftLoopEvents w k)) =
      (shiftedLines w k ls, ⟨(wordStage k w ++ ch.s).take ch.s.length, ch.q⟩) := by
  induction k generalizing ls ch with
  | zero => simp [shiftLoopEvents, tagged, foldHist, shiftedLines, wordStage]
  | succ k ih =>
    have hf' := floating_set (floating_set hf .sdata (levelBit w k)) .sclk false
    rw [shiftLoopEvents, tagged_append, foldHist_append, foldHist_shift hf hclr, ih hf' hclr, shiftedLines_succ,
      shiftIn_length, toCBit_levelBit, take_wordStage_shiftIn]

/-- Undisturbed, `Transmit(w)` leaves `S = Q = w` and the lines of R180. -/
theorem foldHist_transmit {n : Nat} (hf : floating ls = false) (hn : 0 < n) (hs : ch.s.length = n) (w : Int) :
    foldHist (ls, ch) (tagged p (transmitEvents n w)) =
      (⟨Level.ofBit (levelBit w 0), .low, .low, .high⟩, ⟨wordStage n w, wordStage n w⟩) := by
  have hf1 := floating_set hf .clrN true
  obtain ⟨hf2, hclr⟩ := shiftedLines_driven hf1 rfl w n
  have hstage (st : List CBit) (h : st.length = n) : (wordStage n w ++ st).take st.length = wordStage n w := by
    rw [h, List.take_left' (wordStage_length n w)]
  rw [transmitEvents, tagged_append, tagged_append, foldHist_append, foldHist_append, foldHist_clear hf,
    foldHist_shiftLoop hf1 rfl, foldHist_latch hf2 hclr, hstage _ (by simpa using hs)]
  obtain ⟨k, rfl⟩ := Nat.exists_eq_add_of_lt hn
  rw [Nat.zero_add]
  rfl

/-! Internal events between wire events (20_memory.md R82, R97). -/

theorem levels_of_internal {e : Event} (h : e.isWire = false) (ls : Quad Level) : e.levels ls = none := by
  cases e with
  | acq | rls | brd | bwr | issue | done => rfl
  | _ => cases h

/-- The fold depends on the wire trace only (20_memory.md R97). -/
theorem foldHist_wireTrace (x : Quad Level × Chain) (h : List Entry) : foldHist x (wireTrace h) = foldHist x h := by
  induction h generalizing x with
  | nil => rfl
  | cons e es ih =>
    cases he : e.ev.isWire with
    | true =>
      rw [wireTrace, List.filter_cons_of_pos (by simpa using he)]
      exact ih _
    | false =>
      have hx : foldEvent x e = x := by simp [foldEvent, levels_of_internal he]
      rw [wireTrace, List.filter_cons_of_neg (by simp [he])]
      exact (ih x).trans (congrArg (foldHist · es) hx.symm)

/-- Settles O55: the fold depends on the wire trace only, and that of a transmit latches the word. -/
theorem transmitTraceLatchesWord : Obligations.TransmitTraceLatchesWord := by
  unfold Obligations.TransmitTraceLatchesWord
  intro ls ch n p w h hf hn hs _ hw
  rw [← foldHist_wireTrace, hw, foldHist_transmit hf hn hs]

/-! The outputs (20_memory.md R99). -/

/-- A delay, or a drive other than that of `LCLK` to high. -/
def Event.keepsOutputs (e : Event) : Bool :=
  match e with
  | .dly => true
  | .drv l v => !(l == .lclk && v)
  | _ => false

/-- Such events keep the outputs, and every line driven. -/
theorem foldHist_keepsOutputs {es : List Event} (hf : floating ls = false) (h : ∀ e ∈ es, e.keepsOutputs = true) :
    floating (foldHist (ls, ch) (tagged p es)).1 = false ∧ (foldHist (ls, ch) (tagged p es)).2.q = ch.q := by
  induction es generalizing ls ch with
  | nil => exact ⟨hf, rfl⟩
  | cons e es ih =>
    have he := h e List.mem_cons_self
    have hes (d : Event) (hd : d ∈ es) := h d (List.mem_cons_of_mem e hd)
    rw [foldHist_cons]
    cases e with
    | dly => exact ih hf hes
    | drv l v =>
      rw [foldEvent_drv]
      have hq := react_drive_q (ch := ch) hf (l := l) (v := v) (by simpa [Event.keepsOutputs, imp_iff_not_or] using he)
      obtain ⟨hf', hq'⟩ := ih (ch := ch.react ls _) (floating_set hf l v) hes
      exact ⟨hf', hq'.trans hq⟩
    | _ => cases he

theorem keepsOutputs_of_mem_shiftLoop {w : Int} {n : Nat} {e : Event} (h : e ∈ shiftLoopEvents w n) :
    e.keepsOutputs = true := by
  induction n with
  | zero => cases h
  | succ n ih =>
    obtain h | h := List.mem_append.mp h
    · have hshift (b : Bool) : ∀ d ∈ shiftEvents b, d.keepsOutputs = true := by cases b <;> decide
      exact hshift _ e h
    · exact ih h

theorem shiftLoopEvents_length (w : Int) (n : Nat) : (shiftLoopEvents w n).length = 6 * n := by
  induction n with
  | zero => rfl
  | succ n ih =>
    rw [shiftLoopEvents, List.length_append, ih, shiftEvents]
    simp only [List.length_cons, List.length_nil]
    omega

/-- A transmit up to the rising edge of the latch pulse. -/
def transmitHead (n : Nat) (w : Int) : List Event := clearEvents ++ shiftLoopEvents w n ++ [.drv .lclk false, .dly]

/-- A transmit after the rising edge of the latch pulse. -/
def transmitTail : List Event := [.dly, .drv .lclk false]

theorem transmitEvents_split (n : Nat) (w : Int) :
    transmitEvents n w = transmitHead n w ++ .drv .lclk true :: transmitTail := by
  simp [transmitEvents, transmitHead, transmitTail, latchEvents]

theorem keepsOutputs_of_mem_transmitTail : ∀ e ∈ transmitTail, e.keepsOutputs = true := by decide

theorem transmitHead_length (n : Nat) (w : Int) : (transmitHead n w).length = 6 * n + 5 := by
  simp only [transmitHead, clearEvents, List.length_append, shiftLoopEvents_length, List.length_cons, List.length_nil]
  omega

theorem keepsOutputs_of_mem_transmitHead {n : Nat} {w : Int} {e : Event} (h : e ∈ transmitHead n w) :
    e.keepsOutputs = true := by
  rw [transmitHead, List.mem_append, List.mem_append] at h
  obtain (h | h) | h := h
  · exact (by decide : ∀ d ∈ clearEvents, d.keepsOutputs = true) e h
  · exact keepsOutputs_of_mem_shiftLoop h
  · exact (by decide : ∀ d ∈ [Event.drv .lclk false, .dly], d.keepsOutputs = true) e h

theorem tagged_take (k : Nat) (es : List Event) : (tagged p es).take k = tagged p (es.take k) := List.map_take.symm

/-- From the rising edge of the latch pulse on the outputs are the word. -/
theorem outputs_after_rise {n : Nat} (hf : floating ls = false) (hn : 0 < n) (hs : ch.s.length = n) (w : Int)
    {es : List Event} (h : ∀ e ∈ es, e.keepsOutputs = true) :
    (foldHist (ls, ch) (tagged p (transmitHead n w ++ .drv .lclk true :: es))).2.q = wordStage n w := by
  obtain ⟨hf', -⟩ := foldHist_keepsOutputs (p := p) (ch := ch) hf fun _ => keepsOutputs_of_mem_transmitHead (n := n) (w := w)
  have key (es : List Event) (h : ∀ e ∈ es, e.keepsOutputs = true) :
      (foldHist (ls, ch) (tagged p (transmitHead n w ++ .drv .lclk true :: es))).2.q =
        (foldEvent (foldHist (ls, ch) (tagged p (transmitHead n w))) ⟨p, .drv .lclk true⟩).2.q := by
    rw [tagged_append, foldHist_append, foldHist_cons]
    exact (foldHist_keepsOutputs (floating_set hf' .lclk true) h).2
  rw [key es h, ← key _ keepsOutputs_of_mem_transmitTail, ← transmitEvents_split, foldHist_transmit hf hn hs]

/-- Settles O56: the events before the rising edge of `LCLK` keep the outputs, and so do those after it. -/
theorem outputsChangeOnceInTransmit : Obligations.OutputsChangeOnceInTransmit := by
  unfold Obligations.OutputsChangeOnceInTransmit
  intro ls ch n p k w hf hn hs _
  have hlen := transmitHead_length n w
  rw [tagged_take, transmitEvents_split]
  constructor
  · intro hk
    rw [List.take_append_of_le_length (by omega)]
    exact (foldHist_keepsOutputs hf fun e he => keepsOutputs_of_mem_transmitHead (List.mem_of_mem_take he)).2
  · intro hk
    obtain ⟨j, rfl⟩ := Nat.exists_eq_add_of_le hk
    rw [show 6 * n + 6 + j = (transmitHead n w).length + (j + 1) by omega, List.take_length_add_append, List.take_succ_cons]
    exact outputs_after_rise hf hn hs w fun e he => keepsOutputs_of_mem_transmitTail e (List.mem_of_mem_take he)

end

end Sys2Proof.Machine
end

section
/-! A port that runs undisturbed and whose backend calls succeed: each atomic step appends one event, and the events say what
becomes of the state (40_sequencer.md R160 to R180). -/

namespace Sys2Proof.Machine

/-! The oracle's answers (40_sequencer.md R163). -/

theorem oracleOk_iff {s : State} {k : Nat} : oracleOk s k = true ↔
    (s.cfg.backendFaults = true → k ≤ s.draws.length ∧ ∀ d ∈ s.draws.take k, d.ok = true) := by
  cases h : s.cfg.backendFaults <;> simp [oracleOk, h]

/-- With a success as its next answer the oracle uses up that answer only. -/
theorem drawn_of_oracleOk {s : State} (h : oracleOk s 1 = true) :
    s.draw.ok = true ∧ s.drawn = { s with draws := drawsAfter s 1 } := by
  cases hf : s.cfg.backendFaults with
  | false =>
    obtain ⟨hd, hs⟩ := State.draw_of_no_faults hf
    rw [hd, hs]
    exact ⟨rfl, by simp [drawsAfter, hf]⟩
  | true =>
    obtain ⟨hlen, hok⟩ := oracleOk_iff.mp h hf
    cases hds : s.draws with
    | nil => simp [hds] at hlen
    | cons d ds =>
      obtain ⟨hd, hs⟩ := State.draw_of_listed hf hds
      rw [hd, hs]
      exact ⟨hok d (by simp [hds]), by simp [drawsAfter, hf, hds]⟩

/-- The number of backend calls of successful drives. -/
def driveCount (es : List Event) : Nat := (es.filter Event.isDrive).length

theorem driveCount_append (es es' : List Event) : driveCount (es ++ es') = driveCount es + driveCount es' := by
  simp [driveCount]

/-- The active port has appended the events `es`, whose calls all succeeded, and its context is `d`. -/
def emitted (s : State) (es : List Event) (d : Ctx) : State :=
  { after s es (fun _ => d) with
    line := (foldHist (s.line, s.chain) (tagged s.active es)).1
    chain := (foldHist (s.line, s.chain) (tagged s.active es)).2
    draws := drawsAfter s (driveCount es) }

theorem emitted_emitted (s : State) (es es' : List Event) (d d' : Ctx) :
    emitted (emitted s es d) es' d' = emitted s (es ++ es') d' := by
  have hdraws : drawsAfter (emitted s es d) (driveCount es') = drawsAfter s (driveCount (es ++ es')) := by
    cases h : s.cfg.backendFaults <;> simp [drawsAfter, emitted, h, driveCount_append, List.drop_drop]
  have hports : (s.ports.modify s.active fun _ => d).modify s.active (fun _ => d') = s.ports.modify s.active fun _ => d' :=
    List.modify_modify_eq (fun _ => d) (fun _ => d') s.active s.ports
  have hhist : s.hist ++ tagged s.active es ++ tagged s.active es' = s.hist ++ tagged s.active (es ++ es') := by
    rw [tagged_append, List.append_assoc]
  have hfold : foldHist (foldHist (s.line, s.chain) (tagged s.active es)) (tagged s.active es') =
      foldHist (s.line, s.chain) (tagged s.active (es ++ es')) := by
    rw [tagged_append, foldHist_append]
  rw [emitted, hdraws]
  simp only [emitted, after, hports, hhist, hfold]

theorem ctx_emitted {s : State} {c : Ctx} (hc : s.ctx s.active = some c) (es : List Event) (d : Ctx) :
    (emitted s es d).ctx s.active = some d := by
  have hc' : s.ports[s.active]? = some c := hc
  simp [State.ctx, emitted, hc']

/-- A step that appends the event `e` and changes its port's context by `f`, put as `emitted`. -/
theorem emitted_of_ctx {s : State} {c : Ctx} (hc : s.ctx s.active = some c) (e : Event) (f : Ctx → Ctx) :
    emitted s [e] (f c) =
      { s.modCtx s.active f with
        hist := s.hist ++ [⟨s.active, e⟩]
        line := (foldEvent (s.line, s.chain) ⟨s.active, e⟩).1
        chain := (foldEvent (s.line, s.chain) ⟨s.active, e⟩).2
        draws := drawsAfter s (driveCount [e]) } := by
  rw [State.modCtx_congr (g := fun _ => f c) hc rfl]
  rfl

/-! One atomic step. -/

/-- Events without a drive use up no answer. -/
theorem drawsAfter_of_no_drive (s : State) {es : List Event} (h : driveCount es = 0) :
    drawsAfter s (driveCount es) = s.draws := by
  simp [drawsAfter, h]

/-- The active port is busy with the context `c`, all pins are claimed, and the next `k` calls succeed. -/
structure Live (s : State) (c : Ctx) (k : Nat) : Prop where
  mark : s.mark = none
  ctx : s.ctx s.active = some c
  busy : c.busy = true
  claimed : allClaimed s.claimed = true
  oracle : oracleOk s k = true

theorem Live.after_events {s : State} {c d : Ctx} {k : Nat} {es : List Event} (h : Live s c (driveCount es + k))
    (hd : d.busy = true) : Live (emitted s es d) d k where
  mark := h.mark
  ctx := ctx_emitted h.ctx es d
  busy := hd
  claimed := h.claimed
  oracle := by
    refine oracleOk_iff.mpr fun hf => ?_
    obtain ⟨hlen, hok⟩ := oracleOk_iff.mp h.oracle hf
    have hf' : s.cfg.backendFaults = true := hf
    have hdraws : (emitted s es d).draws = s.draws.drop (driveCount es) := by
      simp [emitted, drawsAfter, hf']
    rw [hdraws]
    refine ⟨by rw [List.length_drop]; omega, fun x hx => hok x ?_⟩
    rw [List.take_drop] at hx
    exact List.mem_of_mem_drop hx

theorem Live.mono {s : State} {c : Ctx} {j k : Nat} (h : Live s c k) (hj : j ≤ k) : Live s c j := by
  refine ⟨h.mark, h.ctx, h.busy, h.claimed, oracleOk_iff.mpr fun hf => ?_⟩
  obtain ⟨hlen, hok⟩ := oracleOk_iff.mp h.oracle hf
  exact ⟨by omega, fun x hx => hok x (List.mem_of_mem_take (by rwa [List.take_take, Nat.min_eq_left hj]))⟩

section
variable {i : Instr} {n : Nat} {c d : Ctx} {u : UPos}

/-- While `CAP` is `n`, the port goes on from the context `c` by the events `es` to the context `d`. -/
def Emits (i : Instr) (n : Nat) (c : Ctx) (es : List Event) (d : Ctx) : Prop :=
  d.busy = true ∧ ∀ s : State, s.cap = some n → Live s c (driveCount es) →
    execTimes es.length i s = .next (emitted s es d)

theorem execTimes_succ {s t : State} {k : Nat} (h : exec i s = .next t) : execTimes (k + 1) i s = execTimes k i t := by
  simp [execTimes, h]

theorem execTimes_add {s t : State} {j k : Nat} (h : execTimes j i s = .next t) :
    execTimes (j + k) i s = execTimes k i t := by
  induction j generalizing s with
  | zero =>
    cases h
    rw [Nat.zero_add]
  | succ j ih =>
    rw [Nat.succ_add]
    cases he : exec i s with
    | next u =>
      rw [execTimes_succ he] at h ⊢
      exact ih h
    | fault f => simp [execTimes, he] at h
    | refused r => simp [execTimes, he] at h

theorem Emits.trans {es es' : List Event} {e : Ctx} (h : Emits i n c es d) (h' : Emits i n d es' e) :
    Emits i n c (es ++ es') e := by
  obtain ⟨hd, h⟩ := h
  obtain ⟨he, h'⟩ := h'
  refine ⟨he, fun s hcap hs => ?_⟩
  rw [driveCount_append] at hs
  rw [List.length_append, execTimes_add (h s hcap (hs.mono (Nat.le_add_right _ _))), h' (emitted s es d) hcap (hs.after_events hd), emitted_emitted]

theorem emits_drive {l : Line} {v : Bool} {next onFail : Ctx → Ctx} (hu : c.upc = some u) (hb : (next c).busy = true)
    (hp : ∀ s : State, s.cap = some n →
      (ruleOf i).prog s c u = .step { op := .drive l v, next := next, onFail := onFail }) :
    Emits i n c [.drv l v] (next c) := by
  refine ⟨hb, fun s hcap hs => execTimes_succ ?_⟩
  rw [exec_of_busy hs.mark hs.ctx hs.busy hu, hp s hcap]
  obtain ⟨hok, hdrawn⟩ := drawn_of_oracleOk hs.oracle
  obtain ⟨hc, -⟩ | ⟨-, -, e⟩ | ⟨-, ho, -⟩ := runDrive_cases s l v
  · rw [allClaimed_get hs.claimed] at hc
    cases hc
  · simp only [perform, Micro.run, id_eq, e, hdrawn]
    rw [emitted_of_ctx hs.ctx]
    rfl
  · rw [hok] at ho
    cases ho

theorem emits_delay {next onFail : Ctx → Ctx} (hu : c.upc = some u) (hb : (next c).busy = true)
    (hp : ∀ s : State, s.cap = some n → (ruleOf i).prog s c u = .step { op := .delay, next := next, onFail := onFail }) :
    Emits i n c [.dly] (next c) := by
  refine ⟨hb, fun s hcap hs => execTimes_succ ?_⟩
  rw [exec_of_busy hs.mark hs.ctx hs.busy hu, hp s hcap, emitted_of_ctx hs.ctx,
    drawsAfter_of_no_drive s (es := [.dly]) rfl]
  rfl

/-- The Complete of a port that holds no lock (40_sequencer.md R173). -/
theorem exec_complete {s : State} {st : Status} {r : Option Int} (hm : s.mark = none) (hc : s.ctx s.active = some c)
    (hb : c.busy = true) (hu : c.upc = some u) (hf : c.holdsLock = false) (hp : (ruleOf i).prog s c u = completeStep st r) :
    exec i s = .next (emitted s [.done st] { c with sts := some st, res := some r, busy := false }) := by
  rw [exec_of_busy hm hc hb hu, hp]
  obtain ⟨hl, -⟩ | ⟨-, e⟩ := runComplete_cases hc st r
  · rw [hf] at hl
    cases hl
  · simp only [completeStep, perform, Micro.run, id_eq, e, State.modCtx_id]
    rw [emitted_of_ctx hc (.done st) fun c => { c with sts := some st, res := some r, busy := false },
      drawsAfter_of_no_drive s (es := [.done st]) rfl]
    rfl

/-- The issue of a command other than INIT and FINI while `LIFE` is READY (40_sequencer.md R160). -/
theorem exec_issue {s : State} (hi : isLifecycle i = false) (hw : i.wellFormed = true) (hm : s.mark = none)
    (hc : s.ctx s.active = some c) (hb : c.busy = false) (hl : s.life = .ready)
    (hd : (ruleOf i).begin (s.present (encode i)) (given i c) = some d) :
    exec i s = .next (emitted s [.issue (encode i).opc] d) := by
  obtain ⟨hcheck, hlife⟩ := check_of_not_lifecycle hi
  have hadmit : (ruleOf i).check (s.present (encode i)) = none := by
    rw [hcheck]
    exact if_pos hl
  have hports : (s.ports.modify s.active (given i)).modify s.active (fun _ => d) = s.ports.modify s.active fun _ => d :=
    List.modify_modify_eq (given i) (fun _ => d) s.active s.ports
  have hissue : issueStep i (ruleOf i) s = .next ((s.present (encode i)).modCtx s.active fun _ => d) := by
    simp [issueStep, hw, hadmit, ctx_present hc, hd, hlife]
  have hrun : runRule i (ruleOf i) s = issueStep i (ruleOf i) s := by simp [runRule, hm, hc, hb]
  rw [exec_eq_runRule, hrun, hissue, present_eq, State.modCtx, emitted, after]
  simp only [State.log_ports, State.modCtx_ports, hports,
    drawsAfter_of_no_drive s (es := [.issue (encode i).opc]) rfl]
  rfl

end

/-! The transmit of a command that has all its positions (40_sequencer.md R177). -/

section
variable {i : Instr} {n : Nat} {b : Ctx} {w : Int} {v : UPos}
  (hprog : ∀ (s : State) (c : Ctx) (u : UPos) (m : MicroStep),
    transmit s.cap c (goto v) u = .step m → (ruleOf i).prog s c u = .step m)
  (hb : b.busy = true)
include hprog hb

theorem emits_clear : Emits i n (goto .clearLow b) clearEvents (startShift n b) := by
  have hn (u : UPos) (c : Ctx) : startShift n (goto u c) = startShift n c := by cases n <;> rfl
  have hbusy : (startShift n b).busy = true := by
    cases n with
    | zero => exact hb
    | succ n => exact hb
  have h1 : Emits i n (goto .clearLow b) [.drv .clrN false] (goto .clearWait b) :=
    emits_drive (next := goto .clearWait) rfl hb fun s hcap => hprog s _ _ _ (by rw [hcap]; rfl)
  have h2 : Emits i n (goto .clearWait b) [.dly] (goto .clearHigh b) :=
    emits_delay (next := goto .clearHigh) rfl hb fun s hcap => hprog s _ _ _ (by rw [hcap]; rfl)
  have h3 : Emits i n (goto .clearHigh b) [.drv .clrN true] (startShift n b) :=
    hn .clearHigh b ▸ emits_drive (next := startShift n) rfl (by rw [hn]; exact hbusy)
      fun s hcap => hprog s _ _ _ (by rw [hcap]; rfl)
  exact (h1.trans h2).trans h3

theorem emits_latch : Emits i n (goto .latchLow b) latchEvents (goto v b) := by
  have h1 : Emits i n (goto .latchLow b) [.drv .lclk false] (goto .latchWait b) :=
    emits_drive (next := goto .latchWait) rfl hb fun s _ => hprog s _ _ _ (transmit_of_latch rfl)
  have h2 : Emits i n (goto .latchWait b) [.dly] (goto .latchHigh b) :=
    emits_delay (next := goto .latchHigh) rfl hb fun s _ => hprog s _ _ _ (transmit_of_latch rfl)
  have h3 : Emits i n (goto .latchHigh b) [.drv .lclk true] (goto .latchHold b) :=
    emits_drive (next := goto .latchHold) rfl hb fun s _ => hprog s _ _ _ (transmit_of_latch rfl)
  have h4 : Emits i n (goto .latchHold b) [.dly] (goto .latchFall b) :=
    emits_delay (next := goto .latchFall) rfl hb fun s _ => hprog s _ _ _ (transmit_of_latch rfl)
  have h5 : Emits i n (goto .latchFall b) [.drv .lclk false] (goto v b) :=
    emits_drive (next := goto v) rfl hb fun s _ => hprog s _ _ _ (transmit_of_latch rfl)
  exact (((h1.trans h2).trans h3).trans h4).trans h5

variable (hw : b.snap = some w)
include hw

theorem emits_shift {k : Nat} (hk : b.i = some k) :
    Emits i n (goto .shiftData b) (shiftEvents (levelBit w k)) (nextBit k b) := by
  have hn (u : UPos) : nextBit k (goto u b) = nextBit k b := by cases k <;> rfl
  have hbusy : (nextBit k b).busy = true := by cases k <;> exact hb
  have h1 : Emits i n (goto .shiftData b) [.drv .sdata (levelBit w k)] (goto .shiftLow b) :=
    emits_drive (next := goto .shiftLow) rfl hb fun s _ => hprog s _ _ _ (transmit_of_shift hw hk rfl)
  have h2 : Emits i n (goto .shiftLow b) [.drv .sclk false] (goto .shiftWait b) :=
    emits_drive (next := goto .shiftWait) rfl hb fun s _ => hprog s _ _ _ (transmit_of_shift hw hk rfl)
  have h3 : Emits i n (goto .shiftWait b) [.dly] (goto .shiftHigh b) :=
    emits_delay (next := goto .shiftHigh) rfl hb fun s _ => hprog s _ _ _ (transmit_of_shift hw hk rfl)
  have h4 : Emits i n (goto .shiftHigh b) [.drv .sclk true] (goto .shiftHold b) :=
    emits_drive (next := goto .shiftHold) rfl hb fun s _ => hprog s _ _ _ (transmit_of_shift hw hk rfl)
  have h5 : Emits i n (goto .shiftHold b) [.dly] (goto .shiftFall b) :=
    emits_delay (next := goto .shiftFall) rfl hb fun s _ => hprog s _ _ _ (transmit_of_shift hw hk rfl)
  have h6 : Emits i n (goto .shiftFall b) [.drv .sclk false] (nextBit k b) :=
    hn .shiftFall ▸ emits_drive (next := nextBit k) rfl (by rw [hn]; exact hbusy)
      fun s _ => hprog s _ _ _ (transmit_of_shift hw hk rfl)
  exact ((((h1.trans h2).trans h3).trans h4).trans h5).trans h6

/-- The shift loop from bit `k` down to bit 0. -/
theorem emits_shiftLoop (k : Nat) : Emits i n (goto .shiftData { b with i := some k }) (shiftLoopEvents w (k + 1))
    (goto .latchLow { b with i := some 0 }) := by
  induction k with
  | zero => exact emits_shift (b := { b with i := some 0 }) hprog hb hw rfl
  | succ k ih => exact (emits_shift (b := { b with i := some (k + 1) }) hprog hb hw rfl).trans ih

theorem emits_transmit (hn : 0 < n) :
    Emits i n (goto .clearLow b) (transmitEvents n w) (goto v { b with i := some 0 }) := by
  obtain ⟨k, rfl⟩ := Nat.exists_eq_add_of_lt hn
  rw [Nat.zero_add]
  exact ((emits_clear hprog hb).trans (emits_shiftLoop hprog hb hw k)).trans
    (emits_latch (b := { b with i := some 0 }) hprog hb)

end

theorem driveCount_shiftLoop (w : Int) (n : Nat) : driveCount (shiftLoopEvents w n) = 4 * n := by
  induction n with
  | zero => rfl
  | succ n ih =>
    rw [shiftLoopEvents, driveCount_append, ih, show driveCount (shiftEvents (levelBit w n)) = 4 from rfl]
    omega

theorem driveCount_transmit (n : Nat) (w : Int) : driveCount (transmitEvents n w) = 4 * n + 5 := by
  rw [transmitEvents, driveCount_append, driveCount_append, driveCount_shiftLoop,
    show driveCount clearEvents = 2 from rfl, show driveCount latchEvents = 3 from rfl]
  omega

theorem transmitEvents_length (n : Nat) (w : Int) : (transmitEvents n w).length = 6 * n + 8 := by
  simp only [transmitEvents, List.length_append, shiftLoopEvents_length, clearEvents, latchEvents, List.length_cons,
    List.length_nil]
  omega

/-- What `built` says. -/
theorem built_iff {s : State} {n : Nat} : built s n = true ↔ s.life = .ready ∧ s.cap = some n ∧ allClaimed s.claimed = true ∧
    floating s.line = false ∧ 0 < n ∧ s.chain.s.length = n ∧ s.chain.q.length = n := by
  simp [built, and_assoc]

/-- What `atRest` says. -/
theorem atRest_iff {s : State} : atRest s = true ↔
    s.mark = none ∧ ∃ c, s.ctx s.active = some c ∧ c.busy = false ∧ c.holdsLock = false := by
  cases hc : s.ctx s.active <;> simp [atRest, hc]

/-- DRV.WR goes through a transmit and then completes (41_driver.md R200). -/
theorem progDrvWr_of_transmit {word : Arg} {s : State} {c : Ctx} {u : UPos} {m : MicroStep}
    (h : transmit s.cap c (goto .done) u = .step m) : (ruleOf (.drvWr word)).prog s c u = .step m := by
  show progDrvWr s c u = .step m
  unfold progDrvWr
  split
  · rw [transmit_off rfl] at h
    cases h
  · rw [transmit_off rfl] at h
    cases h
  · rw [h]
    rfl

/-- Where the context ends as `f` says and the events fold to the lines `ls` and the chain `ch`. -/
theorem emitted_eq {s : State} {c d : Ctx} {f : Ctx → Ctx} {es : List Event} {ls : Quad Level} {ch : Chain} {k : Nat}
    (hc : s.ctx s.active = some c) (hd : f c = d) (hfold : foldHist (s.line, s.chain) (tagged s.active es) = (ls, ch))
    (hk : driveCount es = k) :
    emitted s es d = { after s es f with line := ls, chain := ch, draws := drawsAfter s k } := by
  have hports : (s.modCtx s.active fun _ => d).ports = (s.modCtx s.active f).ports :=
    congrArg State.ports (State.modCtx_congr hc hd.symm)
  rw [State.modCtx_ports, State.modCtx_ports] at hports
  simp only [emitted, after, hfold, hk, hports]

/-- A command that is issued, appends `es` and completes, holding no lock, appends those events in all. -/
theorem execTimes_command {i : Instr} {n : Nat} {s : State} {c d : Ctx} {u : UPos} {o : Opcode} {es : List Event} {st : Status}
    {r : Option Int} (hissue : exec i s = .next (emitted s [.issue o] c)) (hlive : Live (emitted s [.issue o] c) c (driveCount es))
    (hcap : s.cap = some n) (hes : Emits i n c es d) (hu : d.upc = some u) (hf : d.holdsLock = false)
    (hp : ∀ s : State, (ruleOf i).prog s d u = completeStep st r) :
    execTimes (1 + es.length + 1) i s =
      .next (emitted s ([.issue o] ++ es ++ [.done st]) { d with sts := some st, res := some r, busy := false }) := by
  obtain ⟨hbusy, hes⟩ := hes
  have hrun : execTimes (1 + es.length) i s = .next (emitted (emitted s [.issue o] c) es d) := by
    rw [execTimes_add (execTimes_succ hissue)]
    exact hes _ hcap hlive
  have hdone := exec_complete (s := emitted (emitted s [.issue o] c) es d) (i := i) hlive.mark (ctx_emitted hlive.ctx es d) hbusy hu hf (hp _)
  rw [execTimes_add hrun, execTimes_succ hdone, emitted_emitted, emitted_emitted]
  rfl

/-- The context of a port that has just been given `i` and keeps the word `w` in `snap` (10_state.md R40, field P8). -/
def givenWord (i : Instr) (w : Int) (c : Ctx) : Ctx := { given i c with snap := some w }

/-- Settles O22: the issue, the transmit and the Complete append one event each, and their fold is that of the transmit. -/
theorem drvWrReachesOutputs : Obligations.DrvWrReachesOutputs := by
  unfold Obligations.DrvWrReachesOutputs
  intro s n w hrest hbuilt h0 hlt horacle
  obtain ⟨hl, hcap, hclaimed, hfl, hn, hs, -⟩ := built_iff.mp hbuilt
  obtain ⟨hm, c, hc, hb, hfree⟩ := atRest_iff.mp hrest
  have hrange : inRange n w = true := inRange_iff.mpr ⟨h0, by exact_mod_cast hlt⟩
  have hbegin : (ruleOf (.drvWr (.int w))).begin (s.present (encode (.drvWr (.int w)))) (given (.drvWr (.int w)) c) =
      some (goto .clearLow (givenWord (.drvWr (.int w)) w c)) := by
    have hcap' : (s.present (encode (.drvWr (.int w)))).cap = some n := hcap
    simp [ruleOf, beginDrvWr, hcap', validWord, hrange, givenWord]
  have hissue := exec_issue rfl rfl hm hc hb hl hbegin
  have hemits := emits_transmit (i := .drvWr (.int w)) (b := givenWord (.drvWr (.int w)) w c)
    (fun _ _ _ _ => progDrvWr_of_transmit) rfl rfl hn
  have hlive : Live (emitted s [.issue 0x02#8] (goto .clearLow (givenWord (.drvWr (.int w)) w c)))
      (goto .clearLow (givenWord (.drvWr (.int w)) w c)) (driveCount (transmitEvents n w)) := by
    refine ⟨hm, ctx_emitted hc _ _, rfl, hclaimed, ?_⟩
    rw [driveCount_transmit]
    refine Eq.trans ?_ horacle
    simp [oracleOk, emitted, drawsAfter, driveCount, Event.isDrive]
  have hrun := execTimes_command hissue hlive hcap hemits rfl hfree fun _ => rfl
  rw [transmitEvents_length, show 1 + (6 * n + 8) + 1 = 6 * n + 10 by omega] at hrun
  rw [hrun]
  refine congrArg Host.Outcome.next (emitted_eq hc rfl ?_ ?_)
  · rw [tagged_append, tagged_append, foldHist_append, foldHist_append]
    exact foldHist_transmit hfl hn hs w
  · rw [driveCount_append, driveCount_append, driveCount_transmit]
    simp [driveCount, Event.isDrive]

end Sys2Proof.Machine
end

section
/-! Decoding and encoding (30_encoding.md R120 to R129): what each of `formatOf`, `fits`, `select` and `decode` answers. -/

namespace Sys2Proof

variable {PinId : Type} {c : Command PinId} {i : Instr PinId} {f : Format} {o : Opcode}

@[simp] theorem Arg.present_eq_true {a : Arg} : a.present = true ↔ a ≠ .absent := by
  cases a <;> simp [Arg.present]

@[simp] theorem Arg.present_eq_false {a : Arg} : a.present = false ↔ a = .absent := by
  cases a <;> simp [Arg.present]

/-! The slots of each format (R122). -/

theorem fits_n : c.fits .n = true ↔ c.a = .absent ∧ c.b = .absent ∧ c.pins = none := by
  simp [Command.fits, and_assoc]

theorem fits_w : c.fits .w = true ↔ c.a ≠ .absent ∧ c.b = .absent ∧ c.pins = none := by
  simp [Command.fits, and_assoc]

theorem fits_p : c.fits .p = true ↔ c.a ≠ .absent ∧ c.b = .absent ∧ c.pins = none := by
  simp [Command.fits, and_assoc]

theorem fits_pv : c.fits .pv = true ↔ c.a ≠ .absent ∧ c.b ≠ .absent ∧ c.pins = none := by
  simp [Command.fits, and_assoc]

theorem fits_i : c.fits .i = true ↔ c.b = .absent ∧ c.pins ≠ none := by
  simp [Command.fits, Option.isSome_iff_ne_none]

/-! The opcode map (R121, R125 to R128). -/

/-- The group and the function fields are the whole opcode. -/
theorem opcode_eq_of_fields {g k : Nat} (hg : group o = g) (hk : function o = k) : o = BitVec.ofNat 8 (16 * g + k) := by
  subst hg hk
  rw [group, function, Nat.div_add_mod, BitVec.ofNat_toNat, BitVec.setWidth_eq]

/-- The format of each instruction (R125 to R127). -/
def Instr.format : Instr PinId → Format
  | .drvWr _ | .bufWr _ => .w
  | .bufChk _ | .bufGet _ => .p
  | .bufSet _ _ => .pv
  | .init _ _ => .i
  | .drvCap | .drvClr | .drvZero | .bufCap | .bufClr | .bufCommit | .bufGetbuf | .fini => .n

theorem formatOf_opcode (i : Instr PinId) : formatOf i.opcode = some i.format := by
  cases i <;> simp [Instr.opcode, Instr.format, formatOf, group, function]

/-- The three reserved ranges (R128) by group and function. -/
theorem reservedOpcode_iff_fields : Machine.reservedOpcode o = true ↔
    (group o = 0 ∧ 4 ≤ function o) ∨ (group o = 1 ∧ 8 ≤ function o) ∨ (2 ≤ group o ∧ group o ≤ 14) ∨
      (group o = 15 ∧ 2 ≤ function o) := by
  have hlt := o.isLt
  simp only [Machine.reservedOpcode, decide_eq_true_eq, group, function]
  omega

/-- The opcodes with no format are those of the three reserved ranges. -/
theorem formatOf_eq_none_iff : formatOf o = none ↔ Machine.reservedOpcode o = true := by
  have hlt : group o < 16 := Nat.div_lt_of_lt_mul o.isLt
  rw [reservedOpcode_iff_fields]
  unfold formatOf
  split
  case h_15 =>
    obtain h | h | h | h : group o = 0 ∨ group o = 1 ∨ group o = 15 ∨ (2 ≤ group o ∧ group o ≤ 14) := by omega
    · simp_all
      omega
    · simp_all
      omega
    · simp_all
      omega
    · simp [h]
  all_goals
    next hg hk => simp [hg, hk]

/-- An instruction is selected by its own opcode. -/
theorem opcode_of_select (h : select c = some i) : c.opc = i.opcode := by
  unfold select at h
  split at h
  case h_15 => cases h
  case h_13 hg hk =>
    obtain ⟨q, -, rfl⟩ := Option.map_eq_some_iff.mp h
    exact opcode_eq_of_fields hg hk
  all_goals
    next hg hk =>
      cases h
      exact opcode_eq_of_fields hg hk

/-- A listed opcode selects an instruction where the slots fit: only INIT asks for one of them, its pins. -/
theorem select_of_fits (hf : formatOf c.opc = some f) (hfit : c.fits f = true) : ∃ i, select c = some i := by
  unfold formatOf at hf
  unfold select
  split at hf
  case h_15 => cases hf
  case h_13 =>
    cases hf
    obtain ⟨q, hq⟩ := Option.ne_none_iff_exists'.mp (fits_i.mp hfit).2
    exact ⟨.init q c.a, by rw [hq]; rfl⟩
  all_goals exact ⟨_, rfl⟩

/-- A command that fits the format of the instruction it selects is that instruction's encoding: no operand is dropped. -/
theorem encode_of_select (hs : select c = some i) (hfit : c.fits i.format = true) : i.wellFormed = true ∧ c = encode i := by
  have hopc : c.opc = i.opcode := opcode_of_select hs
  obtain ⟨opc, a, b, pins⟩ := c
  subst hopc
  cases i with
  | drvCap | drvClr | drvZero | bufCap | bufClr | bufCommit | bufGetbuf | fini =>
    obtain ⟨rfl, rfl, rfl⟩ := fits_n.mp hfit
    exact ⟨rfl, rfl⟩
  | drvWr word | bufWr word =>
    obtain ⟨ha, rfl, rfl⟩ := fits_w.mp hfit
    obtain rfl : a = word := by simpa [select, group, function, Instr.opcode] using hs
    exact ⟨Arg.present_eq_true.mpr ha, rfl⟩
  | bufChk pos | bufGet pos =>
    obtain ⟨ha, rfl, rfl⟩ := fits_p.mp hfit
    obtain rfl : a = pos := by simpa [select, group, function, Instr.opcode] using hs
    exact ⟨Arg.present_eq_true.mpr ha, rfl⟩
  | bufSet pos value =>
    obtain ⟨ha, hb, rfl⟩ := fits_pv.mp hfit
    obtain ⟨rfl, rfl⟩ : a = pos ∧ b = value := by simpa [select, group, function, Instr.opcode] using hs
    exact ⟨by simpa [Instr.wellFormed] using ⟨ha, hb⟩, rfl⟩
  | init q count =>
    obtain ⟨rfl, -⟩ := fits_i.mp hfit
    obtain ⟨rfl, rfl⟩ : pins = some q ∧ a = count := by simpa [select, group, function, Instr.opcode] using hs
    exact ⟨rfl, rfl⟩

/-! The three answers of the decoder (R129). -/

theorem decode_eq_ok_iff : decode c = .ok i ↔ ∃ f, formatOf c.opc = some f ∧ c.fits f = true ∧ select c = some i := by
  unfold decode
  cases formatOf c.opc with
  | none => simp
  | some f =>
    cases hfit : c.fits f with
    | false => simp [hfit]
    | true => cases select c <;> simp [hfit]

theorem decode_eq_reserved_iff : decode c = .error (.reservedOpcode c.opc) ↔ formatOf c.opc = none := by
  unfold decode
  cases formatOf c.opc with
  | none => simp
  | some f =>
    cases hfit : c.fits f with
    | false => simp [hfit]
    | true => cases select c <;> simp [hfit]

theorem decode_eq_malformed_iff (hf : formatOf c.opc = some f) :
    decode c = .error (.malformedCommand c.opc) ↔ ¬ c.fits f = true := by
  by_cases hfit : c.fits f = true
  · obtain ⟨i, hi⟩ := select_of_fits hf hfit
    simp [decode, hf, hfit, hi]
  · simp [decode, hf, hfit]

/-- Settles O1: the opcode fixes the format, and a command that fits it has no operand but those of the instruction. -/
theorem decodeInvertsEncode : Obligations.DecodeInvertsEncode := by
  unfold Obligations.DecodeInvertsEncode
  refine fun PinId c i => ⟨fun h => ?_, ?_⟩
  · obtain ⟨f, hf, hfit, hs⟩ := decode_eq_ok_iff.mp h
    have hformat : formatOf c.opc = some i.format := opcode_of_select hs ▸ formatOf_opcode i
    cases hf.symm.trans hformat
    exact encode_of_select hs hfit
  · rintro ⟨hw, rfl⟩
    exact Machine.decode_encode_of_wellFormed hw

/-- Settles O4: each of the four commands is the encoding of its instruction. -/
theorem writtenOutWordsDecode : Obligations.WrittenOutWordsDecode := by
  unfold Obligations.WrittenOutWordsDecode
  exact ⟨Machine.decode_encode_of_wellFormed (i := .drvWr (.int 0x0900)) rfl,
    Machine.decode_encode_of_wellFormed (i := .bufSet (.int 3) (.int 1)) rfl,
    Machine.decode_encode_of_wellFormed (i := .bufCommit) rfl,
    Machine.decode_encode_of_wellFormed (i := .init ⟨5, 6, 7, 8⟩ .nonInt) rfl⟩

end Sys2Proof
end

section
/-! The issue of a command that does not decode (40_sequencer.md R160, 60_exceptions.md R300, checks 1 and 2). -/

namespace Sys2Proof.Machine

variable {PinId : Type}

/-- The scheduler's listed choice of an idle port: the port is offered the host thread's next command (40_sequencer.md R161). -/
theorem fetch_idle {s : State PinId} {p : Nat} {ps : List Nat} {c : Ctx PinId} (hm : s.mark = none) (hsched : s.sched = p :: ps)
    (hc : s.ports[p]? = some c) (hb : c.busy = false) : fetch s = accept { s with sched := ps, active := p } c := by
  have hctx : State.ctx { s with sched := ps, active := p } p = some c := hc
  simp only [fetch, hm, choose, hsched, turnOf] at hctx ⊢
  simp [hctx, hb]

theorem accept_of_decode_error {s : State PinId} {c : Ctx PinId} {cmd : Command PinId} {rest : List (Command PinId)}
    {e : DecodeError} (hq : c.queue = cmd :: rest) (hdec : decode cmd = .error e) :
    accept s c = .answer (.next
      (((s.modCtx s.active fun x => { x with queue := rest }).present cmd).enterFault (rejectFault e s.active))) := by
  simp [accept, hq, hdec]

/-- A step that issues a command that does not decode takes it from the host thread, presents it and enters the fault. -/
theorem step_of_decode_error {s : State} {p : Nat} {ps : List Nat} {c : Ctx} {cmd : Command} {rest : List Command}
    {e : DecodeError} (hm : s.mark = none) (hsched : s.sched = p :: ps) (hc : s.ports[p]? = some c) (hb : c.busy = false)
    (hq : c.queue = cmd :: rest) (hdec : decode cmd = .error e) :
    step s = .next (((State.modCtx { s with sched := ps, active := p } p fun x => { x with queue := rest }).present
      cmd).enterFault (rejectFault e p)) := by
  rw [step, fetch_idle hm hsched hc hb, accept_of_decode_error hq hdec]

/-- Settles O2: the decoder rejects the opcodes with no format, and the fault leaves what the presentation leaves. -/
theorem reservedOpcodesFault : Obligations.ReservedOpcodesFault := by
  unfold Obligations.ReservedOpcodesFault
  refine ⟨fun PinId c => decode_eq_reserved_iff.trans formatOf_eq_none_iff, ?_⟩
  intro s p ps c cmd rest hm hsched hc hb hq hres
  have hdec : decode cmd = .error (.reservedOpcode cmd.opc) := decode_eq_reserved_iff.mpr (formatOf_eq_none_iff.mpr hres)
  refine ⟨_, step_of_decode_error hm hsched hc hb hq hdec, rfl, rfl, rfl, rfl, rfl, rfl, rfl, rfl, rfl, rfl, rfl, rfl, ?_⟩
  exact fun q hne => (getElem?_modify_other hne).trans (getElem?_modify_other hne)

/-- Settles O3: a listed opcode is malformed where its slots do not fit, and the fault leaves what the presentation leaves. -/
theorem malformedCommandsFault : Obligations.MalformedCommandsFault := by
  unfold Obligations.MalformedCommandsFault
  refine ⟨fun PinId c f hf => (decode_eq_malformed_iff hf).trans (not_congr ?_), ?_⟩
  · cases f with
    | n => exact fits_n
    | w => exact fits_w
    | p => exact fits_p
    | pv => exact fits_pv
    | i => exact fits_i
  · intro s p ps c cmd rest hm hsched hc hb hq hdec
    exact ⟨_, step_of_decode_error hm hsched hc hb hq hdec, rfl, rfl, rfl, rfl, rfl, rfl⟩

end Sys2Proof.Machine
end

section
/-! The pseudo-commands of the assembler (30_encoding.md R131). -/

namespace Sys2Proof.Machine

theorem parseArg_one : parseArg ['1'] = some (.int 1) := by decide

theorem parseArg_zero : parseArg ['0'] = some (.int 0) := by decide

/-- BUF.SET assembles its two operands into the slots `a` and `b` (R130). -/
theorem assemble_bufSet {PinId : Type} (pin : List Char → Option PinId) (pos : List Char) {value : List Char} {v : Arg}
    (hv : parseArg value = some v) :
    assemble pin (.op 0x15#8) [pos, value] = (parseArg pos).map fun a => encode (.bufSet a v) := by
  have hf : formatOf 0x15#8 = some .pv := formatOf_opcode (.bufSet (PinId := PinId) .absent v)
  cases h : parseArg pos <;> simp [assemble, hf, parseArgs, h, hv, withArgs, encode, Command.bare, Instr.opcode]

/-- Settles O5: both sides read the position's text alike, and the value's text is one digit. -/
theorem pseudoCommandsExpand : Obligations.PseudoCommandsExpand := by
  unfold Obligations.PseudoCommandsExpand
  refine fun PinId pin => ⟨fun f => ?_, fun f => ?_, fun f q hq => ?_⟩
  · rw [assemble_bufSet pin f parseArg_one]
    cases h : parseArg f <;> simp [assemble, parseArgs, h, Instr.bufOn]
  · rw [assemble_bufSet pin f parseArg_zero]
    cases h : parseArg f <;> simp [assemble, parseArgs, h, Instr.bufOff]
  · have hi : formatOf 0xF0#8 = some .i := formatOf_opcode (.init q .absent)
    simp [assemble, hi, hq, parseArgs, withArgs, encode, Command.bare, Instr.opcode]

end Sys2Proof.Machine
end

section
/-! The step of the port that has its turn (40_sequencer.md R161), and the issue of an admitted command (R160). -/

namespace Sys2Proof.Machine

section
variable {PinId : Type} {s : State PinId} {c : Ctx PinId} {cmd : Command PinId} {i : Instr PinId} {p : Nat}

theorem fetch_of_choose {t : State PinId} (hm : s.mark = none) (hch : choose s = some (p, t)) : fetch s = turnOf p t := by
  simp [fetch, hm, hch]

/-- A listed choice of the scheduler is the turn of that port. -/
theorem fetch_listed {ps : List Nat} (hm : s.mark = none) (hsched : s.sched = p :: ps) :
    fetch s = turnOf p { s with sched := ps } := fetch_of_choose hm (by simp [choose, hsched])

/-- The turn of a busy port: it goes on with the command in its context. -/
theorem turnOf_busy (hc : s.ports[p]? = some c) (hb : c.busy = true) : turnOf p s = resume { s with active := p } c := by
  have hctx : State.ctx { s with active := p } p = some c := hc
  simp [turnOf, hctx, hb]

theorem accept_of_decode_ok {rest : List (Command PinId)} (hq : c.queue = cmd :: rest) (hdec : decode cmd = .ok i) :
    accept s c = .run i (s.modCtx s.active fun x => { x with queue := rest }) := by
  simp [accept, hq, hdec]

theorem resume_of_decode_ok (hcmd : c.command = some cmd) (hdec : decode cmd = .ok i) : resume s c = .run i s := by
  simp [resume, hcmd, hdec]

/-- Without a listed choice a port that can step has its turn. -/
theorem choose_unlisted (hsched : s.sched = []) (hready : s.ready ≠ []) :
    ∃ p ∈ s.ready, ∃ k, choose s = some (p, { s with tick := k }) := by
  unfold choose
  split
  · next h => cases hsched.symm.trans h
  · split
    · next h => exact absurd h hready
    · next q h => exact ⟨q, by simp [h], s.tick, rfl⟩
    · next q qs _ h =>
      have hlt : Config.freePick s.tick % (q :: qs).length < (q :: qs).length := Nat.mod_lt _ (Nat.succ_pos _)
      exact ⟨_, by rw [h]; exact List.getElem_mem hlt, s.tick + 1, by rw [List.getElem?_eq_getElem hlt, Option.getD_some]⟩

theorem fetch_waiting (hm : s.mark = none) (hsched : s.sched = []) (hready : s.ready = []) :
    fetch s = .answer (.next s) := by
  simp [fetch, hm, choose, hsched, hready]

end

/-- Settles O7: the idle port accepts the command, which decodes. -/
theorem stepIssuesDecodedCommand : Obligations.StepIssuesDecodedCommand := by
  unfold Obligations.StepIssuesDecodedCommand
  intro s p ps c cmd rest i hm hsched hc hb hq hdec
  rw [step, fetch_idle hm hsched hc hb, accept_of_decode_ok hq hdec]
  rfl

/-- Settles O8: the command in the busy port's context is the encoding of `i`, and decodes to it. -/
theorem stepResumesBusyPort : Obligations.StepResumesBusyPort := by
  unfold Obligations.StepResumesBusyPort
  intro s p ps c i hm hsched hc hb hopc ha hbb hpins hw
  have hcmd : c.command = some (encode i) := by simp [Ctx.command, hopc, ha, hbb, hpins]
  have hturn : turnOf p { s with sched := ps } = resume { s with sched := ps, active := p } c := turnOf_busy hc hb
  rw [step, fetch_listed hm hsched, hturn, resume_of_decode_ok hcmd (decode_encode_of_wellFormed hw)]

/-- Settles O9: listing the port that the free value picks gives it the same turn. -/
theorem unlistedTurnGoesToSomeReadyPort : Obligations.UnlistedTurnGoesToSomeReadyPort := by
  unfold Obligations.UnlistedTurnGoesToSomeReadyPort
  intro s hm hsched
  constructor
  · intro hready
    obtain ⟨p, hp, k, hch⟩ := choose_unlisted hsched hready
    have hlisted : fetch { s with sched := [p], tick := k } = turnOf p { s with sched := [], tick := k } := fetch_listed hm rfl
    refine ⟨p, hp, k, ?_⟩
    rw [step, step, fetch_of_choose hm hch, hlisted, ← hsched]
  · intro hready
    rw [step, fetch_waiting hm hsched hready]

/-! The issue. -/

/-- With `CAP` defined the local computation of an issue sets `upc`, and at most `snap` besides (10_state.md R40, field P8). -/
theorem begin_of_cap {i : Instr} {s : State} {n : Nat} (hi : isLifecycle i = false) (hcap : s.cap = some n) (c : Ctx) :
    ∃ u w, (ruleOf i).begin s c = some { c with upc := some u, snap := w } := by
  have hpos (pos : Arg) (u : UPos) : ∃ u' w, beginPos pos u s c = some { c with upc := some u', snap := w } := by
    simp only [beginPos, hcap]
    split <;> exact ⟨_, _, rfl⟩
  cases i with
  | drvCap | drvClr | drvZero | bufCap | bufCommit | bufGetbuf => exact ⟨_, _, rfl⟩
  | bufClr | bufWr => exact ⟨_, _, rfl⟩
  | drvWr word =>
    simp only [ruleOf, beginDrvWr, hcap]
    split <;> exact ⟨_, _, rfl⟩
  | bufChk pos | bufGet pos => exact hpos pos _
  | bufSet pos value =>
    simp only [ruleOf, beginBufSet, hcap]
    split <;> exact ⟨_, _, rfl⟩
  | init | fini => cases hi

theorem encode_opc {PinId : Type} (i : Instr PinId) : (encode i).opc = i.opcode := by cases i <;> rfl

/-- An internal event leaves lines, chain and answers alone. -/
theorem emitted_internal {s : State} {c d : Ctx} {f : Ctx → Ctx} {e : Event} (hc : s.ctx s.active = some c) (hd : f c = d)
    (he : e.isWire = false) : emitted s [e] d = after s [e] f := by
  have hdrive : driveCount [e] = 0 := by
    cases e with
    | acq | rls | brd | bwr | issue | done => rfl
    | _ => cases he
  have hfold : foldHist (s.line, s.chain) (tagged s.active [e]) = (s.line, s.chain) := by
    simp [tagged, foldHist, foldEvent, levels_of_internal he]
  have hdraws : drawsAfter s 0 = s.draws := drawsAfter_of_no_drive s (es := []) rfl
  rw [emitted_eq hc hd hfold hdrive, hdraws]
  rfl

/-- Settles O11: the issue writes the command into the context, and its local computation `upc` and `snap`. -/
theorem admittedCommandsAreIssued : Obligations.AdmittedCommandsAreIssued := by
  unfold Obligations.AdmittedCommandsAreIssued
  intro i s n c hw hinit hfini hm hc hb hl hcap
  have hi : isLifecycle i = false := by
    cases i with
    | init q a => exact absurd rfl (hinit q a)
    | fini => exact absurd rfl hfini
    | _ => rfl
  obtain ⟨u, w, hbegin⟩ := begin_of_cap (s := s.present (encode i)) hi hcap (given i c)
  refine ⟨u, w, ?_⟩
  rw [exec_issue hi hw hm hc hb hl hbegin, encode_opc]
  exact congrArg Host.Outcome.next (emitted_internal hc rfl rfl)

end Sys2Proof.Machine
end

section
/-! How many events of each kind a transmit has (40_sequencer.md R178), and its least line time (70_reset_and_hazards.md R355). -/

namespace Sys2Proof.Machine

section
variable {f : Event → Bool} {a m b : Nat} (hshift : ∀ b, ((shiftEvents b).filter f).length = m)
include hshift

theorem filter_shiftLoop_length (w : Int) (n : Nat) : ((shiftLoopEvents w n).filter f).length = m * n := by
  induction n with
  | zero => rfl
  | succ n ih =>
    rw [shiftLoopEvents, List.filter_append, List.length_append, hshift, ih]
    ring

/-- The events of a kind in a transmit: those of its two pulses, and those of a shift pulse for each bit. -/
theorem filter_transmit_length (hclear : (clearEvents.filter f).length = a) (hlatch : (latchEvents.filter f).length = b)
    (n : Nat) (w : Int) : ((transmitEvents n w).filter f).length = a + m * n + b := by
  rw [transmitEvents, List.filter_append, List.filter_append, List.length_append, List.length_append, hclear,
    filter_shiftLoop_length hshift, hlatch]

end

theorem filter_wire_transmit (n : Nat) (w : Int) : ((transmitEvents n w).filter Event.isWire).length = 8 + 6 * n := by
  rw [filter_transmit_length (a := 3) (m := 6) (b := 5) (by decide) (by decide) (by decide)]
  omega

theorem filter_dly_transmit (n : Nat) (w : Int) : ((transmitEvents n w).filter fun x => x == .dly).length = 2 * n + 3 := by
  rw [filter_transmit_length (a := 1) (m := 2) (b := 2) (by decide) (by decide) (by decide)]
  omega

/-- The least line time of a port's own events counts their delays. -/
theorem minLineTime_tagged (e : Duration) (p : Nat) (es : List Event) :
    minLineTime e p (tagged p es) = e.val * ((es.filter fun x => x == .dly).length : Nat) := by
  have hfilter : (tagged p es).filter (fun x => x.port == p && x.ev == .dly) = tagged p (es.filter fun x => x == .dly) := by
    simp [tagged, List.filter_map, Function.comp_def]
  rw [minLineTime, hfilter, tagged, List.length_map]

/-- Settles O57: each count is that of the two pulses and `n` times that of a shift pulse. -/
theorem transmitEventCounts : Obligations.TransmitEventCounts := by
  unfold Obligations.TransmitEventCounts
  intro n p e w
  refine ⟨(transmitEvents_length n w).trans (Nat.add_comm _ _), filter_wire_transmit n w, driveCount_transmit n w,
    filter_dly_transmit n w, ?_, fun l => ?_⟩
  · rw [minLineTime_tagged, filter_dly_transmit]
    push_cast
    ring
  · cases l with
    | sdata =>
      rw [filter_transmit_length (a := 0) (m := 1) (b := 0) (by decide) (by decide) (by decide)]
      simp
    | sclk =>
      rw [filter_transmit_length (a := 0) (m := 3) (b := 0) (by decide) (by decide) (by decide)]
      simp
    | lclk =>
      rw [filter_transmit_length (a := 0) (m := 0) (b := 3) (by decide) (by decide) (by decide)]
      simp
    | clrN =>
      rw [filter_transmit_length (a := 2) (m := 0) (b := 0) (by decide) (by decide) (by decide)]
      simp

end Sys2Proof.Machine
end

section
/-! DRV.CLR and DRV.ZERO while `LIFE` is READY, no call failing (41_driver.md R197, R205). -/

namespace Sys2Proof.Machine

section
variable {i : Instr} {n : Nat} {b c d : Ctx} {v : UPos} {s : State}

/-- The clear pulse of a command that has its positions and goes on at `v` (40_sequencer.md R174). -/
theorem emits_clearPulse {onFail : Ctx → Ctx} (hb : b.busy = true)
    (hprog : ∀ (s : State) (c : Ctx) (u : UPos), isClear u = true → (ruleOf i).prog s c u = clearPulse (goto v) onFail u) :
    Emits i n (goto .clearLow b) clearEvents (goto v b) := by
  have h1 : Emits i n (goto .clearLow b) [.drv .clrN false] (goto .clearWait b) :=
    emits_drive (next := goto .clearWait) rfl hb fun s _ => hprog s _ .clearLow rfl
  have h2 : Emits i n (goto .clearWait b) [.dly] (goto .clearHigh b) :=
    emits_delay (next := goto .clearHigh) rfl hb fun s _ => hprog s _ .clearWait rfl
  have h3 : Emits i n (goto .clearHigh b) [.drv .clrN true] (goto v b) :=
    emits_drive (next := goto v) rfl hb fun s _ => hprog s _ .clearHigh rfl
  exact (h1.trans h2).trans h3

theorem emits_driveAll {u : UPos} {l : Bool} {next onFail : Ctx → Ctx} (hu : c.upc = some u) (hb : (next c).busy = true)
    (hp : ∀ s : State, s.cap = some n →
      (ruleOf i).prog s c u = .step { op := .driveAll l, next := next, onFail := onFail }) :
    Emits i n c [.drvAll l] (next c) := by
  refine ⟨hb, fun s hcap hs => execTimes_succ ?_⟩
  rw [exec_of_busy hs.mark hs.ctx hs.busy hu, hp s hcap]
  obtain ⟨hok, hdrawn⟩ := drawn_of_oracleOk hs.oracle
  obtain ⟨hc, -⟩ | ⟨-, -, e⟩ | ⟨-, ho, -⟩ := runDriveAll_cases s l
  · cases hs.claimed.symm.trans hc
  · simp only [perform, Micro.run, id_eq, e, hdrawn]
    rw [emitted_of_ctx hs.ctx]
    rfl
  · cases hok.symm.trans ho

/-- The port that has just been issued a command, with the answers it had. -/
theorem live_of_issue {k : Nat} {o : Opcode} (hm : s.mark = none) (hc : s.ctx s.active = some c) (hb : d.busy = true)
    (hclaimed : allClaimed s.claimed = true) (horacle : oracleOk s k = true) : Live (emitted s [.issue o] d) d k := by
  refine ⟨hm, ctx_emitted hc _ _, hb, hclaimed, ?_⟩
  have hdraws : (emitted s [.issue o] d).draws = s.draws := drawsAfter_of_no_drive s rfl
  rw [oracleOk, hdraws]
  exact horacle

/-- A command that is issued at `u` while the block is built, appends `es`, whose calls succeed, and completes. -/
theorem execTimes_built {u : UPos} {es : List Event} {ch : Chain} {ls : Quad Level} (hi : isLifecycle i = false)
    (hw : i.wellFormed = true) (hrest : atRest s = true) (hbuilt : built s n = true)
    (horacle : oracleOk s (driveCount es) = true) (hbegin : ∀ s c, (ruleOf i).begin s c = some (goto u c))
    (hes : ∀ b : Ctx, b.busy = true → Emits i n (goto u b) es (goto .done b))
    (hdone : ∀ s c, (ruleOf i).prog s c .done = completeStep .ok none)
    (hfold : foldHist (s.line, s.chain) (tagged s.active es) = (ls, ch)) :
    execTimes (1 + es.length + 1) i s = .next
      { after s ([Event.issue i.opcode] ++ es ++ [Event.done .ok]) (finished i .done .ok none) with
        line := ls
        chain := ch
        draws := drawsAfter s (driveCount es) } := by
  obtain ⟨hl, hcap, hclaimed, -⟩ := built_iff.mp hbuilt
  obtain ⟨hm, c, hc, hb, hfree⟩ := atRest_iff.mp hrest
  have hissue := exec_issue hi hw hm hc hb hl (hbegin _ _)
  rw [encode_opc] at hissue
  rw [execTimes_command hissue (live_of_issue hm hc rfl hclaimed horacle) hcap (hes (given i c) rfl) rfl hfree
    fun s => hdone s _]
  refine congrArg Host.Outcome.next (emitted_eq hc rfl ?_ ?_)
  · rw [tagged_append, tagged_append, foldHist_append, foldHist_append]
    exact hfold
  · simp [driveCount, Event.isDrive]

end

theorem fillStage_eq_replicate (v : CBit) (st : List CBit) : fillStage v st = List.replicate st.length v := List.map_const' ..

theorem progDrvClr_of_clear {s : State} {c : Ctx} {u : UPos} (hu : isClear u = true) :
    (ruleOf .drvClr).prog s c u = clearPulse (goto .done) epilogue u := by
  cases u with
  | clearLow | clearWait | clearHigh => rfl
  | _ => cases hu

/-- Settles O21: the issue, the clear pulse and the Complete, folded. -/
theorem drvClrClearsShiftStage : Obligations.DrvClrClearsShiftStage := by
  unfold Obligations.DrvClrClearsShiftStage
  intro s n hrest hbuilt horacle
  obtain ⟨-, -, -, hfl, -, hs, -⟩ := built_iff.mp hbuilt
  have hfold := foldHist_clear (ch := s.chain) (p := s.active) hfl
  rw [fillStage_eq_replicate, hs] at hfold
  exact execTimes_built (u := .clearLow) (es := clearEvents) rfl rfl hrest hbuilt horacle (fun _ _ => rfl)
    (fun _ hb => emits_clearPulse hb fun _ _ _ => progDrvClr_of_clear) (fun _ _ => rfl) hfold

/-- `DriveAll(L)` zeroes the shift stage and keeps the outputs (40_sequencer.md R165). -/
theorem foldHist_driveAll_low (ls : Quad Level) (ch : Chain) (p : Nat) : foldHist (ls, ch) (tagged p [.drvAll false]) =
    (Quad.all .low, ⟨fillStage .b0 ch.s, ch.q⟩) := by
  have hq : outputStage ls (Quad.all .low) (fillStage .b0 ch.s) ch.q = ch.q := outputStage_no_edge (.inl (by decide))
  exact congrArg (Prod.mk (Quad.all Level.low)) ((react_of_driven rfl).trans (congrArg (Chain.mk _) hq))

/-- Settles O24: the issue, the DriveAll and the Complete, folded. -/
theorem drvZeroDrivesLinesLow : Obligations.DrvZeroDrivesLinesLow := by
  unfold Obligations.DrvZeroDrivesLinesLow
  intro s n hrest hbuilt horacle
  obtain ⟨-, -, -, -, -, hs, -⟩ := built_iff.mp hbuilt
  have hfold := foldHist_driveAll_low s.line s.chain s.active
  rw [fillStage_eq_replicate, hs] at hfold
  exact execTimes_built (u := .driveAll) (es := [.drvAll false]) rfl rfl hrest hbuilt horacle (fun _ _ => rfl)
    (fun b hb => emits_driveAll (next := goto .done) rfl hb fun _ _ => rfl) (fun _ _ => rfl) hfold

end Sys2Proof.Machine
end

section
/-! A drive that the backend fails (40_sequencer.md R164, R165), and the error epilogue (R179). -/

namespace Sys2Proof.Machine

section
variable {PinId : Type} {i : Instr PinId} {s : State PinId} {c : Ctx PinId} {u : UPos} {l : Line} {v b : Bool}
  {after onFail : Ctx PinId → Ctx PinId}

/-- The drive of `l` to `v` stands at a position, and its failure goes on as `onFail` says. -/
def Fetched.IsDrive (f : Fetched PinId) (l : Line) (v : Bool) (onFail : Ctx PinId → Ctx PinId) : Prop :=
  ∃ next, f = .step { op := .drive l v, next := next, onFail := onFail }

theorem clearPulse_isDrive (hu : isClear u = true) (hd : driveAt b u = some (l, v)) :
    (clearPulse after onFail u).IsDrive l v onFail := by
  cases u with
  | clearLow | clearHigh =>
    cases hd
    exact ⟨_, rfl⟩
  | clearWait => cases hd
  | _ => cases hu

theorem latchPulse_isDrive (hu : isLatch u = true) (hd : driveAt b u = some (l, v)) :
    (latchPulse after onFail u).IsDrive l v onFail := by
  cases u with
  | latchLow | latchHigh | latchFall =>
    cases hd
    exact ⟨_, rfl⟩
  | latchWait | latchHold => cases hd
  | _ => cases hu

theorem shiftBit_isDrive {w : Int} {k : Nat} (hu : isShift u = true) (hd : driveAt (levelBit w k) u = some (l, v)) :
    (shiftBit w k u : Fetched PinId).IsDrive l v epilogue := by
  cases u with
  | shiftData | shiftLow | shiftHigh | shiftFall =>
    cases hd
    exact ⟨_, rfl⟩
  | shiftWait | shiftHold => cases hd
  | _ => cases hu

theorem transmit_isDrive {n : Nat} (ht : transmitOk n c u = true) (hd : driveAt (dataBit c) u = some (l, v)) :
    (transmit (some n) c after u).IsDrive l v epilogue := by
  obtain ⟨hu, ⟨w, hw, -⟩, hshift⟩ := transmitOk_iff.mp ht
  simp only [isTransmit, Bool.or_eq_true] at hu
  obtain (hu | hu) | hu := hu
  · rw [transmit_of_clear hu]
    exact clearPulse_isDrive hu hd
  · obtain ⟨k, hk, -⟩ := hshift hu
    rw [transmit_of_shift hw hk hu]
    simp only [dataBit, hw, hk] at hd
    exact shiftBit_isDrive hu hd
  · rw [transmit_of_latch hu]
    exact latchPulse_isDrive hu hd

theorem isTransmit_of_driveAt (hd : driveAt b u = some (l, v)) : isTransmit u = true := by
  cases u with
  | clearLow | clearHigh | latchLow | latchHigh | latchFall => rfl
  | shiftData | shiftLow | shiftHigh | shiftFall => rfl
  | _ => cases hd

/-! The micro-programs that go through a pulse or a transmit. -/

theorem commitBody_of_transmit {cap : Option Nat} {m : MicroStep PinId} (h : transmit cap c (goto .unlock) u = .step m) :
    commitBody cap c u = .step m := by
  unfold commitBody
  split
  · rw [transmit_off rfl] at h
    cases h
  · rw [transmit_off rfl] at h
    cases h
  · rw [transmit_off rfl] at h
    cases h
  · rw [h]
    rfl

variable [DecidableEq PinId]

theorem progBufCommit_of_transmit {m : MicroStep PinId} (h : transmit s.cap c (goto .unlock) u = .step m) :
    (ruleOf .bufCommit).prog s c u = .step m := by
  cases u with
  | acquire => cases h
  | _ => exact commitBody_of_transmit h

theorem progBufWr_of_transmit {word : Arg} {m : MicroStep PinId} (h : transmit s.cap c (goto .unlock) u = .step m) :
    (ruleOf (.bufWr word)).prog s c u = .step m := by
  cases u with
  | acquire | bufWrite => cases h
  | _ => exact commitBody_of_transmit h

theorem progBufClr_of_clear (hu : isClear u = true) :
    (ruleOf .bufClr).prog s c u = clearPulse (goto (byScope s .done .unlock)) epilogue u := by
  cases u with
  | clearLow | clearWait | clearHigh => rfl
  | _ => cases hu

/-- Every drive of one line in a line-driving command fails to the error epilogue (40_sequencer.md R179). -/
theorem prog_isDrive {i : Instr} {s : State} {c : Ctx} (hi : drivesLines i = true) (hpos : posOk s c i u = true)
    (hd : driveAt (dataBit c) u = some (l, v)) : ((ruleOf i).prog s c u).IsDrive l v epilogue := by
  obtain ⟨hl, n, hcap⟩ := ready_of_posOk (not_lifecycle_of_drivesLines hi) hpos
  have htr := isTransmit_of_driveAt hd
  have hepi := not_epilogueOk_of_transmit (c := c) htr
  have hdrive {after : Ctx → Ctx} (ht : transmitOk n c u = true) : (transmit s.cap c after u).IsDrive l v epilogue :=
    hcap ▸ transmit_isDrive ht hd
  cases i with
  | drvClr =>
    obtain ⟨-, ⟨hu | rfl, -⟩ | ⟨he, -⟩⟩ := (posOk_drvClr hl hcap).mp hpos
    · rw [progDrvClr_of_clear hu]
      exact clearPulse_isDrive hu hd
    · cases htr
    · exact absurd he hepi
  | drvWr word =>
    obtain ⟨-, ⟨rfl | rfl | ht, -⟩ | ⟨he, -⟩⟩ := (posOk_drvWr hl hcap).mp hpos
    · cases htr
    · cases htr
    · exact (hdrive ht).imp fun _ => progDrvWr_of_transmit
    · exact absurd he hepi
  | drvZero =>
    obtain ⟨-, ⟨rfl | rfl, -⟩ | ⟨he, -⟩⟩ := (posOk_drvZero hl hcap).mp hpos
    · cases htr
    · cases htr
    · exact absurd he hepi
  | bufClr =>
    obtain ⟨-, ⟨rfl, -⟩ | ⟨rfl | hu, -⟩ | ⟨rfl, -⟩ | ⟨rfl, -⟩ | he⟩ := (posOk_bufClr hl hcap).mp hpos
    · cases htr
    · cases htr
    · rw [progBufClr_of_clear hu]
      exact clearPulse_isDrive hu hd
    · cases htr
    · cases htr
    · exact absurd he hepi
  | bufWr word =>
    obtain ⟨-, ⟨rfl, -⟩ | ⟨rfl, -⟩ | hc⟩ := (posOk_bufWr hl hcap).mp hpos
    · cases htr
    · cases htr
    · exact (hdrive (commitOk_transmit hc htr).1).imp fun _ => progBufWr_of_transmit
  | bufCommit =>
    obtain ⟨-, ⟨rfl, -⟩ | hc⟩ := (posOk_bufCommit hl hcap).mp hpos
    · cases htr
    · exact (hdrive (commitOk_transmit hc htr).1).imp fun _ => progBufCommit_of_transmit
  | _ => cases hi

end

/-! What a failing drive does. -/

section
variable {s : State} {d : Draw} {ds : List Draw} {onFail : Ctx → Ctx} (hfaults : s.cfg.backendFaults = true)
  (hdraws : s.draws = d :: ds) (hok : d.ok = false)
include hfaults hdraws hok

theorem perform_drive_failed {f : Fetched} {l : Line} {v : Bool} (hf : f.IsDrive l v onFail)
    (hclaimed : allClaimed s.claimed = true) :
    perform f s = .next
      { after s [.drvf l v d.took] (fun c => onFail (failedCtx c)) with
        line := if d.took then s.line.set l (Level.ofBit v) else s.line
        chain := if d.took then s.chain.react s.line (s.line.set l (Level.ofBit v)) else s.chain
        draws := ds } := by
  obtain ⟨next, rfl⟩ := hf
  obtain ⟨hdraw, hdrawn⟩ := State.draw_of_listed hfaults hdraws
  obtain ⟨hc, -⟩ | ⟨-, ho, -⟩ | ⟨-, -, e⟩ := runDrive_cases s l v
  · rw [allClaimed_get hclaimed] at hc
    cases hc
  · rw [hdraw, hok] at ho
    cases ho
  · rw [hdraw, hdrawn] at e
    simp only [perform, Micro.run, id_eq, e, State.modCtx_active]
    cases d.took <;> exact congrArg Host.Outcome.next (State.modCtx_modCtx _ _ _ _)

theorem perform_driveAll_failed {v : Bool} {next : Ctx → Ctx} (hclaimed : allClaimed s.claimed = true) :
    perform (.step { op := .driveAll v, next := next, onFail := onFail }) s = .next
      { after s [.drvAllf v d.took] (fun c => onFail (failedCtx c)) with
        line := if d.took then Quad.all (Level.ofBit v) else s.line
        chain := if d.took then s.chain.react s.line (Quad.all (Level.ofBit v)) else s.chain
        draws := ds } := by
  obtain ⟨hdraw, hdrawn⟩ := State.draw_of_listed hfaults hdraws
  obtain ⟨hc, -⟩ | ⟨-, ho, -⟩ | ⟨-, -, e⟩ := runDriveAll_cases s v
  · cases hclaimed.symm.trans hc
  · rw [hdraw, hok] at ho
    cases ho
  · rw [hdraw, hdrawn] at e
    simp only [perform, Micro.run, id_eq, e, State.modCtx_active]
    cases d.took <;> exact congrArg Host.Outcome.next (State.modCtx_modCtx _ _ _ _)

end

theorem epilogue_failedCtx (c : Ctx) : epilogue (failedCtx c) =
    { c with err := some .backendFailure, upc := some (if c.holdsLock then .errUnlock else .errComplete) } := by
  cases h : c.holdsLock <;> simp [epilogue, failedCtx, goto, h]

/-- Settles O36: at its position there stands a drive whose failure goes on at the error epilogue. -/
theorem failedDriveGoesToEpilogue : Obligations.FailedDriveGoesToEpilogue := by
  unfold Obligations.FailedDriveGoesToEpilogue
  constructor
  · intro i s c u l v d ds hi hm hc hb hu hpos hd hclaimed hfaults hdraws hok
    rw [exec_of_busy hm hc hb hu, perform_drive_failed hfaults hdraws hok (prog_isDrive hi hpos hd) hclaimed]
    simp only [epilogue_failedCtx]
  · intro s c d ds hm hc hb hu hclaimed hfaults hdraws hok
    have hp : (ruleOf .drvZero).prog s c .driveAll = .step { op := .driveAll false, next := goto .done } := rfl
    rw [exec_of_busy hm hc hb hu, hp, perform_driveAll_failed hfaults hdraws hok hclaimed]
    simp only [epilogue_failedCtx]
    rfl

/-! The error epilogue. -/

theorem after_after (s : State) (es es' : List Event) (f g : Ctx → Ctx) :
    after (after s es f) es' g = after s (es ++ es') (g ∘ f) := by
  simp [after, List.modify_modify_eq, tagged_append]

theorem ctx_after (s : State) (es : List Event) (f : Ctx → Ctx) : (after s es f).ctx s.active = (s.ctx s.active).map f :=
  State.ctx_modCtx_self s s.active f

/-- A state after the LockRelease of the error epilogue. -/
def errUnlocked (s : State) : State :=
  after { s with lock := none } [.rls] fun c => { c with holdsLock := false, upc := some .errComplete }

section
variable {i : Instr} {s : State} {c : Ctx} {u : UPos} (hi : drivesLines i = true)
include hi

theorem prog_of_epilogue (hu : u = .errUnlock ∨ u = .errComplete) : (ruleOf i).prog s c u = errorEpilogue c u := by
  cases i with
  | drvClr | drvWr | drvZero | bufClr | bufWr | bufCommit => obtain rfl | rfl := hu <;> rfl
  | _ => cases hi

variable (hm : s.mark = none) (hc : s.ctx s.active = some c) (hb : c.busy = true)
include hm hc hb

theorem exec_errUnlock (hu : c.upc = some .errUnlock) (hlock : s.lock = some s.active) :
    exec i s = .next (errUnlocked s) := by
  have hp : errorEpilogue c .errUnlock = .step { op := .lockRelease, next := goto .errComplete } := rfl
  rw [exec_of_busy hm hc hb hu, prog_of_epilogue hi (.inl rfl), hp]
  obtain ⟨hfree, -⟩ | ⟨-, e⟩ := runLockRelease_cases s
  · exact absurd hlock hfree
  · simp only [perform, Micro.run, id_eq, e]
    exact congrArg (fun t : State => Host.Outcome.next (t.log s.active .rls))
      (State.modCtx_modCtx { s with lock := none } s.active _ _)

theorem exec_errComplete {e : Status} (hu : c.upc = some .errComplete) (he : c.err = some e) (hfree : c.holdsLock = false) :
    exec i s = .next (after s [.done e] fun c => { c with sts := some e, res := some none, busy := false }) := by
  have hp : (ruleOf i).prog s c .errComplete = completeStep e none := by
    rw [prog_of_epilogue hi (.inr rfl)]
    simp [errorEpilogue, he]
  rw [exec_complete hm hc hb hu hfree hp]
  exact congrArg Host.Outcome.next (emitted_internal hc rfl rfl)

end

/-- Settles O37: the LockRelease of the epilogue leads to its Complete. -/
theorem epilogueReleasesLockAndCompletes : Obligations.EpilogueReleasesLockAndCompletes := by
  unfold Obligations.EpilogueReleasesLockAndCompletes
  intro i s c e hi hm hc hb he
  refine ⟨fun hu hlock => ?_, fun hu hfree => exec_errComplete hi hm hc hb hu he hfree⟩
  have hc' : (errUnlocked s).ctx s.active = some { c with holdsLock := false, upc := some .errComplete } :=
    (ctx_after { s with lock := none } _ _).trans (congrArg _ hc)
  have hdone := exec_errComplete (s := errUnlocked s) hi hm hc' hb rfl he rfl
  rw [execTimes_succ (exec_errUnlock hi hm hc hb hu hlock), execTimes_succ hdone, errUnlocked, after_after]
  rfl

end Sys2Proof.Machine
end

section
/-! FINI after a failing drive, its releases, and a release that fails (41_driver.md R208, 40_sequencer.md R171). -/

namespace Sys2Proof.Machine

/-! The drives. -/

section
variable {s : State} {c : Ctx} {u : UPos}

theorem progFini_of_clear (hu : isClear u = true) :
    (ruleOf .fini).prog s c u = clearPulse (goto .latchLow) startRelease u := by
  cases u with
  | clearLow | clearWait | clearHigh => rfl
  | _ => cases hu

theorem progFini_of_latch (hu : isLatch u = true) :
    (ruleOf .fini).prog s c u = latchPulse (goto .driveAll) startRelease u := by
  cases u with
  | latchLow | latchWait | latchHigh | latchHold | latchFall => rfl
  | _ => cases hu

/-- Every drive of one line in FINI fails to its releases. -/
theorem progFini_isDrive {l : Line} {v b : Bool} (hu : isClear u = true ∨ isLatch u = true) (hd : driveAt b u = some (l, v)) :
    ((ruleOf .fini).prog s c u).IsDrive l v startRelease := by
  obtain hu | hu := hu
  · rw [progFini_of_clear hu]
    exact clearPulse_isDrive hu hd
  · rw [progFini_of_latch hu]
    exact latchPulse_isDrive hu hd

end

/-! The releases. -/

theorem line_ofIndex_index (l : Line) : Line.ofIndex l.index = some l := by cases l <;> rfl

theorem progFini_release {s : State} {c : Ctx} {l : Line} (hk : c.k = some l.index) :
    (ruleOf .fini).prog s c .release = .step { op := .release l, next := afterRelease l.index } := by
  show releaseStep c = _
  simp [releaseStep, hk, line_ofIndex_index]

theorem progInit_rollback {pins : Quad Nat} {count : Arg} {s : State} {c : Ctx} {l : Line} {k : Nat} (hk : c.k = some k)
    (hj : c.j = some l.index) :
    (ruleOf (.init pins count)).prog s c .rollback = .step { op := .release l, next := afterRollback k l.index } := by
  show rollbackStep c = _
  simp [rollbackStep, hk, hj, line_ofIndex_index]

/-- The active port has released the pin of `l`, and its context is `d`. -/
def released (s : State) (l : Line) (d : Ctx) : State :=
  { after s [.rel l] (fun _ => d) with
    claimed := s.claimed.set l false
    line := s.line.set l .z
    chain := s.chain.react s.line (s.line.set l .z)
    draws := drawsAfter s 1 }

@[simp] theorem released_active (s : State) (l : Line) (d : Ctx) : (released s l d).active = s.active := rfl

section
variable {s : State} {l : Line} {next onFail : Ctx → Ctx} (hclaimed : s.claimed.get l = true) (hpins : s.pins ≠ none)
include hclaimed hpins

theorem perform_release {c : Ctx} (hc : s.ctx s.active = some c) (horacle : oracleOk s 1 = true) :
    perform (.step { op := .release l, next := next, onFail := onFail }) s = .next (released s l (next c)) := by
  obtain ⟨hok, hdrawn⟩ := drawn_of_oracleOk horacle
  obtain ⟨h, -⟩ | ⟨-, h, -⟩ | ⟨-, -, -, e⟩ | ⟨-, -, h, -⟩ := runRelease_cases s l
  · cases hclaimed.symm.trans h
  · exact absurd h hpins
  · have hports : (s.modCtx s.active next).ports = (s.modCtx s.active fun _ => next c).ports :=
      congrArg State.ports (State.modCtx_congr hc rfl)
    rw [State.modCtx_ports, State.modCtx_ports] at hports
    simp only [perform, Micro.run, id_eq, e, hdrawn, released, after, ← hports]
    rfl
  · cases hok.symm.trans h

/-- A release that fails enters the fault and changes nothing else. -/
theorem perform_release_failed (hfail : s.draw.ok = false) :
    perform (.step { op := .release l, next := next, onFail := onFail }) s = .next (s.enterFault (.releaseFailed s.active)) := by
  obtain ⟨h, -⟩ | ⟨-, h, -⟩ | ⟨-, -, h, -⟩ | ⟨-, -, -, e⟩ := runRelease_cases s l
  · cases hclaimed.symm.trans h
  · exact absurd h hpins
  · cases hfail.symm.trans h
  · simp only [perform, Micro.run, id_eq, e]

end

theorem oracleOk_drawsAfter {s t : State} {k : Nat} (h : oracleOk s (k + 1) = true) (hcfg : t.cfg = s.cfg)
    (hdraws : t.draws = drawsAfter s 1) : oracleOk t k = true := by
  refine oracleOk_iff.mpr fun hf => ?_
  rw [hcfg] at hf
  obtain ⟨hlen, hok⟩ := oracleOk_iff.mp h hf
  rw [hdraws, drawsAfter, if_pos hf]
  refine ⟨by rw [List.length_drop]; omega, fun x hx => hok x ?_⟩
  rw [List.take_drop, Nat.add_comm] at hx
  exact List.mem_of_mem_drop hx

theorem oracleOk_mono {s : State} {j k : Nat} (h : oracleOk s k = true) (hj : j ≤ k) : oracleOk s j = true := by
  refine oracleOk_iff.mpr fun hf => ?_
  obtain ⟨hlen, hok⟩ := oracleOk_iff.mp h hf
  exact ⟨by omega, fun x hx => hok x (List.mem_of_mem_take (by rwa [List.take_take, Nat.min_eq_left hj]))⟩

/-- The context of a port that goes on at FINI's `Release(j)`. -/
def atRelease (j : Nat) (c : Ctx) : Ctx := goto .release { c with k := some j }

@[simp] theorem atRelease_atRelease (j k : Nat) (c : Ctx) : atRelease k (atRelease j c) = atRelease k c := rfl

/-- FINI stands at `Release(j)`, with the pins from `j` on claimed, and none of its releases fails. -/
structure Releasing (s : State) (c : Ctx) (j : Nat) : Prop where
  mark : s.mark = none
  ctx : s.ctx s.active = some c
  busy : c.busy = true
  free : c.holdsLock = false
  upc : c.upc = some .release
  k : c.k = some j
  claimed : claimedRange s.claimed j 4 = true
  pins : s.pins ≠ none
  oracle : oracleOk s (4 - j) = true

theorem ctx_released {s : State} {c : Ctx} (hc : s.ctx s.active = some c) (l : Line) (d : Ctx) :
    (released s l d).ctx s.active = some d :=
  (State.ctx_modCtx_self s s.active fun _ => d).trans (congrArg (Option.map fun _ => d) hc)

section
variable {s : State} {c : Ctx} {l : Line}

theorem exec_of_releasing (h : Releasing s c l.index) : exec .fini s = .next (released s l (afterRelease l.index c)) := by
  have hlt : l.index < 4 := by cases l <;> decide
  have hclaimed : s.claimed.get l = true := by simpa [hlt] using claimedRange_iff.mp h.claimed l
  rw [exec_of_busy h.mark h.ctx h.busy h.upc, progFini_release h.k]
  exact perform_release hclaimed h.pins h.ctx (oracleOk_mono h.oracle (by omega))

/-- A release but the last leads to the next one. -/
theorem releasing_next (h : Releasing s c l.index) (hl : l.index < 3) :
    exec .fini s = .next (released s l (atRelease (l.index + 1) c)) ∧
      Releasing (released s l (atRelease (l.index + 1) c)) (atRelease (l.index + 1) c) (l.index + 1) := by
  have hnext : afterRelease l.index c = atRelease (l.index + 1) c := if_pos hl
  have horacle : oracleOk s (4 - (l.index + 1) + 1) = true := by
    rw [show 4 - (l.index + 1) + 1 = 4 - l.index by omega]
    exact h.oracle
  exact ⟨hnext ▸ exec_of_releasing h, h.mark, ctx_released h.ctx _ _, h.busy, h.free, rfl, rfl,
    claimedRange_release (line_ofIndex_index l) h.claimed, h.pins, oracleOk_drawsAfter horacle rfl rfl⟩

/-- FINI's last Complete (41_driver.md R208). -/
theorem exec_fini_done (hm : s.mark = none) (hc : s.ctx s.active = some c) (hb : c.busy = true) (hu : c.upc = some .done)
    (hf : c.holdsLock = false) : exec .fini s = .next
      (endInstance (after s [.done (finalStatus c.err)] fun c =>
        { c with sts := some (finalStatus c.err), res := some none, busy := false })) := by
  have hp : (ruleOf .fini).prog s c .done = completeStep (finalStatus c.err) none endInstance := rfl
  have hc' : (endInstance s).ctx (endInstance s).active = some c := hc
  have hports := State.modCtx_congr (f := fun d => { d with sts := some (finalStatus c.err), res := some none, busy := false })
    (g := fun d => { d with sts := some (finalStatus d.err), res := some none, busy := false }) hc' rfl
  rw [exec_of_busy hm hc hb hu, hp]
  obtain ⟨hl, -⟩ | ⟨-, e⟩ := runComplete_cases hc' (finalStatus c.err) none
  · cases hf.symm.trans hl
  · simp only [completeStep, perform, Micro.run, e, State.modCtx_id, hports]
    rfl

/-- The last release of FINI and its Complete. -/
theorem execTimes_of_releasing_last (h : Releasing s c Line.clrN.index) :
    ∃ t, execTimes 2 .fini s = .next t ∧ t.life = .unbuilt ∧ t.cc = false ∧ t.claimed = s.claimed.set .clrN false ∧
    t.line = s.line.set .clrN .z ∧ t.buf = none ∧ t.cap = none ∧ t.pins = none ∧
    t.hist = s.hist ++ tagged s.active [.rel .clrN, .done (finalStatus c.err)] ∧
    t.ctx s.active = some { c with
      upc := some .done, busy := false, sts := some (finalStatus c.err), res := some none } := by
  have hrelease : exec .fini s = .next (released s .clrN (goto .done c)) := exec_of_releasing h
  have hctx := ctx_released h.ctx .clrN (goto .done c)
  have hdone := exec_fini_done (s := released s .clrN (goto .done c)) h.mark hctx h.busy rfl h.free
  refine ⟨_, by rw [execTimes_succ hrelease, execTimes_succ hdone]; rfl, rfl, rfl, rfl, rfl, rfl, rfl, rfl, ?_, ?_⟩
  · exact List.append_assoc _ _ _
  · exact (State.ctx_modCtx_self (released s .clrN (goto .done c)) s.active _).trans (congrArg _ hctx)

end

/-- The four releases of FINI and its last Complete (41_driver.md R208, R209). -/
theorem execTimes_of_releasing {s : State} {c : Ctx} (h : Releasing s c Line.sdata.index) :
    ∃ t, execTimes 5 .fini s = .next t ∧ t.life = .unbuilt ∧ t.cc = false ∧ t.claimed = Quad.all false ∧
    t.line = Quad.all .z ∧ t.buf = none ∧ t.cap = none ∧ t.pins = none ∧
    t.hist = s.hist ++ tagged s.active [.rel .sdata, .rel .sclk, .rel .lclk, .rel .clrN, .done (finalStatus c.err)] ∧
    t.ctx s.active = some { c with
      k := some 3, upc := some .done, busy := false, sts := some (finalStatus c.err), res := some none } := by
  obtain ⟨e, h1⟩ := releasing_next h (by decide)
  obtain ⟨e1, h2⟩ := releasing_next (l := .sclk) h1 (by decide)
  obtain ⟨e2, h3⟩ := releasing_next (l := .lclk) h2 (by decide)
  obtain ⟨t, hrun, hlife, hcc, hclaimed, hline, hbuf, hcap, hpins, hhist, hctx⟩ := execTimes_of_releasing_last h3
  simp only [released_active, atRelease_atRelease] at hctx
  refine ⟨t, ?_, hlife, hcc, hclaimed, hline, hbuf, hcap, hpins, ?_, hctx⟩
  · rw [execTimes_succ e, execTimes_succ e1, execTimes_succ e2, hrun]
  · rw [hhist]
    simp [released, tagged, atRelease, goto]

/-- Settles O19: FINI's drives fail to its releases, and a release only ever succeeds or enters the fault. -/
theorem finiReleasesAfterFailure : Obligations.FiniReleasesAfterFailure := by
  unfold Obligations.FiniReleasesAfterFailure
  refine ⟨?_, ?_, ?_, ?_⟩
  · intro s c u l v d ds hm hc hb hu hpulse hd hclaimed hfaults hdraws hok
    rw [exec_of_busy hm hc hb hu, perform_drive_failed hfaults hdraws hok (progFini_isDrive hpulse hd) hclaimed]
    rfl
  · intro s c d ds hm hc hb hu hclaimed hfaults hdraws hok
    have hp : (ruleOf .fini).prog s c .driveAll =
        .step { op := .driveAll false, next := startRelease, onFail := startRelease } := rfl
    rw [exec_of_busy hm hc hb hu, hp, perform_driveAll_failed hfaults hdraws hok hclaimed]
    rfl
  · intro s c hm hc hb hfree hu hk hclaimed hpins horacle
    have hrange : claimedRange s.claimed 0 4 = true := by
      rw [hclaimed]
      rfl
    exact execTimes_of_releasing ⟨hm, hc, hb, hfree, hu, hk, hrange, hpins, horacle⟩
  · intro i s c l hm hc hb hat hclaimed hpins hfail
    obtain ⟨u, next, hu, hp⟩ : ∃ u next, c.upc = some u ∧
        (ruleOf i).prog s c u = .step { op := .release l, next := next } := by
      obtain ⟨rfl, hu, hk⟩ | ⟨⟨q, a, rfl⟩, hu, hk, hj⟩ := hat
      · exact ⟨_, _, hu, progFini_release hk⟩
      · obtain ⟨k, hk⟩ := Option.ne_none_iff_exists'.mp hk
        exact ⟨_, _, hu, progInit_rollback hk hj⟩
    refine ⟨s.enterFault (.releaseFailed s.active), ?_, rfl, rfl, rfl, rfl, rfl, rfl, rfl⟩
    rw [exec_of_busy hm hc hb hu, hp, perform_release_failed hclaimed hpins hfail]

end Sys2Proof.Machine
end

section
/-! INIT and FINI: what they leave unchanged, position by position (41_driver.md R191, R208, 42_wrapper.md R258). -/

namespace Sys2Proof.Machine

variable {PinId : Type}

/-- How a context changes in INIT and FINI; `first` says that its port stands at `Claim(0)`. -/
structure LifeCtx (first : Prop) (c d : Ctx PinId) : Prop where
  snap : d.snap = c.snap
  tmp : d.tmp = c.tmp
  i : d.i = c.i
  holdsLock : d.holdsLock = c.holdsLock
  n : ¬ first → d.n = c.n

theorem lifeCtx_refl (first : Prop) (c : Ctx PinId) : LifeCtx first c c := ⟨rfl, rfl, rfl, rfl, fun _ => rfl⟩

theorem LifeCtx.trans {first : Prop} {c d e : Ctx PinId} (h : LifeCtx first c d) (h' : LifeCtx first d e) : LifeCtx first c e :=
  ⟨h'.snap.trans h.snap, h'.tmp.trans h.tmp, h'.i.trans h.i, h'.holdsLock.trans h.holdsLock,
    fun hn => (h'.n hn).trans (h.n hn)⟩

/-- A step of a port in INIT or FINI that stands at `u`, `none` for the issue: each register changes only at its positions. -/
structure LifeFrame (u : Option UPos) (first : Prop) (s t : State PinId) : Prop where
  active : t.active = s.active
  lock : t.lock = s.lock
  cc : u ≠ some .done → t.cc = s.cc
  buf : u ≠ some .bufWrite → u ≠ some .done → t.buf = s.buf
  life : u ≠ none → u ≠ some .reject → u ≠ some .claimFailed → u ≠ some .done → t.life = s.life
  cap : u ≠ some .claim → u ≠ some .claimFailed → u ≠ some .done → t.cap = s.cap
  pins : u ≠ some .claim → u ≠ some .claimFailed → u ≠ some .done → t.pins = s.pins
  claimed : u ≠ some .claim → u ≠ some .rollback → u ≠ some .release → t.claimed = s.claimed
  ctx : OwnCtx (LifeCtx first) s t

section
variable {u : Option UPos} {first : Prop} {s t r : State PinId}

theorem LifeFrame.trans (h : LifeFrame u first s t) (h' : LifeFrame u first t r) : LifeFrame u first s r where
  active := h'.active.trans h.active
  lock := h'.lock.trans h.lock
  cc hd := (h'.cc hd).trans (h.cc hd)
  buf hb hd := (h'.buf hb hd).trans (h.buf hb hd)
  life hi hr hf hd := (h'.life hi hr hf hd).trans (h.life hi hr hf hd)
  cap hc hf hd := (h'.cap hc hf hd).trans (h.cap hc hf hd)
  pins hc hf hd := (h'.pins hc hf hd).trans (h.pins hc hf hd)
  claimed hc hb hr := (h'.claimed hc hb hr).trans (h.claimed hc hb hr)
  ctx := h.ctx.trans h'.ctx h.active fun _ _ _ => LifeCtx.trans

/-- A change of contexts, lines, history, chain, mark and the oracle's answers only. -/
theorem lifeFrame_of_regs_eq
    (h : t.active = s.active ∧ t.lock = s.lock ∧ t.cc = s.cc ∧ t.buf = s.buf ∧ t.life = s.life ∧ t.cap = s.cap ∧
      t.pins = s.pins ∧ t.claimed = s.claimed)
    (hctx : OwnCtx (LifeCtx first) s t) : LifeFrame u first s t := by
  obtain ⟨hactive, hlock, hcc, hbuf, hlife, hcap, hpins, hclaimed⟩ := h
  exact ⟨hactive, hlock, fun _ => hcc, fun _ _ => hbuf, fun _ _ _ _ => hlife, fun _ _ _ => hcap, fun _ _ _ => hpins,
    fun _ _ _ => hclaimed, hctx⟩

theorem lifeFrame_refl (u : Option UPos) (first : Prop) (s : State PinId) : LifeFrame u first s s :=
  lifeFrame_of_regs_eq ⟨rfl, rfl, rfl, rfl, rfl, rfl, rfl, rfl⟩ (.of_ports_eq rfl (lifeCtx_refl _))

theorem lifeFrame_enterFault (u : Option UPos) (first : Prop) (s : State PinId) (f : Fault) :
    LifeFrame u first s (s.enterFault f) :=
  lifeFrame_of_regs_eq ⟨rfl, rfl, rfl, rfl, rfl, rfl, rfl, rfl⟩ (.of_ports_eq rfl (lifeCtx_refl _))

theorem lifeFrame_modCtx {p : Nat} {f : Ctx PinId → Ctx PinId} (hp : p = s.active)
    (hf : ∀ c, s.ctx s.active = some c → LifeCtx first c (f c)) : LifeFrame u first s (s.modCtx p f) :=
  lifeFrame_of_regs_eq ⟨rfl, rfl, rfl, rfl, rfl, rfl, rfl, rfl⟩ ⟨f, by rw [State.modCtx_ports, hp], hf⟩

/-! The micro-steps (40_sequencer.md R164 to R173). -/

/-- The micro-steps that INIT and FINI have at `u`; none of them is a lock micro-step or a BufRead. -/
def Micro.LifeAt (m : Micro) (u : UPos) : Prop :=
  match m with
  | .claim _ => u = .claim
  | .release _ => u = .rollback ∨ u = .release
  | .bufWrite _ => u = .bufWrite
  | .drive _ _ | .driveAll _ | .delay | .complete _ _ => True
  | .lockAcquire | .lockRelease | .bufReadSnap | .bufReadTmp => False

/-- If the micro-step is done, or the backend failed it, its port has changed what it may at `u`. -/
def Result.LifeFrom (u : UPos) (first : Prop) (s : State PinId) (x : Result PinId) : Prop :=
  match x with
  | .ok t => LifeFrame (some u) first s t
  | .failed t => LifeFrame (some u) first s t
  | .held => True
  | .fault _ => True

/-- A failing drive. -/
theorem lifeFrame_failed {p : Nat} {e : Event} {ls : Quad Level} (hp : p = s.active) :
    LifeFrame u first s (((if s.draw.took then s.drawn.setLines ls else s.drawn).log p e).modCtx p failedCtx) := by
  have hlog : LifeFrame u first s ((if s.draw.took then s.drawn.setLines ls else s.drawn).log p e) := by
    refine lifeFrame_of_regs_eq ?_ (.of_ports_eq ?_ (lifeCtx_refl _)) <;> split <;> simp
  exact hlog.trans (lifeFrame_modCtx (hp.trans hlog.active.symm) fun _ _ => ⟨rfl, rfl, rfl, rfl, fun _ => rfl⟩)

theorem run_lifeFrom {u : UPos} {m : Micro} (hm : m.LifeAt u) : (m.run s).LifeFrom u first s := by
  cases m with
  | drive l v =>
    obtain ⟨-, e⟩ | ⟨-, -, e⟩ | ⟨-, -, e⟩ := runDrive_cases s l v <;> rw [Micro.run, e]
    · trivial
    · exact lifeFrame_of_regs_eq (by simp) (.of_ports_eq (by simp) (lifeCtx_refl _))
    · exact lifeFrame_failed rfl
  | driveAll v =>
    obtain ⟨-, e⟩ | ⟨-, -, e⟩ | ⟨-, -, e⟩ := runDriveAll_cases s v <;> rw [Micro.run, e]
    · trivial
    · exact lifeFrame_of_regs_eq (by simp) (.of_ports_eq (by simp) (lifeCtx_refl _))
    · exact lifeFrame_failed rfl
  | bufWrite v =>
    obtain rfl : u = .bufWrite := hm
    exact ⟨rfl, rfl, fun _ => rfl, fun h => absurd rfl h, fun _ _ _ _ => rfl, fun _ _ _ => rfl, fun _ _ _ => rfl,
      fun _ _ _ => rfl, .of_ports_eq rfl (lifeCtx_refl _)⟩
  | claim l =>
    obtain rfl : u = .claim := hm
    obtain ⟨-, e⟩ | ⟨-, -, e⟩ | ⟨-, -, e⟩ := runClaim_cases s l <;> rw [Micro.run, e]
    · trivial
    · exact ⟨by simp, by simp, by simp, by simp, by simp, by simp, by simp, fun h => absurd rfl h,
        .of_ports_eq (by simp) (lifeCtx_refl _)⟩
    · exact lifeFrame_of_regs_eq (by simp) (.of_ports_eq (by simp) (lifeCtx_refl _))
  | release l =>
    obtain ⟨-, e⟩ | ⟨-, -, e⟩ | ⟨-, -, -, e⟩ | ⟨-, -, -, e⟩ := runRelease_cases s l <;> rw [Micro.run, e]
    · trivial
    · trivial
    · have hne : some u ≠ some .rollback → some u ≠ some .release → False := by
        obtain rfl | rfl := hm <;> simp
      exact ⟨by simp, by simp, by simp, by simp, by simp, by simp, by simp, fun _ hb hr => (hne hb hr).elim,
        .of_ports_eq (by simp) (lifeCtx_refl _)⟩
    · trivial
  | delay => exact lifeFrame_of_regs_eq ⟨rfl, rfl, rfl, rfl, rfl, rfl, rfl, rfl⟩ (.of_ports_eq rfl (lifeCtx_refl _))
  | complete st x =>
    cases hc : s.ctx s.active with
    | none => simp [Micro.run, runComplete, hc, Result.LifeFrom]
    | some c =>
      obtain ⟨-, e⟩ | ⟨-, e⟩ := runComplete_cases hc st x <;> rw [Micro.run, e]
      · trivial
      · exact lifeFrame_of_regs_eq ⟨rfl, rfl, rfl, rfl, rfl, rfl, rfl, rfl⟩
          ⟨_, rfl, fun _ _ => ⟨rfl, rfl, rfl, rfl, fun _ => rfl⟩⟩
  | lockAcquire | lockRelease | bufReadSnap | bufReadTmp => exact hm.elim

end

/-! The micro-programs. -/

/-- What INIT or FINI has at `u`: a micro-step of that position, whose local computation changes what it may there. -/
def Fetched.LifeStep (u : UPos) (first : Prop) (s : State PinId) (f : Fetched PinId) : Prop :=
  match f with
  | .step m =>
    m.op.LifeAt u ∧ (∀ c, LifeCtx first c (m.next c)) ∧ (∀ c, LifeCtx first c (m.onFail c)) ∧
      LifeFrame (some u) first s (m.writes s)
  | .undef => True
  | .off => True

theorem Fetched.LifeStep.orElse {u : UPos} {first : Prop} {s : State PinId} {f g : Fetched PinId} (hf : f.LifeStep u first s)
    (hg : g.LifeStep u first s) : (f.orElse g).LifeStep u first s := by
  cases f with
  | off => exact hg
  | step m => exact hf
  | undef => trivial

section
variable {u : UPos} {first : Prop} {s t : State PinId} {c : Ctx PinId} {pins : Quad PinId} {count : Arg}
  {after onFail : Ctx PinId → Ctx PinId}

theorem Fetched.LifeStep.frame {f : Fetched PinId} (hf : f.LifeStep u first s) (h : perform f s = .next t) :
    LifeFrame (some u) first s t := by
  obtain ⟨-, rfl⟩ | ⟨m, rfl, hrun⟩ := perform_next h
  · exact lifeFrame_enterFault _ _ _ _
  obtain ⟨hop, hnext, hfail, hwrites⟩ := hf
  have hfrom := run_lifeFrom (first := first) (s := m.writes s) hop
  obtain ⟨r, e, rfl⟩ | ⟨r, e, rfl⟩ | ⟨-, rfl⟩ | ⟨_, -, rfl⟩ := hrun
  · rw [e] at hfrom
    exact (hwrites.trans hfrom).trans (lifeFrame_modCtx rfl fun c _ => hnext c)
  · rw [e] at hfrom
    exact (hwrites.trans hfrom).trans (lifeFrame_modCtx rfl fun c _ => hfail c)
  · exact lifeFrame_refl _ _ _
  · exact lifeFrame_enterFault _ _ _ _

theorem lifeFrame_life (l : Life) (s : State PinId) : LifeFrame none first s { s with life := l } :=
  ⟨rfl, rfl, fun _ => rfl, fun _ _ => rfl, fun h => absurd rfl h, fun _ _ _ => rfl, fun _ _ _ => rfl, fun _ _ _ => rfl,
    .of_ports_eq rfl (lifeCtx_refl _)⟩

theorem lifeCtx_goto (first : Prop) (v : UPos) (c : Ctx PinId) : LifeCtx first c (goto v c) :=
  ⟨rfl, rfl, rfl, rfl, fun _ => rfl⟩

theorem lifeCtx_epilogue (first : Prop) (c : Ctx PinId) : LifeCtx first c (epilogue c) := by
  unfold epilogue
  split <;> exact lifeCtx_goto _ _ _

theorem lifeCtx_startRelease (first : Prop) (c : Ctx PinId) : LifeCtx first c (startRelease c) :=
  ⟨rfl, rfl, rfl, rfl, fun _ => rfl⟩

theorem lifeCtx_afterRelease (first : Prop) (k : Nat) (c : Ctx PinId) : LifeCtx first c (afterRelease k c) := by
  unfold afterRelease
  split <;> exact ⟨rfl, rfl, rfl, rfl, fun _ => rfl⟩

theorem lifeCtx_afterClaim (first : Prop) (k : Nat) (c : Ctx PinId) : LifeCtx first c (afterClaim k c) := by
  unfold afterClaim
  split <;> exact ⟨rfl, rfl, rfl, rfl, fun _ => rfl⟩

theorem lifeCtx_afterFailedClaim (first : Prop) (k : Nat) (c : Ctx PinId) : LifeCtx first c (afterFailedClaim k c) := by
  unfold afterFailedClaim
  split <;> exact ⟨rfl, rfl, rfl, rfl, fun _ => rfl⟩

theorem lifeCtx_afterRollback (first : Prop) (k j : Nat) (c : Ctx PinId) : LifeCtx first c (afterRollback k j c) := by
  unfold afterRollback
  split <;> exact ⟨rfl, rfl, rfl, rfl, fun _ => rfl⟩

/-- A micro-step without writes. -/
theorem lifeStep_of_no_writes {op : Micro} (hop : op.LifeAt u) (hn : ∀ c, LifeCtx first c (after c))
    (hf : ∀ c, LifeCtx first c (onFail c)) : Fetched.LifeStep u first s (.step { op := op, next := after, onFail := onFail }) :=
  ⟨hop, hn, hf, lifeFrame_refl _ _ _⟩

/-- A Complete, and the registers written with it. -/
theorem lifeStep_complete (st : Status) (r : Option Int) {writes : State PinId → State PinId}
    (hw : LifeFrame (some u) first s (writes s)) : (completeStep st r writes).LifeStep u first s :=
  ⟨trivial, lifeCtx_refl _, lifeCtx_epilogue _, hw⟩

theorem lifeStep_clearPulse (hn : ∀ c, LifeCtx first c (after c)) (hf : ∀ c, LifeCtx first c (onFail c)) :
    (clearPulse after onFail u).LifeStep u first s := by
  cases u with
  | clearLow | clearWait => exact lifeStep_of_no_writes trivial (lifeCtx_goto _ _) hf
  | clearHigh => exact lifeStep_of_no_writes trivial hn hf
  | _ => trivial

theorem lifeStep_latchPulse (hn : ∀ c, LifeCtx first c (after c)) (hf : ∀ c, LifeCtx first c (onFail c)) :
    (latchPulse after onFail u).LifeStep u first s := by
  cases u with
  | latchLow | latchWait | latchHigh | latchHold => exact lifeStep_of_no_writes trivial (lifeCtx_goto _ _) hf
  | latchFall => exact lifeStep_of_no_writes trivial hn hf
  | _ => trivial

theorem lifeFrame_firstClaimWrites {n : Nat} (hfirst : first) : LifeFrame (some .claim) first s (firstClaimWrites n pins s) :=
  ⟨rfl, rfl, fun _ => rfl, fun _ _ => rfl, fun _ _ _ _ => rfl, fun h => absurd rfl h, fun h => absurd rfl h, fun _ _ _ => rfl,
    _, rfl, fun _ _ => ⟨rfl, rfl, rfl, rfl, fun h => absurd hfirst h⟩⟩

theorem lifeStep_claimStep (hfirst : c.k = some 0 → first) : (claimStep pins count s c).LifeStep .claim first s := by
  unfold claimStep
  split
  · trivial
  · next hk =>
    split
    · exact ⟨rfl, lifeCtx_afterClaim first 0, lifeCtx_afterFailedClaim first 0, lifeFrame_firstClaimWrites (hfirst hk)⟩
    · trivial
  · split
    · exact lifeStep_of_no_writes rfl (lifeCtx_afterClaim _ _) (lifeCtx_afterFailedClaim _ _)
    · trivial

theorem lifeStep_rollbackStep : (rollbackStep c).LifeStep .rollback first s := by
  unfold rollbackStep
  split
  · split
    · exact lifeStep_of_no_writes (.inl rfl) (lifeCtx_afterRollback _ _ _) (lifeCtx_epilogue _)
    · trivial
  · trivial

theorem lifeStep_releaseStep : (releaseStep c).LifeStep .release first s := by
  unfold releaseStep
  split
  · split
    · exact lifeStep_of_no_writes (.inr rfl) (lifeCtx_afterRelease _ _) (lifeCtx_epilogue _)
    · trivial
  · trivial

theorem lifeStep_progInit (hfirst : u = .claim → c.k = some 0 → first) : (progInit pins count s c u).LifeStep u first s := by
  cases u with
  | reject =>
    exact lifeStep_complete _ _ ⟨rfl, rfl, fun _ => rfl, fun _ _ => rfl, fun _ h => absurd rfl h, fun _ _ _ => rfl,
      fun _ _ _ => rfl, fun _ _ _ => rfl, .of_ports_eq rfl (lifeCtx_refl _)⟩
  | claim => exact lifeStep_claimStep (hfirst rfl)
  | rollback => exact lifeStep_rollbackStep
  | claimFailed =>
    exact lifeStep_complete _ _ ⟨rfl, rfl, fun _ => rfl, fun _ _ => rfl, fun _ _ h => absurd rfl h, fun _ h => absurd rfl h,
      fun _ h => absurd rfl h, fun _ _ _ => rfl, .of_ports_eq rfl (lifeCtx_refl _)⟩
  | bufWrite => exact lifeStep_of_no_writes rfl (lifeCtx_goto _ _) (lifeCtx_epilogue _)
  | done =>
    exact lifeStep_complete _ _ ⟨rfl, rfl, fun h => absurd rfl h, fun _ _ => rfl, fun _ _ _ h => absurd rfl h, fun _ _ _ => rfl,
      fun _ _ _ => rfl, fun _ _ _ => rfl, .of_ports_eq rfl (lifeCtx_refl _)⟩
  | _ => trivial

theorem lifeStep_progFini : (progFini s c u).LifeStep u first s := by
  unfold progFini
  split
  · exact lifeStep_complete _ _ (lifeFrame_refl _ _ _)
  · exact lifeStep_of_no_writes trivial (lifeCtx_startRelease _) (lifeCtx_startRelease _)
  · exact lifeStep_releaseStep
  · exact lifeStep_complete _ _ ⟨rfl, rfl, fun h => absurd rfl h, fun _ h => absurd rfl h, fun _ _ _ h => absurd rfl h,
      fun _ _ h => absurd rfl h, fun _ _ h => absurd rfl h, fun _ _ _ => rfl, .of_ports_eq rfl (lifeCtx_refl _)⟩
  · exact (lifeStep_clearPulse (lifeCtx_goto _ _) (lifeCtx_startRelease _)).orElse
      (lifeStep_latchPulse (lifeCtx_goto _ _) (lifeCtx_startRelease _))

variable [DecidableEq PinId] {i : Instr PinId} {d : Ctx PinId}

theorem lifeStep_prog (hi : isLifecycle i = true) (hfirst : u = .claim → c.k = some 0 → first) :
    ((ruleOf i).prog s c u).LifeStep u first s := by
  cases i with
  | init pins count => exact lifeStep_progInit hfirst
  | fini => exact lifeStep_progFini
  | _ => cases hi

/-! The issue (40_sequencer.md R160). -/

theorem lifeCtx_begin (hi : isLifecycle i = true) (h : (ruleOf i).begin s c = some d) : LifeCtx first c d := by
  cases i with
  | init pins count =>
    simp only [ruleOf, beginInit] at h
    split at h <;> cases h <;> exact ⟨rfl, rfl, rfl, rfl, fun _ => rfl⟩
  | fini =>
    simp only [ruleOf, beginFini] at h
    split at h <;> cases h <;> exact lifeCtx_goto _ _ _
  | _ => cases hi

/-- The issue of a command writes no engine register but `LIFE` (10_state.md R35). -/
theorem onLife_eq (i : Instr PinId) (s : State PinId) : ∃ l, (ruleOf i).onLife s = { s with life := l } := by
  cases i with
  | init pins count => exact ⟨.building, rfl⟩
  | fini =>
    show ∃ l, startTeardown s = _
    unfold startTeardown
    split
    · exact ⟨.tearing, rfl⟩
    · exact ⟨s.life, rfl⟩
    · exact ⟨s.life, rfl⟩
    · exact ⟨s.life, rfl⟩
  | _ => exact ⟨s.life, rfl⟩

theorem issueStep_lifeFrame (hi : isLifecycle i = true) (h : issueStep i (ruleOf i) s = .next t) : LifeFrame none first s t := by
  have hp : LifeFrame none first s (s.present (encode i)) :=
    lifeFrame_of_regs_eq ⟨rfl, rfl, rfl, rfl, rfl, rfl, rfl, rfl⟩ ⟨_, rfl, fun _ _ => ⟨rfl, rfl, rfl, rfl, fun _ => rfl⟩⟩
  obtain ⟨-, rfl⟩ | ⟨-, ⟨f, -, rfl⟩ | ⟨-, e, he, ⟨-, rfl⟩ | ⟨d, hbegin, rfl⟩⟩⟩ := issueStep_next h
  · exact hp.trans (lifeFrame_enterFault _ _ _ _)
  · exact hp.trans (lifeFrame_enterFault _ _ _ _)
  · exact hp.trans (lifeFrame_enterFault _ _ _ _)
  · obtain ⟨l, hl⟩ := onLife_eq i (s.present (encode i))
    rw [hl]
    refine hp.trans ((lifeFrame_life l _).trans (lifeFrame_modCtx rfl fun c hc => ?_))
    cases he.symm.trans hc
    exact lifeCtx_begin hi hbegin

end

theorem exec_lifeFrame {i : Instr} {s t : State} {c : Ctx} (hi : isLifecycle i = true) (hc : s.ctx s.active = some c)
    (h : exec i s = .next t) : LifeFrame c.place (c.place = some .claim ∧ c.k = some 0) s t := by
  rw [exec_eq_runRule] at h
  obtain ⟨-, c', hc', h⟩ := runRule_next h
  cases hc.symm.trans hc'
  obtain ⟨hb, h⟩ | ⟨hb, h⟩ := h
  · unfold microStep at h
    rw [Ctx.place, if_pos hb]
    split at h
    · cases h
      exact lifeFrame_enterFault _ _ _ _
    · next u hu =>
      rw [hu]
      exact (lifeStep_prog hi fun hat hk => ⟨congrArg some hat, hk⟩).frame h
  · have hplace : c.place = none := by simp [Ctx.place, hb]
    rw [hplace]
    exact issueStep_lifeFrame hi h

/-- Settles O44: at every position of INIT and FINI a step changes only the registers of that position. -/
theorem lifecycleCommandsFrame : Obligations.LifecycleCommandsFrame := by
  unfold Obligations.LifecycleCommandsFrame
  intro i s t hi h
  have hlife : isLifecycle i = true := by
    obtain rfl | ⟨q, a, rfl⟩ := hi <;> rfl
  obtain ⟨-, c, hc, -⟩ := runRule_next (exec_eq_runRule i s ▸ h)
  have hf := exec_lifeFrame hlife hc h
  refine ⟨hf.lock, fun c' hc' hnot => ?_, fun c' hc' hnot => ?_, fun c' u hc' hb hu => ?_, fun c' d hc' hd => ?_⟩ <;>
    cases hc.symm.trans hc'
  · exact hf.cc fun hat => hnot (Ctx.place_eq_some.mp hat)
  · refine hf.buf (fun hat => hnot ?_) fun hat => hnot ?_
    · exact (Ctx.place_eq_some.mp hat).imp_right .inl
    · exact (Ctx.place_eq_some.mp hat).imp_right .inr
  · rw [Ctx.place_eq_some.mpr ⟨hb, hu⟩] at hf
    have hne {v : UPos} (h : u ≠ v) : some u ≠ some v := fun e => h (Option.some.inj e)
    exact ⟨fun hr hcf hd => hf.life (by simp) (hne hr) (hne hcf) (hne hd),
      fun hcl hcf hd => ⟨hf.cap (hne hcl) (hne hcf) (hne hd), hf.pins (hne hcl) (hne hcf) (hne hd)⟩,
      fun hcl hrb hr => hf.claimed (hne hcl) (hne hrb) (hne hr)⟩
  · obtain ⟨d', hd', hctx⟩ := hf.ctx.own hc
    cases hd'.symm.trans hd
    refine ⟨hctx.snap, hctx.tmp, hctx.i, hctx.holdsLock, fun hnot => hctx.n fun ⟨hat, hk⟩ => hnot ?_⟩
    obtain ⟨hb, hu⟩ := Ctx.place_eq_some.mp hat
    exact ⟨hb, hu, hk⟩

end Sys2Proof.Machine
end

section
/-! A port that runs undisturbed, claims and releases included: each atomic step appends one event, and the events say what becomes
of the claims, the lines, the chain and the oracle's answers (40_sequencer.md R160 to R173). -/

namespace Sys2Proof.Machine

/-- An event of a micro-step that calls the backend (40_sequencer.md R163). -/
def Event.isCall (e : Event) : Bool :=
  match e with
  | .claim _ _ | .drv _ _ | .drvf _ _ _ | .drvAll _ | .drvAllf _ _ | .rel _ => true
  | .dly | .acq | .rls | .brd _ | .bwr _ | .issue _ | .done _ => false

/-- How many of the oracle's answers the events use up. -/
def callCount (es : List Event) : Nat := (es.filter Event.isCall).length

theorem callCount_append (es es' : List Event) : callCount (es ++ es') = callCount es + callCount es' := by
  simp [callCount]

/-- The claims after the events (40_sequencer.md R170, R171). -/
def foldClaims (q : Quad Bool) (es : List Event) : Quad Bool := es.foldl (fun q e => e.claims q) q

/-- The active port has appended the events `es`, and its context is `d`. `emitted` is the case without claims and releases. -/
def ran (s : State) (es : List Event) (d : Ctx) : State :=
  { after s es (fun _ => d) with
    claimed := foldClaims s.claimed es
    line := (foldHist (s.line, s.chain) (tagged s.active es)).1
    chain := (foldHist (s.line, s.chain) (tagged s.active es)).2
    draws := drawsAfter s (callCount es) }

theorem emitted_issue_eq_ran (s : State) (o : Opcode) (d : Ctx) : emitted s [.issue o] d = ran s [.issue o] d := rfl

theorem drawsAfter_drawsAfter {s t : State} {j : Nat} (hcfg : t.cfg = s.cfg) (hdraws : t.draws = drawsAfter s j) (k : Nat) :
    drawsAfter t k = drawsAfter s (j + k) := by
  cases h : s.cfg.backendFaults <;> simp [drawsAfter, hcfg, hdraws, h, List.drop_drop]

theorem ran_ran (s : State) (es es' : List Event) (d d' : Ctx) : ran (ran s es d) es' d' = ran s (es ++ es') d' := by
  have hdraws : drawsAfter (ran s es d) (callCount es') = drawsAfter s (callCount (es ++ es')) := by
    rw [callCount_append]
    exact drawsAfter_drawsAfter (s := s) (t := ran s es d) rfl rfl _
  have hports : (s.ports.modify s.active fun _ => d).modify s.active (fun _ => d') = s.ports.modify s.active fun _ => d' :=
    List.modify_modify_eq (fun _ => d) (fun _ => d') s.active s.ports
  have hhist : s.hist ++ tagged s.active es ++ tagged s.active es' = s.hist ++ tagged s.active (es ++ es') := by
    rw [tagged_append, List.append_assoc]
  have hfold : foldHist (foldHist (s.line, s.chain) (tagged s.active es)) (tagged s.active es') =
      foldHist (s.line, s.chain) (tagged s.active (es ++ es')) := by
    rw [tagged_append, foldHist_append]
  have hclaims : foldClaims (foldClaims s.claimed es) es' = foldClaims s.claimed (es ++ es') := List.foldl_append.symm
  rw [ran, hdraws]
  simp only [ran, after, hports, hhist, hfold, hclaims]

theorem ctx_ran {s : State} {c : Ctx} (hc : s.ctx s.active = some c) (es : List Event) (d : Ctx) :
    (ran s es d).ctx s.active = some d :=
  (ctx_after s es fun _ => d).trans (congrArg (Option.map fun _ => d) hc)

theorem oracleOk_ran {s : State} {k : Nat} {es : List Event} (h : oracleOk s (callCount es + k) = true) (d : Ctx) :
    oracleOk (ran s es d) k = true := by
  refine oracleOk_iff.mpr fun hf => ?_
  have hf' : s.cfg.backendFaults = true := hf
  obtain ⟨hlen, hok⟩ := oracleOk_iff.mp h hf
  have hdraws : (ran s es d).draws = s.draws.drop (callCount es) := if_pos hf'
  rw [hdraws, List.length_drop]
  refine ⟨by omega, fun x hx => hok x ?_⟩
  rw [List.take_drop] at hx
  exact List.mem_of_mem_drop hx

/-- Where the context ends as `f` says and the events fold to the claims `q`, the lines `ls` and the chain `ch`. -/
theorem ran_eq {s : State} {c d : Ctx} {f : Ctx → Ctx} {es : List Event} {q : Quad Bool} {ls : Quad Level} {ch : Chain}
    {k : Nat} (hc : s.ctx s.active = some c) (hd : f c = d) (hq : foldClaims s.claimed es = q)
    (hfold : foldHist (s.line, s.chain) (tagged s.active es) = (ls, ch)) (hk : callCount es = k) :
    ran s es d = { after s es f with claimed := q, line := ls, chain := ch, draws := drawsAfter s k } := by
  have hports : (s.modCtx s.active fun _ => d).ports = (s.modCtx s.active f).ports :=
    congrArg State.ports (State.modCtx_congr hc hd.symm)
  rw [State.modCtx_ports, State.modCtx_ports] at hports
  simp only [ran, after, hq, hfold, hk, hports]

/-! One atomic step. -/

/-- The active port is busy, stands at `u` with the context `c`, and holds no lock. -/
structure Stands (s : State) (c : Ctx) (u : UPos) : Prop where
  mark : s.mark = none
  ctx : s.ctx s.active = some c
  busy : c.busy = true
  free : c.holdsLock = false
  upc : c.upc = some u

theorem Stands.ran {s : State} {c d : Ctx} {u v : UPos} (h : Stands s c u) (es : List Event) (hb : d.busy = c.busy)
    (hf : d.holdsLock = c.holdsLock) (hu : d.upc = some v) : Stands (ran s es d) d v :=
  ⟨h.mark, ctx_ran h.ctx es d, hb.trans h.busy, hf.trans h.free, hu⟩

/-- The oracle's next answer says `b` (40_sequencer.md R163). -/
def NextAnswer (s : State) (b : Bool) : Prop :=
  s.cfg.backendFaults = false ∧ b = true ∨ s.cfg.backendFaults = true ∧ ∃ d ds, s.draws = d :: ds ∧ d.ok = b

theorem NextAnswer.congr {s t : State} {b : Bool} (h : NextAnswer s b) (hcfg : t.cfg = s.cfg) (hdraws : t.draws = s.draws) :
    NextAnswer t b := by
  rw [NextAnswer, hcfg, hdraws]
  exact h

theorem nextAnswer_of_oracleOk {s : State} (h : oracleOk s 1 = true) : NextAnswer s true := by
  cases hf : s.cfg.backendFaults with
  | false => exact .inl ⟨hf, rfl⟩
  | true =>
    obtain ⟨hlen, hok⟩ := oracleOk_iff.mp h hf
    cases hds : s.draws with
    | nil => simp [hds] at hlen
    | cons d ds => exact .inr ⟨hf, d, ds, hds, hok d (by simp [hds])⟩

theorem drawn_of_nextAnswer {s : State} {b : Bool} (h : NextAnswer s b) :
    s.draw.ok = b ∧ s.drawn = { s with draws := drawsAfter s 1 } := by
  obtain ⟨hf, rfl⟩ | ⟨hf, d, ds, hds, rfl⟩ := h
  · exact drawn_of_oracleOk (by simp [oracleOk, hf])
  · obtain ⟨hd, hs⟩ := State.draw_of_listed hf hds
    rw [hd, hs]
    exact ⟨rfl, by simp [drawsAfter, hf, hds]⟩

/-- A step that appends the event `e` and changes its port's context by `f`, put as `ran`. -/
theorem ran_of_ctx {s : State} {c : Ctx} (hc : s.ctx s.active = some c) (e : Event) (f : Ctx → Ctx) :
    ran s [e] (f c) =
      { s.modCtx s.active f with
        hist := s.hist ++ [⟨s.active, e⟩]
        claimed := e.claims s.claimed
        line := (foldEvent (s.line, s.chain) ⟨s.active, e⟩).1
        chain := (foldEvent (s.line, s.chain) ⟨s.active, e⟩).2
        draws := drawsAfter s (callCount [e]) } := by
  rw [State.modCtx_congr (g := fun _ => f c) hc rfl]
  rfl

/-- Events without a call use up no answer. -/
theorem drawsAfter_of_no_call (s : State) {es : List Event} (h : callCount es = 0) : drawsAfter s (callCount es) = s.draws := by
  simp [drawsAfter, h]

section
variable {i : Instr} {s s' : State} {c d : Ctx} {u : UPos}

/-- The issue of an admitted command that gives `LIFE` the value `l` (40_sequencer.md R160, 10_state.md R35). -/
theorem exec_issue_life {l : Life} (hw : i.wellFormed = true) (hm : s.mark = none) (hc : s.ctx s.active = some c)
    (hb : c.busy = false) (hcheck : (ruleOf i).check (s.present (encode i)) = none)
    (hlife : (ruleOf i).onLife (s.present (encode i)) = { s.present (encode i) with life := l })
    (hd : (ruleOf i).begin (s.present (encode i)) (given i c) = some d) :
    exec i s = .next (ran { s with life := l } [.issue i.opcode] d) := by
  have hports : (s.ports.modify s.active (given i)).modify s.active (fun _ => d) = s.ports.modify s.active fun _ => d :=
    List.modify_modify_eq (given i) (fun _ => d) s.active s.ports
  have hissue : issueStep i (ruleOf i) s = .next ({ s.present (encode i) with life := l }.modCtx s.active fun _ => d) := by
    simp [issueStep, hw, hcheck, ctx_present hc, hd, hlife]
  have hrun : runRule i (ruleOf i) s = issueStep i (ruleOf i) s := by simp [runRule, hm, hc, hb]
  have hdraws := drawsAfter_of_no_call { s with life := l } (es := [.issue i.opcode]) rfl
  rw [exec_eq_runRule, hrun, hissue, present_eq, encode_opc, State.modCtx, ran, after]
  simp only [State.log_ports, State.modCtx_ports, hports, hdraws]
  rfl

/-- A claim that the oracle answers with `b`; with it the registers `s'` and the context's `g` are written (40_sequencer.md
R170). -/
theorem perform_claim {l : Line} {b : Bool} {g next onFail : Ctx → Ctx} {writes : State → State}
    (hw : writes s = s'.modCtx s'.active g) (hc : s'.ctx s'.active = some c) (hpins : s'.pins ≠ none)
    (hb : NextAnswer s' b) :
    perform (.step { op := .claim l, next := next, onFail := onFail, writes := writes }) s =
      .next (ran s' [.claim l b] ((if b then next else onFail) (g c))) := by
  have hb' : NextAnswer (s'.modCtx s'.active g) b := hb
  obtain ⟨hok, hdrawn⟩ := drawn_of_nextAnswer hb'
  rw [ran_of_ctx hc (.claim l b) fun c => (if b then next else onFail) (g c), ← State.modCtx_modCtx]
  obtain ⟨h, -⟩ | ⟨-, h, e⟩ | ⟨-, h, e⟩ := runClaim_cases (s'.modCtx s'.active g) l
  · exact absurd h hpins
  · obtain rfl : b = true := hok.symm.trans h
    simp only [perform, Micro.run, hw, e, hdrawn]
    rfl
  · obtain rfl : b = false := hok.symm.trans h
    simp only [perform, Micro.run, hw, e, hdrawn]
    rfl

/-- A Complete, with the registers `s'` that are written with it (40_sequencer.md R173). -/
theorem exec_complete_writes {st : Status} {r : Option Int} {writes : State → State} (hs : Stands s c u)
    (hp : (ruleOf i).prog s c u = completeStep st r writes) (hw : writes s = s') (hc : s'.ctx s'.active = some c) :
    exec i s = .next (ran s' [.done st] { c with sts := some st, res := some r, busy := false }) := by
  rw [exec_of_busy hs.mark hs.ctx hs.busy hs.upc, hp]
  obtain ⟨hl, -⟩ | ⟨-, e⟩ := runComplete_cases hc st r
  · cases hs.free.symm.trans hl
  · simp only [completeStep, perform, Micro.run, hw, e, State.modCtx_id]
    rw [ran_of_ctx hc (.done st) fun c => { c with sts := some st, res := some r, busy := false },
      drawsAfter_of_no_call s' (es := [.done st]) rfl]
    rfl

end

end Sys2Proof.Machine
end

section
/-! Commands that complete at once: the issue selects a Complete as the first micro-step (40_sequencer.md R160, R173). -/

namespace Sys2Proof.Machine

section
variable {i : Instr} {s : State} {c d : Ctx} {u : UPos}

/-- ISSUE and DONE leave claims, lines, chain and answers alone. -/
theorem ran_issue_done {f : Ctx → Ctx} {o : Opcode} {st : Status} (hc : s.ctx s.active = some c) (hd : f c = d) :
    ran s [.issue o, .done st] d = after s [.issue o, .done st] f := by
  have hdraws : drawsAfter s 0 = s.draws := drawsAfter_of_no_call s (es := []) rfl
  rw [ran_eq (q := s.claimed) (ls := s.line) (ch := s.chain) (k := 0) hc hd rfl rfl rfl, hdraws]
  rfl

/-- A command that is issued with the registers `s'` and completes at once, giving the registers their old values. -/
theorem execTimes_two {s' : State} {st : Status} {r : Option Int} {writes : State → State} (hm : s'.mark = none)
    (hc : s.ctx s.active = some c) (hc' : s'.ctx s'.active = some c) (hfree : c.holdsLock = false)
    (hissue : exec i s = .next (ran s' [.issue i.opcode] (goto u (given i c))))
    (hp : (ruleOf i).prog (ran s' [.issue i.opcode] (goto u (given i c))) (goto u (given i c)) u = completeStep st r writes)
    (hw : writes (ran s' [.issue i.opcode] (goto u (given i c))) = ran s [.issue i.opcode] (goto u (given i c))) :
    execTimes 2 i s = .next (after s [.issue i.opcode, .done st] (finished i u st r)) := by
  have hs : Stands (ran s' [.issue i.opcode] (goto u (given i c))) (goto u (given i c)) u :=
    ⟨hm, ctx_ran hc' _ _, rfl, hfree, rfl⟩
  rw [execTimes_succ hissue, execTimes_succ (exec_complete_writes hs hp hw (ctx_ran hc _ _)), ran_ran]
  exact congrArg Host.Outcome.next (ran_issue_done hc rfl)

/-- As `execTimes_two`, for a command other than INIT and FINI while `LIFE` is READY. -/
theorem execTimes_two_ready {st : Status} {r : Option Int} (hi : isLifecycle i = false) (hw : i.wellFormed = true)
    (hrest : atRest s = true) (hl : s.life = .ready)
    (hbegin : ∀ t c, t.cap = s.cap → (ruleOf i).begin t c = some (goto u c))
    (hp : ∀ t c, t.cap = s.cap → (ruleOf i).prog t c u = completeStep st r) :
    execTimes 2 i s = .next (after s [.issue i.opcode, .done st] (finished i u st r)) := by
  obtain ⟨hm, c, hc, hb, hfree⟩ := atRest_iff.mp hrest
  have hissue := exec_issue hi hw hm hc hb hl (hbegin _ _ rfl)
  rw [encode_opc, emitted_issue_eq_ran] at hissue
  exact execTimes_two hm hc hc hfree hissue (hp _ _ rfl) rfl

end

/-- Settles O20: the issue goes to a Complete with the capacity as its result. -/
theorem capacityReads : Obligations.CapacityReads := by
  unfold Obligations.CapacityReads
  intro s n hrest hl hcap
  have hp (t : State) (c : Ctx) (ht : t.cap = s.cap) : progCap t c .done = completeStep .ok (some (n : Int)) := by
    simp [progCap, ht, hcap]
  constructor <;> exact execTimes_two_ready rfl rfl hrest hl (fun _ _ _ => rfl) hp

theorem validWord_eq_none {n : Nat} {a : Arg} (h : a = .nonInt ∨ ∃ w : Int, a = .int w ∧ (w < 0 ∨ 2 ^ n ≤ w)) :
    validWord n a = none := by
  obtain rfl | ⟨w, rfl, hw⟩ := h
  · rfl
  · have hrange : ¬ inRange n w = true := by
      rw [inRange_iff]
      push_cast
      omega
    exact if_neg hrange

/-- Settles O23: DRV.WR's validation fails at issue, and the first micro-step is its rejection. -/
theorem drvWrRejectsInvalidWord : Obligations.DrvWrRejectsInvalidWord := by
  unfold Obligations.DrvWrRejectsInvalidWord
  intro s n a hrest hl hcap ha
  have hw : (Instr.drvWr a : Instr).wellFormed = true := by
    obtain rfl | ⟨w, rfl, -⟩ := ha <;> rfl
  have hbegin (t : State) (c : Ctx) (ht : t.cap = s.cap) : beginDrvWr a t c = some (goto .reject c) := by
    simp [beginDrvWr, ht, hcap, validWord_eq_none ha]
  exact execTimes_two_ready rfl hw hrest hl hbegin fun _ _ _ => rfl

/-- The presentation of a command on a port leaves the other ports as they were. -/
theorem othersIdle_present (s : State) (cmd : Command) : (s.present cmd).othersIdle s.active = s.othersIdle s.active := by
  have hlen : (s.present cmd).ports.length = s.ports.length := List.length_modify ..
  rw [State.othersIdle, State.othersIdle, hlen]
  refine congrArg _ (funext fun q => ?_)
  by_cases hq : q = s.active
  · simp [hq]
  · have hports : (s.present cmd).ports[q]? = s.ports[q]? := getElem?_modify_other hq
    rw [hports]

/-- The record update that gives `LIFE` the value it has. -/
theorem with_life_eq {s : State} {l : Life} (hl : s.life = l) : { s with life := l } = s := by rw [← hl]

/-- Settles O18: `LIFE` stays UNBUILT at FINI's issue, and its first micro-step is the guard's Complete. -/
theorem finiGuardsUnbuilt : Obligations.FiniGuardsUnbuilt := by
  unfold Obligations.FiniGuardsUnbuilt
  intro s hrest hl
  obtain ⟨hm, c, hc, hb, hfree⟩ := atRest_iff.mp hrest
  have hpresent : (s.present (encode .fini)).life = .unbuilt := hl
  have hissue := exec_issue_life (i := .fini) (l := .unbuilt) (d := goto .guard (given .fini c)) rfl hm hc hb
    (by simp [ruleOf, admitFini, hpresent])
    (by rw [with_life_eq hpresent]; simp [ruleOf, startTeardown, hpresent])
    (by simp [ruleOf, beginFini, hpresent])
  rw [with_life_eq hl] at hissue
  exact execTimes_two hm hc hc hfree hissue rfl rfl

/-- The issue of INIT while `LIFE` is UNBUILT and every other port is idle (60_exceptions.md R300). -/
theorem exec_init_issue {s : State} {q : Quad Nat} {a : Arg} {c d : Ctx} (hm : s.mark = none) (hc : s.ctx s.active = some c)
    (hb : c.busy = false) (hl : s.life = .unbuilt) (hidle : s.othersIdle s.active = true) (hq : distinctPins q = true)
    (hbegin : beginInit a (s.present (encode (.init q a))) (given (.init q a) c) = some d) :
    exec (.init q a) s = .next (ran { s with life := .building } [.issue 0xF0#8] d) := by
  have hlife : (s.present (encode (.init q a))).life = .unbuilt := hl
  have hidle' : (s.present (encode (.init q a))).othersIdle (s.present (encode (.init q a))).active = true :=
    (othersIdle_present s _).trans hidle
  exact exec_issue_life rfl hm hc hb (by simp [ruleOf, admitInit, hlife, hidle', hq]) rfl hbegin

theorem validCount_of_count {m : Option Nat} {a : Arg} {n : Nat} (ha : (a = .absent ∧ n = 0) ∨ a = .int (n : Int)) :
    validCount m a = if ∃ k, m = some k ∧ k < capacity n then none else some n := by
  obtain ⟨rfl, rfl⟩ | rfl := ha <;> cases m <;> simp [validCount]

theorem validCount_eq_none {m : Option Nat} {a : Arg} (ha : a = .nonInt ∨ (∃ v : Int, a = .int v ∧ v < 0) ∨
    ∃ n k : Nat, ((a = .absent ∧ n = 0) ∨ a = .int (n : Int)) ∧ m = some k ∧ k < 8 * (n + 1)) :
    validCount m a = none := by
  obtain rfl | ⟨v, rfl, hv⟩ | ⟨n, k, hn, hm, hk⟩ := ha
  · cases m <;> rfl
  · have hneg : ¬ 0 ≤ v := not_le.mpr hv
    cases m <;> simp [validCount, hneg]
  · exact (validCount_of_count hn).trans (if_pos ⟨k, hm, hk⟩)

/-- Settles O15: INIT's validation fails at issue, and its rejection gives `LIFE` the value UNBUILT again. -/
theorem initRejectsBadCount : Obligations.InitRejectsBadCount := by
  unfold Obligations.InitRejectsBadCount
  intro s q a hrest hl hidle hq ha
  obtain ⟨hm, c, hc, hb, hfree⟩ := atRest_iff.mp hrest
  have hbegin : beginInit a (s.present (encode (.init q a))) (given (.init q a) c) =
      some (goto .reject (given (.init q a) c)) := by
    have hnone : validCount (s.present (encode (.init q a))).cfg.capMax a = none := validCount_eq_none ha
    simp [beginInit, hnone]
  have hissue := exec_init_issue hm hc hb hl hidle hq hbegin
  refine execTimes_two (s' := { s with life := .building }) hm hc hc hfree hissue rfl ?_
  exact congrArg (fun t => ran t [.issue 0xF0#8] (goto .reject (given (.init q a) c))) (with_life_eq hl)

end Sys2Proof.Machine
end

section
/-! FINI while `LIFE` is READY, no call failing (41_driver.md R208, R209). -/

namespace Sys2Proof.Machine

section
variable {i : Instr} {n : Nat} {b c : Ctx} {v : UPos} {s : State}

/-- The latch pulse of a command that has its positions and goes on at `v` (40_sequencer.md R176). -/
theorem emits_latchPulse {onFail : Ctx → Ctx} (hb : b.busy = true)
    (hprog : ∀ (s : State) (c : Ctx) (u : UPos), isLatch u = true → (ruleOf i).prog s c u = latchPulse (goto v) onFail u) :
    Emits i n (goto .latchLow b) latchEvents (goto v b) := by
  have h1 : Emits i n (goto .latchLow b) [.drv .lclk false] (goto .latchWait b) :=
    emits_drive (next := goto .latchWait) rfl hb fun s _ => hprog s _ .latchLow rfl
  have h2 : Emits i n (goto .latchWait b) [.dly] (goto .latchHigh b) :=
    emits_delay (next := goto .latchHigh) rfl hb fun s _ => hprog s _ .latchWait rfl
  have h3 : Emits i n (goto .latchHigh b) [.drv .lclk true] (goto .latchHold b) :=
    emits_drive (next := goto .latchHold) rfl hb fun s _ => hprog s _ .latchHigh rfl
  have h4 : Emits i n (goto .latchHold b) [.dly] (goto .latchFall b) :=
    emits_delay (next := goto .latchFall) rfl hb fun s _ => hprog s _ .latchHold rfl
  have h5 : Emits i n (goto .latchFall b) [.drv .lclk false] (goto v b) :=
    emits_drive (next := goto v) rfl hb fun s _ => hprog s _ .latchFall rfl
  exact (((h1.trans h2).trans h3).trans h4).trans h5

end

/-- The drives of FINI's teardown (41_driver.md R208). -/
def teardownEvents : List Event := clearEvents ++ latchEvents ++ [.drvAll false]

theorem emits_teardown {n : Nat} {b : Ctx} (hb : b.busy = true) :
    Emits .fini n (goto .clearLow b) teardownEvents (atRelease 0 b) := by
  have hclear := emits_clearPulse (i := .fini) (n := n) hb fun _ _ _ => progFini_of_clear
  have hlatch := emits_latchPulse (i := .fini) (n := n) hb fun _ _ _ => progFini_of_latch
  have hall : Emits .fini n (goto .driveAll b) [.drvAll false] (atRelease 0 b) :=
    emits_driveAll (next := startRelease) (onFail := startRelease) rfl hb fun _ _ => rfl
  exact (hclear.trans hlatch).trans hall

/-- The teardown leaves every line low and both stages zero (41_driver.md R209). -/
theorem foldHist_teardown {ls : Quad Level} {ch : Chain} {p n : Nat} (hf : floating ls = false) (hs : ch.s.length = n) :
    foldHist (ls, ch) (tagged p teardownEvents) = (Quad.all .low, ⟨List.replicate n .b0, List.replicate n .b0⟩) := by
  rw [teardownEvents, tagged_append, tagged_append, foldHist_append, foldHist_append, foldHist_clear hf,
    foldHist_latch (floating_set hf .clrN true) rfl, foldHist_driveAll_low, fillStage_fillStage, fillStage_eq_replicate, hs]

/-- FINI's releases and its last Complete. -/
def releaseEvents (st : Status) : List Event := [.rel .sdata, .rel .sclk, .rel .lclk, .rel .clrN, .done st]

theorem unknown_unknown (ch : Chain) : ch.unknown.unknown = ch.unknown := by simp [Chain.unknown]

/-- While a line floats the chain is unknown, and so it stays as the pins are released (20_memory.md R96). -/
theorem foldHist_releases (ch : Chain) (p : Nat) (st : Status) :
    foldHist (Quad.all .low, ch) (tagged p (releaseEvents st)) = (Quad.all .z, ch.unknown) := by
  have hrel (ls : Quad Level) (l : Line) (ch : Chain) :
      foldEvent (ls, ch) ⟨p, .rel l⟩ = (ls.set l .z, ch.unknown) :=
    congrArg (Prod.mk (ls.set l .z)) (react_of_floating (floating_iff.mpr ⟨l, by simp⟩))
  simp only [releaseEvents, foldHist_cons, hrel, unknown_unknown]
  rfl

theorem released_eq_ran (s : State) (l : Line) (d : Ctx) : released s l d = ran s [.rel l] d := rfl

/-- The context `c` of a port after FINI's last Complete. -/
def finiEnd (c : Ctx) : Ctx :=
  { c with k := some 3, upc := some .done, busy := false, sts := some (finalStatus c.err), res := some none }

theorem execTimes_last_release {s : State} {c : Ctx} (h : Releasing s c Line.clrN.index) :
    execTimes 2 .fini s = .next (endInstance (ran s [.rel .clrN, .done (finalStatus c.err)] (finiEnd c))) := by
  have hrelease : exec .fini s = .next (ran s [.rel .clrN] (goto .done c)) := exec_of_releasing h
  have hstands : Stands (ran s [.rel .clrN] (goto .done c)) (goto .done c) .done :=
    ⟨h.mark, ctx_ran h.ctx _ _, h.busy, h.free, rfl⟩
  have hend : finiEnd c = { goto .done c with sts := some (finalStatus c.err), res := some none, busy := false } := by
    simp [finiEnd, goto, h.k, Line.index]
  rw [execTimes_succ hrelease, execTimes_succ (exec_complete_writes hstands rfl rfl (ctx_ran h.ctx [.rel .clrN] _)), hend]
  exact congrArg (fun t => Host.Outcome.next (endInstance t)) (ran_ran s _ [.done (finalStatus c.err)] _ _)

/-- The four releases of FINI and its last Complete, as an equation. -/
theorem execTimes_releases {s : State} {c : Ctx} (h : Releasing s c Line.sdata.index) :
    execTimes 5 .fini s = .next (endInstance (ran s (releaseEvents (finalStatus c.err)) (finiEnd c))) := by
  obtain ⟨e0, h1⟩ := releasing_next h (by decide)
  obtain ⟨e1, h2⟩ := releasing_next (l := .sclk) h1 (by decide)
  obtain ⟨e2, h3⟩ := releasing_next (l := .lclk) h2 (by decide)
  rw [execTimes_succ e0, execTimes_succ e1, execTimes_succ e2, execTimes_last_release h3, released_eq_ran, released_eq_ran,
    released_eq_ran, ran_ran, ran_ran, ran_ran]
  rfl

/-- The issue of FINI while `LIFE` is READY, every other port idle (60_exceptions.md R300). -/
theorem exec_fini_issue {s : State} {c : Ctx} (hm : s.mark = none) (hc : s.ctx s.active = some c) (hb : c.busy = false)
    (hl : s.life = .ready) (hidle : s.othersIdle s.active = true) :
    exec .fini s = .next (ran { s with life := .tearing } [.issue 0xF1#8] (goto .clearLow (given .fini c))) := by
  have hlife : (s.present (encode .fini)).life = .ready := hl
  have hidle' : (s.present (encode .fini)).othersIdle (s.present (encode .fini)).active = true :=
    (othersIdle_present s _).trans hidle
  exact exec_issue_life (i := .fini) rfl hm hc hb (by simp [ruleOf, admitFini, hlife, hidle'])
    (by simp [ruleOf, startTeardown, hlife]) (by simp [ruleOf, beginFini, hlife])

/-- FINI up to its first release. -/
theorem execTimes_teardown {s : State} {n : Nat} {c : Ctx} (hm : s.mark = none) (hc : s.ctx s.active = some c)
    (hb : c.busy = false) (hbuilt : built s n = true) (hidle : s.othersIdle s.active = true) (horacle : oracleOk s 6 = true) :
    execTimes 10 .fini s = .next (ran { s with life := .tearing } ([Event.issue 0xF1#8] ++ teardownEvents)
      (atRelease 0 (given .fini c))) := by
  obtain ⟨hl, hcap, hclaimed, -⟩ := built_iff.mp hbuilt
  have hlive : Live (ran { s with life := .tearing } [.issue 0xF1#8] (goto .clearLow (given .fini c)))
      (goto .clearLow (given .fini c)) (driveCount teardownEvents) :=
    live_of_issue (s := { s with life := .tearing }) hm hc rfl hclaimed horacle
  have hrun := (emits_teardown (n := n) (b := given .fini c) rfl).2 _ (by exact hcap) hlive
  rw [execTimes_succ (exec_fini_issue hm hc hb hl hidle), ← ran_ran]
  exact hrun

/-- Settles O17: the teardown's drives and the releases append one event each, and their fold is that of the two. -/
theorem finiTearsDown : Obligations.FiniTearsDown := by
  unfold Obligations.FiniTearsDown
  intro s n hrest hbuilt hpins hidle horacle
  obtain ⟨-, -, hclaimed, hfl, -, hs, -⟩ := built_iff.mp hbuilt
  obtain ⟨hm, c, hc, hb, hfree⟩ := atRest_iff.mp hrest
  have hteardown := execTimes_teardown hm hc hb hbuilt hidle (oracleOk_mono horacle (by omega))
  have hfold : foldHist (s.line, s.chain) (tagged s.active ([Event.issue 0xF1#8] ++ teardownEvents)) =
      (Quad.all .low, ⟨List.replicate n .b0, List.replicate n .b0⟩) := by
    rw [tagged_append, foldHist_append]
    exact foldHist_teardown hfl hs
  refine ⟨⟨_, hteardown, congrArg Prod.fst hfold, congrArg Prod.snd hfold, rfl, rfl⟩, ?_⟩
  have hrange : claimedRange s.claimed 0 4 = true := claimedRange_iff.mpr fun l => by
    rw [allClaimed_get hclaimed l]
    cases l <;> rfl
  have hcount : callCount ([Event.issue 0xF1#8] ++ teardownEvents) = 6 := rfl
  have hreleasing : Releasing (ran { s with life := .tearing } ([Event.issue 0xF1#8] ++ teardownEvents)
      (atRelease 0 (given .fini c))) (atRelease 0 (given .fini c)) 0 :=
    ⟨hm, ctx_ran (s := { s with life := .tearing }) hc _ _, rfl, hfree, rfl, rfl, hrange, hpins,
      oracleOk_ran (by rw [hcount]; exact horacle) _⟩
  have hreleases : foldHist (s.line, s.chain) (tagged s.active
      ([Event.issue 0xF1#8] ++ teardownEvents ++ releaseEvents .ok)) =
        (Quad.all .z, ⟨List.replicate n .x, List.replicate n .x⟩) := by
    rw [tagged_append, foldHist_append, hfold, foldHist_releases]
    simp [Chain.unknown, fillStage]
  have hend := ran_eq (s := { s with life := .tearing }) (q := Quad.all false) (k := 10)
    (f := fun c => { finished .fini .done .ok none c with k := some 3 }) hc rfl rfl hreleases rfl
  rw [show 15 = 10 + 5 from rfl, execTimes_add hteardown, execTimes_releases hreleasing, ran_ran]
  exact congrArg (fun t => Host.Outcome.next (endInstance t)) hend

end Sys2Proof.Machine
end

section
/-! INIT with a valid count: its claims and what it builds (41_driver.md R190 to R193). -/

namespace Sys2Proof.Machine

/-- The claims of lines `0` to `k - 1`, ascending (41_driver.md R191). -/
def claimEvents (k : Nat) : List Event := ([.sdata, .sclk, .lclk, .clrN].take k).map (.claim · true)

theorem claimEvents_succ {k : Nat} {l : Line} (hl : Line.ofIndex k = some l) :
    claimEvents (k + 1) = claimEvents k ++ [.claim l true] := by
  have hk := line_ofIndex_eq_some hl
  subst hk
  cases l <;> rfl

theorem callCount_claimEvents {k : Nat} (hk : k ≤ 4) : callCount (claimEvents k) = k := by
  interval_cases k <;> rfl

/-- The context of a port that goes on at INIT's `Claim(k)` with the count `n`. -/
def atClaim (n k : Nat) (c : Ctx) : Ctx := goto .claim { c with k := some k, n := some n }

section
variable {q : Quad Nat} {a : Arg} {n k : Nat} {s : State} {c : Ctx} {l : Line} {b : Bool}

/-- The outcome of INIT's `Claim(0)` (40_sequencer.md R162, R170): `CAP` and `PINS` are written with it. -/
theorem exec_first_claim (hs : Stands s c .claim) (hk : c.k = some 0) (hn : validCount s.cfg.capMax a = some n)
    (hb : NextAnswer s b) :
    exec (.init q a) s = .next (ran (writeInstance n q s) [.claim .sdata b]
      ((if b then afterClaim 0 else afterFailedClaim 0) { c with n := some n })) := by
  have hp : (ruleOf (.init q a)).prog s c .claim = .step
      { op := .claim .sdata, next := afterClaim 0, onFail := afterFailedClaim 0, writes := firstClaimWrites n q } := by
    simp [ruleOf, progInit, claimStep, hk, hn]
  rw [exec_of_busy hs.mark hs.ctx hs.busy hs.upc, hp]
  exact perform_claim (s' := writeInstance n q s) (g := fun c => { c with n := some n }) rfl hs.ctx (Option.some_ne_none q) hb

/-- The outcome of INIT's later claims. -/
theorem exec_later_claim (hs : Stands s c .claim) (hk : c.k = some (k + 1)) (hl : Line.ofIndex (k + 1) = some l)
    (hpins : s.pins ≠ none) (hb : NextAnswer s b) :
    exec (.init q a) s = .next (ran s [.claim l b] ((if b then afterClaim (k + 1) else afterFailedClaim (k + 1)) c)) := by
  have hp : (ruleOf (.init q a)).prog s c .claim = .step
      { op := .claim l, next := afterClaim (k + 1), onFail := afterFailedClaim (k + 1) } := by
    simp [ruleOf, progInit, claimStep, hk, hl]
  rw [exec_of_busy hs.mark hs.ctx hs.busy hs.upc, hp]
  exact perform_claim (s' := s) (g := id) (State.modCtx_id s s.active).symm hs.ctx hpins hb

theorem ofIndex_of_le_three (hk : k ≤ 3) : ∃ l, Line.ofIndex k = some l := by
  interval_cases k <;> exact ⟨_, rfl⟩

section
variable (hs : Stands s c .claim) (h0 : c.k = some 0) (hn : validCount s.cfg.capMax a = some n)
include hs

theorem stands_atClaim (es : List Event) (k : Nat) :
    Stands (ran (writeInstance n q s) es (atClaim n k c)) (atClaim n k c) .claim := by
  have hw : Stands (writeInstance n q s) c .claim := ⟨hs.mark, hs.ctx, hs.busy, hs.free, hs.upc⟩
  exact hw.ran es rfl rfl rfl

include h0 hn

/-- INIT's claims up to that of line `k`, which the oracle answers with `b`; the earlier ones succeed. -/
theorem execTimes_claims (hk : k ≤ 3) (hl : Line.ofIndex k = some l) (horacle : oracleOk s k = true)
    (hb : ∀ d, NextAnswer (ran s (claimEvents k) d) b) :
    execTimes (k + 1) (.init q a) s = .next (ran (writeInstance n q s) (claimEvents k ++ [.claim l b])
      ((if b then afterClaim k else afterFailedClaim k) (atClaim n k c))) := by
  induction k generalizing l b with
  | zero =>
    cases hl
    have hc : atClaim n 0 c = { c with n := some n } := by simp [atClaim, goto, ← h0, ← hs.upc]
    rw [hc]
    exact execTimes_succ (exec_first_claim hs h0 hn ((hb c).congr rfl (drawsAfter_of_no_call s (es := []) rfl).symm))
  | succ k ih =>
    obtain ⟨m, hm⟩ := ofIndex_of_le_three (k := k) (by omega)
    have hearlier (d : Ctx) : NextAnswer (ran s (claimEvents k) d) true :=
      nextAnswer_of_oracleOk (oracleOk_ran (by rw [callCount_claimEvents (by omega)]; exact horacle) d)
    have hnext : afterClaim k (atClaim n k c) = atClaim n (k + 1) c := if_pos hk
    have hrun := ih (by omega) hm (oracleOk_mono horacle (by omega)) hearlier
    rw [← claimEvents_succ hm, if_pos rfl, hnext] at hrun
    have hclaim := exec_later_claim (q := q) (a := a) (stands_atClaim (n := n) hs (claimEvents (k + 1)) (k + 1)) rfl hl
      (Option.some_ne_none q) (hb (atClaim n (k + 1) c))
    rw [execTimes_add hrun, execTimes_succ hclaim, ran_ran]
    rfl

end

end

/-- What the four claims leave: every line is driven but unknown, and so is the chain (20_memory.md R95, R96). -/
theorem foldHist_claims (ch : Chain) (p : Nat) : foldHist (Quad.all .z, ch) (tagged p (claimEvents 4)) =
    (Quad.all .x, ch.unknown) := by
  have hclaim (ls : Quad Level) (l k : Line) (ch : Chain) (hz : (ls.set l .x).get k = .z) :
      foldEvent (ls, ch) ⟨p, .claim l true⟩ = (ls.set l .x, ch.unknown) :=
    congrArg (Prod.mk (ls.set l .x)) (react_of_floating (floating_iff.mpr ⟨k, hz⟩))
  have hlast (ls : Quad Level) (ch : Chain) (hf : floating (ls.set .clrN .x) = false) :
      foldEvent (ls, ch) ⟨p, .claim .clrN true⟩ = (ls.set .clrN .x, ⟨fillStage .x ch.s, ch.q⟩) :=
    congrArg (Prod.mk (ls.set .clrN .x)) ((react_of_driven hf).trans
      (congrArg₂ Chain.mk (shiftStage_of_x rfl) (outputStage_no_edge (ne_or_eq _ _))))
  have hevents : claimEvents 4 = [.claim .sdata true, .claim .sclk true, .claim .lclk true, .claim .clrN true] := rfl
  simp only [hevents, foldHist_cons]
  rw [hclaim _ .sdata .sclk _ rfl, hclaim _ .sclk .lclk _ rfl, hclaim _ .lclk .clrN _ rfl, hlast _ _ rfl,
    unknown_unknown, unknown_unknown]
  exact congrArg (fun st => (Quad.all Level.x, Chain.mk st ch.unknown.q)) (fillStage_fillStage _ _ _)

/-- The context of a port that has just been issued INIT and goes on at `Claim(0)`. -/
def initIssued (q : Quad Nat) (a : Arg) (c : Ctx) : Ctx := goto .claim { given (.init q a) c with k := some 0 }

section
variable {q : Quad Nat} {a : Arg} {n : Nat} {s : State} {c : Ctx}

theorem validCount_eq_some {m : Option Nat} (ha : (a = .absent ∧ n = 0) ∨ a = .int (n : Int))
    (hm : ∀ k, m = some k → 8 * (n + 1) ≤ k) : validCount m a = some n := by
  refine (validCount_of_count ha).trans (if_neg ?_)
  rintro ⟨k, hk, hlt⟩
  exact absurd (hm k hk) (not_le.mpr hlt)

theorem writeInstance_ran_issue (n : Nat) (q : Quad Nat) (s : State) (o : Opcode) (d : Ctx) :
    writeInstance n q (ran s [.issue o] d) = ran (writeInstance n q s) [.issue o] d := rfl

/-- The registers from INIT's first claim on (41_driver.md R191). -/
def building (n : Nat) (q : Quad Nat) (s : State) : State := writeInstance n q { s with life := .building }

/-- INIT with the distinct pins `q` and the valid count `a`, which is `n`, can be issued on the active port, whose context is
`c`: `LIFE` is UNBUILT, and every port is idle (60_exceptions.md R300). -/
structure InitReady (s : State) (c : Ctx) (q : Quad Nat) (a : Arg) (n : Nat) : Prop where
  mark : s.mark = none
  ctx : s.ctx s.active = some c
  idle : c.busy = false
  free : c.holdsLock = false
  life : s.life = .unbuilt
  othersIdle : s.othersIdle s.active = true
  pins : distinctPins q = true
  count : validCount s.cfg.capMax a = some n

theorem initReady_of_atRest (hrest : atRest s = true) (hl : s.life = .unbuilt) (hidle : s.othersIdle s.active = true)
    (hq : distinctPins q = true) (ha : (a = .absent ∧ n = 0) ∨ a = .int (n : Int))
    (hmax : ∀ k, s.cfg.capMax = some k → 8 * (n + 1) ≤ k) : ∃ c, InitReady s c q a n := by
  obtain ⟨hm, c, hc, hb, hfree⟩ := atRest_iff.mp hrest
  exact ⟨c, hm, hc, hb, hfree, hl, hidle, hq, validCount_eq_some ha hmax⟩

section
variable (h : InitReady s c q a n)
include h

theorem InitReady.stands (es : List Event) {d : Ctx} {u : UPos} (hb : d.busy = true) (hf : d.holdsLock = c.holdsLock)
    (hu : d.upc = some u) : Stands (ran (building n q s) es d) d u :=
  ⟨h.mark, ctx_ran (s := building n q s) h.ctx es d, hb, hf.trans h.free, hu⟩

/-- INIT up to the claim of line `k`, which the oracle answers with `b`; the earlier claims succeed. -/
theorem execTimes_init_claims {k : Nat} {l : Line} {b : Bool} (hk : k ≤ 3) (hl : Line.ofIndex k = some l)
    (horacle : oracleOk s k = true) (hanswer : ∀ d, NextAnswer (ran s (claimEvents k) d) b) :
    execTimes (k + 2) (.init q a) s = .next (ran (building n q s) ([.issue 0xF0#8] ++ (claimEvents k ++ [.claim l b]))
      ((if b then afterClaim k else afterFailedClaim k) (atClaim n k (initIssued q a c)))) := by
  have hn : validCount (s.present (encode (.init q a))).cfg.capMax a = some n := h.count
  have hissue : exec (.init q a) s = .next (ran { s with life := .building } [.issue 0xF0#8] (initIssued q a c)) :=
    exec_init_issue h.mark h.ctx h.idle h.life h.othersIdle h.pins (by simp [beginInit, hn, initIssued])
  have hstands : Stands (ran { s with life := .building } [.issue 0xF0#8] (initIssued q a c)) (initIssued q a c) .claim :=
    ⟨h.mark, ctx_ran (s := { s with life := .building }) h.ctx _ _, rfl, h.free, rfl⟩
  have horacle' : oracleOk (ran { s with life := .building } [.issue 0xF0#8] (initIssued q a c)) k = true := by
    refine oracleOk_ran ?_ _
    rw [show callCount [.issue 0xF0#8] = 0 from rfl, Nat.zero_add]
    exact horacle
  have hanswer' (d : Ctx) : NextAnswer
      (ran (ran { s with life := .building } [.issue 0xF0#8] (initIssued q a c)) (claimEvents k) d) b := by
    rw [ran_ran]
    exact (hanswer d).congr rfl rfl
  rw [execTimes_succ hissue, execTimes_claims hstands rfl h.count hk hl horacle' hanswer',
    ← ran_ran (building n q s) _ _ (initIssued q a c), writeInstance_ran_issue]
  rfl

end

end

/-- The creation of the buffer in INIT (41_driver.md R191). -/
theorem exec_createBuf {q : Quad Nat} {a : Arg} {s : State} {c : Ctx} (hs : Stands s c .bufWrite) :
    exec (.init q a) s = .next (ran { s with buf := some s.cfg.bufInit } [.bwr (some s.cfg.bufInit)] (goto .done c)) := by
  have hp : (ruleOf (.init q a)).prog s c .bufWrite = .step { op := .bufWrite (some s.cfg.bufInit), next := goto .done } := rfl
  rw [exec_of_busy hs.mark hs.ctx hs.busy hs.upc, hp,
    ran_of_ctx (s := { s with buf := some s.cfg.bufInit }) hs.ctx (.bwr (some s.cfg.bufInit)) (goto .done),
    drawsAfter_of_no_call _ (es := [.bwr (some s.cfg.bufInit)]) rfl]
  rfl

/-- The creation of the buffer and INIT's last Complete (41_driver.md R193). -/
theorem execTimes_create_and_done {q : Quad Nat} {a : Arg} {s : State} {c : Ctx} (hs : Stands s c .bufWrite) :
    execTimes 2 (.init q a) s = .next (ran { s with buf := some s.cfg.bufInit, life := .ready, cc := true }
      [.bwr (some s.cfg.bufInit), .done .ok] { goto .done c with sts := some .ok, res := some none, busy := false }) := by
  have hs' : Stands { s with buf := some s.cfg.bufInit } c .bufWrite := ⟨hs.mark, hs.ctx, hs.busy, hs.free, hs.upc⟩
  have hdone := hs'.ran [.bwr (some s.cfg.bufInit)] (d := goto .done c) (v := .done) rfl rfl rfl
  rw [execTimes_succ (exec_createBuf hs), execTimes_succ (exec_complete_writes hdone rfl rfl hdone.ctx)]
  exact congrArg Host.Outcome.next (ran_ran { s with buf := some s.cfg.bufInit, life := .ready, cc := true }
    [.bwr (some s.cfg.bufInit)] [.done .ok] (goto .done c) _)

/-- The chain seen with a new width is as wide. -/
theorem unknown_resize (w : Nat) (ch : Chain) :
    (ch.resize w).unknown = ⟨List.replicate w .x, List.replicate w .x⟩ := by
  simp [Chain.unknown, Chain.resize, fillStage_eq_replicate, widenStage_length]

/-- Settles O14: the issue, the four claims, the buffer's creation and the Complete append one event each. -/
theorem initBuildsInstance : Obligations.InitBuildsInstance := by
  unfold Obligations.InitBuildsInstance
  intro s q a n hrest hl hidle hq ha hmax hline horacle
  obtain ⟨c, h⟩ := initReady_of_atRest hrest hl hidle hq ha hmax
  have hanswer (d : Ctx) : NextAnswer (ran s (claimEvents 3) d) true := nextAnswer_of_oracleOk (oracleOk_ran horacle d)
  have hclaims : execTimes 5 (.init q a) s = .next (ran (building n q s) ([Event.issue 0xF0#8] ++ claimEvents 4)
      (goto .bufWrite (atClaim n 3 (initIssued q a c)))) :=
    execTimes_init_claims (l := .clrN) h le_rfl rfl (oracleOk_mono horacle (by omega)) hanswer
  have hend := execTimes_create_and_done (q := q) (a := a)
    (h.stands ([Event.issue 0xF0#8] ++ claimEvents 4) (d := goto .bufWrite (atClaim n 3 (initIssued q a c))) rfl rfl rfl)
  have hfold : foldHist (s.line, s.chain.resize (8 * (n + 1))) (tagged s.active
      ([Event.issue 0xF0#8] ++ claimEvents 4 ++ [Event.bwr (some s.cfg.bufInit), Event.done .ok])) =
        (Quad.all .x, ⟨List.replicate (8 * (n + 1)) .x, List.replicate (8 * (n + 1)) .x⟩) := by
    rw [hline, tagged_append, foldHist_append, ← unknown_resize _ s.chain, ← foldHist_claims _ s.active]
    rfl
  have hstate := ran_eq (s := { building n q s with buf := some s.cfg.bufInit, life := .ready, cc := true })
    (q := Quad.all true) (k := 4) (f := fun c => { finished (.init q a) .done .ok none c with n := some n, k := some 3 })
    h.ctx rfl rfl hfold rfl
  rw [show 7 = 5 + 2 from rfl, execTimes_add hclaims, hend]
  refine congrArg Host.Outcome.next (Eq.trans ?_ hstate)
  exact ran_ran { building n q s with buf := some s.cfg.bufInit, life := .ready, cc := true } _ _ _ _

end Sys2Proof.Machine
end

section
/-! INIT after a claim that fails: the earlier pins are released, ascending, and nothing is built (41_driver.md R191,
60_exceptions.md R303). -/

namespace Sys2Proof.Machine

/-- The context of a port that goes on in INIT's rollback of a claim that failed at `k`, the pins below `j` released. -/
def rollbackAt (k j : Nat) (c : Ctx) : Ctx := if j < k then goto .rollback { c with j := some j } else goto .claimFailed c

theorem afterFailedClaim_eq (k : Nat) (c : Ctx) : afterFailedClaim k c = rollbackAt k 0 c := by
  cases k <;> rfl

/-- The releases of the lines from `j` to `k - 1`, ascending (41_driver.md R191). -/
def rollbackEvents (j k : Nat) : List Event := (([.sdata, .sclk, .lclk, .clrN].take k).drop j).map .rel

theorem rollbackEvents_of_lt {j k : Nat} {l : Line} (hl : Line.ofIndex j = some l) (hj : j < k) :
    rollbackEvents j k = .rel l :: rollbackEvents (j + 1) k := by
  obtain rfl := line_ofIndex_eq_some hl
  have hlt : l.index < ([.sdata, .sclk, .lclk, .clrN].take k : List Line).length := by
    have h4 : l.index < 4 := by cases l <;> decide
    rw [List.length_take]
    exact lt_min hj h4
  have hget : ([.sdata, .sclk, .lclk, .clrN].take k : List Line)[l.index] = l := by
    rw [List.getElem_take]
    cases l <;> rfl
  rw [rollbackEvents, List.drop_eq_getElem_cons hlt, hget]
  rfl

/-- INIT goes on in its rollback, with the pins from `j` to `k - 1` claimed. -/
structure RollingBack (s : State) (c : Ctx) (k j : Nat) : Prop where
  mark : s.mark = none
  ctx : s.ctx s.active = some (rollbackAt k j c)
  busy : c.busy = true
  free : c.holdsLock = false
  failedAt : c.k = some k
  claimed : claimedRange s.claimed j k = true
  pins : s.pins ≠ none

section
variable {q : Quad Nat} {a : Arg} {s : State} {c : Ctx} {k j : Nat}

/-- One release of the rollback. -/
theorem rollingBack_next {l : Line} (h : RollingBack s c k j) (hj : j < k) (hl : Line.ofIndex j = some l)
    (horacle : oracleOk s 1 = true) : ∃ d, exec (.init q a) s = .next (ran s [.rel l] (rollbackAt k (j + 1) d)) ∧
      RollingBack (ran s [.rel l] (rollbackAt k (j + 1) d)) d k (j + 1) := by
  obtain rfl := line_ofIndex_eq_some hl
  have hat : rollbackAt k l.index c = goto .rollback { c with j := some l.index } := if_pos hj
  have hctx := h.ctx
  rw [hat] at hctx
  have hclaimed : s.claimed.get l = true := by simpa [hj] using claimedRange_iff.mp h.claimed l
  refine ⟨goto .rollback { c with j := some l.index }, ?_, h.mark, ctx_ran hctx _ _, h.busy, h.free, h.failedAt,
    claimedRange_release hl h.claimed, h.pins⟩
  rw [exec_of_busy h.mark hctx h.busy rfl, progInit_rollback (c := goto .rollback { c with j := some l.index }) h.failedAt rfl]
  exact perform_release hclaimed h.pins hctx horacle

/-- The context of a port whose INIT has completed with HARDWARE_CONFIGURATION. -/
def Ctx.ClaimFailed (d : Ctx) : Prop := d.busy = false ∧ d.sts = some .hardwareConfiguration ∧ d.res = some none

/-- The rest of the rollback, no release failing, and INIT's Complete. -/
theorem execTimes_rollback {m : Nat} (h : RollingBack s c k j) (hm : j + m = k) (hk : k ≤ 3) (horacle : oracleOk s m = true) :
    ∃ d, execTimes (m + 1) (.init q a) s =
      .next (ran (dropInstance s) (rollbackEvents j k ++ [.done .hardwareConfiguration]) d) ∧ d.ClaimFailed := by
  induction m generalizing s c j with
  | zero =>
    obtain rfl : j = k := hm
    have hat : rollbackAt j j c = goto .claimFailed c := if_neg (lt_irrefl j)
    have hnil : rollbackEvents j j = [] := by simp [rollbackEvents]
    have hs : Stands s (goto .claimFailed c) .claimFailed := ⟨h.mark, hat ▸ h.ctx, h.busy, h.free, rfl⟩
    rw [hnil]
    exact ⟨_, execTimes_succ (exec_complete_writes hs rfl rfl hs.ctx), rfl, rfl, rfl⟩
  | succ m ih =>
    have hj : j < k := by omega
    obtain ⟨l, hl⟩ := ofIndex_of_le_three (k := j) (by omega)
    obtain ⟨d, hexec, hnext⟩ := rollingBack_next (q := q) (a := a) h hj hl (oracleOk_mono horacle (by omega))
    have horacle' : oracleOk (ran s [.rel l] (rollbackAt k (j + 1) d)) m = true := by
      refine oracleOk_ran ?_ _
      rw [show callCount [.rel l] = 1 from rfl, Nat.add_comm]
      exact horacle
    obtain ⟨e, hrun, he⟩ := ih hnext (by omega) horacle'
    refine ⟨e, ?_, he⟩
    rw [execTimes_succ hexec, hrun, rollbackEvents_of_lt hl hj]
    exact congrArg Host.Outcome.next (ran_ran (dropInstance s) [.rel l] _ _ e)

end

/-- The levels after the events (20_memory.md R97). -/
def foldLevels (ls : Quad Level) (es : List Event) : Quad Level := es.foldl (fun ls e => (e.levels ls).getD ls) ls

/-- The lines of a fold depend on no chain. -/
theorem foldHist_levels (ls : Quad Level) (ch : Chain) (p : Nat) (es : List Event) :
    (foldHist (ls, ch) (tagged p es)).1 = foldLevels ls es := by
  induction es generalizing ls ch with
  | nil => rfl
  | cons e es ih =>
    rw [foldHist_cons]
    refine (ih _ _).trans (congrArg (foldLevels · es) ?_)
    exact foldHist_line

/-- The claim of line `k` fails, and those of the lines below succeed. -/
theorem claimedRange_failedClaim {k : Nat} (hk : k ≤ 3) (o : Opcode) (l : Line) :
    claimedRange (foldClaims (Quad.all false) ([Event.issue o] ++ (claimEvents k ++ [Event.claim l false]))) 0 k = true := by
  interval_cases k <;> rfl

/-- All events of an INIT whose claim of line `k`, which is `l`, fails (41_driver.md R191). -/
def failedInitEvents (k : Nat) (l : Line) : List Event :=
  [Event.issue 0xF0#8] ++ (claimEvents k ++ [Event.claim l false]) ++
    (rollbackEvents 0 k ++ [Event.done .hardwareConfiguration])

/-- An INIT whose claim fails leaves no pin claimed and no line driven. -/
theorem failedInitEvents_fold {k : Nat} (hk : k ≤ 3) (l : Line) (ch : Chain) (p : Nat) :
    foldClaims (Quad.all false) (failedInitEvents k l) = Quad.all false ∧
      (foldHist (Quad.all .z, ch) (tagged p (failedInitEvents k l))).1 = Quad.all .z := by
  rw [foldHist_levels]
  interval_cases k <;> exact ⟨rfl, rfl⟩

theorem callCount_failedInitEvents {k : Nat} (hk : k ≤ 3) (l : Line) : callCount (failedInitEvents k l) = 2 * k + 1 := by
  interval_cases k <;> rfl

theorem failedInitEvents_eq {k : Nat} {l : Line} (hl : Line.ofIndex k = some l) : failedInitEvents k l =
    [Event.issue 0xF0#8] ++ ([Line.sdata, .sclk, .lclk, .clrN].take k).map (Event.claim · true) ++
      (([Line.sdata, .sclk, .lclk, .clrN].drop k).take 1).map (Event.claim · false) ++
      ([Line.sdata, .sclk, .lclk, .clrN].take k).map Event.rel ++ [Event.done .hardwareConfiguration] := by
  obtain rfl := line_ofIndex_eq_some hl
  cases l <;> rfl

/-! The oracle's answers when only the one at `k` is a failure. -/

section
variable {ds rest : List Draw} {k lo n : Nat} {t : State}

theorem oracleOk_of_segment (hdraws : t.draws = (ds ++ rest).drop lo) (hlen : lo + n ≤ ds.length)
    (hok : ∀ m, m < ds.length → m ≠ k → ∀ e, ds[m]? = some e → e.ok = true) (hk : k < lo ∨ lo + n ≤ k) :
    oracleOk t n = true := by
  refine oracleOk_iff.mpr fun _ => ?_
  rw [hdraws, List.length_drop, List.length_append]
  refine ⟨by omega, fun x hx => ?_⟩
  obtain ⟨m, hm⟩ := List.mem_iff_getElem?.mp hx
  rw [List.getElem?_take, Option.ite_none_right_eq_some] at hm
  obtain ⟨hmn, hm⟩ := hm
  rw [List.getElem?_drop, List.getElem?_append_left (by omega)] at hm
  exact hok (lo + m) (by omega) (by omega) x hm

theorem nextAnswer_of_getElem? {d : Draw} (hfaults : t.cfg.backendFaults = true) (hdraws : t.draws = (ds ++ rest).drop k)
    (hd : ds[k]? = some d) (hok : d.ok = false) : NextAnswer t false := by
  obtain ⟨hlt, hget⟩ := List.getElem?_eq_some_iff.mp hd
  refine .inr ⟨hfaults, d, (ds ++ rest).drop (k + 1), ?_, hok⟩
  rw [hdraws, List.drop_eq_getElem_cons (by rw [List.length_append]; omega), List.getElem_append_left hlt, hget]

end

/-- INIT whose claim of line `k` is the first call to fail, and whose rollback then goes through, up to its Complete. -/
theorem execTimes_failed_init {s : State} {q : Quad Nat} {a : Arg} {n k : Nat} {c : Ctx} {l : Line} (h : InitReady s c q a n)
    (hclaimed : s.claimed = Quad.all false) (hk : k ≤ 3) (hl : Line.ofIndex k = some l) (horacle : oracleOk s k = true)
    (hanswer : ∀ e, NextAnswer (ran s (claimEvents k) e) false)
    (hrollback : ∀ e, oracleOk (ran s (claimEvents k ++ [.claim l false]) e) k = true) :
    ∃ e, execTimes (2 * k + 3) (.init q a) s = .next (ran (dropInstance (building n q s)) (failedInitEvents k l) e) ∧
      e.ClaimFailed := by
  have hclaims : execTimes (k + 2) (.init q a) s = .next (ran (building n q s)
      ([Event.issue 0xF0#8] ++ (claimEvents k ++ [Event.claim l false]))
      (rollbackAt k 0 (atClaim n k (initIssued q a c)))) := by
    rw [← afterFailedClaim_eq]
    exact execTimes_init_claims h hk hl horacle hanswer
  have hrange := claimedRange_failedClaim hk 0xF0#8 l
  rw [← hclaimed] at hrange
  have hrolling : RollingBack (ran (building n q s) ([Event.issue 0xF0#8] ++ (claimEvents k ++ [Event.claim l false]))
      (rollbackAt k 0 (atClaim n k (initIssued q a c)))) (atClaim n k (initIssued q a c)) k 0 :=
    ⟨h.mark, ctx_ran (s := building n q s) h.ctx _ _, rfl, h.free, rfl, hrange, Option.some_ne_none q⟩
  obtain ⟨e, hrun, he⟩ := execTimes_rollback (q := q) (a := a) hrolling (Nat.zero_add k) hk (hrollback c)
  refine ⟨e, ?_, he⟩
  rw [show 2 * k + 3 = k + 2 + (k + 1) by omega, execTimes_add hclaims, hrun]
  exact congrArg Host.Outcome.next (ran_ran (dropInstance (building n q s)) _ _ _ e)

/-- Settles O16: the claims up to the failing one, then the releases, then the Complete. -/
theorem initRollsBackFailedClaim : Obligations.InitRollsBackFailedClaim := by
  unfold Obligations.InitRollsBackFailedClaim
  intro s q a n k ds rest d hrest hl ha hcc hidle hq hmax hline hclaimed hk hfaults hdraws hlen hok hd hfail
  obtain ⟨c, h⟩ := initReady_of_atRest hrest hl hidle hq ha hmax
  obtain ⟨l, hofIndex⟩ := ofIndex_of_le_three hk
  rw [← hlen] at hok
  have hdrop (t : State) (es : List Event) (e : Ctx) (ht : t.cfg = s.cfg) (ht' : t.draws = s.draws) :
      (ran t es e).draws = (ds ++ rest).drop (callCount es) := by
    simp [ran, drawsAfter, ht, ht', hfaults, hdraws]
  have hcount := callCount_claimEvents (show k ≤ 4 by omega)
  have horacle : oracleOk s k = true := oracleOk_of_segment (lo := 0) hdraws (by omega) hok (.inr (by omega))
  have hanswer (e : Ctx) : NextAnswer (ran s (claimEvents k) e) false :=
    nextAnswer_of_getElem? hfaults (hcount ▸ hdrop s (claimEvents k) e rfl rfl) hd hfail
  have hrollback (e : Ctx) : oracleOk (ran s (claimEvents k ++ [.claim l false]) e) k = true := by
    refine oracleOk_of_segment (hdrop s _ e rfl rfl) ?_ hok (.inl ?_) <;>
      rw [callCount_append, hcount, show callCount [.claim l false] = 1 from rfl] <;> omega
  obtain ⟨e, hrun, hbusy, hsts, hres⟩ := execTimes_failed_init h hclaimed hk hofIndex horacle hanswer hrollback
  obtain ⟨hclaims, hlevels⟩ := failedInitEvents_fold hk l (dropInstance (building n q s)).chain s.active
  refine ⟨_, e, hrun, ?_, rfl, hcc, rfl, rfl, rfl, rfl, ?_, ?_, h.mark, ?_, ?_, hbusy, hsts, hres⟩
  · rw [← failedInitEvents_eq hofIndex]
    rfl
  · exact (congrArg (foldClaims · _) hclaimed).trans hclaims
  · refine Eq.trans ?_ hlevels
    rw [← hline]
    rfl
  · rw [hdrop (dropInstance (building n q s)) _ e rfl rfl, callCount_failedInitEvents hk l, List.drop_left' hlen]
  · exact ctx_ran (s := dropInstance (building n q s)) h.ctx _ e

end Sys2Proof.Machine
end

section
/-! DRV.CLR, DRV.WR, DRV.ZERO, BUF.CLR, BUF.WR and BUF.COMMIT: what they leave unchanged, position by position (41_driver.md
R197 to R205, 42_wrapper.md R249 to R258). -/

namespace Sys2Proof.Machine

variable {PinId : Type}

/-- The commands that transmit a word kept in their context (40_sequencer.md R177). -/
def sendsWord (i : Instr PinId) : Bool :=
  match i with
  | .drvWr _ | .bufWr _ | .bufCommit => true
  | _ => false

/-- The line-driving commands that have a BufWrite (42_wrapper.md R251, R255). -/
def writesBuf (i : Instr PinId) : Bool :=
  match i with
  | .bufClr | .bufWr _ => true
  | _ => false

/-- Position `u`, `none` for the issue, drives the line `l`. -/
def DrivesAt (u : Option UPos) (l : Line) : Prop :=
  ∃ v, u = some v ∧ (v = .driveAll ∨ ∃ b x, driveAt b v = some (l, x))

/-- Which line a position drives does not depend on the data bit. -/
theorem driveAt_line (b b' : Bool) (u : UPos) : (driveAt b u).map Prod.fst = (driveAt b' u).map Prod.fst := by
  cases u <;> rfl

theorem drivesAt_some {u : UPos} {l : Line} (hu : u ≠ .driveAll) (b : Bool) (h : DrivesAt (some u) l) :
    (driveAt b u).map Prod.fst = some l := by
  obtain ⟨v, hv, h⟩ := h
  cases hv
  obtain h | ⟨b', x, h⟩ := h
  · exact absurd h hu
  · rw [driveAt_line b b', h]
    rfl

theorem not_drivesAt_none (l : Line) : ¬ DrivesAt none l := by
  rintro ⟨v, hv, -⟩
  cases hv

theorem quad_eq_of_get {α : Type} {q r : Quad α} (h : ∀ l, q.get l = r.get l) : q = r := by
  obtain ⟨q0, q1, q2, q3⟩ := q
  obtain ⟨r0, r1, r2, r3⟩ := r
  exact congr (congr (congrArg₂ Quad.mk (h .sdata) (h .sclk)) (h .lclk)) (h .clrN)

/-- How the context of a port that runs `i` changes. -/
structure LineCtx (i : Instr PinId) (c d : Ctx PinId) : Prop where
  k : d.k = c.k
  j : d.j = c.j
  n : d.n = c.n
  tmp : d.tmp = c.tmp
  word : sendsWord i = false → d.snap = c.snap ∧ d.i = c.i

theorem lineCtx_refl (i : Instr PinId) (c : Ctx PinId) : LineCtx i c c := ⟨rfl, rfl, rfl, rfl, fun _ => ⟨rfl, rfl⟩⟩

theorem LineCtx.trans {i : Instr PinId} {c d e : Ctx PinId} (h : LineCtx i c d) (h' : LineCtx i d e) : LineCtx i c e where
  k := h'.k.trans h.k
  j := h'.j.trans h.j
  n := h'.n.trans h.n
  tmp := h'.tmp.trans h.tmp
  word hw := ⟨(h'.word hw).1.trans (h.word hw).1, (h'.word hw).2.trans (h.word hw).2⟩

/-- A step of a port that runs `i` and stands at `u`, `none` for the issue: lines, chain, `BUF` and `LOCK` change only at the
positions that say so, and no register of the lifecycle does. -/
structure LineFrame (i : Instr PinId) (u : Option UPos) (s t : State PinId) : Prop where
  active : t.active = s.active
  life : t.life = s.life
  cc : t.cc = s.cc
  cap : t.cap = s.cap
  pins : t.pins = s.pins
  claimed : t.claimed = s.claimed
  buf : ¬ (writesBuf i = true ∧ u = some .bufWrite) → t.buf = s.buf
  lock : u ≠ some .acquire → u ≠ some .unlock → u ≠ some .errUnlock → t.lock = s.lock
  line : ∀ l, ¬ DrivesAt u l → t.line.get l = s.line.get l
  chain : (∀ l, ¬ DrivesAt u l) → t.chain = s.chain
  ctx : OwnCtx (LineCtx i) s t

section
variable {i : Instr PinId} {u : Option UPos} {s t r : State PinId}

theorem LineFrame.trans (h : LineFrame i u s t) (h' : LineFrame i u t r) : LineFrame i u s r where
  active := h'.active.trans h.active
  life := h'.life.trans h.life
  cc := h'.cc.trans h.cc
  cap := h'.cap.trans h.cap
  pins := h'.pins.trans h.pins
  claimed := h'.claimed.trans h.claimed
  buf hb := (h'.buf hb).trans (h.buf hb)
  lock ha hu he := (h'.lock ha hu he).trans (h.lock ha hu he)
  line l hl := (h'.line l hl).trans (h.line l hl)
  chain hl := (h'.chain hl).trans (h.chain hl)
  ctx := h.ctx.trans h'.ctx h.active fun _ _ _ => LineCtx.trans

/-- The registers that no line-driving command writes. -/
def SameLife (s t : State PinId) : Prop :=
  t.active = s.active ∧ t.life = s.life ∧ t.cc = s.cc ∧ t.cap = s.cap ∧ t.pins = s.pins ∧ t.claimed = s.claimed

/-- A change of contexts, history, mark and the oracle's answers only. -/
theorem lineFrame_of_regs_eq (h : SameLife s t) (hbuf : t.buf = s.buf) (hlock : t.lock = s.lock) (hline : t.line = s.line)
    (hchain : t.chain = s.chain) (hctx : OwnCtx (LineCtx i) s t) : LineFrame i u s t := by
  obtain ⟨hactive, hlife, hcc, hcap, hpins, hclaimed⟩ := h
  exact ⟨hactive, hlife, hcc, hcap, hpins, hclaimed, fun _ => hbuf, fun _ _ _ => hlock, fun l _ => congrArg (·.get l) hline,
    fun _ => hchain, hctx⟩

theorem sameLife_refl (s : State PinId) : SameLife s s := ⟨rfl, rfl, rfl, rfl, rfl, rfl⟩

theorem lineFrame_refl (i : Instr PinId) (u : Option UPos) (s : State PinId) : LineFrame i u s s :=
  lineFrame_of_regs_eq (sameLife_refl s) rfl rfl rfl rfl (.of_ports_eq rfl (lineCtx_refl i))

theorem lineFrame_enterFault (i : Instr PinId) (u : Option UPos) (s : State PinId) (f : Fault) :
    LineFrame i u s (s.enterFault f) :=
  lineFrame_of_regs_eq (sameLife_refl s) rfl rfl rfl rfl (.of_ports_eq rfl (lineCtx_refl i))

theorem lineFrame_modCtx {p : Nat} {f : Ctx PinId → Ctx PinId} (hp : p = s.active)
    (hf : ∀ c, s.ctx s.active = some c → LineCtx i c (f c)) : LineFrame i u s (s.modCtx p f) :=
  lineFrame_of_regs_eq (sameLife_refl s) rfl rfl rfl rfl ⟨f, by rw [State.modCtx_ports, hp], hf⟩

/-- A change of history, the oracle's answers and the chain, and of the lines to `ls`, which differs at driven lines only. -/
theorem lineFrame_drive {ls : Quad Level} (h : SameLife s t) (hbuf : t.buf = s.buf) (hlock : t.lock = s.lock)
    (hline : t.line = ls) (hports : t.ports = s.ports) (hls : ∀ l, ¬ DrivesAt u l → ls.get l = s.line.get l)
    (hsome : ∃ l, DrivesAt u l) : LineFrame i u s t := by
  obtain ⟨hactive, hlife, hcc, hcap, hpins, hclaimed⟩ := h
  obtain ⟨l, hl⟩ := hsome
  exact ⟨hactive, hlife, hcc, hcap, hpins, hclaimed, fun _ => hbuf, fun _ _ _ => hlock, fun l hl => hline ▸ hls l hl,
    fun hn => absurd hl (hn l), .of_ports_eq hports (lineCtx_refl i)⟩

/-! The micro-steps (40_sequencer.md R164 to R173). -/

/-- The micro-steps that the line-driving command `i` has at `u`. -/
def Micro.LineAt (m : Micro) (i : Instr PinId) (u : UPos) : Prop :=
  match m with
  | .drive l v => ∃ b, driveAt b u = some (l, v)
  | .driveAll _ => u = .driveAll
  | .lockAcquire => u = .acquire
  | .lockRelease => u = .unlock ∨ u = .errUnlock
  | .bufReadSnap => sendsWord i = true
  | .bufWrite _ => writesBuf i = true ∧ u = .bufWrite
  | .delay | .complete _ _ => True
  | .bufReadTmp | .claim _ | .release _ => False

/-- If the micro-step is done, or the backend failed it, its port has changed what it may at `u`. -/
def Result.LineFrom (i : Instr PinId) (u : UPos) (s : State PinId) (x : Result PinId) : Prop :=
  match x with
  | .ok t => LineFrame i (some u) s t
  | .failed t => LineFrame i (some u) s t
  | .held => True
  | .fault _ => True

section
variable {v : UPos} {ls : Quad Level} {e : Event}
  (hls : ∀ l, ¬ DrivesAt (some v) l → ls.get l = s.line.get l) (hsome : ∃ l, DrivesAt (some v) l)
include hls hsome

theorem lineFrame_driven (p : Nat) : LineFrame i (some v) s ((s.drawn.setLines ls).log p e) :=
  lineFrame_drive ⟨by simp, by simp, by simp, by simp, by simp, by simp⟩ (by simp) (by simp) rfl (by simp) hls hsome

/-- A failing drive. -/
theorem lineFrame_failed {p : Nat} (hp : p = s.active) :
    LineFrame i (some v) s (((if s.draw.took then s.drawn.setLines ls else s.drawn).log p e).modCtx p failedCtx) := by
  have hlog : LineFrame i (some v) s ((if s.draw.took then s.drawn.setLines ls else s.drawn).log p e) := by
    split
    · exact lineFrame_driven hls hsome p
    · exact lineFrame_of_regs_eq ⟨by simp, by simp, by simp, by simp, by simp, by simp⟩ (by simp) (by simp) (by simp)
        (by simp) (.of_ports_eq (by simp) (lineCtx_refl i))
  exact hlog.trans (lineFrame_modCtx (hp.trans hlog.active.symm) fun _ _ => ⟨rfl, rfl, rfl, rfl, fun _ => ⟨rfl, rfl⟩⟩)

end

theorem run_lineFrom {v : UPos} {m : Micro} (hm : m.LineAt i v) : (m.run s).LineFrom i v s := by
  cases m with
  | drive l b =>
    obtain ⟨x, hx⟩ := hm
    have hl : DrivesAt (some v) l := ⟨v, rfl, .inr ⟨x, b, hx⟩⟩
    have hls (k : Line) (hk : ¬ DrivesAt (some v) k) : (s.line.set l (Level.ofBit b)).get k = s.line.get k := by
      have hne : k ≠ l := fun e => hk (e ▸ hl)
      rw [quad_get_set, if_neg hne]
    obtain ⟨-, e⟩ | ⟨-, -, e⟩ | ⟨-, -, e⟩ := runDrive_cases s l b <;> rw [Micro.run, e]
    · trivial
    · exact lineFrame_driven hls ⟨l, hl⟩ _
    · exact lineFrame_failed hls ⟨l, hl⟩ rfl
  | driveAll b =>
    have hl (l : Line) : DrivesAt (some v) l := ⟨v, rfl, .inl hm⟩
    have hls (k : Line) (hk : ¬ DrivesAt (some v) k) : (Quad.all (Level.ofBit b)).get k = s.line.get k := absurd (hl k) hk
    obtain ⟨-, e⟩ | ⟨-, -, e⟩ | ⟨-, -, e⟩ := runDriveAll_cases s b <;> rw [Micro.run, e]
    · trivial
    · exact lineFrame_driven hls ⟨.sdata, hl _⟩ _
    · exact lineFrame_failed hls ⟨.sdata, hl _⟩ rfl
  | lockAcquire =>
    obtain rfl : v = .acquire := hm
    obtain ⟨-, e⟩ | ⟨-, e⟩ := runLockAcquire_cases s <;> rw [Micro.run, e]
    · trivial
    · exact ⟨rfl, rfl, rfl, rfl, rfl, rfl, fun _ => rfl, fun h => absurd rfl h, fun _ _ => rfl, fun _ => rfl,
        _, rfl, fun _ _ => ⟨rfl, rfl, rfl, rfl, fun _ => ⟨rfl, rfl⟩⟩⟩
  | lockRelease =>
    have hne (hu : some v ≠ some .unlock) (he : some v ≠ some .errUnlock) : False :=
      hm.elim (fun h => hu (congrArg some h)) fun h => he (congrArg some h)
    obtain ⟨-, e⟩ | ⟨-, e⟩ := runLockRelease_cases s <;> rw [Micro.run, e]
    · trivial
    · exact ⟨rfl, rfl, rfl, rfl, rfl, rfl, fun _ => rfl, fun _ hu he => (hne hu he).elim, fun _ _ => rfl, fun _ => rfl,
        _, rfl, fun _ _ => ⟨rfl, rfl, rfl, rfl, fun _ => ⟨rfl, rfl⟩⟩⟩
  | bufReadSnap =>
    have hw : sendsWord i = true := hm
    rw [Micro.run]
    obtain ⟨-, e⟩ | ⟨x, -, e⟩ := runBufRead_cases s (fun v c => { c with snap := some v }) <;> rw [e]
    · trivial
    · exact lineFrame_of_regs_eq (sameLife_refl s) rfl rfl rfl rfl
        ⟨_, rfl, fun _ _ => ⟨rfl, rfl, rfl, rfl, fun hn => by rw [hw] at hn; cases hn⟩⟩
  | bufWrite x =>
    obtain ⟨hw, rfl⟩ : writesBuf i = true ∧ v = .bufWrite := hm
    exact ⟨rfl, rfl, rfl, rfl, rfl, rfl, fun h => absurd ⟨hw, rfl⟩ h, fun _ _ _ => rfl, fun _ _ => rfl, fun _ => rfl,
      .of_ports_eq rfl (lineCtx_refl i)⟩
  | delay => exact lineFrame_of_regs_eq (sameLife_refl s) rfl rfl rfl rfl (.of_ports_eq rfl (lineCtx_refl i))
  | complete st x =>
    cases hc : s.ctx s.active with
    | none => simp [Micro.run, runComplete, hc, Result.LineFrom]
    | some c =>
      obtain ⟨-, e⟩ | ⟨-, e⟩ := runComplete_cases hc st x <;> rw [Micro.run, e]
      · trivial
      · exact lineFrame_of_regs_eq (sameLife_refl s) rfl rfl rfl rfl
          ⟨_, rfl, fun _ _ => ⟨rfl, rfl, rfl, rfl, fun _ => ⟨rfl, rfl⟩⟩⟩
  | bufReadTmp | claim | release => exact hm.elim

end

/-! The micro-programs. -/

/-- What a line-driving command `i` has at `u`: a micro-step of that position, whose local computation changes what it may. -/
def Fetched.LineStep (i : Instr PinId) (u : UPos) (f : Fetched PinId) : Prop :=
  match f with
  | .step m =>
    m.op.LineAt i u ∧ (∀ c, LineCtx i c (m.next c)) ∧ (∀ c, LineCtx i c (m.onFail c)) ∧
      ∀ s, LineFrame i (some u) s (m.writes s)
  | .undef => True
  | .off => True

section
variable {i : Instr PinId} {u : UPos} {s t : State PinId} {c d : Ctx PinId} {f g : Fetched PinId}
  {after onFail : Ctx PinId → Ctx PinId}

theorem Fetched.LineStep.orElse (hf : f.LineStep i u) (hg : g.LineStep i u) : (f.orElse g).LineStep i u := by
  cases f with
  | off => exact hg
  | step m => exact hf
  | undef => trivial

theorem Fetched.LineStep.frame (hf : f.LineStep i u) (h : perform f s = .next t) : LineFrame i (some u) s t := by
  obtain ⟨-, rfl⟩ | ⟨m, rfl, hrun⟩ := perform_next h
  · exact lineFrame_enterFault _ _ _ _
  obtain ⟨hop, hnext, hfail, hwrites⟩ := hf
  have hfrom := run_lineFrom (s := m.writes s) hop
  obtain ⟨r, e, rfl⟩ | ⟨r, e, rfl⟩ | ⟨-, rfl⟩ | ⟨_, -, rfl⟩ := hrun
  · rw [e] at hfrom
    exact ((hwrites s).trans hfrom).trans (lineFrame_modCtx rfl fun c _ => hnext c)
  · rw [e] at hfrom
    exact ((hwrites s).trans hfrom).trans (lineFrame_modCtx rfl fun c _ => hfail c)
  · exact lineFrame_refl _ _ _
  · exact lineFrame_enterFault _ _ _ _

theorem lineCtx_goto (i : Instr PinId) (v : UPos) (c : Ctx PinId) : LineCtx i c (goto v c) :=
  ⟨rfl, rfl, rfl, rfl, fun _ => ⟨rfl, rfl⟩⟩

theorem lineCtx_epilogue (i : Instr PinId) (c : Ctx PinId) : LineCtx i c (epilogue c) := by
  unfold epilogue
  split <;> exact lineCtx_goto _ _ _

theorem lineCtx_checkSnap (n : Nat) (c : Ctx PinId) : LineCtx i c (checkSnap n c) := by
  unfold checkSnap
  split <;> exact lineCtx_goto _ _ _

/-- A micro-step without writes that fails to the error epilogue. -/
theorem lineStep_of_no_writes {op : Micro} (hop : op.LineAt i u) (hn : ∀ c, LineCtx i c (after c)) :
    Fetched.LineStep i u (.step { op := op, next := after }) :=
  ⟨hop, hn, lineCtx_epilogue i, lineFrame_refl i _⟩

/-- A micro-step that goes on at one position. -/
theorem lineStep_goto {op : Micro} {v : UPos} (hop : op.LineAt i u) :
    Fetched.LineStep i u (.step { op := op, next := goto v }) :=
  lineStep_of_no_writes hop (lineCtx_goto i v)

theorem lineStep_complete (st : Status) (r : Option Int) : (completeStep st r : Fetched PinId).LineStep i u :=
  ⟨trivial, lineCtx_refl i, lineCtx_epilogue i, lineFrame_refl i _⟩

theorem lineStep_clearPulse (hn : ∀ c, LineCtx i c (after c)) : (clearPulse after epilogue u).LineStep i u := by
  cases u with
  | clearLow => exact lineStep_goto ⟨false, rfl⟩
  | clearWait => exact lineStep_goto trivial
  | clearHigh => exact lineStep_of_no_writes ⟨false, rfl⟩ hn
  | _ => trivial

theorem lineStep_latchPulse (hn : ∀ c, LineCtx i c (after c)) : (latchPulse after epilogue u).LineStep i u := by
  cases u with
  | latchLow | latchHigh => exact lineStep_goto ⟨false, rfl⟩
  | latchWait | latchHold => exact lineStep_goto trivial
  | latchFall => exact lineStep_of_no_writes ⟨false, rfl⟩ hn
  | _ => trivial

theorem lineStep_errorEpilogue : (errorEpilogue c u).LineStep i u := by
  cases u with
  | errUnlock => exact lineStep_goto (.inr rfl)
  | errComplete =>
    simp only [errorEpilogue]
    split
    · exact lineStep_complete _ _
    · trivial
  | _ => trivial

section
variable (hw : sendsWord i = true)
include hw

/-- A command that sends a word may change `snap` and `i`. -/
theorem lineCtx_of_sendsWord (hk : d.k = c.k) (hj : d.j = c.j) (hn : d.n = c.n) (htmp : d.tmp = c.tmp) : LineCtx i c d :=
  ⟨hk, hj, hn, htmp, fun h => by rw [hw] at h; cases h⟩

theorem lineCtx_nextBit (k : Nat) (c : Ctx PinId) : LineCtx i c (nextBit k c) := by
  cases k <;> exact lineCtx_of_sendsWord hw rfl rfl rfl rfl

theorem lineCtx_startShift (n : Nat) (c : Ctx PinId) : LineCtx i c (startShift n c) := by
  cases n <;> exact lineCtx_of_sendsWord hw rfl rfl rfl rfl

theorem lineStep_shiftBit (w : Int) (k : Nat) : (shiftBit w k u : Fetched PinId).LineStep i u := by
  cases u with
  | shiftData => exact lineStep_goto ⟨levelBit w k, rfl⟩
  | shiftLow | shiftHigh => exact lineStep_goto ⟨false, rfl⟩
  | shiftWait | shiftHold => exact lineStep_goto trivial
  | shiftFall => exact lineStep_of_no_writes ⟨false, rfl⟩ (lineCtx_nextBit hw k)
  | _ => trivial

theorem lineStep_shiftLoop : (shiftLoop c u).LineStep i u := by
  unfold shiftLoop
  split
  · split
    · exact lineStep_shiftBit hw _ _
    · trivial
  · trivial

theorem lineStep_transmit {cap : Option Nat} (hn : ∀ c, LineCtx i c (after c)) : (transmit cap c after u).LineStep i u := by
  unfold transmit
  split
  · trivial
  · exact lineStep_clearPulse (lineCtx_startShift hw _)
  · exact (lineStep_clearPulse (lineCtx_refl i)).orElse ((lineStep_shiftLoop hw).orElse (lineStep_latchPulse hn))

theorem lineFrame_rejectSnap (v : Option UPos) (n : Nat) (s : State PinId) : LineFrame i v s (rejectSnap n s) :=
  lineFrame_modCtx rfl fun c _ => by split <;> exact lineCtx_of_sendsWord hw rfl rfl rfl rfl

theorem lineStep_commitBody {cap : Option Nat} : (commitBody cap c u).LineStep i u := by
  unfold commitBody
  split
  · split
    · trivial
    · exact lineStep_of_no_writes hw (lineCtx_checkSnap _)
  · split
    · exact ⟨.inl rfl, lineCtx_goto i _, lineCtx_epilogue i, lineFrame_rejectSnap hw _ _⟩
    · trivial
  · exact lineStep_complete _ _
  · exact (lineStep_transmit hw (lineCtx_goto i _)).orElse lineStep_errorEpilogue

end

variable [DecidableEq PinId]

theorem lineStep_prog (hi : drivesLines i = true) : ((ruleOf i).prog s c u).LineStep i u := by
  cases i with
  | drvClr =>
    show (progDrvClr s c u).LineStep _ u
    unfold progDrvClr
    split
    · exact lineStep_complete _ _
    · exact (lineStep_clearPulse (lineCtx_goto _ _)).orElse lineStep_errorEpilogue
  | drvWr word =>
    show (progDrvWr s c u).LineStep _ u
    unfold progDrvWr
    split
    · exact lineStep_complete _ _
    · exact lineStep_complete _ _
    · exact (lineStep_transmit rfl (lineCtx_goto _ _)).orElse lineStep_errorEpilogue
  | drvZero =>
    show (progDrvZero s c u).LineStep _ u
    unfold progDrvZero
    split
    · exact lineStep_goto rfl
    · exact lineStep_complete _ _
    · exact lineStep_errorEpilogue
  | bufClr =>
    show (progBufClr s c u).LineStep _ u
    unfold progBufClr
    split
    · exact lineStep_goto rfl
    · exact lineStep_goto ⟨rfl, rfl⟩
    · exact lineStep_goto (.inl rfl)
    · exact lineStep_complete _ _
    · exact (lineStep_clearPulse (lineCtx_goto _ _)).orElse lineStep_errorEpilogue
  | bufWr word =>
    show (progBufWr word s c u).LineStep _ u
    unfold progBufWr
    split
    · exact lineStep_goto ⟨rfl, rfl⟩
    · exact lineStep_goto rfl
    · exact lineStep_commitBody rfl
  | bufCommit =>
    show (progBufCommit s c u).LineStep _ u
    unfold progBufCommit
    split
    · exact lineStep_goto rfl
    · exact lineStep_commitBody rfl
  | _ => cases hi

/-! The issue (40_sequencer.md R160). -/

theorem lineCtx_begin (hi : drivesLines i = true) (h : (ruleOf i).begin s c = some d) : LineCtx i c d := by
  cases i with
  | drvWr word =>
    simp only [ruleOf, beginDrvWr] at h
    split at h
    · cases h
    · split at h <;> cases h <;> exact lineCtx_of_sendsWord rfl rfl rfl rfl rfl
  | drvClr | drvZero | bufClr | bufWr | bufCommit =>
    cases h
    exact lineCtx_goto _ _ _
  | _ => cases hi

theorem issueStep_lineFrame (hi : drivesLines i = true) (h : issueStep i (ruleOf i) s = .next t) : LineFrame i none s t := by
  have hp : LineFrame i none s (s.present (encode i)) :=
    lineFrame_of_regs_eq (sameLife_refl s) rfl rfl rfl rfl
      ⟨_, rfl, fun _ _ => ⟨rfl, rfl, rfl, rfl, fun _ => ⟨rfl, rfl⟩⟩⟩
  obtain ⟨-, hlife⟩ := check_of_not_lifecycle (not_lifecycle_of_drivesLines hi)
  obtain ⟨-, rfl⟩ | ⟨-, ⟨f, -, rfl⟩ | ⟨-, e, he, ⟨-, rfl⟩ | ⟨d, hbegin, rfl⟩⟩⟩ := issueStep_next h
  · exact hp.trans (lineFrame_enterFault _ _ _ _)
  · exact hp.trans (lineFrame_enterFault _ _ _ _)
  · exact hp.trans (lineFrame_enterFault _ _ _ _)
  · rw [hlife]
    refine hp.trans (lineFrame_modCtx rfl fun c hc => ?_)
    cases he.symm.trans hc
    exact lineCtx_begin hi hbegin

end

theorem exec_lineFrame {i : Instr} {s t : State} {c : Ctx} (hi : drivesLines i = true) (hc : s.ctx s.active = some c)
    (h : exec i s = .next t) : LineFrame i c.place s t := by
  rw [exec_eq_runRule] at h
  obtain ⟨-, c', hc', h⟩ := runRule_next h
  cases hc.symm.trans hc'
  obtain ⟨hb, h⟩ | ⟨hb, h⟩ := h
  · unfold microStep at h
    rw [Ctx.place, if_pos hb]
    split at h
    · cases h
      exact lineFrame_enterFault _ _ _ _
    · next u hu =>
      rw [hu]
      exact (lineStep_prog hi).frame h
  · have hplace : c.place = none := by simp [Ctx.place, hb]
    rw [hplace]
    exact issueStep_lineFrame hi h

/-- Wherever the port stands with `upc` at `u`, it drives no line but that of `u`. -/
theorem not_drivesAt_place {c : Ctx} {u : UPos} {l : Line} (hu : c.upc = some u) (hne : u ≠ .driveAll) (b : Bool)
    (hl : (driveAt b u).map Prod.fst ≠ some l) : ¬ DrivesAt c.place l := by
  cases hb : c.busy with
  | false =>
    rw [show c.place = none by simp [Ctx.place, hb]]
    exact not_drivesAt_none l
  | true =>
    rw [Ctx.place_eq_some.mpr ⟨hb, hu⟩]
    exact fun h => hl (drivesAt_some hne b h)

/-- Settles O43: at every position of a line-driving command a step changes only what that position may change. -/
theorem lineDrivingCommandsFrame : Obligations.LineDrivingCommandsFrame := by
  unfold Obligations.LineDrivingCommandsFrame
  intro i s t hi h
  obtain ⟨-, c, hc, -⟩ := runRule_next (exec_eq_runRule i s ▸ h)
  have hf := exec_lineFrame hi hc h
  have hline (hn : ∀ l, ¬ DrivesAt c.place l) : t.line = s.line ∧ t.chain = s.chain :=
    ⟨quad_eq_of_get fun l => hf.line l (hn l), hf.chain hn⟩
  refine ⟨hf.life, hf.cc, hf.cap, hf.pins, hf.claimed, fun hbuf => hf.buf ?_, fun c' hc' hnot => ?_, fun c' hc' hnot => ?_,
    fun c' hc' hb => ?_, fun c' u hc' hu hne => ?_, fun c' d hc' hd => ?_⟩
  · obtain rfl | rfl | rfl | ⟨w, rfl⟩ := hbuf <;> rintro ⟨⟨⟩, -⟩
  · cases hc.symm.trans hc'
    exact hf.buf fun ⟨_, hat⟩ => hnot (Ctx.place_eq_some.mp hat)
  · cases hc.symm.trans hc'
    exact hf.lock (fun hat => hnot ((Ctx.place_eq_some.mp hat).imp_right .inl))
      (fun hat => hnot ((Ctx.place_eq_some.mp hat).imp_right fun e => .inr (.inl e)))
      fun hat => hnot ((Ctx.place_eq_some.mp hat).imp_right fun e => .inr (.inr e))
  · cases hc.symm.trans hc'
    rw [show c.place = none by simp [Ctx.place, hb]] at hline
    exact hline not_drivesAt_none
  · cases hc.symm.trans hc'
    split
    · next hnone => exact hline fun l => not_drivesAt_place hu hne (dataBit c) (by simp [hnone])
    · next k x hsome =>
      exact fun l hl => hf.line l (not_drivesAt_place hu hne (dataBit c) (by simp [hsome, hl.symm]))
  · cases hc.symm.trans hc'
    obtain ⟨d', hd', hctx⟩ := hf.ctx.own hc
    cases hd'.symm.trans hd
    refine ⟨hctx.k, hctx.j, hctx.n, hctx.tmp, fun hword => hctx.word ?_⟩
    obtain rfl | rfl | rfl := hword <;> rfl

end Sys2Proof.Machine
end

section
/-! A port that runs undisturbed and works with `BUF` and `LOCK` too: each atomic step appends one event and leaves `BUF` and `LOCK`
as it says (40_sequencer.md R166 to R173). -/

namespace Sys2Proof.Machine

/-- The active port is busy and stands at `u` with the context `c`. -/
structure BusyAt (s : State) (c : Ctx) (u : UPos) : Prop where
  mark : s.mark = none
  ctx : s.ctx s.active = some c
  busy : c.busy = true
  upc : c.upc = some u

/-- The local computation of a micro-step, and the micro-step's own change of the context, are one change of the context. -/
theorem after_internal (s : State) (e : Event) (f g : Ctx → Ctx) :
    ((s.modCtx s.active f).log s.active e).modCtx s.active g = after s [e] fun c => g (f c) :=
  congrArg (fun t : State => t.log s.active e) (State.modCtx_modCtx s s.active f g)

section
variable {i : Instr} {s : State} {c : Ctx} {u : UPos} {next onFail : Ctx → Ctx} (h : BusyAt s c u)
include h

/-- LockAcquire of the free lock (40_sequencer.md R166). -/
theorem exec_acquire (hp : (ruleOf i).prog s c u = .step { op := .lockAcquire, next := next, onFail := onFail })
    (hl : s.lock = none) :
    exec i s = .next (emitted { s with lock := some s.active } [.acq] (next { c with holdsLock := true })) := by
  rw [exec_of_busy h.mark h.ctx h.busy h.upc, hp,
    emitted_internal (s := { s with lock := some s.active }) (f := fun c => next { c with holdsLock := true }) h.ctx rfl rfl,
    ← after_internal]
  obtain ⟨hn, -⟩ | ⟨-, e⟩ := runLockAcquire_cases s
  · exact absurd hl hn
  · simp only [perform, Micro.run, id_eq, e]
    rfl

/-- LockRelease by the holder of the lock, after the local computation `g` (40_sequencer.md R162, R167). -/
theorem exec_release {writes : State → State} {g : Ctx → Ctx} (hw : writes s = s.modCtx s.active g)
    (hp : (ruleOf i).prog s c u = .step { op := .lockRelease, next := next, onFail := onFail, writes := writes })
    (hl : s.lock = some s.active) :
    exec i s = .next (emitted { s with lock := none } [.rls] (next { g c with holdsLock := false })) := by
  rw [exec_of_busy h.mark h.ctx h.busy h.upc, hp,
    emitted_internal (s := { s with lock := none }) (f := fun c => next { g c with holdsLock := false }) h.ctx rfl rfl,
    ← after_internal { s with lock := none } .rls fun c => { g c with holdsLock := false }]
  obtain ⟨hn, -⟩ | ⟨-, e⟩ := runLockRelease_cases (s.modCtx s.active g)
  · exact absurd hl hn
  · simp only [perform, Micro.run, hw, e]
    exact congrArg (fun t : State => Host.Outcome.next ((t.log s.active .rls).modCtx s.active next))
      (State.modCtx_modCtx { s with lock := none } s.active g _)

/-- BufRead of a defined `BUF`, which `f` keeps in the context (40_sequencer.md R168). -/
theorem exec_bufRead {op : Micro} {f : Int → Ctx → Ctx} {v : Int} (hop : op.run s = runBufRead s f)
    (hp : (ruleOf i).prog s c u = .step { op := op, next := next, onFail := onFail }) (hv : s.buf = some v) :
    exec i s = .next (emitted s [.brd v] (next (f v c))) := by
  rw [exec_of_busy h.mark h.ctx h.busy h.upc, hp, emitted_internal (f := fun c => next (f v c)) h.ctx rfl rfl,
    ← after_internal]
  obtain ⟨hn, -⟩ | ⟨x, hx, e⟩ := runBufRead_cases s f
  · cases hv.symm.trans hn
  · cases hv.symm.trans hx
    simp only [perform, hop, id_eq, e]
    rfl

/-- BufRead of an undefined `BUF` (10_state.md R31). -/
theorem exec_bufRead_undefined {op : Micro} {f : Int → Ctx → Ctx} (hop : op.run s = runBufRead s f)
    (hp : (ruleOf i).prog s c u = .step { op := op, next := next, onFail := onFail }) (hn : s.buf = none) :
    exec i s = .next (s.enterFault (.readUndefined s.active)) := by
  rw [exec_of_busy h.mark h.ctx h.busy h.upc, hp]
  obtain ⟨-, e⟩ | ⟨x, hx, -⟩ := runBufRead_cases s f
  · simp only [perform, hop, id_eq, e]
  · cases hn.symm.trans hx

/-- BufWrite (40_sequencer.md R169). -/
theorem exec_bufWrite {v : Option Int}
    (hp : (ruleOf i).prog s c u = .step { op := .bufWrite v, next := next, onFail := onFail }) :
    exec i s = .next (emitted { s with buf := v } [.bwr v] (next c)) := by
  rw [exec_of_busy h.mark h.ctx h.busy h.upc, hp, emitted_internal (s := { s with buf := v }) h.ctx rfl rfl]
  rfl

end

theorem without_lock {c : Ctx} (h : c.holdsLock = false) : { c with holdsLock := false } = c := by rw [← h]

/-- The active port has appended the events `es`, whose calls all succeeded; `BUF` is `b`, `LOCK` is `l`, and the port's context is
`d`. -/
def worked (s : State) (es : List Event) (b : Option Int) (l : Option Nat) (d : Ctx) : State :=
  emitted { s with buf := b, lock := l } es d

/-- From `s`, where no fault is recorded and its context is `c`, without the lock, the active port running `i` has come to
`worked s es b l d`, where it stands at `u`. -/
structure Reached (i : Instr) (s : State) (c : Ctx) (es : List Event) (b : Option Int) (l : Option Nat) (d : Ctx) (u : UPos) :
    Prop where
  mark : s.mark = none
  ctx : s.ctx s.active = some c
  free : c.holdsLock = false
  busy : d.busy = true
  upc : d.upc = some u
  run : execTimes es.length i s = .next (worked s es b l d)

section
variable {i : Instr} {s : State} {c d d' : Ctx} {es es' : List Event} {b b' : Option Int} {l l' : Option Nat} {u v : UPos}
  {next onFail : Ctx → Ctx}

/-- The issue of a command other than INIT and FINI while `LIFE` is READY. -/
theorem reached_issue (hi : isLifecycle i = false) (hw : i.wellFormed = true) (hrest : atRest s = true)
    (hl : s.life = .ready) (hc : s.ctx s.active = some c)
    (hbegin : (ruleOf i).begin (s.present (encode i)) (given i c) = some (goto u (given i c))) :
    Reached i s c [.issue i.opcode] s.buf s.lock (goto u (given i c)) u := by
  obtain ⟨hm, x, hx, hb, hfree⟩ := atRest_iff.mp hrest
  cases hc.symm.trans hx
  have hissue := exec_issue hi hw hm hc hb hl hbegin
  rw [encode_opc] at hissue
  exact ⟨hm, hc, hfree, rfl, rfl, execTimes_succ hissue⟩

section
variable (h : Reached i s c es b l d u)
include h

theorem Reached.busyAt : BusyAt (worked s es b l d) d u :=
  ⟨h.mark, ctx_emitted (s := { s with buf := b, lock := l }) h.ctx es d, h.busy, h.upc⟩

/-- The port goes on by more events. -/
theorem Reached.trans (hb : d'.busy = true) (hu : d'.upc = some v)
    (hrun : execTimes es'.length i (worked s es b l d) =
      .next (emitted { worked s es b l d with buf := b', lock := l' } es' d')) : Reached i s c (es ++ es') b' l' d' v := by
  refine ⟨h.mark, h.ctx, h.free, hb, hu, ?_⟩
  rw [List.length_append, execTimes_add h.run, hrun]
  exact congrArg Host.Outcome.next (emitted_emitted { s with buf := b', lock := l' } es es' d d')

theorem Reached.bufRead {op : Micro} {f : Int → Ctx → Ctx} {x : Int} (hx : b = some x)
    (hop : ∀ t : State, op.run t = runBufRead t f)
    (hp : (ruleOf i).prog (worked s es b l d) d u = .step { op := op, next := next, onFail := onFail })
    (hb : (next (f x d)).busy = true) (hu : (next (f x d)).upc = some v) :
    Reached i s c (es ++ [.brd x]) b l (next (f x d)) v :=
  h.trans hb hu (execTimes_succ (exec_bufRead h.busyAt (hop _) hp hx))

theorem Reached.bufWrite {x : Option Int}
    (hp : (ruleOf i).prog (worked s es b l d) d u = .step { op := .bufWrite x, next := goto v, onFail := onFail }) :
    Reached i s c (es ++ [.bwr x]) x l (goto v d) v :=
  h.trans h.busy rfl (execTimes_succ (exec_bufWrite h.busyAt hp))

/-- After internal events the oracle's next answers are those of the beginning. -/
theorem Reached.live {k : Nat} (hes : driveCount es = 0) (hclaimed : allClaimed s.claimed = true)
    (horacle : oracleOk s k = true) : Live (worked s es b l d) d k := by
  refine ⟨h.mark, h.busyAt.ctx, h.busy, hclaimed, ?_⟩
  have hdraws : (worked s es b l d).draws = s.draws := drawsAfter_of_no_drive s hes
  rw [oracleOk, hdraws]
  exact horacle

theorem Reached.emits {n : Nat} (hcap : s.cap = some n) (he : Emits i n d es' d') (hu : d'.upc = some v)
    (hlive : Live (worked s es b l d) d (driveCount es')) : Reached i s c (es ++ es') b l d' v := by
  obtain ⟨hb, hrun⟩ := he
  exact h.trans hb hu (hrun _ hcap hlive)

/-- The Complete of a command that has left `LOCK` as it was and appended the events `es`, which fold to the lines `ls` and the
chain `ch`. -/
theorem Reached.complete {f : Ctx → Ctx} {st : Status} {r : Option Int} {ls : Quad Level} {ch : Chain} {j k : Nat}
    (hl : l = s.lock) (hfree : d.holdsLock = false) (hp : (ruleOf i).prog (worked s es b l d) d u = completeStep st r)
    (hf : f { c with holdsLock := false } = { d with sts := some st, res := some r, busy := false, holdsLock := false })
    (hj : es.length + 1 = j) (hes : es ++ [.done st] = es') (hfold : foldHist (s.line, s.chain) (tagged s.active es) = (ls, ch))
    (hk : driveCount es = k) :
    execTimes j i s = .next { after s es' f with buf := b, line := ls, chain := ch, draws := drawsAfter s k } := by
  subst hl hj hes
  have hat := h.busyAt
  have hdone := exec_complete hat.mark hat.ctx hat.busy hat.upc hfree hp
  rw [execTimes_add h.run, execTimes_succ hdone]
  refine congrArg Host.Outcome.next ((emitted_emitted { s with buf := b, lock := s.lock } _ _ _ _).trans ?_)
  have hf' : f c = { d with sts := some st, res := some r, busy := false } := by
    rw [← without_lock h.free, hf, ← without_lock hfree]
  refine emitted_eq (s := { s with buf := b, lock := s.lock }) h.ctx hf' ?_ ?_
  · rw [tagged_append, foldHist_append]
    exact hfold
  · rw [driveCount_append]
    exact hk

/-- The Complete of a command that has left `LOCK` as it was and touched no line. -/
theorem Reached.complete_internal {f : Ctx → Ctx} {st : Status} {r : Option Int} {j : Nat}
    (hl : l = s.lock) (hfree : d.holdsLock = false) (hp : (ruleOf i).prog (worked s es b l d) d u = completeStep st r)
    (hf : f { c with holdsLock := false } = { d with sts := some st, res := some r, busy := false, holdsLock := false })
    (hj : es.length + 1 = j) (hes : es ++ [.done st] = es')
    (hfold : foldHist (s.line, s.chain) (tagged s.active es) = (s.line, s.chain)) (hk : driveCount es = 0) :
    execTimes j i s = .next { after s es' f with buf := b } := by
  have hdraws : drawsAfter s 0 = s.draws := drawsAfter_of_no_drive s (es := []) rfl
  rw [h.complete hl hfree hp hf hj hes hfold hk, hdraws]
  rfl

end

theorem Reached.acquire (h : Reached i s c es b none d u)
    (hp : (ruleOf i).prog (worked s es b none d) d u = .step { op := .lockAcquire, next := goto v, onFail := onFail }) :
    Reached i s c (es ++ [.acq]) b (some s.active) (goto v { d with holdsLock := true }) v :=
  h.trans h.busy rfl (execTimes_succ (exec_acquire h.busyAt hp rfl))

theorem Reached.release {writes : State → State} {g : Ctx → Ctx} (h : Reached i s c es b (some s.active) d u)
    (hw : ∀ t, writes t = t.modCtx t.active g)
    (hp : (ruleOf i).prog (worked s es b (some s.active) d) d u =
      .step { op := .lockRelease, next := goto v, onFail := onFail, writes := writes })
    (hg : g d = d') (hb : d'.busy = true) : Reached i s c (es ++ [.rls]) b none (goto v { d' with holdsLock := false }) v := by
  subst hg
  exact h.trans hb rfl (execTimes_succ (exec_release h.busyAt (hw _) hp rfl))

end

end Sys2Proof.Machine
end

section
/-! BUF.CHK, BUF.GET, BUF.GETBUF and BUF.SET while `LIFE` is READY (42_wrapper.md R240 to R248, R253). -/

namespace Sys2Proof.Machine

/-! The operand checks (42_wrapper.md R241). -/

theorem validPos_of_lt {n v : Nat} (h : v < n) : validPos n (.int (v : Int)) = some v := by
  simp [validPos, h]

theorem validPos_eq_none {n : Nat} {a : Arg} (h : ∀ v : Int, a = .int v → v < 0 ∨ (n : Int) ≤ v) : validPos n a = none := by
  cases a with
  | int v =>
    have hv := h v rfl
    exact if_neg (by omega)
  | nonInt | absent => rfl

theorem validVal_of_bit {x : Int} (h : x = 0 ∨ x = 1) : validVal (.int x) = some x := if_pos h

theorem validVal_eq_none {a : Arg} (h : ∀ x : Int, a = .int x → x ≠ 0 ∧ x ≠ 1) : validVal a = none := by
  cases a with
  | int x =>
    obtain ⟨h0, h1⟩ := h x rfl
    exact if_neg (not_or.mpr ⟨h0, h1⟩)
  | nonInt | absent => rfl

/-- An operand that is not `Absent` and no integer position below the capacity, as R242 and R244 name it. -/
theorem invalidPos_iff {n : Nat} {a : Arg} : (a = .nonInt ∨ ∃ v : Int, a = .int v ∧ (v < 0 ∨ (n : Int) ≤ v)) ↔
    a.present = true ∧ ∀ v : Int, a = .int v → v < 0 ∨ (n : Int) ≤ v := by
  cases a <;> simp [Arg.present]

section
variable {s : State} {n : Nat} {pos : Arg} {u : UPos} {c : Ctx} (hcap : s.cap = some n)
include hcap

theorem beginPos_of_valid {v : Nat} (h : validPos n pos = some v) : beginPos pos u s c = some (goto u c) := by
  simp [beginPos, hcap, h]

theorem beginPos_of_invalid (h : validPos n pos = none) : beginPos pos u s c = some (goto .reject c) := by
  simp [beginPos, hcap, h]

theorem beginBufSet_of_valid {value : Arg} {v : Nat} {x : Int} (hpos : validPos n pos = some v) (hval : validVal value = some x) :
    beginBufSet pos value s c = some (goto (byScope s .bufRead .acquire) c) := by
  simp [beginBufSet, hcap, hpos, hval]

theorem beginBufSet_of_invalid {value : Arg} (h : validPos n pos = none ∨ validVal value = none) :
    beginBufSet pos value s c = some (goto .reject c) := by
  obtain h | h := h
  · simp [beginBufSet, hcap, h]
  · cases hpos : validPos n pos <;> simp [beginBufSet, hcap, h, hpos]

end

/-- Settles O25: the check at issue selects the Complete. -/
theorem bufChkChecksPosition : Obligations.BufChkChecksPosition := by
  unfold Obligations.BufChkChecksPosition
  intro s n a hrest hl hcap
  constructor
  · rintro ⟨v, rfl, h0, hlt⟩
    obtain ⟨v, rfl⟩ := Int.eq_ofNat_of_zero_le h0
    have hpos := validPos_of_lt (Int.ofNat_lt.mp hlt)
    exact execTimes_two_ready rfl rfl hrest hl (fun t c ht => beginPos_of_valid (ht.trans hcap) hpos) fun _ _ _ => rfl
  · intro ha
    obtain ⟨hpresent, ha⟩ := invalidPos_iff.mp ha
    exact execTimes_two_ready rfl hpresent hrest hl
      (fun t c ht => beginPos_of_invalid (ht.trans hcap) (validPos_eq_none ha)) fun _ _ _ => rfl

/-! BUF.GET and BUF.GETBUF. -/

theorem bit_eq (v : Int) (i : Nat) : bit v i = v / 2 ^ i % 2 := by simp [bit]

/-- A Complete alone, of a port that holds no lock. -/
theorem exec_complete_after {i : Instr} {s : State} {c : Ctx} {u : UPos} {st : Status} {r : Option Int} (h : BusyAt s c u)
    (hfree : c.holdsLock = false) (hp : (ruleOf i).prog s c u = completeStep st r) :
    exec i s = .next (after s [.done st] fun c => { c with sts := some st, res := some r, busy := false }) := by
  rw [exec_complete h.mark h.ctx h.busy h.upc hfree hp]
  exact congrArg Host.Outcome.next (emitted_internal h.ctx rfl rfl)

theorem getBitStep_eq {s : State} {c : Ctx} {n v : Nat} {b : Int} (hcap : s.cap = some n) (hv : v < n) (htmp : c.tmp = some b) :
    getBitStep (.int (v : Int)) s c = completeStep .ok (some (b / 2 ^ v % 2)) := by
  simp [getBitStep, hcap, htmp, validPos_of_lt hv, bit_eq]

/-- Settles O26: the Complete computes the bit from `tmp`, which the BufRead before it has written. -/
theorem bufGetReadsBit : Obligations.BufGetReadsBit := by
  unfold Obligations.BufGetReadsBit
  intro s n hrest hl hcap
  obtain ⟨-, c, hc, -, hfree⟩ := atRest_iff.mp hrest
  refine ⟨fun v b hv hbuf => ?_, fun a ha => ?_, fun r d v b hm hd hb hfree hu htmp hcap hv => ?_⟩
  · have hissue := reached_issue (i := .bufGet (.int (v : Int))) rfl rfl hrest hl hc
      (beginPos_of_valid hcap (validPos_of_lt hv))
    have hread := hissue.bufRead (v := .done) hbuf (fun _ => rfl) rfl rfl rfl
    exact hread.complete_internal rfl hfree (getBitStep_eq hcap hv rfl) rfl rfl rfl rfl rfl
  · obtain ⟨hpresent, ha⟩ := invalidPos_iff.mp ha
    exact execTimes_two_ready rfl hpresent hrest hl
      (fun t c ht => beginPos_of_invalid (ht.trans hcap) (validPos_eq_none ha)) fun _ _ _ => rfl
  · exact exec_complete_after ⟨hm, hd, hb, hu⟩ hfree (getBitStep_eq hcap hv htmp)

theorem progBufGetbuf_done {s : State} {c : Ctx} {b : Int} (htmp : c.tmp = some b) :
    (ruleOf .bufGetbuf).prog s c .done = completeStep .ok (some b) := by
  simp [ruleOf, progBufGetbuf, htmp]

/-- Settles O27: the Complete answers `tmp`, which the BufRead before it has written. -/
theorem bufGetbufReadsBuffer : Obligations.BufGetbufReadsBuffer := by
  unfold Obligations.BufGetbufReadsBuffer
  refine ⟨fun s b hrest hl hbuf => ?_, fun s c b hm hc hb hfree hu htmp => ?_⟩
  · obtain ⟨-, c, hc, -, hfree⟩ := atRest_iff.mp hrest
    have hissue := reached_issue (i := .bufGetbuf) (u := .bufRead) rfl rfl hrest hl hc rfl
    have hread := hissue.bufRead (v := .done) hbuf (fun _ => rfl) rfl rfl rfl
    exact hread.complete_internal rfl hfree (progBufGetbuf_done rfl) rfl rfl rfl rfl rfl
  · exact exec_complete_after ⟨hm, hc, hb, hu⟩ hfree (progBufGetbuf_done htmp)

/-! BUF.SET. -/

theorem setbit_eq (b : Int) (v : Nat) (x : Int) : setbit b v x = b - b / 2 ^ v % 2 * 2 ^ v + x * 2 ^ v := by
  simp [setbit, bit]

/-- BUF.SET's BufWrite, of the value that the BufRead before it has left in `tmp`. -/
theorem setBitStep_eq {s : State} {c : Ctx} {n v : Nat} {x b : Int} (hcap : s.cap = some n) (hv : v < n) (hx : x = 0 ∨ x = 1)
    (htmp : c.tmp = some b) : setBitStep (.int (v : Int)) (.int x) s c =
      .step { op := .bufWrite (some (setbit b v x)), next := goto (byScope s .done .unlock) } := by
  simp [setBitStep, hcap, htmp, validPos_of_lt hv, validVal_of_bit hx]

theorem byScope_commitOnly {s : State} (h : s.cfg.arbScope = .commitOnly) (u v : UPos) : byScope s u v = u := by
  simp [byScope, h]

theorem byScope_wide {s : State} (h : s.cfg.arbScope = .wide) (u v : UPos) : byScope s u v = v := by simp [byScope, h]

section
variable {s : State} {c d : Ctx} {n v : Nat} {x b : Int} {es : List Event} {l : Option Nat} (hcap : s.cap = some n) (hv : v < n)
  (hx : x = 0 ∨ x = 1)
include hcap hv hx

/-- BUF.SET's BufRead and BufWrite (42_wrapper.md R246). -/
theorem Reached.setBit (h : Reached (.bufSet (.int (v : Int)) (.int x)) s c es (some b) l d .bufRead) :
    Reached (.bufSet (.int (v : Int)) (.int x)) s c (es ++ [.brd b] ++ [.bwr (some (setbit b v x))]) (some (setbit b v x)) l
      (goto (byScope s .done .unlock) { d with tmp := some b }) (byScope s .done .unlock) :=
  (h.bufRead (f := fun v c => { c with tmp := some v }) rfl (fun _ => rfl) rfl h.busy rfl).bufWrite
    (setBitStep_eq hcap hv hx rfl)

end

/-- Settles O28: the issue, the lock in WIDE, the read and the write, and the Complete. -/
theorem bufSetWritesBit : Obligations.BufSetWritesBit := by
  unfold Obligations.BufSetWritesBit
  intro s n v x b hrest hl hcap hv hx hbuf b' i
  obtain ⟨-, c, hc, -, hfree⟩ := atRest_iff.mp hrest
  have hb' : b' = setbit b v x := (setbit_eq b v x).symm
  have hissue : Reached i s c [.issue i.opcode] s.buf s.lock _ (byScope s .bufRead .acquire) :=
    reached_issue rfl rfl hrest hl hc (beginBufSet_of_valid hcap (validPos_of_lt hv) (validVal_of_bit hx))
  rw [hbuf] at hissue
  rw [hb']
  constructor
  · intro hs
    rw [byScope_commitOnly hs] at hissue
    have hset := hissue.setBit hcap hv hx
    rw [byScope_commitOnly hs] at hset
    exact hset.complete_internal rfl hfree rfl rfl rfl rfl rfl rfl
  · intro hs hlock
    rw [byScope_wide hs, hlock] at hissue
    have hset := (hissue.acquire (v := .bufRead) rfl).setBit hcap hv hx
    rw [byScope_wide hs] at hset
    have hrelease := hset.release (v := .done) (fun t => (State.modCtx_id t t.active).symm) rfl rfl rfl
    exact hrelease.complete_internal hlock.symm rfl rfl rfl rfl rfl rfl rfl

/-- Settles O29: the validation at issue selects the rejection. -/
theorem bufSetRejectsInvalidOperands : Obligations.BufSetRejectsInvalidOperands := by
  unfold Obligations.BufSetRejectsInvalidOperands
  intro s n a b hrest hl hcap ha hb hinvalid
  have hw : (Instr.bufSet a b : Instr).wellFormed = true :=
    Bool.and_eq_true_iff.mpr ⟨Arg.present_eq_true.mpr ha, Arg.present_eq_true.mpr hb⟩
  have hinvalid := hinvalid.imp validPos_eq_none validVal_eq_none
  exact execTimes_two_ready rfl hw hrest hl (fun t c ht => beginBufSet_of_invalid (ht.trans hcap) hinvalid) fun _ _ _ => rfl

end Sys2Proof.Machine
end

section
/-! BUF.COMMIT, BUF.WR and BUF.CLR while `LIFE` is READY, no call failing (42_wrapper.md R249 to R258). -/

namespace Sys2Proof.Machine

/-! The commit body (42_wrapper.md R249). -/

/-- A command whose micro-program has the commit body at its positions. -/
def HasCommitBody (i : Instr) : Prop :=
  ∀ (s : State) (c : Ctx) (u : UPos), u ≠ .acquire → u ≠ .bufWrite → (ruleOf i).prog s c u = commitBody s.cap c u

theorem hasCommitBody_bufCommit : HasCommitBody .bufCommit := by
  intro s c u ha _
  cases u with
  | acquire => exact absurd rfl ha
  | _ => rfl

theorem hasCommitBody_bufWr (word : Arg) : HasCommitBody (.bufWr word) := by
  intro s c u ha hw
  cases u with
  | acquire => exact absurd rfl ha
  | bufWrite => exact absurd rfl hw
  | _ => rfl

theorem HasCommitBody.transmit {i : Instr} (hi : HasCommitBody i) {s : State} {c : Ctx} {u : UPos} {m : MicroStep}
    (h : transmit s.cap c (goto .unlock) u = .step m) : (ruleOf i).prog s c u = .step m := by
  rw [hi s c u (by rintro rfl; cases h) (by rintro rfl; cases h)]
  exact commitBody_of_transmit h

theorem HasCommitBody.bufRead {i : Instr} (hi : HasCommitBody i) {s : State} {c : Ctx} {n : Nat} (hcap : s.cap = some n) :
    (ruleOf i).prog s c .bufRead = .step { op := .bufReadSnap, next := checkSnap n } := by
  rw [hi s c .bufRead (by decide) (by decide), hcap]
  rfl

theorem HasCommitBody.unlock {i : Instr} (hi : HasCommitBody i) {s : State} {c : Ctx} {n : Nat} {w : Int}
    (hcap : s.cap = some n) (hw : c.snap = some w) :
    (ruleOf i).prog s c .unlock = .step { op := .lockRelease, next := goto .done, writes := rejectSnap n } := by
  rw [hi s c .unlock (by decide) (by decide), hcap]
  simp [commitBody, hw]

theorem HasCommitBody.done {i : Instr} (hi : HasCommitBody i) {s : State} {c : Ctx} {st : Status} (hst : finalStatus c.err = st) :
    (ruleOf i).prog s c .done = completeStep st none := by
  rw [hi s c .done (by decide) (by decide), ← hst]
  rfl

/-- The context after the commit's BufRead of `b` (40_sequencer.md R168). -/
def withSnap (b : Int) (c : Ctx) : Ctx := { c with snap := some b }

theorem snapOk_withSnap (n : Nat) (b : Int) (c : Ctx) : snapOk n (withSnap b c) = inRange n b := rfl

section
variable {i : Instr} {s : State} {c d : Ctx} {n : Nat} {b : Int} {buf : Option Int}
  {es : List Event} {f : Ctx → Ctx} (h : Reached i s c es buf (some s.active) d .bufRead) (hbuf : buf = some b)
  (hi : HasCommitBody i) (hcap : s.cap = some n)
include h hbuf hi hcap

/-- The BufRead of a commit. -/
theorem Reached.commitRead {u : UPos} (hcheck : checkSnap n (withSnap b d) = goto u (withSnap b d)) :
    Reached i s c (es ++ [.brd b]) buf (some s.active) (goto u (withSnap b d)) u :=
  hcheck ▸ h.bufRead (f := withSnap) hbuf (fun _ => rfl) (hi.bufRead hcap) (by rw [hcheck]; exact h.busy) (by rw [hcheck]; rfl)

variable (hlock : s.lock = none)
  (hfold : foldHist (s.line, s.chain) (tagged s.active es) = (s.line, s.chain)) (hes : driveCount es = 0)
include hlock hfold hes

/-- The commit of a word in range: its transmit, the LockRelease and the Complete. -/
theorem Reached.commit (herr : d.err = none) (hbuilt : built s n = true) (horacle : oracleOk s (4 * n + 5) = true)
    (hrange : inRange n b = true)
    (hf : f { c with holdsLock := false } = { withSnap b d with
      i := some 0, upc := some .done, sts := some .ok, res := some none, busy := false, holdsLock := false }) :
    execTimes (es.length + (6 * n + 11)) i s = .next
      { after s (es ++ ([.brd b] ++ transmitEvents n b ++ [.rls, .done .ok])) f with
        buf := buf
        line := ⟨Level.ofBit (levelBit b 0), .low, .low, .high⟩
        chain := ⟨wordStage n b, wordStage n b⟩
        draws := drawsAfter s (4 * n + 5) } := by
  obtain ⟨-, -, hclaimed, hfl, hn, hs, -⟩ := built_iff.mp hbuilt
  have hsnap : snapOk n (withSnap b d) = true := hrange
  have hread := h.commitRead hbuf hi hcap (if_pos hsnap)
  have hquiet : driveCount (es ++ [.brd b]) = 0 := by
    rw [driveCount_append]
    exact hes
  have hemits := emits_transmit (i := i) (b := withSnap b d) (fun _ _ _ _ => hi.transmit) h.busy rfl hn
  have hsent := hread.emits hcap hemits rfl (hread.live hquiet hclaimed (by rw [driveCount_transmit]; exact horacle))
  have hdone := hsent.release (fun _ => rfl) (hi.unlock hcap rfl) (if_pos hsnap) hsent.busy
  refine hdone.complete (st := .ok) hlock.symm rfl (hi.done (congrArg finalStatus herr)) hf ?_ ?_ ?_ ?_
  · simp only [List.length_append, transmitEvents_length, List.length_singleton]
    omega
  · simp
  · rw [tagged_append, tagged_append, tagged_append, foldHist_append, foldHist_append, foldHist_append, hfold]
    exact foldHist_transmit hfl hn hs b
  · rw [driveCount_append, driveCount_append, hquiet, driveCount_transmit, Nat.zero_add]
    rfl

/-- The commit of a word out of range: the LockRelease and the rejection. -/
theorem Reached.commit_reject (hrange : inRange n b = false)
    (hf : f { c with holdsLock := false } = { withSnap b d with
      err := some .invalidArgument, upc := some .done, sts := some .invalidArgument, res := some none, busy := false,
      holdsLock := false }) :
    execTimes (es.length + 3) i s = .next
      { after s (es ++ [.brd b, .rls, .done .invalidArgument]) f with buf := buf } := by
  have hsnap : ¬ snapOk n (withSnap b d) = true := by
    rw [snapOk_withSnap, hrange]
    decide
  have hread := h.commitRead hbuf hi hcap (if_neg hsnap)
  have hdone := hread.release (fun _ => rfl) (hi.unlock hcap rfl) (if_neg hsnap) h.busy
  refine hdone.complete_internal (st := .invalidArgument) hlock.symm rfl (hi.done rfl) hf ?_ ?_ ?_ ?_
  · simp
  · simp
  · rw [tagged_append, tagged_append, foldHist_append, foldHist_append, hfold]
    rfl
  · rw [driveCount_append, driveCount_append, hes]
    rfl

end

/-! BUF.COMMIT. -/

/-- BUF.COMMIT up to its BufRead. -/
theorem reached_bufCommit_locked {s : State} {c : Ctx} (hrest : atRest s = true) (hl : s.life = .ready)
    (hc : s.ctx s.active = some c) (hlock : s.lock = none) :
    Reached .bufCommit s c [.issue 0x16#8, .acq] s.buf (some s.active)
      (goto .bufRead { given .bufCommit c with holdsLock := true }) .bufRead := by
  have hissue := reached_issue (i := .bufCommit) (u := .acquire) rfl rfl hrest hl hc rfl
  rw [hlock] at hissue
  exact hissue.acquire rfl

/-- Settles O30: BUF.COMMIT is a LockAcquire and a commit. -/
theorem bufCommitTransmitsBuffer : Obligations.BufCommitTransmitsBuffer := by
  unfold Obligations.BufCommitTransmitsBuffer
  intro s n b hrest hbuilt hlock hbuf h0 hlt horacle
  obtain ⟨hl, hcap, -⟩ := built_iff.mp hbuilt
  obtain ⟨-, c, hc, -⟩ := atRest_iff.mp hrest
  have hrange : inRange n b = true := inRange_iff.mpr ⟨h0, by exact_mod_cast hlt⟩
  have hlocked := reached_bufCommit_locked hrest hl hc hlock
  have hrun := hlocked.commit hbuf hasCommitBody_bufCommit hcap hlock rfl rfl rfl hbuilt horacle hrange
    (f := fun c => { finished .bufCommit .done .ok none c with snap := some b, i := some 0 }) rfl
  rw [show [Event.issue 0x16#8, .acq].length + (6 * n + 11) = 6 * n + 13 from Nat.add_comm _ _] at hrun
  exact hrun

theorem not_inRange {n : Nat} {w : Int} (h : w < 0 ∨ 2 ^ n ≤ w) : inRange n w = false := by
  rw [← Bool.not_eq_true, inRange_iff]
  push_cast
  omega

/-- Settles O31: BUF.COMMIT is a LockAcquire and a commit, which rejects the word. -/
theorem bufCommitRejectsBadBuffer : Obligations.BufCommitRejectsBadBuffer := by
  unfold Obligations.BufCommitRejectsBadBuffer
  intro s n b hrest hl hcap hlock hbuf hb
  obtain ⟨-, c, hc, -⟩ := atRest_iff.mp hrest
  have hlocked := reached_bufCommit_locked hrest hl hc hlock
  have hrun := hlocked.commit_reject hbuf hasCommitBody_bufCommit hcap hlock rfl rfl (not_inRange hb)
    (f := fun c => { finished .bufCommit .done .invalidArgument none c with snap := some b, err := some .invalidArgument }) rfl
  exact hrun

/-! BUF.WR. -/

/-- BUF.WR's BufWrite and LockAcquire, in the order of the `ARB_SCOPE` (42_wrapper.md R251). -/
def storeEvents (g : ArbScope) (w : Option Int) : List Event :=
  match g with
  | .commitOnly => [.bwr w, .acq]
  | .wide => [.acq, .bwr w]

/-- BUF.WR up to its BufRead: in either `ARB_SCOPE` it has stored its operand and holds the lock. -/
theorem reached_bufWr_stored {s : State} {c : Ctx} {a : Arg} (ha : a.present = true) (hrest : atRest s = true)
    (hl : s.life = .ready) (hc : s.ctx s.active = some c) (hlock : s.lock = none) :
    Reached (.bufWr a) s c ([.issue 0x12#8] ++ storeEvents s.cfg.arbScope (bufWord a)) (bufWord a) (some s.active)
      (goto .bufRead { given (.bufWr a) c with holdsLock := true }) .bufRead := by
  have hissue : Reached (.bufWr a) s c [.issue 0x12#8] s.buf s.lock _ (byScope s .bufWrite .acquire) :=
    reached_issue rfl ha hrest hl hc rfl
  rw [hlock] at hissue
  cases hs : s.cfg.arbScope with
  | commitOnly =>
    rw [byScope_commitOnly hs] at hissue
    have hwrite := hissue.bufWrite (v := byScope s .acquire .bufRead) rfl
    rw [byScope_commitOnly hs] at hwrite
    have hlocked := hwrite.acquire (v := byScope s .bufRead .bufWrite) rfl
    rw [byScope_commitOnly hs] at hlocked
    exact hlocked
  | wide =>
    rw [byScope_wide hs] at hissue
    have hlocked := hissue.acquire (v := byScope s .bufRead .bufWrite) rfl
    rw [byScope_wide hs] at hlocked
    have hwrite := hlocked.bufWrite (v := byScope s .acquire .bufRead) rfl
    rw [byScope_wide hs] at hwrite
    exact hwrite

theorem driveCount_issue_store (o : Opcode) (g : ArbScope) (w : Option Int) :
    driveCount ([.issue o] ++ storeEvents g w) = 0 := by cases g <;> rfl

theorem foldHist_issue_store (x : Quad Level × Chain) (p : Nat) (o : Opcode) (g : ArbScope) (w : Option Int) :
    foldHist x (tagged p ([.issue o] ++ storeEvents g w)) = x := by cases g <;> rfl

theorem issue_store_length (o : Opcode) (g : ArbScope) (w : Option Int) :
    ([Event.issue o] ++ storeEvents g w).length = 3 := by cases g <;> rfl

/-- Settles O32: BUF.WR stores its word and takes the lock, in the order of the `ARB_SCOPE`, and commits it. -/
theorem bufWrStoresAndCommits : Obligations.BufWrStoresAndCommits := by
  unfold Obligations.BufWrStoresAndCommits
  intro s n w hrest hbuilt hlock h0 hlt horacle
  obtain ⟨hl, hcap, -⟩ := built_iff.mp hbuilt
  obtain ⟨-, c, hc, -⟩ := atRest_iff.mp hrest
  have hrange : inRange n w = true := inRange_iff.mpr ⟨h0, by exact_mod_cast hlt⟩
  have hstored := reached_bufWr_stored (a := .int w) rfl hrest hl hc hlock
  have hrun := hstored.commit rfl (hasCommitBody_bufWr _) hcap hlock (foldHist_issue_store _ _ _ _ _)
    (driveCount_issue_store _ _ _) rfl hbuilt horacle hrange
    (f := fun c => { finished (.bufWr (.int w)) .done .ok none c with snap := some w, i := some 0 }) rfl
  rw [issue_store_length, show 3 + (6 * n + 11) = 6 * n + 14 by omega, ← List.append_assoc, ← List.append_assoc] at hrun
  exact hrun

/-- Settles O33: an integer out of range is stored and rejected by the commit; after a non-integer `BUF` is undefined at the
BufRead. -/
theorem bufWrInvalidWord : Obligations.BufWrInvalidWord := by
  unfold Obligations.BufWrInvalidWord
  intro s n hrest hl hcap hlock
  obtain ⟨-, c, hc, -⟩ := atRest_iff.mp hrest
  constructor
  · intro w hw
    have hstored := reached_bufWr_stored (a := .int w) rfl hrest hl hc hlock
    have hrun := hstored.commit_reject rfl (hasCommitBody_bufWr _) hcap hlock (foldHist_issue_store _ _ _ _ _)
      (driveCount_issue_store _ _ _) (not_inRange hw)
      (f := fun c => { finished (.bufWr (.int w)) .done .invalidArgument none c with
        snap := some w, err := some .invalidArgument }) rfl
    rw [issue_store_length] at hrun
    exact hrun
  · have hstored := reached_bufWr_stored (a := .nonInt) rfl hrest hl hc hlock
    have hread := exec_bufRead_undefined hstored.busyAt (i := .bufWr .nonInt) (f := withSnap) rfl
      ((hasCommitBody_bufWr _).bufRead hcap) rfl
    have hrun := execTimes_add (k := 1) hstored.run
    rw [issue_store_length, execTimes_succ hread] at hrun
    have hfold := foldHist_issue_store (s.line, s.chain) s.active 0x12#8 s.cfg.arbScope none
    exact ⟨_, hrun, rfl, rfl, rfl, congrArg Prod.fst hfold, congrArg Prod.snd hfold, rfl⟩

/-! BUF.CLR. -/

/-- A drive whose call succeeds (40_sequencer.md R164), at one state: `Emits` asks for one micro-step in every configuration. -/
theorem exec_drive {i : Instr} {s : State} {c : Ctx} {u : UPos} {l : Line} {v : Bool} {next onFail : Ctx → Ctx} (h : Live s c 1)
    (hu : c.upc = some u) (hp : (ruleOf i).prog s c u = .step { op := .drive l v, next := next, onFail := onFail }) :
    exec i s = .next (emitted s [.drv l v] (next c)) := by
  rw [exec_of_busy h.mark h.ctx h.busy hu, hp]
  obtain ⟨hok, hdrawn⟩ := drawn_of_oracleOk h.oracle
  obtain ⟨hc, -⟩ | ⟨-, -, e⟩ | ⟨-, ho, -⟩ := runDrive_cases s l v
  · cases (allClaimed_get h.claimed l).symm.trans hc
  · simp only [perform, Micro.run, id_eq, e, hdrawn]
    rw [emitted_of_ctx h.ctx]
    rfl
  · cases hok.symm.trans ho

/-- BUF.CLR's clear pulse: where it goes on depends on the `ARB_SCOPE` (42_wrapper.md R255). -/
theorem execTimes_bufClr_clear {s : State} {c : Ctx} {n : Nat} (hcap : s.cap = some n) (h : Live s (goto .clearLow c) 2) :
    execTimes clearEvents.length .bufClr s = .next (emitted s clearEvents (goto (byScope s .done .unlock) c)) := by
  have hb : c.busy = true := h.busy
  have hlow : Emits .bufClr n (goto .clearLow c) [.drv .clrN false] (goto .clearWait c) :=
    emits_drive (next := goto .clearWait) rfl hb fun _ _ => rfl
  have hwait : Emits .bufClr n (goto .clearWait c) [.dly] (goto .clearHigh c) :=
    emits_delay (next := goto .clearHigh) rfl hb fun _ _ => rfl
  obtain ⟨-, hpulse⟩ : Emits .bufClr n (goto .clearLow c) [.drv .clrN false, .dly] (goto .clearHigh c) := hlow.trans hwait
  have hhigh := exec_drive (i := .bufClr) (next := goto (byScope s .done .unlock))
    (h.after_events (es := [.drv .clrN false, .dly]) (d := goto .clearHigh c) (k := 1) hb) rfl rfl
  rw [show clearEvents.length = [Event.drv .clrN false, Event.dly].length + 1 from rfl,
    execTimes_add (hpulse s hcap (h.mono (Nat.le_succ 1))), execTimes_succ hhigh]
  exact congrArg Host.Outcome.next (emitted_emitted s _ [.drv .clrN true] _ _)

theorem Reached.bufClrPulse {s : State} {c d : Ctx} {n : Nat} {es : List Event} {b : Option Int} {l : Option Nat}
    (h : Reached .bufClr s c es b l (goto .clearLow d) .clearLow) (hbuilt : built s n = true) (hes : driveCount es = 0)
    (horacle : oracleOk s 2 = true) :
    Reached .bufClr s c (es ++ clearEvents) b l (goto (byScope s .done .unlock) d) (byScope s .done .unlock) := by
  obtain ⟨-, hcap, hclaimed, -⟩ := built_iff.mp hbuilt
  exact h.trans h.busy rfl (execTimes_bufClr_clear hcap (h.live hes hclaimed horacle))

/-- Settles O34: the issue, the lock in WIDE, the write, the clear pulse and the Complete. -/
theorem bufClrClearsBufferAndShiftStage : Obligations.BufClrClearsBufferAndShiftStage := by
  unfold Obligations.BufClrClearsBufferAndShiftStage
  intro s n hrest hbuilt horacle
  obtain ⟨hl, -, -, hfl, -, hlen, -⟩ := built_iff.mp hbuilt
  obtain ⟨-, c, hc, -, hfree⟩ := atRest_iff.mp hrest
  have hissue : Reached .bufClr s c [.issue 0x11#8] s.buf s.lock _ (byScope s .bufWrite .acquire) :=
    reached_issue rfl rfl hrest hl hc rfl
  have hfold := foldHist_clear (ch := s.chain) (p := s.active) hfl
  rw [fillStage_eq_replicate, hlen] at hfold
  constructor
  · intro hs
    rw [byScope_commitOnly hs] at hissue
    have hclear := (hissue.bufWrite (v := .clearLow) rfl).bufClrPulse hbuilt rfl horacle
    rw [byScope_commitOnly hs] at hclear
    exact hclear.complete rfl hfree rfl rfl rfl rfl hfold rfl
  · intro hs hlock
    rw [byScope_wide hs, hlock] at hissue
    have hwrite := (hissue.acquire (v := .bufWrite) rfl).bufWrite (v := .clearLow) rfl
    have hclear := hwrite.bufClrPulse hbuilt rfl horacle
    rw [byScope_wide hs] at hclear
    have hrelease := hclear.release (v := .done) (fun t => (State.modCtx_id t t.active).symm) rfl rfl hclear.busy
    exact hrelease.complete hlock.symm rfl rfl rfl rfl rfl hfold rfl

end Sys2Proof.Machine
end

section
/-! Staging a bit and committing it (42_wrapper.md R259). -/

namespace Sys2Proof.Machine

/-! The wire trace (20_memory.md R80, R81). -/

section
variable {p : Nat} {es es' es'' : List Event}

theorem wireTrace_internal (h : ∀ e ∈ es, e.isWire = false) : wireTrace (tagged p es) = [] := by
  simpa [wireTrace, tagged] using h

/-- Internal events appended to a history leave no trace on the wires. -/
theorem wireTrace_appended {h : List Entry} (hes : ∀ e ∈ es, e.isWire = false) (hes'' : ∀ e ∈ es'', e.isWire = false) :
    wireTrace ((h ++ tagged p (es ++ es' ++ es'')).drop h.length) = wireTrace (tagged p es') := by
  have happend (a b : List Event) : wireTrace (tagged p (a ++ b)) = wireTrace (tagged p a) ++ wireTrace (tagged p b) := by
    rw [tagged_append]
    exact List.filter_append ..
  rw [List.drop_left, happend, happend, wireTrace_internal hes, wireTrace_internal hes'', List.nil_append, List.append_nil]

end

/-! BUF.SET in either `ARB_SCOPE`. -/

/-- The steps of an undisturbed BUF.SET (42_wrapper.md R246). -/
def setSteps (g : ArbScope) : Nat :=
  match g with
  | .commitOnly => 4
  | .wide => 6

/-- The internal events of an undisturbed BUF.SET that reads `b` and writes `w` (42_wrapper.md R246). -/
def setEvents (g : ArbScope) (b w : Int) : List Event :=
  match g with
  | .commitOnly => [.issue 0x15#8, .brd b, .bwr (some w), .done .ok]
  | .wide => [.issue 0x15#8, .acq, .brd b, .bwr (some w), .rls, .done .ok]

theorem setEvents_internal (g : ArbScope) (b w : Int) : ∀ e ∈ setEvents g b w, e.isWire = false := by
  cases g <;> simp [setEvents, Event.isWire]

/-- The state after an undisturbed BUF.SET of bit `v`, from `BUF = b`. -/
def staged (s : State) (v : Nat) (x b : Int) : State :=
  { after s (setEvents s.cfg.arbScope b (setbit b v x))
      (fun c => { finished (.bufSet (.int (v : Int)) (.int x)) .done .ok none c with tmp := some b }) with
    buf := some (setbit b v x) }

section
variable {s : State} {n v : Nat} {x b : Int}

theorem execTimes_bufSet (hrest : atRest s = true) (hl : s.life = .ready) (hcap : s.cap = some n) (hlock : s.lock = none)
    (hv : v < n) (hx : x = 0 ∨ x = 1) (hbuf : s.buf = some b) :
    execTimes (setSteps s.cfg.arbScope) (.bufSet (.int (v : Int)) (.int x)) s = .next (staged s v x b) := by
  obtain ⟨hcommitOnly, hwide⟩ := bufSetWritesBit s n v x b hrest hl hcap hv hx hbuf
  rw [← setbit_eq] at hcommitOnly hwide
  rw [staged]
  cases hs : s.cfg.arbScope with
  | commitOnly => exact hcommitOnly hs
  | wide => exact hwide hs hlock

theorem atRest_staged (hrest : atRest s = true) : atRest (staged s v x b) = true := by
  obtain ⟨hm, c, hc, -, hfree⟩ := atRest_iff.mp hrest
  exact atRest_iff.mpr ⟨hm, _, (ctx_after s (setEvents s.cfg.arbScope b (setbit b v x)) _).trans (congrArg _ hc), rfl, hfree⟩

end

/-- Settles O35: BUF.SET leaves all but `BUF` as it was, and so the commit transmits the staged word as DRV.WR does. -/
theorem stageThenCommitEqualsWrite : Obligations.StageThenCommitEqualsWrite := by
  unfold Obligations.StageThenCommitEqualsWrite
  refine ⟨fun s n v x b hrest hbuilt hlock hv hx hbuf h0 hlt horacle => ?_, fun v => by simp [setbit, bit]⟩
  obtain ⟨hl, hcap, -⟩ := built_iff.mp hbuilt
  have hrange : inRange n (setbit b v x) = true := inRange_setbit hx hv (inRange_iff.mpr ⟨h0, by exact_mod_cast hlt⟩)
  obtain ⟨h0', hlt'⟩ := inRange_iff.mp hrange
  have hlt'' : setbit b v x < 2 ^ n := by exact_mod_cast hlt'
  have hset := execTimes_bufSet hrest hl hcap hlock hv hx hbuf
  have hcommit := bufCommitTransmitsBuffer (staged s v x b) n _ (atRest_staged hrest) hbuilt hlock rfl h0' hlt'' horacle
  have hwrite := drvWrReachesOutputs s n _ hrest hbuilt h0' hlt'' horacle
  refine ⟨_, _, _, hset, hcommit, hwrite, rfl, rfl, rfl, ?_⟩
  have hcommitted : wireTrace (((staged s v x b).hist ++ tagged s.active ([.issue 0x16#8, .acq, .brd (setbit b v x)] ++
      transmitEvents n (setbit b v x) ++ [.rls, .done .ok])).drop s.hist.length) =
        wireTrace (tagged s.active (transmitEvents n (setbit b v x))) := by
    rw [show (staged s v x b).hist = s.hist ++ tagged s.active (setEvents s.cfg.arbScope b (setbit b v x)) from rfl,
      List.append_assoc, ← tagged_append, ← List.append_assoc, ← List.append_assoc]
    exact wireTrace_appended (List.forall_mem_append.mpr ⟨setEvents_internal _ _ _, by simp [Event.isWire]⟩)
      (by simp [Event.isWire])
  have hwritten := wireTrace_appended (h := s.hist) (p := s.active) (es := [.issue 0x02#8])
    (es' := transmitEvents n (setbit b v x)) (es'' := [.done .ok]) (by simp [Event.isWire]) (by simp [Event.isWire])
  exact hcommitted.trans hwritten.symm

end Sys2Proof.Machine
end

section
/-! Two BUF.SETs that overlap under COMMIT_ONLY (42_wrapper.md R248). -/

namespace Sys2Proof.Machine

/-- The ports `p` and `q` have the contexts `c` and `d`, and the scheduler's next choices are `ps`; the block is READY under
COMMIT_ONLY with the capacity `n`, and `BUF` is `b`. -/
structure SetRace (s : State) (n p q : Nat) (b : Int) (c d : Ctx) (ps : List Nat) : Prop where
  mark : s.mark = none
  scope : s.cfg.arbScope = .commitOnly
  life : s.life = .ready
  cap : s.cap = some n
  buf : s.buf = some b
  sched : s.sched = ps
  first : s.ports[p]? = some c
  second : s.ports[q]? = some d

/-- The context of a port that has been issued a BUF.SET of the value `x` at the position `v` and stands at `u`, its `tmp` being
`m`. -/
def setCtx (v : Nat) (x : Int) (u : UPos) (m : Option Int) (c : Ctx) : Ctx :=
  goto u { given (.bufSet (.int (v : Int)) (.int x)) c with tmp := m }

section
variable {s r : State} {n p q v : Nat} {b x y : Int} {m : Option Int} {c d : Ctx} {u : UPos} {ps : List Nat}

theorem SetRace.swap (h : SetRace s n p q b c d ps) : SetRace s n q p b d c ps :=
  ⟨h.mark, h.scope, h.life, h.cap, h.buf, h.sched, h.second, h.first⟩

/-- The scheduler gives its turn to `p`. -/
theorem SetRace.chosen (h : SetRace s n p q b c d (p :: ps)) : SetRace { s with sched := ps, active := p } n p q b c d ps :=
  ⟨h.mark, h.scope, h.life, h.cap, h.buf, rfl, h.first, h.second⟩

/-- An atomic step of `p` leaves the context of `q`. -/
theorem SetRace.emitted (h : SetRace r n p q b c d ps) (hpq : p ≠ q) (ha : r.active = p) (e : Event) (c' : Ctx) :
    SetRace (emitted r [e] c') n p q b c' d ps := by
  subst ha
  exact ⟨h.mark, h.scope, h.life, h.cap, h.buf, h.sched, ctx_emitted h.first [e] c',
    (getElem?_modify_other hpq.symm).trans h.second⟩

section
variable (h : SetRace s n p q b (setCtx v x u m c) d (p :: ps))
include h

theorem SetRace.busyAt : BusyAt { s with sched := ps, active := p } (setCtx v x u m c) u := ⟨h.mark, h.first, rfl, rfl⟩

/-- The turn of `p` goes on with its BUF.SET. -/
theorem SetRace.resume :
    step s = exec (.bufSet (.int (v : Int)) (.int x)) { s with sched := ps, active := p } :=
  stepResumesBusyPort s p ps _ _ h.mark h.sched h.first rfl rfl rfl rfl rfl rfl

end

variable (hpq : p ≠ q)
include hpq

/-- The BufRead of `p`. -/
theorem SetRace.read (h : SetRace s n p q b (setCtx v x .bufRead m c) d (p :: ps)) :
    ∃ t, step s = .next t ∧ SetRace t n p q b (setCtx v x .bufWrite (some b) c) d ps := by
  have hexec := exec_bufRead h.busyAt (i := .bufSet (.int (v : Int)) (.int x)) (op := .bufReadTmp)
    (f := fun v c => { c with tmp := some v }) rfl rfl h.chosen.buf
  exact ⟨_, h.resume.trans hexec, h.chosen.emitted hpq rfl _ _⟩

variable (hv : v < n) (hx : x = 0 ∨ x = 1)
include hv hx

/-- The BufWrite of `p`, of the value that its BufRead has left in `tmp`. -/
theorem SetRace.write (h : SetRace s n p q b (setCtx v x .bufWrite (some y) c) d (p :: ps)) :
    ∃ t, step s = .next t ∧ SetRace t n p q (setbit y v x) (setCtx v x .done (some y) c) d ps := by
  have hp := setBitStep_eq (s := { s with sched := ps, active := p }) (c := setCtx v x .bufWrite (some y) c) h.cap hv hx rfl
  rw [byScope_commitOnly h.chosen.scope] at hp
  have hexec := exec_bufWrite h.busyAt (i := .bufSet (.int (v : Int)) (.int x)) hp
  have hturn : SetRace { s with sched := ps, active := p, buf := some (setbit y v x) } n p q (setbit y v x)
      (setCtx v x .bufWrite (some y) c) d ps :=
    ⟨h.mark, h.scope, h.life, h.cap, rfl, rfl, h.first, h.second⟩
  exact ⟨_, h.resume.trans hexec, hturn.emitted hpq rfl _ _⟩

/-- The issue of a BUF.SET by `p`. -/
theorem SetRace.issue (h : SetRace s n p q b c d (p :: ps)) (hb : c.busy = false)
    (hq : c.queue = [encode (.bufSet (.int (v : Int)) (.int x))]) :
    ∃ t, step s = .next t ∧ SetRace t n p q b (setCtx v x .bufRead c.tmp { c with queue := [] }) d ps := by
  have hstep := stepIssuesDecodedCommand s p ps c _ [] _ h.mark h.sched h.first hb hq (decode_encode_of_wellFormed rfl)
  have hturn : SetRace { s with sched := ps, active := p, ports := s.ports.modify p fun x => { x with queue := [] } } n p q b
      { c with queue := [] } d ps :=
    ⟨h.mark, h.scope, h.life, h.cap, h.buf, rfl, by simp [h.first], (getElem?_modify_other hpq.symm).trans h.second⟩
  have hbegin := beginBufSet_of_valid (s := s) (c := given (.bufSet (.int (v : Int)) (.int x)) { c with queue := [] }) h.cap
    (validPos_of_lt hv) (validVal_of_bit hx)
  rw [byScope_commitOnly h.scope] at hbegin
  have hexec := exec_issue (i := .bufSet (.int (v : Int)) (.int x)) rfl rfl hturn.mark hturn.first hb hturn.life hbegin
  exact ⟨_, hstep.trans hexec, hturn.emitted hpq rfl _ _⟩

end

theorem run_next {s t : State} (h : step s = .next t) (k : Nat) : Host.Core.run core (k + 1) s = Host.Core.run core k t := by
  have h' : core.step s = .next t := h
  simp only [Host.Core.run, h']

/-- Settles O39: both reads come before both writes, so the second write is of the old value with its own bit. -/
theorem lostUpdateRace : Obligations.LostUpdateRace := by
  unfold Obligations.LostUpdateRace
  intro s n p q v w x y b c d hm hscope hl hcap hbuf hpq hv hw hx hy hc hd hcb hdb hcq hdq hsched
  have h : SetRace s n p q b c d [p, q, p, q, p, q] := ⟨hm, hscope, hl, hcap, hbuf, hsched, hc, hd⟩
  obtain ⟨t1, e1, h1⟩ := h.issue hpq hv hx hcb hcq
  obtain ⟨t2, e2, h2⟩ := h1.swap.issue hpq.symm hw hy hdb hdq
  obtain ⟨t3, e3, h3⟩ := h2.swap.read hpq
  obtain ⟨t4, e4, h4⟩ := h3.swap.read hpq.symm
  obtain ⟨t5, e5, h5⟩ := h4.swap.write hpq hv hx
  obtain ⟨t6, e6, h6⟩ := h5.swap.write hpq.symm hw hy
  refine ⟨t6, ?_, h6.buf⟩
  rw [run_next e1, run_next e2, run_next e3, run_next e4, run_next e5, run_next e6]
  rfl

end Sys2Proof.Machine
end

section
/-! A clear pulse of another port inside a transmit (70_reset_and_hazards.md R348). -/

namespace Sys2Proof.Machine

/-! The width of the shift stage. -/

theorem react_s_length (ch : Chain) (old new : Quad Level) : (ch.react old new).s.length = ch.s.length := by
  cases hf : floating new with
  | true =>
    rw [react_of_floating hf]
    exact fillStage_length _ _
  | false =>
    rw [react_of_driven hf]
    exact shiftStage_length _ _ _

theorem foldHist_s_length (x : Quad Level × Chain) (h : List Entry) : (foldHist x h).2.s.length = x.2.s.length := by
  induction h generalizing x with
  | nil => rfl
  | cons e es ih =>
    refine (ih (foldEvent x e)).trans ?_
    unfold foldEvent
    split
    · exact react_s_length _ _ _
    · rfl

/-! The low bits of an integer (00_scope.md R12). -/

theorem bit_emod_below (w : Int) {i k : Nat} (h : i < k) : bit (w % 2 ^ k) i = bit w i := by
  rw [show (2 : Int) ^ k = ((2 ^ k : Nat) : Int) by push_cast; rfl]
  obtain ⟨j, rfl⟩ := Nat.exists_eq_add_of_lt h
  have hpow : ((2 ^ (i + j + 1) : Nat) : Int) = ((2 ^ j : Nat) : Int) * 2 * ((2 ^ i : Nat) : Int) := by
    push_cast
    ring
  have hw : w = w % ((2 ^ (i + j + 1) : Nat) : Int) +
      w / ((2 ^ (i + j + 1) : Nat) : Int) * ((2 ^ j : Nat) : Int) * 2 * ((2 ^ i : Nat) : Int) := by
    conv_lhs => rw [← Int.emod_add_mul_ediv w ((2 ^ (i + j + 1) : Nat) : Int)]
    rw [hpow]
    ring
  rw [bit, bit]
  conv_rhs => rw [hw, Int.add_mul_ediv_right _ _ (two_pow_pos_int i).ne']
  omega

theorem bit_emod_above (w : Int) {i k : Nat} (h : k ≤ i) : bit (w % 2 ^ k) i = 0 := by
  rw [show (2 : Int) ^ k = ((2 ^ k : Nat) : Int) by push_cast; rfl]
  have hpos := two_pow_pos_int k
  have hle : ((2 ^ k : Nat) : Int) ≤ ((2 ^ i : Nat) : Int) := by exact_mod_cast Nat.pow_le_pow_right (by decide) h
  rw [bit, Int.ediv_eq_zero_of_lt (Int.emod_nonneg _ hpos.ne') ((Int.emod_lt_of_pos _ hpos).trans_le hle)]
  rfl

/-- The bits below `k`, pushed into a zero stage, are the word's remainder by `2^k`. -/
theorem take_wordStage_zeros (k n : Nat) (w : Int) :
    (wordStage k w ++ List.replicate n CBit.b0).take n = wordStage n (w % 2 ^ k) := by
  refine List.ext_getElem (by simp) fun i hi _ => ?_
  rw [List.getElem_take, List.getElem_append]
  split
  · next hik =>
    have hik' : i < k := by simpa using hik
    simp [wordStage, CBit.ofBit, bit_emod_below w hik']
  · next hik =>
    have hik' : k ≤ i := by simpa using hik
    simp [wordStage, CBit.ofBit, bit_emod_above w hik']

/-! The transmit's events around the clear pulse. -/

/-- After the pulses of the `j` bits above bit `k` those of the bits below `k` are left. -/
theorem drop_shiftLoopEvents (w : Int) (k j : Nat) : (shiftLoopEvents w (k + j)).drop (6 * j) = shiftLoopEvents w k := by
  induction j with
  | zero => rfl
  | succ j ih =>
    have hlen : 6 * (j + 1) = (shiftEvents (levelBit w (k + j))).length + 6 * j := Nat.add_comm _ _
    rw [← Nat.add_assoc, shiftLoopEvents, hlen, List.drop_length_add_append, ih]

/-- After the clear pulse of port `q` only the bits below `k`, which port `p` still shifts in, reach the outputs. -/
theorem outputs_after_clear_inside {ls : Quad Level} {ch : Chain} {n k p q : Nat} (hf : floating ls = false)
    (hs : ch.s.length = n) (w : Int) :
    (foldHist (ls, ch) (tagged q clearEvents ++ tagged p (shiftLoopEvents w k ++ latchEvents))).2.q =
      wordStage n (w % 2 ^ k) := by
  have hf1 := floating_set hf .clrN true
  obtain ⟨hf2, hclr⟩ := shiftedLines_driven hf1 rfl w k
  rw [tagged_append, foldHist_append, foldHist_append, foldHist_clear hf, foldHist_shiftLoop hf1 rfl, foldHist_latch hf2 hclr,
    ← take_wordStage_zeros, fillStage_eq_replicate, List.length_replicate, hs]

/-- Settles O58: up to the clear pulse every line stays driven; the pulse zeroes the stage, and the bits left are shifted in. -/
theorem clearInsideTransmitLosesShiftedBits : Obligations.ClearInsideTransmitLosesShiftedBits := by
  unfold Obligations.ClearInsideTransmitLosesShiftedBits
  intro ls ch n k p q w hf hk _ hs _
  have hkeeps : ∀ e ∈ clearEvents ++ (shiftLoopEvents w n).take (6 * (n - k)), e.keepsOutputs = true := by
    intro e he
    obtain he | he := List.mem_append.mp he
    · exact (by decide : ∀ d ∈ clearEvents, d.keepsOutputs = true) e he
    · exact keepsOutputs_of_mem_shiftLoop (List.mem_of_mem_take he)
  obtain ⟨hf', -⟩ := foldHist_keepsOutputs (p := p) (ch := ch) hf hkeeps
  have hlen := (foldHist_s_length (ls, ch) (tagged p (clearEvents ++ (shiftLoopEvents w n).take (6 * (n - k))))).trans hs
  have hdrop := drop_shiftLoopEvents w k (n - k)
  rw [Nat.add_sub_cancel' hk] at hdrop
  rw [List.append_assoc, foldHist_append, hdrop]
  exact outputs_after_clear_inside hf' hlen w

end Sys2Proof.Machine
end

section
/-! The model faults of the issue (60_exceptions.md R300), and the faulted state (R310). -/

namespace Sys2Proof.Machine

/-! The faulted state. -/

theorem exec_of_mark {s : State} {f : Fault} (hm : s.mark = some f) (i : Instr) : exec i s = .fault f := by
  simp [exec_eq_runRule, runRule, hm]

theorem step_of_mark {s : State} {f : Fault} (hm : s.mark = some f) : step s = .fault f := by
  simp [step, fetch, hm]

/-- Settles O10: a next state would contradict the fault that a marked state answers. -/
theorem faultedStateHasNoStep : Obligations.FaultedStateHasNoStep := by
  unfold Obligations.FaultedStateHasNoStep
  refine ⟨fun s f hm => ⟨step_of_mark hm, exec_of_mark hm⟩, fun s t h => ?_⟩
  cases hm : s.mark with
  | none => rfl
  | some f => cases (step_of_mark hm).symm.trans h

/-! The issue of a command that is not admitted. -/

/-- Admission reads `LIFE` and the other ports, which the presentation of a command leaves as they were. -/
theorem check_present (i : Instr) (s : State) (cmd : Command) : (ruleOf i).check (s.present cmd) = (ruleOf i).check s := by
  have hlife : (s.present cmd).life = s.life := rfl
  have hactive : (s.present cmd).active = s.active := rfl
  cases i with
  | init q a => simp only [ruleOf, admitInit, hlife, hactive, othersIdle_present]
  | fini => simp only [ruleOf, admitFini, hlife, hactive, othersIdle_present]
  | _ => rfl

/-- A well-formed command that fails its admission check stays presented; the mark is the fault of the check (R300, check 3). -/
theorem exec_not_admitted {i : Instr} {s : State} {f : Fault} (hw : i.wellFormed = true) (hrest : atRest s = true)
    (hcheck : (ruleOf i).check s = some f) :
    exec i s = .next { after s [.issue i.opcode] (given i) with mark := some f } := by
  obtain ⟨hm, c, hc, hb, -⟩ := atRest_iff.mp hrest
  have hissue : issueStep i (ruleOf i) s = .next ((s.present (encode i)).enterFault f) := by
    simp [issueStep, hw, check_present, hcheck]
  have hrun : runRule i (ruleOf i) s = issueStep i (ruleOf i) s := by simp [runRule, hm, hc, hb]
  rw [exec_eq_runRule, hrun, hissue, present_eq, encode_opc]
  rfl

theorem not_lifecycle_of_ne {i : Instr} (hinit : ∀ q a, i ≠ .init q a) (hfini : i ≠ .fini) : isLifecycle i = false := by
  cases i with
  | init q a => exact absurd rfl (hinit q a)
  | fini => exact absurd rfl hfini
  | _ => rfl

theorem admitReady_of_not_ready {s : State} (hl : s.life ≠ .ready) : admitReady s = some (.notReady s.active) := if_neg hl

/-- Settles O12: the admission check of the command is that of READY, which fails. -/
theorem notReadyFault : Obligations.NotReadyFault := by
  unfold Obligations.NotReadyFault
  intro i s hw hinit hfini hrest hl
  obtain ⟨hcheck, -⟩ := check_of_not_lifecycle (not_lifecycle_of_ne hinit hfini)
  exact exec_not_admitted hw hrest (by rw [hcheck, admitReady_of_not_ready hl])

/-! The admission of INIT and FINI. -/

theorem admitInit_misuse {s : State} (q : Quad Nat) (h : s.life ≠ .unbuilt ∨ s.othersIdle s.active = false) :
    admitInit q s = some (.lifecycleMisuse s.active) := by
  by_cases hl : s.life = .unbuilt
  · have hidle : s.othersIdle s.active = false := h.resolve_left (not_not.mpr hl)
    simp [admitInit, hl, hidle]
  · exact if_pos hl

theorem distinctPins_eq_false {q : Quad Nat} (h : q.sdata = q.sclk ∨ q.sdata = q.lclk ∨ q.sdata = q.clrN ∨ q.sclk = q.lclk ∨
    q.sclk = q.clrN ∨ q.lclk = q.clrN) : distinctPins q = false := by
  obtain h | h | h | h | h | h := h <;> simp [distinctPins, h]

theorem admitInit_equal_pins {s : State} {q : Quad Nat} (hl : s.life = .unbuilt) (hidle : s.othersIdle s.active = true)
    (hq : distinctPins q = false) : admitInit q s = some (.pinsNotDistinct s.active) := by
  simp [admitInit, hl, hidle, hq]

theorem admitFini_misuse {s : State}
    (h : s.life = .building ∨ s.life = .tearing ∨ (s.life = .ready ∧ s.othersIdle s.active = false)) :
    admitFini s = some (.lifecycleMisuse s.active) := by
  obtain hl | hl | ⟨hl, hidle⟩ := h
  · simp [admitFini, hl]
  · simp [admitFini, hl]
  · simp [admitFini, hl, hidle]

/-- Settles O13: each clause makes the admission check of its command fail with the fault it names. -/
theorem lifecycleFaults : Obligations.LifecycleFaults := by
  unfold Obligations.LifecycleFaults
  intro s hrest
  refine ⟨fun q a h => ?_, fun q a hl hidle hpins => ?_, fun h => ?_⟩
  · exact ⟨_, exec_not_admitted rfl hrest (admitInit_misuse q h), rfl, rfl, rfl⟩
  · have hcheck := admitInit_equal_pins hl hidle (distinctPins_eq_false hpins)
    exact ⟨_, exec_not_admitted rfl hrest hcheck, rfl, hl, rfl⟩
  · exact ⟨_, exec_not_admitted rfl hrest (admitFini_misuse h), rfl, rfl, rfl⟩

end Sys2Proof.Machine
end

section
/-! The power-on state (70_reset_and_hazards.md R340). -/

namespace Sys2Proof.Machine

variable {PinId : Type}

/-- Every port starts idle, with its fields undefined (70_reset_and_hazards.md R340). -/
theorem ctx_powerOn {g : Config} {p : Nat} {c : Ctx PinId} (h : (State.powerOn g : State PinId).ctx p = some c) :
    c = Ctx.powerOn :=
  List.eq_of_mem_replicate (List.mem_of_getElem? h)

theorem sound_powerOn (g : Config) : Sound (State.powerOn g : State PinId) where
  lock := lockInv_powerOn g
  claim := rfl
  chain := rfl
  life := rfl
  len := List.length_replicate
  ctx p c hc := by
    rw [ctx_powerOn hc]
    rfl

/-- The empty history leaves the lines floating and the lock free (20_memory.md R86, R97). -/
theorem histInv_powerOn (g : Config) : HistInv (State.powerOn g : State PinId) := by
  refine ⟨fun _ => rfl, fun n hn => ?_, rfl⟩
  cases hn

/-- Settles O6: the registers are those that `State.powerOn` writes, and every port's context is `Ctx.powerOn`. -/
theorem powerOnState : Obligations.PowerOnState := by
  unfold Obligations.PowerOnState
  intro PinId g s
  refine ⟨rfl, rfl, rfl, rfl, rfl, rfl, rfl, rfl, rfl, fun l => ?_, fun l => ?_, fun b hb => ?_, fun b hb => ?_,
    List.length_replicate, fun p hp => ?_⟩
  · cases l <;> rfl
  · cases l <;> rfl
  · cases hb
  · cases hb
  · exact ⟨Ctx.powerOn, by simp [s, State.powerOn, hp], rfl, rfl, rfl, rfl, rfl, rfl, rfl, rfl, rfl, rfl, rfl, rfl, rfl, rfl,
      rfl, rfl⟩

/-- Settles O46: at power-on nothing is claimed, no port is busy, and no event has happened. -/
theorem powerOnMeetsInv : Obligations.PowerOnMeetsInv := by
  unfold Obligations.PowerOnMeetsInv
  exact fun _ g => ⟨inv_of_sound (sound_powerOn g), histInv_powerOn g⟩

end Sys2Proof.Machine
end

section
/-! What a step may not do: enter an internal fault (70_reset_and_hazards.md R352), or drive a clock or `CLR_N` high from a level
that is not known (R353). -/

namespace Sys2Proof.Machine

variable {PinId : Type}

/-- No line but `SDATA` goes to high from `X` or `Z` (70_reset_and_hazards.md R353). -/
def KnownRises (old new : Quad Level) : Prop := ∀ l, l ≠ .sdata → new.get l = .high → (old.get l).driven = true

theorem knownRises_refl (ls : Quad Level) : KnownRises ls ls := by
  intro l _ h
  rw [h]
  rfl

/-- A drive of one line, to high only from a known level, or of no clock. -/
theorem knownRises_drive {ls : Quad Level} {l : Line} {v : Bool}
    (h : v = true → l ≠ .sdata → (ls.get l).driven = true) : KnownRises ls (ls.set l (Level.ofBit v)) := by
  intro k hk hhigh
  rw [quad_get_set] at hhigh
  split at hhigh
  · next e =>
    subst e
    cases v with
    | false => cases hhigh
    | true => exact h rfl hk
  · exact knownRises_refl ls k hk hhigh

/-- A claim and a release leave their line at an unknown level. -/
theorem knownRises_set {ls : Quad Level} {l : Line} {v : Level} (hv : v ≠ .high) : KnownRises ls (ls.set l v) := by
  intro k hk hhigh
  rw [quad_get_set] at hhigh
  split at hhigh
  · exact absurd hhigh hv
  · exact knownRises_refl ls k hk hhigh

theorem knownRises_allLow (ls : Quad Level) : KnownRises ls (Quad.all .low) := by
  intro l _ h
  rw [quad_get_all] at h
  cases h

/-- From `s` to `t` neither rule is broken. -/
structure Safe (s t : State PinId) : Prop where
  mark : ∀ f, t.mark = some f → f.isInternal = false
  rises : KnownRises s.line t.line

/-- The answer is a next state that breaks neither rule. -/
def AnswersSafely (s : State PinId) (o : Out PinId) : Prop := ∃ t, o = .next t ∧ Safe s t

theorem Safe.of_unmarked {s t : State PinId} (hm : t.mark = none) (hr : KnownRises s.line t.line) : Safe s t := by
  refine ⟨fun f hf => ?_, hr⟩
  cases hm.symm.trans hf

theorem safe_enterFault {s t : State PinId} {f : Fault} (hline : t.line = s.line) (hf : f.isInternal = false) :
    Safe s (t.enterFault f) := by
  refine ⟨?_, hline ▸ knownRises_refl s.line⟩
  rintro _ ⟨⟩
  exact hf

/-! The micro-steps (40_sequencer.md R164 to R173). -/

/-- What the two rules ask of the state in which a micro-step runs. -/
def Micro.Allowed (m : Micro) (s : State PinId) : Prop :=
  match m with
  | .drive l v => s.claimed.get l = true ∧ (v = true → l ≠ .sdata → (s.line.get l).driven = true)
  | .driveAll v => allClaimed s.claimed = true ∧ v = false
  | .release l => s.claimed.get l = true
  | .lockRelease => s.lock = some s.active
  | .complete _ _ => ∀ c, s.ctx s.active = some c → c.holdsLock = false
  | .lockAcquire | .bufReadSnap | .bufReadTmp | .bufWrite _ | .claim _ | .delay => True

/-- What a micro-step that runs in `s` comes to breaks neither rule. -/
def Result.SafeFrom (s : State PinId) (r : Result PinId) : Prop :=
  match r with
  | .ok u => u.mark = s.mark ∧ KnownRises s.line u.line
  | .failed u => u.mark = s.mark ∧ KnownRises s.line u.line
  | .held => True
  | .fault f => f.isInternal = false

theorem result_of_line_eq {s u : State PinId} (hm : u.mark = s.mark) (hline : u.line = s.line) :
    Result.SafeFrom s (.ok u) := ⟨hm, hline ▸ knownRises_refl s.line⟩

/-- A failing drive of the lines to `ls`. -/
theorem result_of_failed {s : State PinId} {p : Nat} {e : Event} {ls : Quad Level} (h : KnownRises s.line ls) :
    Result.SafeFrom s
      (.failed (((if s.draw.took then s.drawn.setLines ls else s.drawn).log p e).modCtx p failedCtx)) := by
  split
  · exact ⟨by simp, h⟩
  · exact ⟨by simp, by simpa using knownRises_refl s.line⟩

theorem runBufRead_safeFrom (s : State PinId) (f : Int → Ctx PinId → Ctx PinId) : (runBufRead s f).SafeFrom s := by
  obtain ⟨-, e⟩ | ⟨v, -, e⟩ := runBufRead_cases s f <;> rw [e]
  · rfl
  · exact result_of_line_eq rfl rfl

theorem run_safeFrom {m : Micro} {s : State PinId} (h : m.Allowed s) : (m.run s).SafeFrom s := by
  cases m with
  | drive l v =>
    obtain ⟨hl, hv⟩ := h
    obtain ⟨hn, -⟩ | ⟨-, -, e⟩ | ⟨-, -, e⟩ := runDrive_cases s l v
    · cases hl.symm.trans hn
    · rw [Micro.run, e]
      exact ⟨by simp, knownRises_drive hv⟩
    · rw [Micro.run, e]
      exact result_of_failed (knownRises_drive hv)
  | driveAll v =>
    obtain ⟨hl, rfl⟩ := h
    obtain ⟨hn, -⟩ | ⟨-, -, e⟩ | ⟨-, -, e⟩ := runDriveAll_cases s false
    · cases hl.symm.trans hn
    · rw [Micro.run, e]
      exact ⟨by simp, knownRises_allLow s.line⟩
    · rw [Micro.run, e]
      exact result_of_failed (knownRises_allLow s.line)
  | lockAcquire =>
    obtain ⟨-, e⟩ | ⟨-, e⟩ := runLockAcquire_cases s <;> rw [Micro.run, e]
    · trivial
    · exact result_of_line_eq rfl rfl
  | lockRelease =>
    obtain ⟨hn, -⟩ | ⟨-, e⟩ := runLockRelease_cases s
    · exact absurd h hn
    · rw [Micro.run, e]
      exact result_of_line_eq rfl rfl
  | bufReadSnap => exact runBufRead_safeFrom s _
  | bufReadTmp => exact runBufRead_safeFrom s _
  | bufWrite v => exact result_of_line_eq rfl rfl
  | claim l =>
    obtain ⟨-, e⟩ | ⟨-, -, e⟩ | ⟨-, -, e⟩ := runClaim_cases s l <;> rw [Micro.run, e]
    · rfl
    · exact ⟨by simp, knownRises_set (by decide)⟩
    · exact ⟨by simp, by simpa using knownRises_refl s.line⟩
  | release l =>
    obtain ⟨hn, e⟩ | ⟨-, -, e⟩ | ⟨-, -, -, e⟩ | ⟨-, -, -, e⟩ := runRelease_cases s l <;> rw [Micro.run, e]
    · have hl : s.claimed.get l = true := h
      cases hl.symm.trans hn
    · rfl
    · exact ⟨by simp, knownRises_set (by decide)⟩
    · rfl
  | delay => exact result_of_line_eq rfl rfl
  | complete st r =>
    cases hc : s.ctx s.active with
    | none => simp [Micro.run, runComplete, hc, Result.SafeFrom]
    | some c =>
      obtain ⟨hn, -⟩ | ⟨-, e⟩ := runComplete_cases hc st r
      · cases (h c hc).symm.trans hn
      · rw [Micro.run, e]
        exact result_of_line_eq rfl rfl

/-- A micro-step stands at the position, and it may run in `s`. -/
def Fetched.Allowed (s : State PinId) (f : Fetched PinId) : Prop :=
  match f with
  | .step m => (m.writes s).mark = s.mark ∧ (m.writes s).line = s.line ∧ m.op.Allowed (m.writes s)
  | .undef => False
  | .off => False

/-- A micro-program that has the micro-steps of one of its parts. -/
theorem Fetched.Allowed.of_step {s : State PinId} {f g : Fetched PinId} (h : f.Allowed s)
    (hg : ∀ m, f = .step m → g = .step m) : g.Allowed s := by
  cases f with
  | step m => exact hg m rfl ▸ h
  | undef | off => exact h.elim

theorem Fetched.Allowed.perform {s : State PinId} {f : Fetched PinId} (h : f.Allowed s) (hm : s.mark = none) :
    AnswersSafely s (perform f s) := by
  cases f with
  | undef | off => exact h.elim
  | step m =>
    obtain ⟨hmark, hline, hop⟩ := h
    have hrun := run_safeFrom hop
    cases e : m.op.run (m.writes s) with
    | ok u =>
      rw [e] at hrun
      obtain ⟨hmark', hrises⟩ := hrun
      exact ⟨u.modCtx u.active m.next, by simp only [Machine.perform, e],
        .of_unmarked ((hmark'.trans hmark).trans hm) (hline ▸ hrises)⟩
    | failed u =>
      rw [e] at hrun
      obtain ⟨hmark', hrises⟩ := hrun
      exact ⟨u.modCtx u.active m.onFail, by simp only [Machine.perform, e],
        .of_unmarked ((hmark'.trans hmark).trans hm) (hline ▸ hrises)⟩
    | held => exact ⟨s, by simp only [Machine.perform, e], .of_unmarked hm (knownRises_refl s.line)⟩
    | fault f =>
      rw [e] at hrun
      exact ⟨_, by simp only [Machine.perform, e], safe_enterFault rfl hrun⟩

end Sys2Proof.Machine
end

section
/-! At every position in order of every micro-program the micro-step is allowed: the drives find their lines claimed and, before
the rise of a pulse, at a known level; the lock is held where it is released, and not held at a Complete
(70_reset_and_hazards.md R352, R353). -/

namespace Sys2Proof.Machine

theorem allClaimed_of_range {q : Quad Bool} (h : claimedRange q 0 4 = true) : allClaimed q = true := by
  have hget (l : Line) : q.get l = true := by
    rw [claimedRange_iff.mp h l]
    cases l <;> rfl
  simp only [allClaimed, Bool.and_eq_true]
  exact ⟨⟨⟨hget .sdata, hget .sclk⟩, hget .lclk⟩, hget .clrN⟩

section
variable {i : Instr} {s : State} {c : Ctx} {u : UPos} {after onFail : Ctx → Ctx}

theorem allClaimed_of_ready (hs : Sound s) (hl : s.life = .ready) : allClaimed s.claimed = true :=
  allClaimed_of_range (hs.regs.ready hl).1

/-- A micro-step without writes. -/
theorem allowed_step {op : Micro} (h : op.Allowed s) : Fetched.Allowed s (.step { op := op, next := after, onFail := onFail }) :=
  ⟨rfl, rfl, h⟩

/-! The drives. -/

section
variable (hclaimed : allClaimed s.claimed = true)
include hclaimed

theorem allowed_fall (l : Line) : Micro.Allowed (.drive l false) s :=
  ⟨allClaimed_get hclaimed l, fun h => by cases h⟩

theorem clearPulse_allowed (hu : isClear u = true) (hp : pulseOk s u = true) : (clearPulse after onFail u).Allowed s := by
  cases u with
  | clearLow => exact allowed_step (allowed_fall hclaimed _)
  | clearWait => exact allowed_step trivial
  | clearHigh => exact allowed_step ⟨allClaimed_get hclaimed _, fun _ _ => hp⟩
  | _ => cases hu

theorem latchPulse_allowed (hu : isLatch u = true) (hp : pulseOk s u = true) : (latchPulse after onFail u).Allowed s := by
  cases u with
  | latchLow | latchFall => exact allowed_step (allowed_fall hclaimed _)
  | latchWait | latchHold => exact allowed_step trivial
  | latchHigh => exact allowed_step ⟨allClaimed_get hclaimed _, fun _ _ => hp⟩
  | _ => cases hu

theorem shiftBit_allowed {w : Int} {k : Nat} (hu : isShift u = true) (hp : pulseOk s u = true) :
    (shiftBit w k u).Allowed s := by
  cases u with
  | shiftData => exact allowed_step ⟨allClaimed_get hclaimed _, fun _ h => absurd rfl h⟩
  | shiftLow | shiftFall => exact allowed_step (allowed_fall hclaimed _)
  | shiftWait | shiftHold => exact allowed_step trivial
  | shiftHigh => exact allowed_step ⟨allClaimed_get hclaimed _, fun _ _ => hp⟩
  | _ => cases hu

theorem transmit_allowed {n : Nat} (hcap : s.cap = some n) (ht : transmitOk n c u = true) (hp : pulseOk s u = true) :
    (transmit s.cap c after u).Allowed s := by
  obtain ⟨hu, ⟨w, hw, -⟩, hi⟩ := transmitOk_iff.mp ht
  simp only [isTransmit, Bool.or_eq_true] at hu
  obtain (hu | hu) | hu := hu
  · rw [hcap, transmit_of_clear hu]
    exact clearPulse_allowed hclaimed hu hp
  · obtain ⟨k, hk, -⟩ := hi hu
    rw [transmit_of_shift hw hk hu]
    exact shiftBit_allowed hclaimed hu hp
  · rw [transmit_of_latch hu]
    exact latchPulse_allowed hclaimed hu hp

end

/-! The releases and INIT's claims (41_driver.md R191, R208). -/

/-- The release of the lowest line of the claimed range. -/
theorem release_allowed {j k : Nat} {l : Line} (hl : Line.ofIndex j = some l) (hjk : j < k)
    (h : claimedRange s.claimed j k = true) : Micro.Allowed (.release l) s := by
  show s.claimed.get l = true
  simp [claimedRange_iff.mp h l, line_ofIndex_eq_some hl, hjk]

theorem claimStep_allowed {pins : Quad Nat} {count : Arg} (h : posOk s c (.init pins count) .claim = true) :
    (claimStep pins count s c).Allowed s := by
  obtain ⟨hl, hf⟩ := building_of_posOk h
  obtain ⟨k, hk, hk3, -, -, n, hn, -⟩ := (initOk_claim hl hf).mp (posOk_init.mp h).2
  cases k with
  | zero =>
    simp only [claimStep, hk, hn]
    exact ⟨rfl, rfl, trivial⟩
  | succ k =>
    obtain ⟨l, hline⟩ := ofIndex_of_le_three hk3
    simp only [claimStep, hk, hline]
    exact allowed_step trivial

theorem rollbackStep_allowed {pins : Quad Nat} {count : Arg} (h : posOk s c (.init pins count) .rollback = true) :
    (rollbackStep c).Allowed s := by
  obtain ⟨hl, hf⟩ := building_of_posOk h
  obtain ⟨k, j, hk, hj, hk3, hjk, hrange, -⟩ := (initOk_rollback hl hf).mp (posOk_init.mp h).2
  obtain ⟨l, hline⟩ := ofIndex_of_le_three (k := j) (by omega)
  simp only [rollbackStep, hk, hj, hline]
  exact allowed_step (release_allowed hline hjk hrange)

theorem releaseStep_allowed (h : posOk s c .fini .release = true) : (releaseStep c).Allowed s := by
  obtain ⟨-, -, -, k, hk, hk3, hrange⟩ := finiOk_release.mp (posOk_fini.mp h).2
  obtain ⟨l, hline⟩ := ofIndex_of_le_three hk3
  simp only [releaseStep, hk, hline]
  exact allowed_step (release_allowed hline (by omega) hrange)

/-- FINI drives lines before its first release only (41_driver.md R208). -/
theorem allClaimed_of_fini (h : posOk s c .fini u = true) (hu : isClear u = true ∨ isLatch u = true ∨ u = .driveAll) :
    allClaimed s.claimed = true := by
  obtain ⟨-, -, -, hrange⟩ := (finiOk_drive hu).mp (posOk_fini.mp h).2
  exact allClaimed_of_range hrange

section
variable (hc : s.ctx s.active = some c)
include hc

/-! The commands without lock steps. -/

/-- A port without the lock may complete, and write registers that are neither the mark, the lines nor the contexts with it. -/
theorem complete_writes_allowed {st : Status} {r : Option Int} {writes : State → State} (hfree : c.holdsLock = false)
    (hmark : (writes s).mark = s.mark) (hline : (writes s).line = s.line)
    (hctx : (writes s).ctx (writes s).active = s.ctx s.active) : (completeStep st r writes).Allowed s := by
  refine ⟨hmark, hline, fun d hd => ?_⟩
  cases hc.symm.trans (hctx.symm.trans hd)
  exact hfree

theorem complete_allowed {st : Status} {r : Option Int} (hfree : c.holdsLock = false) : (completeStep st r).Allowed s :=
  complete_writes_allowed hc hfree rfl rfl rfl

theorem progInit_allowed {pins : Quad Nat} {count : Arg} (h : posOk s c (.init pins count) u = true) :
    (progInit pins count s c u).Allowed s := by
  obtain ⟨-, hfree⟩ := building_of_posOk h
  cases u with
  | reject | claimFailed | done => exact complete_writes_allowed hc hfree rfl rfl rfl
  | claim => exact claimStep_allowed h
  | rollback => exact rollbackStep_allowed h
  | bufWrite => exact allowed_step trivial
  | _ => simp [posOk_init, initOk] at h

theorem progFini_allowed (h : posOk s c .fini u = true) : (progFini s c u).Allowed s := by
  obtain ⟨hp, hok⟩ := posOk_fini.mp h
  have hfree : c.holdsLock = false := by
    simp only [finiOk, Bool.and_eq_true, Bool.not_eq_true'] at hok
    exact hok.1
  cases u with
  | guard => exact complete_allowed hc hfree
  | driveAll => exact allowed_step ⟨allClaimed_of_fini h (.inr (.inr rfl)), rfl⟩
  | release => exact releaseStep_allowed h
  | done => exact complete_writes_allowed hc hfree rfl rfl rfl
  | clearLow | clearWait | clearHigh =>
    exact clearPulse_allowed (after := goto .latchLow) (onFail := startRelease) (allClaimed_of_fini h (.inl rfl)) rfl hp
  | latchLow | latchWait | latchHigh | latchHold | latchFall =>
    exact latchPulse_allowed (after := goto .driveAll) (onFail := startRelease) (allClaimed_of_fini h (.inr (.inl rfl))) rfl hp
  | _ => simp [finiOk, isClear, isLatch] at hok

section
variable {n : Nat} (hl : s.life = .ready) (hcap : s.cap = some n)
include hl hcap

theorem progCap_allowed (hi : i = .drvCap ∨ i = .bufCap) (h : posOk s c i u = true) : (progCap s c u).Allowed s := by
  obtain ⟨-, rfl, hfree⟩ : pulseOk s u = true ∧ u = .done ∧ c.holdsLock = false := by
    obtain rfl | rfl := hi <;> simpa [posOk, hl, hcap] using h
  simp only [progCap, hcap]
  exact complete_allowed hc hfree

theorem progBufChk_allowed {pos : Arg} (h : posOk s c (.bufChk pos) u = true) : (progBufChk s c u).Allowed s := by
  obtain ⟨-, rfl | rfl, hfree⟩ : pulseOk s u = true ∧ (u = .reject ∨ u = .done) ∧ c.holdsLock = false := by
    simpa [posOk, hl, hcap] using h
  · exact complete_allowed hc hfree
  · exact complete_allowed hc hfree

theorem progBufGet_allowed {pos : Arg} (h : posOk s c (.bufGet pos) u = true) : (progBufGet pos s c u).Allowed s := by
  obtain ⟨-, rfl | ⟨rfl, -⟩ | ⟨rfl, hvalid, htmp⟩, hfree⟩ := (posOk_bufGet hl hcap).mp h
  · exact complete_allowed hc hfree
  · exact allowed_step trivial
  · obtain ⟨v, hv⟩ := Option.isSome_iff_exists.mp hvalid
    obtain ⟨b, hb⟩ := Option.isSome_iff_exists.mp htmp
    simp only [progBufGet, getBitStep, hcap, hv, hb]
    exact complete_allowed hc hfree

theorem progBufGetbuf_allowed (h : posOk s c .bufGetbuf u = true) : (progBufGetbuf s c u).Allowed s := by
  obtain ⟨-, rfl | ⟨rfl, htmp⟩, hfree⟩ := (posOk_bufGetbuf hl hcap).mp h
  · exact allowed_step trivial
  · obtain ⟨b, hb⟩ := Option.isSome_iff_exists.mp htmp
    simp only [progBufGetbuf, hb]
    exact complete_allowed hc hfree

end

/-! The lock steps, the error epilogue (40_sequencer.md R179) and the commands that have them. -/

variable (hs : Sound s)
include hs

/-- The port whose context holds the lock is the one that `LOCK` names, so it may release it (10_state.md R41). -/
theorem lock_of_held (hheld : c.holdsLock = true) : s.lock = some s.active := (hs.lock _ _ hc).mp hheld

/-- A micro-program that ends in the error epilogue (40_sequencer.md R179). -/
theorem errorEpilogue_allowed {f : UPos → Fetched} (he : epilogueOk c u = true)
    (hunlock : f .errUnlock = errorEpilogue c .errUnlock) (hcomplete : f .errComplete = errorEpilogue c .errComplete) :
    (f u).Allowed s := by
  obtain ⟨herr, ⟨rfl, hheld⟩ | ⟨rfl, hfree⟩⟩ := epilogueOk_iff.mp he
  · rw [hunlock]
    exact allowed_step (lock_of_held hc hs hheld)
  · obtain ⟨e, he⟩ := Option.isSome_iff_exists.mp herr
    simp only [hcomplete, errorEpilogue, he]
    exact complete_allowed hc hfree

section
variable {n : Nat} (hl : s.life = .ready) (hcap : s.cap = some n)
include hl hcap

theorem commitBody_allowed (h : commitOk n c u = true) (hp : pulseOk s u = true) : (commitBody s.cap c u).Allowed s := by
  obtain ⟨rfl | ⟨rfl, hsnap⟩ | ht, hheld⟩ | ⟨rfl, hfree⟩ | he := commitOk_iff.mp h
  · rw [hcap]
    exact allowed_step trivial
  · obtain ⟨w, hw⟩ := Option.isSome_iff_exists.mp hsnap
    have hlock : s.lock = some s.active := lock_of_held hc hs hheld
    simp only [commitBody, hcap, hw]
    exact ⟨rfl, rfl, hlock⟩
  · exact (transmit_allowed (allClaimed_of_ready hs hl) hcap ht hp).of_step fun _ => commitBody_of_transmit
  · exact complete_allowed hc hfree
  · exact errorEpilogue_allowed hc hs he rfl rfl

theorem progDrvClr_allowed (h : posOk s c .drvClr u = true) : (progDrvClr s c u).Allowed s := by
  obtain ⟨hp, ⟨hu | rfl, hfree⟩ | ⟨he, -⟩⟩ := (posOk_drvClr hl hcap).mp h
  · have hprog : progDrvClr s c u = clearPulse (goto .done) epilogue u := progDrvClr_of_clear (s := s) hu
    rw [hprog]
    exact clearPulse_allowed (allClaimed_of_ready hs hl) hu hp
  · exact complete_allowed hc hfree
  · exact errorEpilogue_allowed hc hs he rfl rfl

theorem progDrvWr_allowed {word : Arg} (h : posOk s c (.drvWr word) u = true) : (progDrvWr s c u).Allowed s := by
  obtain ⟨hp, ⟨rfl | rfl | ht, hfree⟩ | ⟨he, -⟩⟩ := (posOk_drvWr hl hcap).mp h
  · exact complete_allowed hc hfree
  · exact complete_allowed hc hfree
  · exact (transmit_allowed (allClaimed_of_ready hs hl) hcap ht hp).of_step fun _ => progDrvWr_of_transmit (word := word)
  · exact errorEpilogue_allowed hc hs he rfl rfl

theorem progDrvZero_allowed (h : posOk s c .drvZero u = true) : (progDrvZero s c u).Allowed s := by
  obtain ⟨-, ⟨rfl | rfl, hfree⟩ | ⟨he, -⟩⟩ := (posOk_drvZero hl hcap).mp h
  · exact allowed_step ⟨allClaimed_of_ready hs hl, rfl⟩
  · exact complete_allowed hc hfree
  · exact errorEpilogue_allowed hc hs he rfl rfl

theorem progBufClr_allowed (h : posOk s c .bufClr u = true) : (progBufClr s c u).Allowed s := by
  obtain ⟨hp, ⟨rfl, -⟩ | ⟨rfl | hu, -⟩ | ⟨rfl, hheld, -⟩ | ⟨rfl, hfree⟩ | he⟩ := (posOk_bufClr hl hcap).mp h
  · exact allowed_step trivial
  · exact allowed_step trivial
  · have hprog : progBufClr s c u = clearPulse (goto (byScope s .done .unlock)) epilogue u := progBufClr_of_clear hu
    rw [hprog]
    exact clearPulse_allowed (allClaimed_of_ready hs hl) hu hp
  · exact allowed_step (lock_of_held hc hs hheld)
  · exact complete_allowed hc hfree
  · exact errorEpilogue_allowed hc hs he rfl rfl

theorem progBufCommit_allowed (h : posOk s c .bufCommit u = true) : (progBufCommit s c u).Allowed s := by
  obtain ⟨hp, ⟨rfl, -⟩ | hcommit⟩ := (posOk_bufCommit hl hcap).mp h
  · exact allowed_step trivial
  · have hbody := commitBody_allowed hc hs hl hcap hcommit hp
    cases u with
    | acquire => exact allowed_step trivial
    | _ => exact hbody

theorem progBufWr_allowed {word : Arg} (h : posOk s c (.bufWr word) u = true) : (progBufWr word s c u).Allowed s := by
  obtain ⟨hp, ⟨rfl, -⟩ | ⟨rfl, -⟩ | hcommit⟩ := (posOk_bufWr hl hcap).mp h
  · exact allowed_step trivial
  · exact allowed_step trivial
  · have hbody := commitBody_allowed hc hs hl hcap hcommit hp
    cases u with
    | bufWrite | acquire => exact allowed_step trivial
    | _ => exact hbody

theorem progBufSet_allowed {pos value : Arg} (h : posOk s c (.bufSet pos value) u = true) :
    (progBufSet pos value s c u).Allowed s := by
  obtain ⟨-, ⟨rfl | rfl, hfree⟩ | ⟨⟨hv, hx⟩, ⟨rfl, -⟩ | ⟨rfl | ⟨rfl, htmp⟩, -⟩⟩ | ⟨rfl, -, hheld⟩⟩ := (posOk_bufSet hl hcap).mp h
  · exact complete_allowed hc hfree
  · exact complete_allowed hc hfree
  · exact allowed_step trivial
  · exact allowed_step trivial
  · obtain ⟨v, hv⟩ := Option.isSome_iff_exists.mp hv
    obtain ⟨x, hx⟩ := Option.isSome_iff_exists.mp hx
    obtain ⟨b, hb⟩ := Option.isSome_iff_exists.mp htmp
    simp only [progBufSet, setBitStep, hcap, hv, hx, hb]
    exact allowed_step trivial
  · exact allowed_step (lock_of_held hc hs hheld)

end

/-- Every position in order has an allowed micro-step. -/
theorem prog_allowed (h : posOk s c i u = true) : ((ruleOf i).prog s c u).Allowed s := by
  cases hi : isLifecycle i with
  | true =>
    cases i with
    | init pins count => exact progInit_allowed hc h
    | fini => exact progFini_allowed hc h
    | _ => cases hi
  | false =>
    obtain ⟨hl, n, hcap⟩ := ready_of_posOk hi h
    cases i with
    | drvCap => exact progCap_allowed hc hl hcap (.inl rfl) h
    | drvClr => exact progDrvClr_allowed hc hs hl hcap h
    | drvWr word => exact progDrvWr_allowed hc hs hl hcap h
    | drvZero => exact progDrvZero_allowed hc hs hl hcap h
    | bufCap => exact progCap_allowed hc hl hcap (.inr rfl) h
    | bufClr => exact progBufClr_allowed hc hs hl hcap h
    | bufWr word => exact progBufWr_allowed hc hs hl hcap h
    | bufChk pos => exact progBufChk_allowed hc hl hcap h
    | bufGet pos => exact progBufGet_allowed hc hl hcap h
    | bufSet pos value => exact progBufSet_allowed hc hs hl hcap h
    | bufCommit => exact progBufCommit_allowed hc hs hl hcap h
    | bufGetbuf => exact progBufGetbuf_allowed hc hl hcap h
    | init | fini => cases hi

end

end

end Sys2Proof.Machine
end

section
/-! From a state in order every step answers a next state, which breaks neither rule (70_reset_and_hazards.md R352, R353). -/

namespace Sys2Proof.Machine

/-! The issue (40_sequencer.md R160). -/

/-- The faults of admission are those of 60_exceptions.md R300. -/
theorem check_not_internal {i : Instr} {s : State} {f : Fault} (h : (ruleOf i).check s = some f) : f.isInternal = false := by
  cases i with
  | init pins count =>
    simp only [ruleOf, admitInit] at h
    split_ifs at h <;> cases h <;> rfl
  | fini =>
    simp only [ruleOf, admitFini] at h
    split at h
    · cases h
      rfl
    · cases h
      rfl
    · split at h <;> cases h
      rfl
    · cases h
  | _ =>
    simp only [ruleOf, admitReady] at h
    split at h <;> cases h
    rfl

theorem onLife_keeps (i : Instr) (s : State) : ((ruleOf i).onLife s).mark = s.mark ∧ ((ruleOf i).onLife s).line = s.line := by
  cases i with
  | fini =>
    show (startTeardown s).mark = s.mark ∧ (startTeardown s).line = s.line
    unfold startTeardown
    split <;> exact ⟨rfl, rfl⟩
  | _ => exact ⟨rfl, rfl⟩

section
variable {i : Instr} {s : State} {c : Ctx} (hm : s.mark = none) (hc : s.ctx s.active = some c)
include hm hc

theorem issueStep_safeFrom : AnswersSafely s (issueStep i (ruleOf i) s) := by
  have hctx : (s.present (encode i)).ctx s.active = some (given i c) := by
    rw [present_eq, State.ctx_log, State.ctx_modCtx_self, hc]
    rfl
  simp only [issueStep, hctx]
  split
  · exact ⟨_, rfl, safe_enterFault rfl rfl⟩
  · split
    · next f hf => exact ⟨_, rfl, safe_enterFault rfl (check_not_internal hf)⟩
    · split
      · exact ⟨_, rfl, safe_enterFault rfl rfl⟩
      · obtain ⟨hmark, hline⟩ := onLife_keeps i (s.present (encode i))
        refine ⟨_, rfl, .of_unmarked (hmark.trans hm) ?_⟩
        rw [State.modCtx_line, hline]
        exact knownRises_refl s.line

variable (hs : Sound s)
include hs

theorem microStep_safeFrom (hr : Runs c i) : AnswersSafely s (microStep (ruleOf i) c s) := by
  obtain ⟨u, hu, hpos⟩ := (ctxOk_iff_of_runs hr).mp (hs.ctx _ _ hc)
  simp only [microStep, hu]
  exact (prog_allowed hc hs hpos).perform hm

theorem exec_safeFrom (hr : c.busy = true → Runs c i) : AnswersSafely s (exec i s) := by
  rw [exec_eq_runRule]
  simp only [runRule, hm, hc]
  split
  · next hb => exact microStep_safeFrom hm hc hs (hr hb)
  · exact issueStep_safeFrom hm hc

end

/-! The fetch. -/

/-- What a step comes to before any instruction runs is an instruction on a port that exists, or an answer that breaks neither
rule. -/
def Turn.SafeFrom (s : State) (x : Turn) : Prop :=
  match x with
  | .run _ u => u.mark = none ∧ u.line = s.line ∧ ∃ c, u.ctx u.active = some c
  | .answer o => AnswersSafely s o

section
variable {s t : State} {c : Ctx}

theorem rejectFault_not_internal (e : DecodeError) (p : Nat) : (rejectFault e p).isInternal = false := by
  cases e <;> rfl

section
variable (hm : t.mark = none) (hline : t.line = s.line)
include hm hline

theorem waits_safeFrom : Turn.SafeFrom s (.answer (.next t)) :=
  ⟨t, rfl, .of_unmarked hm (hline ▸ knownRises_refl s.line)⟩

variable (hc : t.ctx t.active = some c)
include hc

theorem resume_safeFrom : (resume t c).SafeFrom s := by
  unfold resume
  split
  · exact ⟨_, rfl, safe_enterFault hline rfl⟩
  · split
    · exact ⟨hm, hline, c, hc⟩
    · exact ⟨_, rfl, safe_enterFault hline (rejectFault_not_internal _ _)⟩

theorem accept_safeFrom : (accept t c).SafeFrom s := by
  unfold accept
  split
  · exact waits_safeFrom hm hline
  · dsimp only
    split
    · exact ⟨hm, hline, _, (State.ctx_modCtx_self t t.active _).trans (congrArg _ hc)⟩
    · exact ⟨_, rfl, safe_enterFault hline (rejectFault_not_internal _ _)⟩

end

/-- The scheduler's choice writes only the model's own fields (40_sequencer.md R161). -/
theorem choose_keeps {p : Nat} (h : choose s = some (p, t)) : t.mark = s.mark ∧ t.line = s.line := by
  unfold choose at h
  split at h
  · cases h
    exact ⟨rfl, rfl⟩
  · split at h <;> cases h <;> exact ⟨rfl, rfl⟩

theorem turnOf_safeFrom {p : Nat} (hm : t.mark = none) (hline : t.line = s.line) : (turnOf p t).SafeFrom s := by
  unfold turnOf
  dsimp only
  split
  · exact waits_safeFrom hm hline
  · next c hc =>
    split
    · exact resume_safeFrom hm hline hc
    · exact accept_safeFrom hm hline hc

theorem fetch_safeFrom (hm : s.mark = none) : (fetch s).SafeFrom s := by
  cases hch : choose s with
  | none =>
    simp only [fetch, hm, hch]
    exact waits_safeFrom hm rfl
  | some x =>
    obtain ⟨p, t⟩ := x
    obtain ⟨hmark, hline⟩ := choose_keeps hch
    rw [fetch_of_choose hm hch]
    exact turnOf_safeFrom (hmark.trans hm) hline

theorem step_safeFrom (hs : Inv s) (hm : s.mark = none) : AnswersSafely s (step s) := by
  have hsafe := fetch_safeFrom hm
  have hok := fetch_turnOk hs
  unfold step
  cases he : fetch s with
  | answer o =>
    rw [he] at hsafe
    exact hsafe
  | run i u =>
    rw [he] at hsafe hok
    obtain ⟨hmu, hline, c, hc⟩ := hsafe
    obtain ⟨hu, hr⟩ := hok
    obtain ⟨t, ht, hmark, hrises⟩ := exec_safeFrom hmu hc hu (hr c hc)
    exact ⟨t, ht, hmark, hline ▸ hrises⟩

end

/-- Settles O47: every micro-step of a state in order is allowed, and the faults of issue and fetch are not internal. -/
theorem internalFaultsUnreachable : Obligations.InternalFaultsUnreachable := by
  unfold Obligations.InternalFaultsUnreachable
  intro s hs hm
  obtain ⟨t, ht, hsafe⟩ := step_safeFrom hs hm
  exact ⟨t, ht, hsafe.mark⟩

/-- Settles O48: a port that stands before the rise of a pulse finds the line at a driven level, and nothing else drives a clock
or `CLR_N` high. -/
theorem noUnknownClockEdge : Obligations.NoUnknownClockEdge := by
  unfold Obligations.NoUnknownClockEdge
  intro s t hs h
  obtain ⟨t', ht, hsafe⟩ := step_safeFrom hs (faultedStateHasNoStep.2 s t h)
  cases h.symm.trans ht
  exact ⟨hsafe.rises .sclk (by decide), hsafe.rises .lclk (by decide), hsafe.rises .clrN (by decide)⟩

end Sys2Proof.Machine
end
